-- ==== Sys2Proof/Word.lean ====
section
/-! DEFINITION. The three operand widths of rule R8 (spec/00_scope.md) as types: "a byte equals 8 bits,
a word equals 16 bits, and a long word equals 32 bits". Registers, addresses and encoded words are bit
vectors of these widths, numbered as rule R7 numbers them (bit 0 the least significant). -/

namespace Sys2Proof

/-- A byte, 8 bits (R8). -/
abbrev Byte := BitVec 8

/-- A word, 16 bits (R8): an operation word, an extension word, the status register's image. -/
abbrev Word := BitVec 16

/-- A long word, 32 bits (R8): a register, a computed address, the program counter. -/
abbrev Long := BitVec 32

end Sys2Proof
end

