-- ==== Sys2Proof/Config.lean ====
section
/-! DEFINITION. What one implementation or one platform fixes, and the free values: what the spec leaves
open and the model must not choose. -/

namespace Sys2Proof

/-- The free values. Every `undefined_bit()` and `undefined_sz()` of the spec (R9, spec/00_scope.md; D5,
spec/92_eei_decisions.md: "drawn afresh at each occurrence, under no law") is taken from this sequence at
the position `State.freeCount`, which each draw advances. The constant has no body: nothing can be proved
of the values it gives. Log entry 3. -/
opaque Config.freeLong : Nat → Long

/-- What a byte of memory that nothing has written reads as. The spec gives no contents (R38,
spec/10_state.md: "contents are the platform's"). DESIGN CHOICE, unsafe, log entry 2; zero is the
convention of the spec's own test vectors (spec/95_test_vectors.md section 3). -/
def Config.unwrittenByte : Byte := 0

/-- The number of byte addresses that 24 address bits reach (R60, spec/20_memory.md: 16 megabytes). -/
def Config.spaceSize : Nat := 16777216

end Sys2Proof
end

