-- ==== Sys2Proof/Syntax.lean ====
section
/-! DEFINITION. The instruction set as syntax: one constructor of `Instr` for each of the 122 rows of
spec/opcode_table.json, in the table's order, with every operand the row's words carry. Nothing an encoding
holds is dropped: the ignored high byte of a byte immediate (R145) and the ignored bits 10-8 of an index
word (R144) are kept here, and it is the meaning that ignores them. -/

namespace Sys2Proof

/-- The three operand sizes B, W, L (R8, spec/00_scope.md). -/
inductive Size where
  | b | w | l
  deriving DecidableEq, Repr

/-- A register number of a 3-bit field (R25, R150). Whether it names `Dn` or `An` follows from the
instruction. -/
abbrev RegNo := Fin 8

/-- The twelve addressing modes of Table 4 (R143, spec/30_encoding.md), without their extension words. -/
inductive Mode where
  | dreg | areg | ind | postInc | preDec | disp | index | absW | absL | pcDisp | pcIndex | imm
  deriving DecidableEq, Repr

/-- The extension word of the two indexed modes (R144): `isAddr` is bit 15 (0 = data register, 1 = address
register), `reg` bits 14-12, `long` bit 11 (0 = sign-extended low word, 1 = whole register), `unused` bits
10-8 (ignored, D17), `d8` bits 7-0. -/
structure IndexWord where
  isAddr : Bool
  reg : RegNo
  long : Bool
  unused : BitVec 3
  d8 : Byte
  deriving DecidableEq, Repr

/-- An effective address with its extension words (R143). `imm16` is the one-word immediate of a byte or
word operation, `imm32` the two-word immediate of a long one (R192, spec/40_addressing.md). -/
inductive EA where
  | dreg (n : RegNo)
  | areg (n : RegNo)
  | ind (n : RegNo)
  | postInc (n : RegNo)
  | preDec (n : RegNo)
  | disp (n : RegNo) (d : Word)
  | index (n : RegNo) (x : IndexWord)
  | absW (a : Word)
  | absL (a : Long)
  | pcDisp (d : Word)
  | pcIndex (x : IndexWord)
  | imm16 (v : Word)
  | imm32 (v : Long)
  deriving DecidableEq, Repr

/-- The immediate operand of the immediate instructions (R145): one extension word for byte and word
operations, two for long ones. -/
inductive Imm where
  | word (v : Word)
  | long (v : Long)
  deriving DecidableEq, Repr

/-- The sixteen conditions of R335 (spec/47_program_control.md). -/
inductive Cond where
  | t | f | hi | ls | cc | cs | ne | eq | vc | vs | pl | mi | ge | lt | gt | le
  deriving DecidableEq, Repr

/-- The displacement of Bcc, BRA and BSR (R148): 8 bits in the operation word, or 16 bits in an extension
word, which the value `$00` of the 8-bit field announces. -/
inductive Disp where
  | short (d : Byte)
  | word (d : Word)
  deriving DecidableEq, Repr

/-- The count of a register shift (R295, R296, spec/44_shift_rotate.md): the 3-bit immediate `ccc`
(000 means 8) or the data register that holds the count. -/
inductive ShiftCount where
  | imm (c : BitVec 3)
  | reg (n : RegNo)
  deriving DecidableEq, Repr

/-- The size field of MOVEM (R146): bit 6, 0 = word, 1 = long. -/
inductive SizeWL where
  | w | l
  deriving DecidableEq, Repr

/-- The instructions, one constructor per row of spec/opcode_table.json, in its order. -/
inductive Instr where
  -- line 0000: immediate instructions, bit instructions, MOVEP (R152)
  | ori (sz : Size) (v : Imm) (ea : EA)
  | andi (sz : Size) (v : Imm) (ea : EA)
  | subi (sz : Size) (v : Imm) (ea : EA)
  | addi (sz : Size) (v : Imm) (ea : EA)
  | eori (sz : Size) (v : Imm) (ea : EA)
  | cmpi (sz : Size) (v : Imm) (ea : EA)
  | oriToCcr (v : Word)
  | oriToSr (v : Word)
  | andiToCcr (v : Word)
  | andiToSr (v : Word)
  | eoriToCcr (v : Word)
  | eoriToSr (v : Word)
  | btstImm (b : Word) (ea : EA)
  | btstReg (dn : RegNo) (ea : EA)
  | bchgImm (b : Word) (ea : EA)
  | bchgReg (dn : RegNo) (ea : EA)
  | bclrImm (b : Word) (ea : EA)
  | bclrReg (dn : RegNo) (ea : EA)
  | bsetImm (b : Word) (ea : EA)
  | bsetReg (dn : RegNo) (ea : EA)
  | movepWToReg (dx : RegNo) (ay : RegNo) (d : Word)
  | movepLToReg (dx : RegNo) (ay : RegNo) (d : Word)
  | movepWToMem (dx : RegNo) (ay : RegNo) (d : Word)
  | movepLToMem (dx : RegNo) (ay : RegNo) (d : Word)
  -- lines 0001, 0010, 0011: MOVE, MOVEA (R153)
  | moveB (src dst : EA)
  | moveL (src dst : EA)
  | moveW (src dst : EA)
  | moveaL (an : RegNo) (src : EA)
  | moveaW (an : RegNo) (src : EA)
  -- line 0100 (R154)
  | negx (sz : Size) (ea : EA)
  | moveFromSr (ea : EA)
  | chk (dn : RegNo) (ea : EA)
  | lea (an : RegNo) (ea : EA)
  | clr (sz : Size) (ea : EA)
  | neg (sz : Size) (ea : EA)
  | moveToCcr (ea : EA)
  | notOp (sz : Size) (ea : EA)
  | moveToSr (ea : EA)
  | nbcd (ea : EA)
  | swap (dn : RegNo)
  | pea (ea : EA)
  | extW (dn : RegNo)
  | extL (dn : RegNo)
  | movemToMem (sz : SizeWL) (list : Word) (ea : EA)
  | tst (sz : Size) (ea : EA)
  | tas (ea : EA)
  | illegal4AFC
  | illegal4AFA
  | illegal4AFB
  | movemToRegs (sz : SizeWL) (list : Word) (ea : EA)
  | trap (v : BitVec 4)
  | link (an : RegNo) (d : Word)
  | unlk (an : RegNo)
  | moveToUsp (an : RegNo)
  | moveFromUsp (an : RegNo)
  | reset
  | nop
  | stop (v : Word)
  | rte
  | rts
  | trapv
  | rtr
  | jsr (ea : EA)
  | jmp (ea : EA)
  -- line 0101 (R155)
  | addq (q : BitVec 3) (sz : Size) (ea : EA)
  | subq (q : BitVec 3) (sz : Size) (ea : EA)
  | scc (cond : Cond) (ea : EA)
  | dbcc (cond : Cond) (dn : RegNo) (d : Word)
  -- line 0110 (R156)
  | bra (d : Disp)
  | bsr (d : Disp)
  | bcc (cond : Cond) (d : Disp)
  -- line 0111 (R157)
  | moveq (dn : RegNo) (v : Byte)
  -- line 1000 (R158)
  | orToReg (sz : Size) (dn : RegNo) (ea : EA)
  | orToMem (sz : Size) (dn : RegNo) (ea : EA)
  | divu (dn : RegNo) (ea : EA)
  | divs (dn : RegNo) (ea : EA)
  | sbcdReg (dx dy : RegNo)
  | sbcdMem (ax ay : RegNo)
  -- line 1001 (R159)
  | subToReg (sz : Size) (dn : RegNo) (ea : EA)
  | subToMem (sz : Size) (dn : RegNo) (ea : EA)
  | subaW (an : RegNo) (ea : EA)
  | subaL (an : RegNo) (ea : EA)
  | subxReg (sz : Size) (dx dy : RegNo)
  | subxMem (sz : Size) (ax ay : RegNo)
  -- line 1101 (R163)
  | addToReg (sz : Size) (dn : RegNo) (ea : EA)
  | addToMem (sz : Size) (dn : RegNo) (ea : EA)
  | addaW (an : RegNo) (ea : EA)
  | addaL (an : RegNo) (ea : EA)
  | addxReg (sz : Size) (dx dy : RegNo)
  | addxMem (sz : Size) (ax ay : RegNo)
  -- line 1010 (R160)
  | lineA (w : BitVec 12)
  -- line 1011 (R161)
  | cmp (sz : Size) (dn : RegNo) (ea : EA)
  | cmpaW (an : RegNo) (ea : EA)
  | cmpaL (an : RegNo) (ea : EA)
  | eor (sz : Size) (dn : RegNo) (ea : EA)
  | cmpm (sz : Size) (ax ay : RegNo)
  -- line 1100 (R162)
  | andToReg (sz : Size) (dn : RegNo) (ea : EA)
  | andToMem (sz : Size) (dn : RegNo) (ea : EA)
  | mulu (dn : RegNo) (ea : EA)
  | muls (dn : RegNo) (ea : EA)
  | abcdReg (dx dy : RegNo)
  | abcdMem (ax ay : RegNo)
  | exgDD (dx dy : RegNo)
  | exgAA (ax ay : RegNo)
  | exgDA (dx ay : RegNo)
  -- line 1110 (R164)
  | aslReg (c : ShiftCount) (sz : Size) (dy : RegNo)
  | aslMem (ea : EA)
  | asrReg (c : ShiftCount) (sz : Size) (dy : RegNo)
  | asrMem (ea : EA)
  | lslReg (c : ShiftCount) (sz : Size) (dy : RegNo)
  | lslMem (ea : EA)
  | lsrReg (c : ShiftCount) (sz : Size) (dy : RegNo)
  | lsrMem (ea : EA)
  | roxlReg (c : ShiftCount) (sz : Size) (dy : RegNo)
  | roxlMem (ea : EA)
  | roxrReg (c : ShiftCount) (sz : Size) (dy : RegNo)
  | roxrMem (ea : EA)
  | rolReg (c : ShiftCount) (sz : Size) (dy : RegNo)
  | rolMem (ea : EA)
  | rorReg (c : ShiftCount) (sz : Size) (dy : RegNo)
  | rorMem (ea : EA)
  -- line 1111 (R165)
  | lineF (w : BitVec 12)
  deriving DecidableEq, Repr

end Sys2Proof
end

