-- ==== Sys2Proof/Machine/State.lean ====
section
/-! DEFINITION. The state of the machine as plain data: every register, mode and hidden bit of
spec/10_state.md, memory, the platform's side of the bus, and the model's own counter of free values;
the closed reasons a step can stop; and the machine right after reset. -/

namespace Sys2Proof.Machine

/-- Why a step can fault. -/
inductive Fault where
  /-- A bus cycle is never terminated: the platform answers `never` (R13, spec/00_scope.md: the processor
  "will insert wait cycles of one clock period each until DTACK is recognized"; R112 and U21: the model has
  no successor state). Raised by the bus cycles of Machine/Ops.lean. Safe: the machine waits for ever. -/
  | busCycleNeverTerminated
  deriving DecidableEq, Repr

/-- Why a step can be refused. -/
inductive Refusal where
  /-- An instruction of the table that exec gives no meaning. Raised by Dispatch.lean alone (by no arm, when
  every instruction is modelled). Safe. -/
  | notModelled (mnemonic : String)
  deriving DecidableEq, Repr

/-- The status register (R28, spec/10_state.md). The unused bits 14, 12, 11 and 7-5 are no state (D8): they
read 0 and ignore writes, which `StatusReg.toWord` and `StatusReg.ofWord` say. PRESUMED, unsafe, log entry 17. -/
structure StatusReg where
  /-- Trace, bit 15. -/
  t : Bool
  /-- Supervisor, bit 13. -/
  s : Bool
  /-- Interrupt mask, bits 10-8. -/
  i : BitVec 3
  /-- Extend, bit 4. -/
  x : Bool
  /-- Negative, bit 3. -/
  n : Bool
  /-- Zero, bit 2. -/
  z : Bool
  /-- Overflow, bit 1. -/
  v : Bool
  /-- Carry, bit 0. -/
  c : Bool
  deriving DecidableEq, Repr

/-- The three groups of exceptions (R403, spec/60_exceptions.md). -/
inductive ExcGroup where
  | group0 | group1 | group2
  deriving DecidableEq, Repr

/-- The processing state (R32): normal, its special case stopped, exception processing, halted. Between two
steps it is never `exception`: exception processing is part of one step (D1). -/
inductive PState where
  | normal
  | stopped
  | exception (g : ExcGroup)
  | halted
  deriving DecidableEq, Repr

/-- The function codes the processor produces (R67, spec/20_memory.md); 0, 3 and 4 are never produced. -/
inductive FuncCode where
  | userData | userProgram | superData | superProgram | intAck
  deriving DecidableEq, Repr

/-- The direction of a bus cycle (R64). -/
inductive Direction where
  | read | write
  deriving DecidableEq, Repr

/-- How the platform ends one run of a bus cycle (R107, R112, spec/21_bus_interface.md): DTACK, BERR, BERR with
HALT (the cycle runs again and the platform is asked again, R113), VPA, or nothing at all. -/
inductive BusAnswer where
  | ok | busError | rerun | vpa | never
  deriving DecidableEq, Repr

/-- One rule of what the platform's `BusResponse` answers whatever has gone before: which cycles it speaks of
(function codes, 24-bit addresses `lo` to `hi`, directions) and how it ends them. An answer that depends on the size,
the value written or the history is said cycle by cycle, by `BusTurn`. DESIGN CHOICE, safe, log entry 8. -/
structure BusRule where
  fcs : List FuncCode
  lo : Nat
  hi : Nat
  onRead : Bool
  onWrite : Bool
  answer : BusAnswer
  deriving DecidableEq, Repr

/-- What stands at an address (`MemoryMap`, D29, spec/92_eei_decisions.md): memory, whose reads return the last
write; memory that a write does not change; or a device's register or nothing at all, where a read transfers what
the platform supplies and a write is an event for the platform alone. -/
inductive PlaceKind where
  | memory | readOnly | device
  deriving DecidableEq, Repr

/-- One rule of `MemoryMap`: what stands at the 24-bit addresses `lo` to `hi` of some function codes. The address `a`
reaches location `base + (a - lo) % period`: a `period` shorter than the range makes mirrors, and 0 means none. -/
structure MapRule where
  fcs : List FuncCode
  lo : Nat
  hi : Nat
  kind : PlaceKind
  base : Nat
  period : Nat
  deriving DecidableEq, Repr

/-- The platform (spec/92_eei_decisions.md section 1). `MemoryMap`: the first rule of `map` that speaks of an address
says what stands there; any other address is memory in the bank of 2^24 bytes of its function code, `bankUD`,
`bankUP`, `bankSD`, `bankSP` (all equal: the function code takes no part, the default instance of D2). `BusResponse`:
the first rule of `rules` that speaks of a cycle ends it, and a cycle no rule speaks of completes, unless the
environment says otherwise of that very cycle (`BusTurn`). DESIGN CHOICE, unsafe, log entry 7. -/
structure Platform where
  bankUD : Nat
  bankUP : Nat
  bankSD : Nat
  bankSP : Nat
  map : List MapRule
  rules : List BusRule
  deriving DecidableEq, Repr

/-- How the interrupting side answers an interrupt acknowledge cycle (R428), each time it is asked; `BusTurn` says
of one run of the cycle that it ends otherwise. -/
inductive IackAnswer where
  | vector (n : Byte)
  | autovector
  | busError
  | rerun
  | never
  deriving DecidableEq, Repr

/-- What the environment does about one run of one bus cycle: the bytes other bus masters write before it starts
(R83, R119, as memory cells), how it ends (R112; `none`: as the platform's rules say), and what the platform puts on
the data lines D15-D0 where a read reaches no memory (R70: a byte cycle takes the strobed half; `none`: any value). -/
structure BusTurn where
  dma : List Host.Cell
  answer : Option BusAnswer
  data : Option Word
  deriving DecidableEq, Repr

/-- What the environment does before and during one step (R11): the reset request (R471), the HALT pin
driven alone (R115), the interrupt level on IPL2-IPL0 (R122), the answer to an acknowledge cycle, the
bytes other bus masters write before the step (R83), as memory cells, and what it does about each bus cycle of the
step in turn (cycles beyond the list meet no other master and end as the platform's rules say). -/
structure Input where
  resetRequest : Bool
  haltPin : Bool
  ipl : BitVec 3
  iack : IackAnswer
  dma : List Host.Cell
  turns : List BusTurn
  deriving DecidableEq, Repr

/-- The kinds of bus cycle (R64, R104, R428): the read-modify-write cycle of TAS is two entries. -/
inductive CycleKind where
  | read | write | rmwRead | rmwWrite | iack
  deriving DecidableEq, Repr

/-- The valid data on D15-D8 and D7-D0 during a bus cycle (R105, Table 13); `none`: no valid data. -/
structure DataLines where
  upper : Option Byte
  lower : Option Byte
  deriving DecidableEq, Repr

/-- One bus cycle as the platform sees it: its kind, function code, the 24-bit address, whether it is a word
cycle (with the address this says which data strobes are asserted, R70), the data lines, and how it ended. -/
structure BusCycle where
  kind : CycleKind
  fc : FuncCode
  addr : BitVec 24
  isWord : Bool
  data : DataLines
  answer : BusAnswer
  deriving DecidableEq, Repr

/-- Memory: the (location, byte) pairs that differ from what an unlisted location reads as, locations
strictly rising (`Memory.wf`). A location is a bank's start plus a 24-bit address (`State.location`). -/
abbrev Memory := List Host.Cell

/-- The whole machine. -/
structure State where
  /-- D0-D7 (R20). -/
  d : Vector Long 8
  /-- A0-A6 (R22). -/
  a : Vector Long 7
  /-- User stack pointer (R22). -/
  usp : Long
  /-- Supervisor stack pointer (R22). -/
  ssp : Long
  /-- Program counter (R26): the next word of the instruction stream not yet consumed. -/
  pc : Long
  /-- Status register (R28). -/
  sr : StatusReg
  /-- Processing state (R32). -/
  pstate : PState
  /-- The pending interrupt level: the synchronized value of IPL2-IPL0 (R34). -/
  ipl : BitVec 3
  /-- The level-7 edge latch (R35). -/
  nmiPending : Bool
  /-- Trace pending (R36): SR.T sampled when an instruction began, until its trace exception is taken or
  an exception suppresses it. -/
  tracePending : Bool
  /-- Group 0 exception processing in progress (R37, R444). -/
  g0Active : Bool
  /-- The instruction register: the first word of the instruction being processed (R37, R441). -/
  ir : Word
  /-- Memory (R60). -/
  mem : Memory
  /-- The platform (R12, D2, D4): the memory map and the bus responses. -/
  platform : Platform
  /-- What the environment does in the coming steps, the next step's input first (R11). -/
  inputs : List Input
  /-- What the environment does about the coming bus cycles of the step, the next cycle first (R83, R112). -/
  turns : List BusTurn
  /-- The bus cycles of the latest step, oldest first (D1): what the platform saw of it. -/
  bus : List BusCycle
  /-- How many `ResetOut` pulses the RESET instruction has sent (R367). -/
  resetOuts : Nat
  /-- The model's own: how many free values have been drawn (`Config.freeLong`). -/
  freeCount : Nat
  deriving DecidableEq, Repr

/-- The machine as the reset exception leaves it when the first instruction begins (R38, R470): supervisor
state, trace off, mask 7, SSP and PC the long words at `$000000` and `$000004` (which read 0 where memory
lists nothing), no other register affected. The registers the spec gives no value are zero (DESIGN CHOICE,
log entry 4), `nmiPending` is off (log entry 6), and the platform is the default one: one flat memory whose
every cycle completes (log entry 7). -/
def State.reset : State where
  d := Vector.replicate 8 0
  a := Vector.replicate 7 0
  usp := 0
  ssp := 0
  pc := 0
  sr := { t := false, s := true, i := 7, x := false, n := false, z := false, v := false, c := false }
  pstate := .normal
  ipl := 0
  nmiPending := false
  tracePending := false
  g0Active := true
  ir := 0
  mem := []
  platform := { bankUD := 0, bankUP := 0, bankSD := 0, bankSP := 0, map := [], rules := [] }
  inputs := []
  turns := []
  bus := []
  resetOuts := 0
  freeCount := 0

/-- The three outcomes of a step of this machine (Host/Core.lean). -/
abbrev Out := Host.Outcome State Fault Refusal

end Sys2Proof.Machine
end

