-- ==== Sys2Proof/Machine/Bits.lean ====
section
/-! DEFINITION. The bit fields and widths every meaning uses: operand sizes (R8), truncation and sign
extension (R9), the 16-bit image of the status register (R28, D8), function code numbers (R67). An operand
of a byte or word operation is held as a long word whose upper bits are 0 (`zext` of R9). -/

namespace Sys2Proof

/-- `bits(sz)` (R8). -/
def Size.bits : Size → Nat
  | .b => 8
  | .w => 16
  | .l => 32

/-- `bytes(sz)` (R8) as an address step. -/
def Size.bytes : Size → Long
  | .b => 1
  | .w => 2
  | .l => 4

/-- `trunc_sz` (R9): the low `bits(sz)` bits. -/
def Size.trunc (sz : Size) (v : Long) : Long :=
  match sz with
  | .b => v &&& 0xFF#32
  | .w => v &&& 0xFFFF#32
  | .l => v

/-- `msb(sz, v)` (R8). -/
def Size.msb (sz : Size) (v : Long) : Bool :=
  match sz with
  | .b => v.getLsbD 7
  | .w => v.getLsbD 15
  | .l => v.getLsbD 31

/-- `sext_32` (R9) of a byte. -/
def sextByte (v : Byte) : Long := v.signExtend 32

/-- `sext_32` (R9) of a word. -/
def sextWord (v : Word) : Long := v.signExtend 32

/-- Bits 7-0. -/
def lowByte (v : Long) : Byte := v.extractLsb' 0 8

/-- Bits 15-0. -/
def lowWord (v : Long) : Word := v.extractLsb' 0 16

/-- Bits 31-16. -/
def highWord (v : Long) : Word := v.extractLsb' 16 16

/-- `sext_32` of the operand of a size (R9). -/
def Size.sext (sz : Size) (v : Long) : Long :=
  match sz with
  | .b => sextByte (lowByte v)
  | .w => sextWord (lowWord v)
  | .l => v

/-- The register after a write of its low `bits(sz)` bits: the rest keeps its value (R21). -/
def Size.merge (sz : Size) (old v : Long) : Long :=
  match sz with
  | .b => old.extractLsb' 8 24 ++ lowByte v
  | .w => highWord old ++ lowWord v
  | .l => v

/-- A byte as an operand. -/
def ofByte (v : Byte) : Long := v.setWidth 32

/-- A word as an operand. -/
def ofWord (v : Word) : Long := v.setWidth 32

end Sys2Proof

namespace Sys2Proof.Machine

/-- The 16-bit value a read of SR gives (R28): unused bits 14, 12, 11, 7, 6, 5 are 0 (D8). -/
def StatusReg.toWord (r : StatusReg) : Word :=
  BitVec.ofBool r.t ++ 0#1 ++ BitVec.ofBool r.s ++ 0#2 ++ r.i ++ 0#3
    ++ BitVec.ofBool r.x ++ BitVec.ofBool r.n ++ BitVec.ofBool r.z ++ BitVec.ofBool r.v ++ BitVec.ofBool r.c

/-- What a write of 16 bits to SR stores (R28): `v and $A71F`. -/
def StatusReg.ofWord (v : Word) : StatusReg where
  t := v.getLsbD 15
  s := v.getLsbD 13
  i := v.extractLsb' 8 3
  x := v.getLsbD 4
  n := v.getLsbD 3
  z := v.getLsbD 2
  v := v.getLsbD 1
  c := v.getLsbD 0

/-- A write to CCR (R28, R355 (d)): X N Z V C from bits 4-0, the system byte unchanged. -/
def StatusReg.setCcr (r : StatusReg) (v : Word) : StatusReg :=
  { r with
    x := v.getLsbD 4
    n := v.getLsbD 3
    z := v.getLsbD 2
    v := v.getLsbD 1
    c := v.getLsbD 0 }

/-- The three function code lines (R67). -/
def FuncCode.bits : FuncCode → BitVec 3
  | .userData => 1
  | .userProgram => 2
  | .superData => 5
  | .superProgram => 6
  | .intAck => 7

end Sys2Proof.Machine
end

