-- ==== Sys2Proof/Machine/Modes.lean ====
section
/-! DEFINITION. The addressing modes as the spec classifies them: the mode of an effective address, the
categories of Table 21 (R200, R201, spec/40_addressing.md), and which sizes an effective address admits. -/

namespace Sys2Proof

/-- The mode of an effective address (R143, spec/30_encoding.md). -/
def EA.mode : EA → Mode
  | .dreg _ => .dreg
  | .areg _ => .areg
  | .ind _ => .ind
  | .postInc _ => .postInc
  | .preDec _ => .preDec
  | .disp _ _ => .disp
  | .index _ _ => .index
  | .absW _ => .absW
  | .absL _ => .absL
  | .pcDisp _ => .pcDisp
  | .pcIndex _ => .pcIndex
  | .imm16 _ => .imm
  | .imm32 _ => .imm

/-- "any mode": all twelve (R201). -/
def Mode.isAny : Mode → Bool
  | _ => true

/-- Table 21, column Data (R200): every mode but `An`. -/
def Mode.isData : Mode → Bool
  | .areg => false
  | _ => true

/-- Table 21, column Memory (R200). -/
def Mode.isMemory : Mode → Bool
  | .dreg | .areg => false
  | _ => true

/-- Table 21, column Control (R200). -/
def Mode.isControl : Mode → Bool
  | .ind | .disp | .index | .absW | .absL | .pcDisp | .pcIndex => true
  | _ => false

/-- Table 21, column Alterable (R200). -/
def Mode.isAlterable : Mode → Bool
  | .pcDisp | .pcIndex | .imm => false
  | _ => true

/-- Data alterable (R201): both data and alterable. -/
def Mode.isDataAlterable (m : Mode) : Bool := m.isData && m.isAlterable

/-- Memory alterable (R201): both memory and alterable. -/
def Mode.isMemoryAlterable (m : Mode) : Bool := m.isMemory && m.isAlterable

/-- Data except immediate: the tested operand of `BTST #b,<ea>` (R152, R316). -/
def Mode.isDataNotImm (m : Mode) : Bool := m.isData && m != .imm

/-- The destinations of MOVEM registers to memory (R154, R217): control alterable or `-(An)`. -/
def Mode.isMovemStore (m : Mode) : Bool := (m.isControl && m.isAlterable) || m == .preDec

/-- The sources of MOVEM memory to registers (R154, R218): control or `(An)+`. -/
def Mode.isMovemLoad (m : Mode) : Bool := m.isControl || m == .postInc

/-- Whether an effective address exists in a size: byte size with `An` does not (R182), and an immediate
has one extension word in a byte or word operation and two in a long one (R192). -/
def EA.admits (ea : EA) (sz : Size) : Bool :=
  match ea with
  | .areg _ => sz != .b
  | .imm16 _ => sz != .l
  | .imm32 _ => sz == .l
  | _ => true

/-- An effective address of a category in a size. -/
def EA.isIn (ea : EA) (category : Mode → Bool) (sz : Size) : Bool :=
  category ea.mode && ea.admits sz

/-- The immediate of an immediate instruction has the words its size asks for (R145). -/
def Imm.admits (v : Imm) (sz : Size) : Bool :=
  match v with
  | .word _ => sz != .l
  | .long _ => sz == .l

/-- The operand size the size bit of MOVEM names (R146). -/
def SizeWL.size : SizeWL → Size
  | .w => .w
  | .l => .l

end Sys2Proof
end

