-- ==== Sys2Proof/Machine/Ops.lean ====
section
/-! DEFINITION. The named operations over memory and registers: memory in its canonical form, bus cycles and
the access primitives (R62 to R69, spec/20_memory.md), the stack (R9), taking an exception (R405), group 0
(R443), reset (R470), and the running of one instruction's rule. -/

namespace Sys2Proof.Machine

/-! ## Memory -/

/-- The byte at a location; an unlisted location reads as `Config.unwrittenByte`. -/
def Memory.read : Memory → Nat → Byte
  | [], _ => Config.unwrittenByte
  | c :: m, a => if c.1 = a then c.2 else Memory.read m a

/-- Memory without an entry for a location. -/
def Memory.erase : Memory → Nat → Memory
  | [], _ => []
  | c :: m, a => if c.1 = a then Memory.erase m a else c :: Memory.erase m a

/-- An entry put before the first entry of a higher location. -/
def Memory.insert : Memory → Nat → Byte → Memory
  | [], a, b => [(a, b)]
  | c :: m, a, b => if a < c.1 then (a, b) :: c :: m else c :: Memory.insert m a b

/-- A write of one byte. Writing what an unlisted location reads as removes the entry. -/
def Memory.write (m : Memory) (a : Nat) (b : Byte) : Memory :=
  if b = Config.unwrittenByte then Memory.erase m a else Memory.insert (Memory.erase m a) a b

/-- The canonical form: locations strictly rising, no entry equal to what an unlisted location reads as. -/
abbrev Memory.wf (m : Memory) : Prop :=
  m.Pairwise (fun c c' => c.1 < c'.1) ∧ ∀ c ∈ m, c.2 ≠ Config.unwrittenByte

/-- The bytes other bus masters write (R83), one after the other. -/
def Memory.writeAll : Memory → List Host.Cell → Memory
  | m, [] => m
  | m, c :: cs => Memory.writeAll (Memory.write m c.1 c.2) cs

/-! ## Where a reference goes -/

/-- The 24 bits of an address that reach the bus (R66). -/
def busAddr (a : Long) : BitVec 24 := a.extractLsb' 0 24

/-- `MemoryMap` (D2): the bank of a function code. An interrupt acknowledge reaches no memory. -/
def Platform.bank (p : Platform) : FuncCode → Nat
  | .userData => p.bankUD
  | .userProgram => p.bankUP
  | .superData => p.bankSD
  | .superProgram => p.bankSP
  | .intAck => 0

/-- Whether a rule of the memory map speaks of an address. -/
def MapRule.covers (r : MapRule) (fc : FuncCode) (a : BitVec 24) : Bool :=
  r.fcs.contains fc && r.lo ≤ a.toNat && a.toNat ≤ r.hi

/-- The first rule of a memory map that speaks of an address. -/
def mapRuleOf : List MapRule → FuncCode → BitVec 24 → Option MapRule
  | [], _, _ => none
  | r :: rs, fc, a => if r.covers fc a then some r else mapRuleOf rs fc a

/-- What stands at an address (`MemoryMap`, D29). -/
def State.place (s : State) (fc : FuncCode) (a : Long) : PlaceKind :=
  match mapRuleOf s.platform.map fc (busAddr a) with
  | some r => r.kind
  | none => .memory

/-- The location a function code and a 32-bit address name (`MemoryMap`): addresses that differ only in bits 31-24
name the same one (R66, D6: PRESUMED, unsafe, log entry 16). -/
def State.location (s : State) (fc : FuncCode) (a : Long) : Nat :=
  match mapRuleOf s.platform.map fc (busAddr a) with
  | some r => r.base + ((busAddr a).toNat - r.lo) % r.period
  | none => s.platform.bank fc * Config.spaceSize + (busAddr a).toNat

/-- Whether a rule of the platform speaks of a cycle. -/
def BusRule.covers (r : BusRule) (fc : FuncCode) (dir : Direction) (a : BitVec 24) : Bool :=
  r.fcs.contains fc && r.lo ≤ a.toNat && a.toNat ≤ r.hi
    && (match dir with
        | .read => r.onRead
        | .write => r.onWrite)

/-- How a list of rules ends a cycle: the first that speaks of it, else `ok`. -/
def answerOf : List BusRule → FuncCode → Direction → BitVec 24 → BusAnswer
  | [], _, _, _ => .ok
  | r :: rs, fc, dir, a => if r.covers fc dir a then r.answer else answerOf rs fc dir a

/-- `BusResponse` (R112, D4): how the platform ends a cycle of which the environment says nothing of its own. -/
def State.answer (s : State) (fc : FuncCode) (dir : Direction) (a : Long) : BusAnswer :=
  answerOf s.platform.rules fc dir (busAddr a)

/-! ## Reading and changing memory without a bus cycle -/

/-- The byte a reference reads. -/
def State.peekByte (s : State) (fc : FuncCode) (a : Long) : Byte := Memory.read s.mem (s.location fc a)

/-- The word a reference reads: the byte at the lower address is the high-order byte (R61). -/
def State.peekWord (s : State) (fc : FuncCode) (a : Long) : Word := s.peekByte fc a ++ s.peekByte fc (a + 1)

/-- The long word a reference reads: the word at the lower address is the high-order word (R61). -/
def State.peekLong (s : State) (fc : FuncCode) (a : Long) : Long := s.peekWord fc a ++ s.peekWord fc (a + 2)

/-- The operand of a size at an address (R61). -/
def State.peek (s : State) (fc : FuncCode) (a : Long) (sz : Size) : Long :=
  match sz with
  | .b => ofByte (s.peekByte fc a)
  | .w => ofWord (s.peekWord fc a)
  | .l => s.peekLong fc a

/-- Memory after a byte is written to an address: what is no memory, or is read-only, does not change (D29). -/
def State.memAfter (s : State) (fc : FuncCode) (a : Long) (b : Byte) : Memory :=
  if s.place fc a = .memory then Memory.write s.mem (s.location fc a) b else s.mem

/-- The state after one byte is stored. -/
def State.pokeByte (s : State) (fc : FuncCode) (a : Long) (b : Byte) : State := { s with mem := s.memAfter fc a b }

/-- The state after a word is stored (R61). -/
def State.pokeWord (s : State) (fc : FuncCode) (a : Long) (w : Word) : State :=
  (s.pokeByte fc a (w.extractLsb' 8 8)).pokeByte fc (a + 1) (w.extractLsb' 0 8)

/-! ## Registers -/

/-- `D[n]` (R20). -/
def State.readD (s : State) (n : RegNo) : Long := s.d[n.val]

/-- `D[n] <- v` (R20). -/
def State.writeD (s : State) (n : RegNo) (v : Long) : State := { s with d := s.d.set n.val v }

/-- `SP`, that is `A[7]`: SSP in supervisor state, USP in user state (R24). -/
def State.sp (s : State) : Long := if s.sr.s then s.ssp else s.usp

/-- `SP <- v` (R24). -/
def State.setSp (s : State) (v : Long) : State := if s.sr.s then { s with ssp := v } else { s with usp := v }

/-- `A[n]` (R22, R24). -/
def State.readA (s : State) (n : RegNo) : Long := if h : n.val < 7 then s.a[n.val] else s.sp

/-- `A[n] <- v` (R22, R24). -/
def State.writeA (s : State) (n : RegNo) (v : Long) : State :=
  if h : n.val < 7 then { s with a := s.a.set n.val v } else s.setSp v

/-- `reg(k)` (R25, R216): 0-7 name D0-D7, 8-15 name A0-A7. -/
def State.readR (s : State) (k : Fin 16) : Long :=
  if h : k.val < 8 then s.readD ⟨k.val, h⟩ else s.readA ⟨k.val - 8, by omega⟩

/-- `reg(k) <- v` (R25, R216). -/
def State.writeR (s : State) (k : Fin 16) (v : Long) : State :=
  if h : k.val < 8 then s.writeD ⟨k.val, h⟩ v else s.writeA ⟨k.val - 8, by omega⟩ v

/-- `FCdata()` (R9). -/
def State.fcData (s : State) : FuncCode := if s.sr.s then .superData else .userData

/-- `FCprog()` (R9). -/
def State.fcProg (s : State) : FuncCode := if s.sr.s then .superProgram else .userProgram

/-! ## The monad of a rule -/

/-- The access a group 0 exception reports (R443): the full 32-bit address (D6), the direction, the function
code. -/
structure Access where
  addr : Long
  dir : Direction
  fc : FuncCode
  deriving DecidableEq, Repr

/-- What abandons a rule in the middle (R9 `raise`): a group 0 exception, or a cycle that never ends (R13). -/
inductive BusStop where
  | busError (acc : Access)
  | addressError (acc : Access)
  | hang
  deriving DecidableEq, Repr

/-- A rule's actions: what has been written before a stop stays written (R442, D23: DEDUCED, unsafe,
log entry 15). -/
abbrev M := EStateM BusStop State

/-- A fresh free value (R9 `undefined_bit()`, `undefined_sz()`; D5). -/
def drawFree : M Long := fun s => .ok (Config.freeLong s.freeCount) { s with freeCount := s.freeCount + 1 }

/-! ## Bus cycles -/

/-- The direction of a bus cycle (R64). -/
def CycleKind.dir : CycleKind → Direction
  | .write | .rmwWrite => .write
  | _ => .read

/-- The upper data strobe of a cycle (R70, R105): data lines D8-D15, bytes at even addresses. -/
def BusCycle.uds (c : BusCycle) : Bool := c.isWord || !c.addr.getLsbD 0

/-- The lower data strobe of a cycle (R70, R105): data lines D0-D7, bytes at odd addresses. -/
def BusCycle.lds (c : BusCycle) : Bool := c.isWord || c.addr.getLsbD 0

/-- The byte on the half of the data bus that a byte's address selects (R70). -/
def laneByte (a : Long) (bus : Word) : Byte := if a.getLsbD 0 then bus.extractLsb' 0 8 else bus.extractLsb' 8 8

/-- The data lines of a cycle (R70, R105): a word on both halves; a byte read on the half its address selects, a byte
written on both; of an acknowledge cycle the lower half, "the processor does not recognize anything on data lines D8
through D15" (R428); no valid data where nothing is transferred. -/
def dataLines (kind : CycleKind) (a : Long) (isWord : Bool) : Option Word → DataLines
  | none => ⟨none, none⟩
  | some v =>
    let upper : Byte := v.extractLsb' 8 8
    let lower : Byte := v.extractLsb' 0 8
    if kind = .iack then ⟨none, some lower⟩
    else if isWord then ⟨some upper, some lower⟩
    else if kind.dir = .write then ⟨some lower, some lower⟩
    else if a.getLsbD 0 then ⟨none, some lower⟩
    else ⟨some lower, none⟩

/-- A cycle added to the list of the step's cycles (D1), with what it transfers, a byte in the low half. -/
def State.logCycle (s : State) (kind : CycleKind) (fc : FuncCode) (a : Long) (isWord : Bool) (data : Option Word)
    (ans : BusAnswer) : State :=
  { s with bus := s.bus ++ [⟨kind, fc, busAddr a, isWord, dataLines kind a isWord data, ans⟩] }

/-- The two halves of the read-modify-write cycle of TAS (R79). -/
def CycleKind.isRmw : CycleKind → Bool
  | .rmwRead | .rmwWrite => true
  | _ => false

/-- How a bus cycle ended: the last answer, the word the platform supplied with it, and the state at its end, before
anything is transferred. -/
structure CycleEnd where
  answer : BusAnswer
  supplied : Option Word
  state : State
  deriving DecidableEq, Repr

/-- One bus cycle run until it ends (R112, R113), given what the environment does about each run: other masters write
before it starts, but never between the two halves of a read-modify-write cycle (R79, R83); BERR with HALT makes the
cycle run again, the same in all, unless it is a read-modify-write cycle; `ans` is the answer of the platform's rules,
and rules that ask for a re-run for ever never end the cycle (D4). -/
def runCycle (kind : CycleKind) (fc : FuncCode) (a : Long) (isWord : Bool) (data : Option Word) (ans : BusAnswer) :
    List BusTurn → State → CycleEnd
  | [], s => ⟨if ans = .rerun && !kind.isRmw then .never else ans, none, s⟩
  | t :: ts, s =>
    let s := { s with turns := ts, mem := if kind = .rmwWrite then s.mem else Memory.writeAll s.mem t.dma }
    let now := t.answer.getD ans
    if now = .rerun && !kind.isRmw then
      runCycle kind fc a isWord data ans ts (s.logCycle kind fc a isWord data .rerun)
    else ⟨now, t.data, s⟩

/-- The byte a read finds at an address: the platform's where no memory stands there (D29). -/
def State.fetchedByte (s : State) (fc : FuncCode) (a : Long) (supplied : Byte) : Byte :=
  if s.place fc a = .device then supplied else s.peekByte fc a

/-- The byte or word a read cycle transfers (R64, R112), given the word the platform puts on the data lines: of a byte
cycle the half its address selects (R70). -/
def State.fetched (s : State) (fc : FuncCode) (a : Long) (isWord : Bool) (supplied : Word) : Word :=
  if isWord then s.fetchedByte fc a (supplied.extractLsb' 8 8) ++ s.fetchedByte fc (a + 1) (supplied.extractLsb' 0 8)
  else (s.fetchedByte fc a (laneByte a supplied)).setWidth 16

/-- Whether a cycle reaches a place that is no memory. -/
def State.reachesDevice (s : State) (fc : FuncCode) (a : Long) (isWord : Bool) : Bool :=
  s.place fc a == .device || isWord && s.place fc (a + 1) == .device

/-- The end of a read cycle that completed: what it transferred, in the list of cycles too. Where the platform has to
supply the value and names none, it is any value (D29, D5; DESIGN CHOICE, safe, log entry 3). -/
def readDone (kind : CycleKind) (fc : FuncCode) (a : Long) (isWord : Bool) (e : CycleEnd) :
    EStateM.Result BusStop State Word :=
  let done (w : Word) (s : State) : EStateM.Result BusStop State Word :=
    let v := s.fetched fc a isWord w
    .ok v (s.logCycle kind fc a isWord (some v) e.answer)
  match e.supplied with
  | some w => done w e.state
  | none =>
    if e.state.reachesDevice fc a isWord then
      done (lowWord (Config.freeLong e.state.freeCount)) { e.state with freeCount := e.state.freeCount + 1 }
    else done 0 e.state

/-- The read of one byte or one aligned word by one bus cycle (R62, R64, R69, R112). The read of a
read-modify-write cycle is never re-run: there a re-run request is a bus error (R79, R113). -/
def busRead (kind : CycleKind) (fc : FuncCode) (a : Long) (isWord : Bool) : M Word := fun s =>
  let e := runCycle kind fc a isWord none (s.answer fc .read a) s.turns s
  match e.answer with
  | .ok | .vpa => readDone kind fc a isWord e
  | .busError | .rerun => .error (.busError ⟨a, .read, fc⟩) (e.state.logCycle kind fc a isWord none e.answer)
  | .never => .error .hang e.state

/-- The state after the write of one byte or one word. -/
def State.pokeCycle (s : State) (fc : FuncCode) (a : Long) (isWord : Bool) (v : Word) : State :=
  if isWord then s.pokeWord fc a v else s.pokeByte fc a (v.extractLsb' 0 8)

/-- What a write that ended in a bus error has stored: "whether the addressed location was changed by that
cycle is the platform's affair and unspecified" (R63), for each byte of the cycle a free choice (DEDUCED, safe,
log entry 38). -/
def State.pokeFailed (s : State) (fc : FuncCode) (a : Long) (isWord : Bool) (v : Word) : State :=
  let f := Config.freeLong s.freeCount
  let s := { s with freeCount := s.freeCount + 1 }
  if isWord then
    let s := if f.getLsbD 1 then s.pokeByte fc a (v.extractLsb' 8 8) else s
    if f.getLsbD 0 then s.pokeByte fc (a + 1) (v.extractLsb' 0 8) else s
  else if f.getLsbD 0 then s.pokeByte fc a (v.extractLsb' 0 8) else s

/-- The write of one byte or one aligned word by one bus cycle (R63, R64, R69, R112, R113). -/
def busWrite (kind : CycleKind) (fc : FuncCode) (a : Long) (isWord : Bool) (v : Word) : M Unit := fun s =>
  let e := runCycle kind fc a isWord (some v) (s.answer fc .write a) s.turns s
  match e.answer with
  | .ok | .vpa => .ok () ((e.state.pokeCycle fc a isWord v).logCycle kind fc a isWord (some v) e.answer)
  | .busError | .rerun =>
    .error (.busError ⟨a, .write, fc⟩) ((e.state.pokeFailed fc a isWord v).logCycle kind fc a isWord (some v) e.answer)
  | .never => .error .hang e.state

/-- The alignment check (R65, R448): word and long accesses at an odd address raise an address error before
any bus cycle. -/
def checkAligned (fc : FuncCode) (dir : Direction) (a : Long) (sz : Size) : M Unit := fun s =>
  if sz != .b && a.getLsbD 0 then .error (.addressError ⟨a, dir, fc⟩) s else .ok () s

/-- `MemRead` (R62): a long word is read high-order word first (R71). -/
def memRead (fc : FuncCode) (a : Long) (sz : Size) : M Long := do
  checkAligned fc .read a sz
  match sz with
  | .b => return ofWord (← busRead .read fc a false)
  | .w => return ofWord (← busRead .read fc a true)
  | .l =>
    let hi ← busRead .read fc a true
    let lo ← busRead .read fc (a + 2) true
    return hi ++ lo

/-- `MemWrite` (R63): a long word is written high-order word first, but low-order word first by a push and
through `-(An)` (`lowFirst`; R71, D9). PRESUMED, unsafe, log entry 12. -/
def memWrite (fc : FuncCode) (a : Long) (sz : Size) (lowFirst : Bool) (v : Long) : M Unit := do
  checkAligned fc .write a sz
  match sz with
  | .b => busWrite .write fc a false (lowWord (v &&& 0xFF#32))
  | .w => busWrite .write fc a true (lowWord v)
  | .l =>
    if lowFirst then
      busWrite .write fc (a + 2) true (lowWord v)
      busWrite .write fc a true (highWord v)
    else
      busWrite .write fc a true (highWord v)
      busWrite .write fc (a + 2) true (lowWord v)

/-- `Fetch16()` (R9, R141): the next word of the instruction stream, read when it is used (D24: DEDUCED, unsafe, log
entry 11). -/
def fetchWord : M Word := do
  let s ← get
  let w ← memRead s.fcProg s.pc .w
  modify fun s => { s with pc := s.pc + 2 }
  return lowWord w

/-- The fetch of an instruction's next `k` extension words, whose values the decoder has already put into
the instruction. -/
def fetchWords : Nat → M Unit
  | 0 => pure ()
  | k + 1 => do
    let _ ← fetchWord
    fetchWords k

/-- `Push32(v)` (R9); the low-order word first (D9). -/
def push32 (v : Long) : M Unit := do
  modify fun s => s.setSp (s.sp - 4)
  let s ← get
  memWrite s.fcData s.sp .l true v

/-- `Pop16()` (R9). -/
def pop16 : M Word := do
  let s ← get
  let w ← memRead s.fcData s.sp .w
  modify fun s => s.setSp (s.sp + 2)
  return lowWord w

/-- `Pop32()` (R9). -/
def pop32 : M Long := do
  let s ← get
  let v ← memRead s.fcData s.sp .l
  modify fun s => s.setSp (s.sp + 4)
  return v

/-! ## Taking an exception -/

/-- Where an exception's vector number comes from (R404 step 2): internal logic, or the acknowledge cycle of
an interrupt of a level, with what the interrupting side answers. -/
inductive VectorSource where
  | internal (v : Byte)
  | interrupt (lvl : BitVec 3) (ans : IackAnswer)
  deriving DecidableEq, Repr

/-- The address of the acknowledge cycle (R428): A23-A4 = 1, A3-A1 = level. -/
def iackAddr (lvl : BitVec 3) : Long := 0x00FFFFF0#32 + 2#32 * lvl.setWidth 32

/-- What the interrupting side's answer is as the end of a bus cycle. -/
def IackAnswer.onBus : IackAnswer → BusAnswer
  | .vector _ => .ok
  | .autovector => .vpa
  | .busError => .busError
  | .rerun => .rerun
  | .never => .never

/-- The word on the data bus when an acknowledge cycle ends with DTACK: the one the platform supplies with that very
cycle, else the vector number announced, else any value. -/
def IackAnswer.word (ans : IackAnswer) (supplied : Option Word) (free : Long) : Word :=
  match supplied, ans with
  | some w, _ => w
  | none, .vector n => n.setWidth 16
  | none, _ => lowWord free

/-- `InterruptAcknowledge(lvl)` (R428 to R431): the low byte of the word supplied, 24 + level for an autovector, 24
for a spurious interrupt; re-run, the cycle is asked again. A level-7 acknowledge clears the edge latch (R35). -/
def interruptAcknowledge (lvl : BitVec 3) (ans : IackAnswer) : M Byte := fun s =>
  let s := { s with nmiPending := if lvl = 7 then false else s.nmiPending }
  let e := runCycle .iack .intAck (iackAddr lvl) true none ans.onBus s.turns s
  let done (v : Byte) (data : Option Word) (s : State) : EStateM.Result BusStop State Byte :=
    .ok v (s.logCycle .iack .intAck (iackAddr lvl) true data e.answer)
  match e.answer with
  | .ok =>
    let w := ans.word e.supplied (Config.freeLong e.state.freeCount)
    done (w.extractLsb' 0 8) (some w)
      (if e.supplied = none ∧ ans.onBus ≠ .ok then { e.state with freeCount := e.state.freeCount + 1 } else e.state)
  | .vpa => done (24 + lvl.setWidth 8) none e.state
  | .busError => done 24 none e.state
  | .rerun | .never => .error .hang e.state

/-- Step 2 of R404. -/
def VectorSource.number : VectorSource → M Byte
  | .internal v => pure v
  | .interrupt lvl ans => interruptAcknowledge lvl ans

/-- Step 1 of R404: supervisor state, trace off, for an interrupt the mask set to its level. -/
def VectorSource.enter (src : VectorSource) (sr : StatusReg) : StatusReg :=
  match src with
  | .internal _ => { sr with s := true, t := false }
  | .interrupt lvl _ => { sr with s := true, t := false, i := lvl }

/-- `VectorFetch(v)` (R402): the long word at 4 times the vector number, supervisor data. -/
def vectorFetch (v : Byte) : M Long := memRead .superData (4#32 * v.setWidth 32) .l

/-- The exception procedure of groups 1 and 2 (R405; D11 for the order: PRESUMED, unsafe, log entry 13): the copy
of SR, supervisor state, the three-word frame (program counter low, acknowledge cycle, status register,
program counter high), the vector. -/
def takeException (g : ExcGroup) (src : VectorSource) (pcs : Long) : M Unit := do
  let srCopy := (← get).sr
  modify fun s => { s with pstate := .exception g, sr := src.enter s.sr }
  let ssp := (← get).ssp
  memWrite .superData (ssp - 2) .w false (ofWord (lowWord pcs))
  let v ← src.number
  memWrite .superData (ssp - 6) .w false (ofWord srCopy.toWord)
  memWrite .superData (ssp - 4) .w false (ofWord (highWord pcs))
  modify fun s => { s with ssp := ssp - 6 }
  let pc ← vectorFetch v
  modify fun s => { s with pc := pc, pstate := .normal }

/-- The I/N bit (R443): 1 while group 0 or group 1 exception processing is going on. -/
def PState.notInstruction : PState → Bool
  | .exception .group0 | .exception .group1 => true
  | _ => false

/-- R/W of the group 0 frame (R443): read = 1. -/
def Direction.isRead : Direction → Bool
  | .read => true
  | .write => false

/-- The first word of the group 0 frame (R443): R/W bit 4, I/N bit 3, the function code; bits 15-5 free (U8). -/
def group0Word (free : Long) (acc : Access) (notInstr : Bool) : Word :=
  free.extractLsb' 5 11 ++ BitVec.ofBool acc.dir.isRead ++ BitVec.ofBool notInstr ++ acc.fc.bits

/-- The program counter a group 0 exception stacks (R441, D12, U6, U6b; DEDUCED, safe, log entry 14): one to five words
beyond the instruction, which is free; any value when no instruction was being processed. -/
def group0Pc (free : Long) (pc0 : Long) (notInstr : Bool) : Long :=
  if notInstr then free else pc0 + 2 * (1 + BitVec.ofNat 32 (free.toNat % 5))

/-- The group 0 procedure after the double-fault check (R443): the seven-word frame and the vector. `hasOpw`
says whether an operation word had been fetched (R441). -/
def group0Frame (v : Byte) (acc : Access) (pc0 : Long) (hasOpw : Bool) : M Unit := do
  let s0 ← get
  let notInstr := s0.pstate.notInstruction
  modify fun s =>
    { s with
      g0Active := true
      tracePending := false
      pstate := .exception .group0
      sr := { s.sr with s := true, t := false } }
  let ssw := group0Word (← drawFree) acc notInstr
  let pcs := group0Pc (← drawFree) pc0 notInstr
  let freeIr ← drawFree
  let ir := if notInstr || !hasOpw then lowWord freeIr else s0.ir
  let ssp := s0.ssp
  memWrite .superData (ssp - 14) .w false (ofWord ssw)
  memWrite .superData (ssp - 12) .w false (ofWord (highWord acc.addr))
  memWrite .superData (ssp - 10) .w false (ofWord (lowWord acc.addr))
  memWrite .superData (ssp - 8) .w false (ofWord ir)
  memWrite .superData (ssp - 6) .w false (ofWord s0.sr.toWord)
  memWrite .superData (ssp - 4) .w false (ofWord (highWord pcs))
  memWrite .superData (ssp - 2) .w false (ofWord (lowWord pcs))
  modify fun s => { s with ssp := ssp - 14 }
  let pc ← vectorFetch v
  modify fun s => { s with pc := pc, pstate := .normal }

/-- The halted processing state (R444, R445). -/
def State.halt (s : State) : State := { s with pstate := .halted, tracePending := false }

/-- `Group0Exception` (R443, R444): a bus error or address error while group 0 processing is in progress, a
second one inside it included, halts the processor. -/
def enterGroup0 (v : Byte) (acc : Access) (pc0 : Long) (hasOpw : Bool) (s : State) : Out :=
  if s.g0Active then .next s.halt
  else
    match group0Frame v acc pc0 hasOpw s with
    | .ok _ s' => .next s'
    | .error .hang _ => .fault .busCycleNeverTerminated
    | .error _ s' => .next s'.halt

/-- What an abandoned rule leads to (R407): bus error is vector 2, address error vector 3. -/
def abandon (pc0 : Long) (hasOpw : Bool) (e : BusStop) (s : State) : Out :=
  match e with
  | .busError acc => enterGroup0 2 acc pc0 hasOpw s
  | .addressError acc => enterGroup0 3 acc pc0 hasOpw s
  | .hang => .fault .busCycleNeverTerminated

/-- The end of a sequence of actions of the instruction at `pc0`. -/
def finish (pc0 : Long) (hasOpw : Bool) (r : EStateM.Result BusStop State Unit) : Out :=
  match r with
  | .ok _ s => .next s
  | .error e s => abandon pc0 hasOpw e s

/-- `ResetException()` (R470): supervisor state, trace off, mask 7, SSP and PC from vectors 0 and 1 read as
supervisor program references. `nmi_pending` is any value (D13, log entry 6). -/
def resetException : M Unit := do
  modify fun s =>
    { s with
      pstate := .exception .group0
      g0Active := true
      tracePending := false
      sr := { s.sr with s := true, t := false, i := 7 } }
  let f ← drawFree
  modify fun s => { s with nmiPending := f.getLsbD 0 }
  let ssp ← memRead .superProgram 0 .l
  modify fun s => { s with ssp := ssp }
  let pc ← memRead .superProgram 4 .l
  modify fun s => { s with pc := pc, pstate := .normal }

/-- RTE's restoring (R368): the status register word, then the program counter, from the supervisor stack. -/
def returnFromException : M Unit := do
  let ssp := (← get).ssp
  let w ← memRead .superData ssp .w
  let p ← memRead .superData (ssp + 2) .l
  modify fun s => { s with ssp := ssp + 6, sr := StatusReg.ofWord (lowWord w), pc := p }

/-! ## Running one instruction's rule -/

/-- How an instruction's rule ends when no bus cycle fails: completed; with an exception of group 2 the
instruction forces (R403); or not executed at all, the word being illegal, unimplemented or privileged. -/
inductive Ending where
  | done
  | trap (v : Byte)
  | notExecuted (v : Byte)
  deriving DecidableEq, Repr

/-- One instruction from the address of its operation word (R141, R407): the program counter stands after
the operation word when the rule begins. A group 2 exception stacks the address of the next instruction and
leaves a trace pending; a word that is not executed stacks its own address and is not traced (R437). -/
def runInstr (body : M Ending) (s : State) : Out :=
  let pc0 := s.pc
  match body { s with pc := pc0 + 2 } with
  | .ok .done s' => .next s'
  | .ok (.trap v) s' => finish pc0 true (takeException .group2 (.internal v) s'.pc s')
  | .ok (.notExecuted v) s' =>
    finish pc0 true (takeException .group1 (.internal v) pc0 { s' with tracePending := false })
  | .error e s' => abandon pc0 true e s'

/-- An instruction whose rule has no ending but its own completion. -/
def runPlain (body : M Unit) (s : State) : Out :=
  runInstr (do body; return .done) s

/-- A privileged instruction (R355): in user state vector 8 before any extension word is used and before
any effect. -/
def privileged (body : M Unit) : M Ending := do
  if (← get).sr.s then
    body
    return .done
  else
    return .notExecuted 8

end Sys2Proof.Machine
end

