-- ==== Sys2Proof/Machine/Flags.lean ====
section
/-! DEFINITION. The flag computations: `ADDC`, `SUBC`, `NZ`, `LOGIC` (R10, spec/00_scope.md), the sticky Z of
the extended forms (R245), the sixteen conditions (R335), the shifts and rotates (R296 to R304), the decimal
operations (R325 to R328). Operands are long words whose bits above the operand size are 0. -/

namespace Sys2Proof.Machine

/-- The result, carry and overflow of `ADDC` and `SUBC` (R10). -/
structure Sum where
  r : Long
  c : Bool
  v : Bool
  deriving DecidableEq, Repr

/-- 0 or 1. -/
def bitNat (b : Bool) : Nat := if b then 1 else 0

/-- `ADDC(sz, s, d, cin)` (R10): the exact sum, then its narrowing. -/
def addc (sz : Size) (s d : Long) (cin : Bool) : Sum :=
  let full := s.toNat + d.toNat + bitNat cin
  let r := BitVec.ofNat 32 (full % 2 ^ sz.bits)
  { r
    c := 2 ^ sz.bits ≤ full
    v := sz.msb s == sz.msb d && sz.msb r != sz.msb d }

/-- `SUBC(sz, s, d, bin)` (R10): `d - s - bin`. -/
def subc (sz : Size) (s d : Long) (bin : Bool) : Sum :=
  let r := sz.trunc (d - s - BitVec.ofNat 32 (bitNat bin))
  { r
    c := d.toNat < s.toNat + bitNat bin
    v := sz.msb s != sz.msb d && sz.msb r != sz.msb d }

/-- `NZ(sz, r)` (R10). -/
def StatusReg.setNZ (sr : StatusReg) (sz : Size) (r : Long) : StatusReg :=
  { sr with n := sz.msb r, z := sz.trunc r == 0 }

/-- `LOGIC(sz, r)` (R10). -/
def StatusReg.logic (sr : StatusReg) (sz : Size) (r : Long) : StatusReg :=
  { sr.setNZ sz r with v := false, c := false }

/-- The flags of ADD, SUB, NEG and their kin: all five (R241). -/
def StatusReg.arith (sr : StatusReg) (sz : Size) (u : Sum) : StatusReg :=
  { sr.setNZ sz u.r with x := u.c, v := u.v, c := u.c }

/-- The flags of the compares: X not affected (R247). -/
def StatusReg.compare (sr : StatusReg) (sz : Size) (u : Sum) : StatusReg :=
  { sr.setNZ sz u.r with v := u.v, c := u.c }

/-- The flags of ADDX, SUBX, NEGX: Z cleared by a result that is not zero, else unchanged (R245). -/
def StatusReg.arithX (sr : StatusReg) (sz : Size) (u : Sum) : StatusReg :=
  { sr with
    x := u.c
    n := sz.msb u.r
    z := if sz.trunc u.r == 0 then sr.z else false
    v := u.v
    c := u.c }

/-- `cond(cc)` (R335). -/
def condHolds (c : Cond) (r : StatusReg) : Bool :=
  match c with
  | .t => true
  | .f => false
  | .hi => !r.c && !r.z
  | .ls => r.c || r.z
  | .cc => !r.c
  | .cs => r.c
  | .ne => !r.z
  | .eq => r.z
  | .vc => !r.v
  | .vs => r.v
  | .pl => !r.n
  | .mi => r.n
  | .ge => r.n == r.v
  | .lt => r.n != r.v
  | .gt => !r.z && r.n == r.v
  | .le => r.z || r.n != r.v

/-! ## Shifts and rotates -/

/-- The eight operations (R295). -/
inductive ShiftOp where
  | asl | asr | lsl | lsr | rol | ror | roxl | roxr
  deriving DecidableEq, Repr

/-- What the one-bit steps carry along: the operand, C, X, and whether the sign has changed. -/
structure ShiftState where
  v : Long
  c : Bool
  x : Bool
  ov : Bool
  deriving DecidableEq, Repr

/-- `v * 2` with a bit entering at bit 0. -/
def shiftLeft1 (sz : Size) (v : Long) (inBit : Bool) : Long :=
  sz.trunc ((v <<< 1) ||| BitVec.ofNat 32 (bitNat inBit))

/-- `v >> 1` with a bit entering at the top. -/
def shiftRight1 (sz : Size) (v : Long) (inBit : Bool) : Long :=
  (v >>> 1) ||| (BitVec.ofNat 32 (bitNat inBit) <<< (sz.bits - 1))

/-- One step of an operation (R297 to R304). -/
def shiftStep (op : ShiftOp) (sz : Size) (t : ShiftState) : ShiftState :=
  let top := sz.msb t.v
  let bottom := t.v.getLsbD 0
  match op with
  | .asl =>
    let v' := shiftLeft1 sz t.v false
    { v := v', c := top, x := top, ov := t.ov || sz.msb v' != top }
  | .asr => { t with v := shiftRight1 sz t.v top, c := bottom, x := bottom }
  | .lsl => { t with v := shiftLeft1 sz t.v false, c := top, x := top }
  | .lsr => { t with v := shiftRight1 sz t.v false, c := bottom, x := bottom }
  | .rol => { t with v := shiftLeft1 sz t.v top, c := top }
  | .ror => { t with v := shiftRight1 sz t.v bottom, c := bottom }
  | .roxl => { t with v := shiftLeft1 sz t.v t.x, c := top, x := top }
  | .roxr => { t with v := shiftRight1 sz t.v t.x, c := bottom, x := bottom }

/-- `repeat n times`. -/
def shiftIterate (op : ShiftOp) (sz : Size) : Nat → ShiftState → ShiftState
  | 0, t => t
  | n + 1, t => shiftIterate op sz n (shiftStep op sz t)

/-- C before the first step: 0, but the old X for the rotates through extend (R296, R303, R304). -/
def ShiftOp.carryIn (op : ShiftOp) (x : Bool) : Bool :=
  match op with
  | .roxl | .roxr => x
  | _ => false

/-- A shift by `n` (R297 to R304). -/
def shiftResult (op : ShiftOp) (sz : Size) (n : Nat) (v : Long) (x : Bool) : ShiftState :=
  shiftIterate op sz n { v, c := op.carryIn x, x, ov := false }

/-- The flags of a shift (R297 to R304): X as the steps leave it, V only ASL's sign change. -/
def StatusReg.shift (sr : StatusReg) (sz : Size) (t : ShiftState) : StatusReg :=
  { sr.setNZ sz t.v with x := t.x, v := t.ov, c := t.c }

/-! ## Decimal -/

/-- Whether both digits of a byte are in 0..9 (R325 (b)). -/
def isBcd (b : Long) : Bool := b.toNat / 16 % 16 ≤ 9 && b.toNat % 16 ≤ 9

/-- `dec(b)` (R325). -/
def bcdToNat (b : Long) : Nat := 10 * (b.toNat / 16 % 16) + b.toNat % 16

/-- `bcd(t)` (R325). -/
def natToBcd (t : Nat) : Long := BitVec.ofNat 32 (t / 10 * 16 + t % 10)

/-- A decimal result: the byte, the decimal carry or borrow for C, and the values of X and Z where they are free
values of their own. -/
structure DecimalSum where
  r : Long
  c : Bool
  freeX : Option Bool
  freeZ : Option Bool
  deriving DecidableEq, Repr

/-- The sum of ABCD (R326). -/
def bcdAdd (s d : Long) (x : Bool) : DecimalSum :=
  let t := bcdToNat d + bcdToNat s + bitNat x
  { r := natToBcd (t % 100), c := 99 < t, freeX := none, freeZ := none }

/-- The difference of SBCD and NBCD, `d - s - X` (R327, R328). -/
def bcdSub (s d : Long) (x : Bool) : DecimalSum :=
  let t : Int := (bcdToNat d : Int) - (bcdToNat s : Int) - (bitNat x : Int)
  { r := natToBcd (if t < 0 then t + 100 else t).toNat, c := t < 0, freeX := none, freeZ := none }

/-- A decimal result where some digit is in 10..15: byte, C, X and Z any value, each on its own (R325 (c), D18,
U4, D5). -/
def bcdFree (f : Long) : DecimalSum :=
  { r := ofByte (f.extractLsb' 8 8), c := f.getLsbD 16, freeX := some (f.getLsbD 18), freeZ := some (f.getLsbD 17) }

/-- The flags of the decimal instructions (R325 (d)): X and C the carry, N and V free (U1), Z sticky. -/
def StatusReg.decimal (sr : StatusReg) (u : DecimalSum) (free : Long) : StatusReg :=
  { sr with
    x := u.freeX.getD u.c
    n := free.getLsbD 0
    z :=
      match u.freeZ with
      | some b => b
      | none => if u.r == 0 then sr.z else false
    v := free.getLsbD 1
    c := u.c }

end Sys2Proof.Machine
end

