-- ==== Sys2Proof/Machine/Operands.lean ====
section
/-! DEFINITION. The operand forms (R180 to R199, spec/40_addressing.md): from an effective address to a
location, and the reading and writing of a location. The address computation is a plain function of the
state whose program counter stands at the effective address's first extension word, so that statements can
name the address an instruction uses. -/

namespace Sys2Proof.Machine

/-- A location (R194). `lowFirst` says that a long write sends the low-order word first: the `-(An)`
destinations (D9). -/
inductive Loc where
  | dreg (n : RegNo)
  | areg (n : RegNo)
  | mem (addr : Long) (fc : FuncCode) (lowFirst : Bool)
  | imm (v : Long)
  deriving DecidableEq, Repr

/-- Whether a location is in memory. -/
def Loc.isMem : Loc → Bool
  | .mem _ _ _ => true
  | _ => false

/-- The address of a location in memory; LEA, PEA, JMP and JSR use it (R197). The control modes, the only
ones they have, always give one. -/
def Loc.address : Loc → Long
  | .mem addr _ _ => addr
  | _ => 0

/-- `step(n, sz)` (R184, R185): the stack pointer stays even. -/
def stepSize (n : RegNo) (sz : Size) : Long := if n = 7 && sz = .b then 2 else sz.bytes

/-- `Index(ext)` (R187). -/
def indexValue (x : IndexWord) (s : State) : Long :=
  let v := if x.isAddr then s.readA x.reg else s.readD x.reg
  if x.long then v else sextWord (lowWord v)

/-- The location of an effective address (R194), in the state before its extension words are consumed. -/
def eaLoc (ea : EA) (sz : Size) (s : State) : Loc :=
  match ea with
  | .dreg n => .dreg n
  | .areg n => .areg n
  | .ind n => .mem (s.readA n) s.fcData false
  | .postInc n => .mem (s.readA n) s.fcData false
  | .preDec n => .mem (s.readA n - stepSize n sz) s.fcData true
  | .disp n d => .mem (s.readA n + sextWord d) s.fcData false
  | .index n x => .mem (s.readA n + sextByte x.d8 + indexValue x s) s.fcData false
  | .absW v => .mem (sextWord v) s.fcData false
  | .absL v => .mem v s.fcData false
  | .pcDisp d => .mem (s.pc + sextWord d) s.fcProg false
  | .pcIndex x => .mem (s.pc + sextByte x.d8 + indexValue x s) s.fcProg false
  | .imm16 v => .imm (sz.trunc (ofWord v))
  | .imm32 v => .imm v

/-- The update of the address register by `(An)+` and `-(An)` (R184, R185). -/
def eaStep (ea : EA) (sz : Size) (s : State) : State :=
  match ea with
  | .postInc n => s.writeA n (s.readA n + stepSize n sz)
  | .preDec n => s.writeA n (s.readA n - stepSize n sz)
  | _ => s

/-- How many extension words an effective address has (R143). -/
def eaWords : EA → Nat
  | .dreg _ | .areg _ | .ind _ | .postInc _ | .preDec _ => 0
  | .disp _ _ | .index _ _ | .absW _ | .pcDisp _ | .pcIndex _ | .imm16 _ => 1
  | .absL _ | .imm32 _ => 2

/-- `ResolveEA` (R194). -/
def resolveEA (ea : EA) (sz : Size) : M Loc := do
  let s ← get
  fetchWords (eaWords ea)
  modify (eaStep ea sz)
  return eaLoc ea sz s

/-- `ReadLoc` (R194). -/
def readLoc (loc : Loc) (sz : Size) : M Long :=
  match loc with
  | .dreg n => do return sz.trunc ((← get).readD n)
  | .areg n => do return sz.trunc ((← get).readA n)
  | .mem a fc _ => memRead fc a sz
  | .imm v => return v

/-- `WriteLoc` (R194). An immediate is never written (R194): no instruction has one as destination. -/
def writeLoc (loc : Loc) (sz : Size) (v : Long) : M Unit :=
  match loc with
  | .dreg n => modify fun s => s.writeD n (sz.merge (s.readD n) v)
  | .areg n => modify fun s => s.writeA n (sz.sext v)
  | .mem a fc lowFirst => memWrite fc a sz lowFirst v
  | .imm _ => pure ()

/-- `ReadEA` (R194). -/
def readEA (ea : EA) (sz : Size) : M Long := do
  let loc ← resolveEA ea sz
  readLoc loc sz

/-- The read of a memory destination whose value is discarded: CLR, Scc, MOVE from SR (R74). -/
def discardRead (loc : Loc) (sz : Size) : M Unit :=
  match loc with
  | .mem a fc _ => do
    let _ ← memRead fc a sz
    return ()
  | _ => pure ()

/-- The words of an immediate (R145). -/
def immWordCount : Imm → Nat
  | .word _ => 1
  | .long _ => 2

/-- The immediate operand of a size (R145): the low byte of the word, the word, or the long word. -/
def immValue (v : Imm) (sz : Size) : Long :=
  match v with
  | .word w => sz.trunc (ofWord w)
  | .long l => l

/-- The immediate of an immediate instruction, consumed before the effective address (R145, R196). -/
def readImm (v : Imm) (sz : Size) : M Long := do
  fetchWords (immWordCount v)
  return immValue v sz

end Sys2Proof.Machine
end

