-- ==== Sys2Proof/Machine/Updates.lean ====
section
/-! DEFINITION. The shapes several families share: a register combined with an operand, an operand read,
changed and written back (R195), two data registers, two predecremented bytes. -/

namespace Sys2Proof.Machine

/-- What an operation makes of an operand and the status register: the result and the new status register. -/
abbrev Update := Long → StatusReg → Long × StatusReg

/-- `op <ea>,Dn` (R240 (e)): the source is read, the low part of `Dn` is combined and written, then the flags. -/
def updateD (sz : Size) (dn : RegNo) (ea : EA) (f : Long → Update) : M Unit := do
  let src ← readEA ea sz
  modify fun s =>
    let u := f src (sz.trunc (s.readD dn)) s.sr
    { s.writeD dn (sz.merge (s.readD dn) u.1) with sr := u.2 }

/-- A location read, changed and written back, then the flags (R195, R241). -/
def updateLoc (loc : Loc) (sz : Size) (f : Update) : M Unit := do
  let d ← readLoc loc sz
  let u := f d (← get).sr
  writeLoc loc sz u.1
  modify fun s => { s with sr := u.2 }

/-- A location read and changed, the flags set, then the write: the order of the memory shifts and the bit
instructions (R305, R317). -/
def updateLocFlagsFirst (loc : Loc) (sz : Size) (f : Update) : M Unit := do
  let d ← readLoc loc sz
  let u := f d (← get).sr
  modify fun s => { s with sr := u.2 }
  writeLoc loc sz u.1

/-- `op <ea>`: one resolution, one read, one write (R195). -/
def updateEA (ea : EA) (sz : Size) (f : Update) : M Unit := do
  let loc ← resolveEA ea sz
  updateLoc loc sz f

/-- `op #imm,<ea>`: the immediate is consumed before the effective address (R240 (f)). -/
def updateImm (sz : Size) (v : Imm) (ea : EA) (f : Long → Update) : M Unit := do
  let src ← readImm v sz
  updateEA ea sz (f src)

/-- `op Dn,<ea>` (R241): the data register as source. -/
def updateByD (sz : Size) (dn : RegNo) (ea : EA) (f : Long → Update) : M Unit := do
  let loc ← resolveEA ea sz
  let d ← readLoc loc sz
  let u := f (sz.trunc ((← get).readD dn)) d (← get).sr
  writeLoc loc sz u.1
  modify fun s => { s with sr := u.2 }

/-- `op Dy,Dx` of the extended forms (R245). -/
def updatePair (sz : Size) (dx dy : RegNo) (f : Long → Update) : M Unit :=
  modify fun s =>
    let u := f (sz.trunc (s.readD dy)) (sz.trunc (s.readD dx)) s.sr
    { s.writeD dx (sz.merge (s.readD dx) u.1) with sr := u.2 }

/-- `op -(Ay),-(Ax)` of the extended forms: the source first (R245). -/
def updatePairMem (sz : Size) (ax ay : RegNo) (f : Long → Update) : M Unit := do
  let src ← readEA (.preDec ay) sz
  updateEA (.preDec ax) sz (f src)

/-- ADD and its kin as an update: `ADDC` and all five flags. -/
def addUpdate (sz : Size) (src : Long) : Update := fun d sr =>
  let u := addc sz src d false
  (u.r, sr.arith sz u)

/-- SUB and its kin as an update: `SUBC` and all five flags. -/
def subUpdate (sz : Size) (src : Long) : Update := fun d sr =>
  let u := subc sz src d false
  (u.r, sr.arith sz u)

/-- ADDX as an update (R245). -/
def addxUpdate (sz : Size) (src : Long) : Update := fun d sr =>
  let u := addc sz src d sr.x
  (u.r, sr.arithX sz u)

/-- SUBX as an update (R262). -/
def subxUpdate (sz : Size) (src : Long) : Update := fun d sr =>
  let u := subc sz src d sr.x
  (u.r, sr.arithX sz u)

/-- A bitwise operation as an update (R280). -/
def logicUpdate (sz : Size) (op : Long → Long → Long) (src : Long) : Update := fun d sr =>
  let r := op src d
  (r, sr.logic sz r)

/-- The compares (R247): the flags of `d - s`, nothing stored. -/
def compareWith (sz : Size) (src d : Long) : M Unit :=
  modify fun s => { s with sr := s.sr.compare sz (subc sz src d false) }

end Sys2Proof.Machine
end

