-- ==== Sys2Proof/Machine/Arithmetic.lean ====
section
/-! DEFINITION. Integer arithmetic: ADD, ADDA, ADDI, ADDQ, ADDX, CLR, CMP, CMPA, CMPI, CMPM, DIVS, DIVU, EXT,
MULS, MULU, NEG, NEGX, SUB, SUBA, SUBI, SUBQ, SUBX, TAS, TST (spec/42_integer_arithmetic.md R241 to R276). -/

namespace Sys2Proof.Machine

/-! ## Add and subtract -/

/-- ADD <ea>,Dn (R241). -/
def execAddToReg (sz : Size) (dn : RegNo) (ea : EA) (s : State) : Out :=
  runPlain (updateD sz dn ea (addUpdate sz)) s

/-- ADD Dn,<ea> (R241). -/
def execAddToMem (sz : Size) (dn : RegNo) (ea : EA) (s : State) : Out :=
  runPlain (updateByD sz dn ea (addUpdate sz)) s

/-- ADDI (R243). -/
def execAddi (sz : Size) (v : Imm) (ea : EA) (s : State) : Out :=
  runPlain (updateImm sz v ea (addUpdate sz)) s

/-- SUB <ea>,Dn (R258). -/
def execSubToReg (sz : Size) (dn : RegNo) (ea : EA) (s : State) : Out :=
  runPlain (updateD sz dn ea (subUpdate sz)) s

/-- SUB Dn,<ea> (R258). -/
def execSubToMem (sz : Size) (dn : RegNo) (ea : EA) (s : State) : Out :=
  runPlain (updateByD sz dn ea (subUpdate sz)) s

/-- SUBI (R260). -/
def execSubi (sz : Size) (v : Imm) (ea : EA) (s : State) : Out :=
  runPlain (updateImm sz v ea (subUpdate sz)) s

/-- ADDA and SUBA (R242, R259): the whole register, a word source sign-extended, no flag. -/
def updateA (sz : Size) (an : RegNo) (ea : EA) (op : Long → Long → Long) : M Unit := do
  let src ← readEA ea sz
  modify fun s => s.writeA an (op (s.readA an) (sz.sext src))

/-- ADDA.W (R242). -/
def execAddaW (an : RegNo) (ea : EA) (s : State) : Out := runPlain (updateA .w an ea (· + ·)) s

/-- ADDA.L (R242). -/
def execAddaL (an : RegNo) (ea : EA) (s : State) : Out := runPlain (updateA .l an ea (· + ·)) s

/-- SUBA.W (R259). -/
def execSubaW (an : RegNo) (ea : EA) (s : State) : Out := runPlain (updateA .w an ea (· - ·)) s

/-- SUBA.L (R259). -/
def execSubaL (an : RegNo) (ea : EA) (s : State) : Out := runPlain (updateA .l an ea (· - ·)) s

/-- Quick data (R147): 000 means 8. -/
def quickValue (q : BitVec 3) : Long := if q = 0 then 8 else q.setWidth 32

/-- ADDQ and SUBQ (R244, R261): the whole register and no flag where the destination is `An`. -/
def updateQuick (q : BitVec 3) (sz : Size) (ea : EA) (op : Long → Long → Long) (f : Long → Update) : M Unit :=
  match ea with
  | .areg n => modify fun s => s.writeA n (op (s.readA n) (quickValue q))
  | _ => updateEA ea sz (f (quickValue q))

/-- ADDQ (R244). -/
def execAddq (q : BitVec 3) (sz : Size) (ea : EA) (s : State) : Out :=
  runPlain (updateQuick q sz ea (· + ·) (addUpdate sz)) s

/-- SUBQ (R261). -/
def execSubq (q : BitVec 3) (sz : Size) (ea : EA) (s : State) : Out :=
  runPlain (updateQuick q sz ea (· - ·) (subUpdate sz)) s

/-- ADDX Dy,Dx (R245). -/
def execAddxReg (sz : Size) (dx dy : RegNo) (s : State) : Out :=
  runPlain (updatePair sz dx dy (addxUpdate sz)) s

/-- ADDX -(Ay),-(Ax) (R245). -/
def execAddxMem (sz : Size) (ax ay : RegNo) (s : State) : Out :=
  runPlain (updatePairMem sz ax ay (addxUpdate sz)) s

/-- SUBX Dy,Dx (R262). -/
def execSubxReg (sz : Size) (dx dy : RegNo) (s : State) : Out :=
  runPlain (updatePair sz dx dy (subxUpdate sz)) s

/-- SUBX -(Ay),-(Ax) (R262). -/
def execSubxMem (sz : Size) (ax ay : RegNo) (s : State) : Out :=
  runPlain (updatePairMem sz ax ay (subxUpdate sz)) s

/-- NEG (R256): `0 - d`. -/
def execNeg (sz : Size) (ea : EA) (s : State) : Out :=
  runPlain (updateEA ea sz fun d sr => subUpdate sz d 0 sr) s

/-- NEGX (R257): `0 - d - X`. -/
def execNegx (sz : Size) (ea : EA) (s : State) : Out :=
  runPlain (updateEA ea sz fun d sr => subxUpdate sz d 0 sr) s

/-- CLR (R246): a memory destination is read first (R74). -/
def execClr (sz : Size) (ea : EA) (s : State) : Out :=
  runPlain (do
    let loc ← resolveEA ea sz
    discardRead loc sz
    writeLoc loc sz 0
    modify fun s => { s with sr := { s.sr with n := false, z := true, v := false, c := false } }) s

/-! ## Compare and test -/

/-- CMP (R247). -/
def execCmp (sz : Size) (dn : RegNo) (ea : EA) (s : State) : Out :=
  runPlain (do
    let src ← readEA ea sz
    compareWith sz src (sz.trunc ((← get).readD dn))) s

/-- CMPA (R248): a 32-bit comparison, a word source sign-extended first. -/
def compareAddress (sz : Size) (an : RegNo) (ea : EA) : M Unit := do
  let src ← readEA ea sz
  compareWith .l (sz.sext src) ((← get).readA an)

/-- CMPA.W (R248). -/
def execCmpaW (an : RegNo) (ea : EA) (s : State) : Out := runPlain (compareAddress .w an ea) s

/-- CMPA.L (R248). -/
def execCmpaL (an : RegNo) (ea : EA) (s : State) : Out := runPlain (compareAddress .l an ea) s

/-- CMPI (R249). -/
def execCmpi (sz : Size) (v : Imm) (ea : EA) (s : State) : Out :=
  runPlain (do
    let src ← readImm v sz
    let d ← readEA ea sz
    compareWith sz src d) s

/-- CMPM (R250): the source `(Ay)+` first. -/
def execCmpm (sz : Size) (ax ay : RegNo) (s : State) : Out :=
  runPlain (do
    let src ← readEA (.postInc ay) sz
    let d ← readEA (.postInc ax) sz
    compareWith sz src d) s

/-- TST (R276). -/
def execTst (sz : Size) (ea : EA) (s : State) : Out :=
  runPlain (do
    let v ← readEA ea sz
    modify fun s => { s with sr := s.sr.logic sz v }) s

/-- TAS (R275): in memory one indivisible read-modify-write cycle (R79, R104); the flags are those of the
byte before bit 7 is set. -/
def execTas (ea : EA) (s : State) : Out :=
  runPlain (do
    let loc ← resolveEA ea .b
    match loc with
    | .mem a fc _ => do
      let v ← busRead .rmwRead fc a false
      modify fun s => { s with sr := s.sr.logic .b (ofWord v) }
      busWrite .rmwWrite fc a false (v ||| 0x80#16)
    | _ => updateLocFlagsFirst loc .b fun d sr => (d ||| 0x80#32, sr.logic .b d)) s

/-! ## Multiply, divide, extend -/

/-- MULU and MULS (R255, R254): a 32-bit product of two words, and its N and Z. -/
def multiply (dn : RegNo) (ea : EA) (op : Word → Word → Long) : M Unit := do
  let src ← readEA ea .w
  modify fun s =>
    let r := op (lowWord (s.readD dn)) (lowWord src)
    { s.writeD dn r with sr := s.sr.logic .l r }

/-- The unsigned product (R255). -/
def mulUnsigned (a b : Word) : Long := BitVec.ofNat 32 (a.toNat * b.toNat)

/-- The signed product (R254). -/
def mulSigned (a b : Word) : Long := BitVec.ofInt 32 (a.toInt * b.toInt)

/-- MULU (R255). -/
def execMulu (dn : RegNo) (ea : EA) (s : State) : Out := runPlain (multiply dn ea mulUnsigned) s

/-- MULS (R254). -/
def execMuls (dn : RegNo) (ea : EA) (s : State) : Out := runPlain (multiply dn ea mulSigned) s

/-- A quotient and a remainder that fit their words. -/
structure Quotient where
  q : Word
  rem : Word
  deriving DecidableEq, Repr

/-- The quotient of DIVU (R252), none on overflow. -/
def divUnsigned (d : Long) (m : Word) : Option Quotient :=
  let q := d.toNat / m.toNat
  if 65535 < q then none
  else some { q := BitVec.ofNat 16 q, rem := BitVec.ofNat 16 (d.toNat % m.toNat) }

/-- The quotient of DIVS (R251), truncated toward zero, the remainder with the sign of the dividend; none on
overflow. -/
def divSigned (d : Long) (m : Word) : Option Quotient :=
  let q := d.toInt.tdiv m.toInt
  if q < -32768 || 32767 < q then none
  else some { q := BitVec.ofInt 16 q, rem := BitVec.ofInt 16 (d.toInt - q * m.toInt) }

/-- The flags of a division (R251, R252): N and Z of the quotient word. -/
def StatusReg.quotient (sr : StatusReg) (q : Word) : StatusReg :=
  { sr with n := q.msb, z := q == 0, v := false, c := false }

/-- The flags left by an overflow (R251, R252): V = 1, C = 0, N and Z free (U2). -/
def StatusReg.divOverflow (sr : StatusReg) (free : Long) : StatusReg :=
  { sr with n := free.getLsbD 0, z := free.getLsbD 1, v := true, c := false }

/-- The flags left by a zero divisor (R251, R252): N, Z, V free (U3), C = 0. -/
def StatusReg.divByZero (sr : StatusReg) (free : Long) : StatusReg :=
  { sr with n := free.getLsbD 0, z := free.getLsbD 1, v := free.getLsbD 2, c := false }

/-- DIVU and DIVS (R252, R251): the zero divide trap is vector 5; on overflow `Dn` is unchanged. -/
def divide (dn : RegNo) (ea : EA) (op : Long → Word → Option Quotient) : M Ending := do
  let src ← readEA ea .w
  if lowWord src = 0 then
    let f ← drawFree
    modify fun s => { s with sr := s.sr.divByZero f }
    return .trap 5
  else
    match op ((← get).readD dn) (lowWord src) with
    | some u => do
      modify fun s => { s.writeD dn (u.rem ++ u.q) with sr := s.sr.quotient u.q }
      return .done
    | none => do
      let f ← drawFree
      modify fun s => { s with sr := s.sr.divOverflow f }
      return .done

/-- DIVU (R252). -/
def execDivu (dn : RegNo) (ea : EA) (s : State) : Out := runInstr (divide dn ea divUnsigned) s

/-- DIVS (R251). -/
def execDivs (dn : RegNo) (ea : EA) (s : State) : Out := runInstr (divide dn ea divSigned) s

/-- EXT.W (R253): byte to word. -/
def execExtW (dn : RegNo) (s : State) : Out :=
  runPlain (modify fun s =>
    let r := Size.w.trunc (sextByte (lowByte (s.readD dn)))
    { s.writeD dn (Size.w.merge (s.readD dn) r) with sr := s.sr.logic .w r }) s

/-- EXT.L (R253): word to long. -/
def execExtL (dn : RegNo) (s : State) : Out :=
  runPlain (modify fun s =>
    let r := sextWord (lowWord (s.readD dn))
    { s.writeD dn r with sr := s.sr.logic .l r }) s

end Sys2Proof.Machine
end

