-- ==== Sys2Proof/Machine/Bcd.lean ====
section
/-! DEFINITION. Decimal: ABCD, SBCD, NBCD (spec/46_bcd.md R325 to R328). -/

namespace Sys2Proof.Machine

/-- The result of a decimal operation of a source and a destination byte (R325 (b), (c)). -/
def decimalSum (op : Long → Long → Bool → DecimalSum) (src d : Long) (x : Bool) (free : Long) : DecimalSum :=
  if isBcd src && isBcd d then op src d x else bcdFree free

/-- The destination of a decimal operation written, then the flags (R326). -/
def decimalWrite (loc : Loc) (op : Long → Long → Bool → DecimalSum) (src d : Long) : M Unit := do
  let f ← drawFree
  let u := decimalSum op src d (← get).sr.x f
  writeLoc loc .b u.r
  modify fun s => { s with sr := s.sr.decimal u f }

/-- `op Dy,Dx` (R326). -/
def decimalReg (dx dy : RegNo) (op : Long → Long → Bool → DecimalSum) : M Unit := do
  let src ← readLoc (.dreg dy) .b
  let d ← readLoc (.dreg dx) .b
  decimalWrite (.dreg dx) op src d

/-- `op -(Ay),-(Ax)`, source first (R326). -/
def decimalMem (ax ay : RegNo) (op : Long → Long → Bool → DecimalSum) : M Unit := do
  let src ← readEA (.preDec ay) .b
  let loc ← resolveEA (.preDec ax) .b
  let d ← readLoc loc .b
  decimalWrite loc op src d

/-- ABCD Dy,Dx (R326). -/
def execAbcdReg (dx dy : RegNo) (s : State) : Out := runPlain (decimalReg dx dy bcdAdd) s

/-- ABCD -(Ay),-(Ax) (R326). -/
def execAbcdMem (ax ay : RegNo) (s : State) : Out := runPlain (decimalMem ax ay bcdAdd) s

/-- SBCD Dy,Dx (R327). -/
def execSbcdReg (dx dy : RegNo) (s : State) : Out := runPlain (decimalReg dx dy bcdSub) s

/-- SBCD -(Ay),-(Ax) (R327). -/
def execSbcdMem (ax ay : RegNo) (s : State) : Out := runPlain (decimalMem ax ay bcdSub) s

/-- NBCD (R328): `0 - d - X`. -/
def execNbcd (ea : EA) (s : State) : Out :=
  runPlain (do
    let loc ← resolveEA ea .b
    let d ← readLoc loc .b
    decimalWrite loc bcdSub d 0) s

end Sys2Proof.Machine
end

