-- ==== Sys2Proof/Machine/BitOps.lean ====
section
/-! DEFINITION. Bit manipulation: BTST, BCHG, BCLR, BSET (spec/45_bit_manipulation.md R315 to R319). -/

namespace Sys2Proof.Machine

/-- The size of the operand (R315 (a)): a data register whole, memory and immediate data one byte. -/
def bitSize : EA → Size
  | .dreg _ => .l
  | _ => .b

/-- The bit number (R315 (c)): modulo 32 in a data register, modulo 8 else. -/
def bitIndex (sz : Size) (b : Long) : Nat := b.toNat % sz.bits

/-- `2^k`. -/
def bitMask (k : Nat) : Long := 1#32 <<< k

/-- Z is the complement of the tested bit (R316); no other flag changes. -/
def StatusReg.bitTest (sr : StatusReg) (v : Long) (k : Nat) : StatusReg := { sr with z := !v.getLsbD k }

/-- BCHG, BCLR, BSET (R317 to R319) as an update: test bit `k`, then change it. -/
def bitUpdate (k : Nat) (op : Long → Long → Long) : Update := fun d sr => (op d (bitMask k), sr.bitTest d k)

/-- The bit number of a dynamic form (R315 (c)): the whole register, read before the operand. -/
def dynamicBit (dn : RegNo) : M Long := do return (← get).readD dn

/-- The bit number of a static form (R315 (c)): the low byte of the word after the operation word. -/
def staticBit (b : Word) : M Long := do
  fetchWords 1
  return ofByte (b.extractLsb' 0 8)

/-- BTST (R316). -/
def bitTest (number : M Long) (ea : EA) : M Unit := do
  let b ← number
  let v ← readEA ea (bitSize ea)
  modify fun s => { s with sr := s.sr.bitTest v (bitIndex (bitSize ea) b) }

/-- BCHG, BCLR, BSET (R317 to R319): Z before the write. -/
def bitChange (number : M Long) (ea : EA) (op : Long → Long → Long) : M Unit := do
  let b ← number
  let loc ← resolveEA ea (bitSize ea)
  updateLocFlagsFirst loc (bitSize ea) (bitUpdate (bitIndex (bitSize ea) b) op)

/-- BTST #b,<ea> (R316). -/
def execBtstImm (b : Word) (ea : EA) (s : State) : Out := runPlain (bitTest (staticBit b) ea) s

/-- BTST Dn,<ea> (R316). -/
def execBtstReg (dn : RegNo) (ea : EA) (s : State) : Out := runPlain (bitTest (dynamicBit dn) ea) s

/-- BCHG #b,<ea> (R317). -/
def execBchgImm (b : Word) (ea : EA) (s : State) : Out := runPlain (bitChange (staticBit b) ea (· ^^^ ·)) s

/-- BCHG Dn,<ea> (R317). -/
def execBchgReg (dn : RegNo) (ea : EA) (s : State) : Out := runPlain (bitChange (dynamicBit dn) ea (· ^^^ ·)) s

/-- BCLR #b,<ea> (R318). -/
def execBclrImm (b : Word) (ea : EA) (s : State) : Out := runPlain (bitChange (staticBit b) ea (fun v m => v &&& ~~~m)) s

/-- BCLR Dn,<ea> (R318). -/
def execBclrReg (dn : RegNo) (ea : EA) (s : State) : Out := runPlain (bitChange (dynamicBit dn) ea (fun v m => v &&& ~~~m)) s

/-- BSET #b,<ea> (R319). -/
def execBsetImm (b : Word) (ea : EA) (s : State) : Out := runPlain (bitChange (staticBit b) ea (· ||| ·)) s

/-- BSET Dn,<ea> (R319). -/
def execBsetReg (dn : RegNo) (ea : EA) (s : State) : Out := runPlain (bitChange (dynamicBit dn) ea (· ||| ·)) s

end Sys2Proof.Machine
end

