-- ==== Sys2Proof/Machine/DataMovement.lean ====
section
/-! DEFINITION. Data movement: EXG, LEA, LINK, MOVE, MOVEA, MOVEM, MOVEP, MOVEQ, PEA, SWAP, UNLK
(spec/41_data_movement.md R210 to R224). -/

namespace Sys2Proof.Machine

/-- MOVE (R214): the source completely first, then the destination; flags before the write. -/
def moveData (sz : Size) (src dst : EA) : M Unit := do
  let v ← readEA src sz
  let loc ← resolveEA dst sz
  modify fun s => { s with sr := s.sr.logic sz v }
  writeLoc loc sz v

/-- MOVE.B (R214). -/
def execMoveB (src dst : EA) (s : State) : Out := runPlain (moveData .b src dst) s

/-- MOVE.L (R214). -/
def execMoveL (src dst : EA) (s : State) : Out := runPlain (moveData .l src dst) s

/-- MOVE.W (R214). -/
def execMoveW (src dst : EA) (s : State) : Out := runPlain (moveData .w src dst) s

/-- MOVEA (R215): the whole register, a word sign-extended. -/
def moveAddress (sz : Size) (an : RegNo) (src : EA) : M Unit := do
  let v ← readEA src sz
  modify fun s => s.writeA an (sz.sext v)

/-- MOVEA.L (R215). -/
def execMoveaL (an : RegNo) (src : EA) (s : State) : Out := runPlain (moveAddress .l an src) s

/-- MOVEA.W (R215). -/
def execMoveaW (an : RegNo) (src : EA) (s : State) : Out := runPlain (moveAddress .w an src) s

/-- MOVEQ (R219). -/
def execMoveq (dn : RegNo) (v : Byte) (s : State) : Out :=
  runPlain (modify fun s => { s.writeD dn (sextByte v) with sr := s.sr.logic .l (sextByte v) }) s

/-- EXG Dx,Dy (R211). -/
def execExgDD (dx dy : RegNo) (s : State) : Out :=
  runPlain (modify fun s => (s.writeD dx (s.readD dy)).writeD dy (s.readD dx)) s

/-- EXG Ax,Ay (R211). -/
def execExgAA (ax ay : RegNo) (s : State) : Out :=
  runPlain (modify fun s => (s.writeA ax (s.readA ay)).writeA ay (s.readA ax)) s

/-- EXG Dx,Ay (R211). -/
def execExgDA (dx ay : RegNo) (s : State) : Out :=
  runPlain (modify fun s => (s.writeD dx (s.readA ay)).writeA ay (s.readD dx)) s

/-- SWAP (R221). -/
def execSwap (dn : RegNo) (s : State) : Out :=
  runPlain (modify fun s =>
    let v := lowWord (s.readD dn) ++ highWord (s.readD dn)
    { s.writeD dn v with sr := s.sr.logic .l v }) s

/-- LEA (R212): the address, no access. -/
def execLea (an : RegNo) (ea : EA) (s : State) : Out :=
  runPlain (do
    let loc ← resolveEA ea .l
    modify fun s => s.writeA an loc.address) s

/-- PEA (R220): the address is computed before the push. -/
def execPea (ea : EA) (s : State) : Out :=
  runPlain (do
    let loc ← resolveEA ea .l
    push32 loc.address) s

/-- LINK (R213): `A[aaa]` is read after the decrement. -/
def execLink (an : RegNo) (d : Word) (s : State) : Out :=
  runPlain (do
    fetchWords 1
    modify fun s => s.setSp (s.sp - 4)
    let s ← get
    memWrite s.fcData s.sp .l true (s.readA an)
    modify fun s => s.writeA an s.sp
    modify fun s => s.setSp (s.sp + sextWord d)) s

/-- UNLK (R222): `A[aaa]` is written last. -/
def execUnlk (an : RegNo) (s : State) : Out :=
  runPlain (do
    modify fun s => s.setSp (s.readA an)
    let v ← pop32
    modify fun s => s.writeA an v) s

/-! ## MOVEM -/

/-- The bit numbers of a register list. -/
def maskBits : List (Fin 16) := [0, 1, 2, 3, 4, 5, 6, 7, 8, 9, 10, 11, 12, 13, 14, 15]

/-- `order(mode)` (R216): the selected registers in ascending order of mask bit; with `-(An)` bit `i` selects
register `15 - i`. -/
def movemOrder (list : Word) (preDec : Bool) : List (Fin 16) :=
  (maskBits.filter fun i => list.getLsbD i.val).map fun i => if preDec then i.rev else i

/-- The registers stored at descending addresses (R217); the last address used. -/
def storeDown (sz : Size) : List (Fin 16) → Long → M Long
  | [], a => return a
  | k :: ks, a => do
    let s ← get
    memWrite s.fcData (a - sz.bytes) sz true (s.readR k)
    storeDown sz ks (a - sz.bytes)

/-- The registers stored at ascending addresses (R217). -/
def storeUp (sz : Size) : List (Fin 16) → Long → M Unit
  | [], _ => return ()
  | k :: ks, a => do
    let s ← get
    memWrite s.fcData a sz false (s.readR k)
    storeUp sz ks (a + sz.bytes)

/-- The registers loaded from ascending addresses, a word sign-extended (R218); the address after them. -/
def loadUp (fc : FuncCode) (sz : Size) : List (Fin 16) → Long → M Long
  | [], a => return a
  | k :: ks, a => do
    let v ← memRead fc a sz
    modify fun s => s.writeR k (sz.sext v)
    loadUp fc sz ks (a + sz.bytes)

/-- MOVEM registers to memory (R217). The base register of `-(An)` keeps its initial value until the list is
stored. -/
def execMovemToMem (sz : SizeWL) (list : Word) (ea : EA) (s : State) : Out :=
  runPlain (do
    fetchWords 1
    match ea with
    | .preDec n => do
      let a ← storeDown sz.size (movemOrder list true) ((← get).readA n)
      modify fun s => s.writeA n a
    | _ => do
      let loc ← resolveEA ea sz.size
      storeUp sz.size (movemOrder list false) loc.address) s

/-- MOVEM memory to registers (R218), with the extra word read (R75). -/
def execMovemToRegs (sz : SizeWL) (list : Word) (ea : EA) (s : State) : Out :=
  runPlain (do
    fetchWords 1
    let loc := eaLoc ea sz.size (← get)
    fetchWords (eaWords ea)
    match loc with
    | .mem a fc _ => do
      let a' ← loadUp fc sz.size (movemOrder list false) a
      let _ ← memRead fc a' .w
      match ea with
      | .postInc n => modify fun s => s.writeA n a'
      | _ => pure ()
    | _ => pure ()) s

/-! ## MOVEP -/

/-- Bytes read at `a`, `a + 2`, ... (R223), the first the high-order byte. -/
def peripheralLoad : Nat → Long → Long → M Long
  | 0, _, acc => return acc
  | k + 1, a, acc => do
    let b ← memRead (← get).fcData a .b
    peripheralLoad k (a + 2) (acc <<< 8 ||| b)

/-- Bytes written at `a`, `a + 2`, ... (R224), the high-order byte first: byte `k - 1` of the value, then the
lower ones. -/
def peripheralStore (v : Long) : Nat → Long → M Unit
  | 0, _ => return ()
  | k + 1, a => do
    memWrite (← get).fcData a .b false (v >>> (8 * k))
    peripheralStore v k (a + 2)

/-- The address of MOVEP (R223): `A[aaa]` plus the displacement word. -/
def peripheralAddress (ay : RegNo) (d : Word) : M Long := do
  fetchWords 1
  return (← get).readA ay + sextWord d

/-- MOVEP.W memory to register (R223). -/
def execMovepWToReg (dx ay : RegNo) (d : Word) (s : State) : Out :=
  runPlain (do
    let a ← peripheralAddress ay d
    let v ← peripheralLoad 2 a 0
    modify fun s => s.writeD dx (Size.w.merge (s.readD dx) v)) s

/-- MOVEP.L memory to register (R223). -/
def execMovepLToReg (dx ay : RegNo) (d : Word) (s : State) : Out :=
  runPlain (do
    let a ← peripheralAddress ay d
    let v ← peripheralLoad 4 a 0
    modify fun s => s.writeD dx v) s

/-- MOVEP.W register to memory (R224). -/
def execMovepWToMem (dx ay : RegNo) (d : Word) (s : State) : Out :=
  runPlain (do
    let a ← peripheralAddress ay d
    peripheralStore ((← get).readD dx) 2 a) s

/-- MOVEP.L register to memory (R224). -/
def execMovepLToMem (dx ay : RegNo) (d : Word) (s : State) : Out :=
  runPlain (do
    let a ← peripheralAddress ay d
    peripheralStore ((← get).readD dx) 4 a) s

end Sys2Proof.Machine
end

