-- ==== Sys2Proof/Machine/Logic.lean ====
section
/-! DEFINITION. Logic: AND, ANDI, OR, ORI, EOR, EORI, NOT (spec/43_logical.md R280 to R287). -/

namespace Sys2Proof.Machine

/-- AND <ea>,Dn (R281). -/
def execAndToReg (sz : Size) (dn : RegNo) (ea : EA) (s : State) : Out :=
  runPlain (updateD sz dn ea (logicUpdate sz (· &&& ·))) s

/-- AND Dn,<ea> (R281). -/
def execAndToMem (sz : Size) (dn : RegNo) (ea : EA) (s : State) : Out :=
  runPlain (updateByD sz dn ea (logicUpdate sz (· &&& ·))) s

/-- ANDI (R282). -/
def execAndi (sz : Size) (v : Imm) (ea : EA) (s : State) : Out :=
  runPlain (updateImm sz v ea (logicUpdate sz (· &&& ·))) s

/-- OR <ea>,Dn (R283). -/
def execOrToReg (sz : Size) (dn : RegNo) (ea : EA) (s : State) : Out :=
  runPlain (updateD sz dn ea (logicUpdate sz (· ||| ·))) s

/-- OR Dn,<ea> (R283). -/
def execOrToMem (sz : Size) (dn : RegNo) (ea : EA) (s : State) : Out :=
  runPlain (updateByD sz dn ea (logicUpdate sz (· ||| ·))) s

/-- ORI (R284). -/
def execOri (sz : Size) (v : Imm) (ea : EA) (s : State) : Out :=
  runPlain (updateImm sz v ea (logicUpdate sz (· ||| ·))) s

/-- EOR Dn,<ea> (R285). -/
def execEor (sz : Size) (dn : RegNo) (ea : EA) (s : State) : Out :=
  runPlain (updateByD sz dn ea (logicUpdate sz (· ^^^ ·))) s

/-- EORI (R286). -/
def execEori (sz : Size) (v : Imm) (ea : EA) (s : State) : Out :=
  runPlain (updateImm sz v ea (logicUpdate sz (· ^^^ ·))) s

/-- NOT (R287). -/
def execNotOp (sz : Size) (ea : EA) (s : State) : Out :=
  runPlain (updateEA ea sz fun d sr => (sz.trunc (~~~d), sr.logic sz (sz.trunc (~~~d)))) s

end Sys2Proof.Machine
end

