-- ==== Sys2Proof/Machine/ProgramControl.lean ====
section
/-! DEFINITION. Program control: Bcc, BRA, BSR, DBcc, Scc, JMP, JSR, RTS, RTR, NOP (spec/47_program_control.md R335
to R345). A transfer to an odd address completes; the next fetch raises the address error (D19). -/

namespace Sys2Proof.Machine

/-- The target of Bcc, BRA, BSR (R148, R336): the base is the address of the operation word plus 2; a
displacement word is consumed whether the branch is taken or not. -/
def branchTarget (d : Disp) : M Long := do
  let base := (← get).pc
  match d with
  | .short b => return base + sextByte b
  | .word w => do
    fetchWords 1
    return base + sextWord w

/-- Bcc (R336). -/
def execBcc (cond : Cond) (d : Disp) (s : State) : Out :=
  runPlain (do
    let target ← branchTarget d
    modify fun s => if condHolds cond s.sr then { s with pc := target } else s) s

/-- BRA (R337). -/
def execBra (d : Disp) (s : State) : Out :=
  runPlain (do
    let target ← branchTarget d
    modify fun s => { s with pc := target }) s

/-- BSR (R338): the return address is the address after the instruction. -/
def execBsr (d : Disp) (s : State) : Out :=
  runPlain (do
    let target ← branchTarget d
    push32 (← get).pc
    modify fun s => { s with pc := target }) s

/-- DBcc (R339): only the low word counts. -/
def execDbcc (cond : Cond) (dn : RegNo) (d : Word) (s : State) : Out :=
  runPlain (do
    let base := (← get).pc
    fetchWords 1
    modify fun s =>
      if condHolds cond s.sr then s
      else
        let c := lowWord (s.readD dn) - 1
        let s := s.writeD dn (Size.w.merge (s.readD dn) (ofWord c))
        if c = 0xFFFF#16 then s else { s with pc := base + sextWord d }) s

/-- Scc (R340): a memory destination is read first (R74). -/
def execScc (cond : Cond) (ea : EA) (s : State) : Out :=
  runPlain (do
    let loc ← resolveEA ea .b
    discardRead loc .b
    writeLoc loc .b (if condHolds cond (← get).sr then 0xFF else 0)) s

/-- JMP (R341): the address itself. -/
def execJmp (ea : EA) (s : State) : Out :=
  runPlain (do
    let loc ← resolveEA ea .l
    modify fun s => { s with pc := loc.address }) s

/-- JSR (R342): the address is computed before the push. -/
def execJsr (ea : EA) (s : State) : Out :=
  runPlain (do
    let loc ← resolveEA ea .l
    push32 (← get).pc
    modify fun s => { s with pc := loc.address }) s

/-- RTS (R343). -/
def execRts (s : State) : Out :=
  runPlain (do
    let pc ← pop32
    modify fun s => { s with pc := pc }) s

/-- RTR (R344): the system byte is not changed. -/
def execRtr (s : State) : Out :=
  runPlain (do
    let w ← pop16
    modify fun s => { s with sr := s.sr.setCcr w }
    let pc ← pop32
    modify fun s => { s with pc := pc }) s

/-- NOP (R345). -/
def execNop (s : State) : Out := runPlain (pure ()) s

end Sys2Proof.Machine
end

