-- ==== Sys2Proof/Machine/Shift.lean ====
section
/-! DEFINITION. Shifts and rotates: ASL, ASR, LSL, LSR, ROL, ROR, ROXL, ROXR (spec/44_shift_rotate.md R295 to
R305). -/

namespace Sys2Proof.Machine

/-- The count of a register form (R296). -/
def shiftCount (c : ShiftCount) (s : State) : Nat :=
  match c with
  | .imm c => if c = 0 then 8 else c.toNat
  | .reg n => (s.readD n).toNat % 64

/-- A register form (R295): only the low part of the register takes part. -/
def shiftReg (op : ShiftOp) (c : ShiftCount) (sz : Size) (dy : RegNo) : M Unit :=
  modify fun s =>
    let t := shiftResult op sz (shiftCount c s) (sz.trunc (s.readD dy)) s.sr.x
    { s.writeD dy (sz.merge (s.readD dy) t.v) with sr := s.sr.shift sz t }

/-- A memory form (R305): a word, by one bit. -/
def shiftMem (op : ShiftOp) (ea : EA) : M Unit := do
  let loc ← resolveEA ea .w
  updateLocFlagsFirst loc .w fun d sr =>
    let t := shiftResult op .w 1 d sr.x
    (t.v, sr.shift .w t)

/-- ASL, register form (R297). -/
def execAslReg (c : ShiftCount) (sz : Size) (dy : RegNo) (s : State) : Out := runPlain (shiftReg .asl c sz dy) s

/-- ASL, memory form (R305). -/
def execAslMem (ea : EA) (s : State) : Out := runPlain (shiftMem .asl ea) s

/-- ASR, register form (R298). -/
def execAsrReg (c : ShiftCount) (sz : Size) (dy : RegNo) (s : State) : Out := runPlain (shiftReg .asr c sz dy) s

/-- ASR, memory form (R305). -/
def execAsrMem (ea : EA) (s : State) : Out := runPlain (shiftMem .asr ea) s

/-- LSL, register form (R299). -/
def execLslReg (c : ShiftCount) (sz : Size) (dy : RegNo) (s : State) : Out := runPlain (shiftReg .lsl c sz dy) s

/-- LSL, memory form (R305). -/
def execLslMem (ea : EA) (s : State) : Out := runPlain (shiftMem .lsl ea) s

/-- LSR, register form (R300). -/
def execLsrReg (c : ShiftCount) (sz : Size) (dy : RegNo) (s : State) : Out := runPlain (shiftReg .lsr c sz dy) s

/-- LSR, memory form (R305). -/
def execLsrMem (ea : EA) (s : State) : Out := runPlain (shiftMem .lsr ea) s

/-- ROL, register form (R301). -/
def execRolReg (c : ShiftCount) (sz : Size) (dy : RegNo) (s : State) : Out := runPlain (shiftReg .rol c sz dy) s

/-- ROL, memory form (R305). -/
def execRolMem (ea : EA) (s : State) : Out := runPlain (shiftMem .rol ea) s

/-- ROR, register form (R302). -/
def execRorReg (c : ShiftCount) (sz : Size) (dy : RegNo) (s : State) : Out := runPlain (shiftReg .ror c sz dy) s

/-- ROR, memory form (R305). -/
def execRorMem (ea : EA) (s : State) : Out := runPlain (shiftMem .ror ea) s

/-- ROXL, register form (R303). -/
def execRoxlReg (c : ShiftCount) (sz : Size) (dy : RegNo) (s : State) : Out := runPlain (shiftReg .roxl c sz dy) s

/-- ROXL, memory form (R305). -/
def execRoxlMem (ea : EA) (s : State) : Out := runPlain (shiftMem .roxl ea) s

/-- ROXR, register form (R304). -/
def execRoxrReg (c : ShiftCount) (sz : Size) (dy : RegNo) (s : State) : Out := runPlain (shiftReg .roxr c sz dy) s

/-- ROXR, memory form (R305). -/
def execRoxrMem (ea : EA) (s : State) : Out := runPlain (shiftMem .roxr ea) s

end Sys2Proof.Machine
end

