-- ==== Sys2Proof/Machine/SystemControl.lean ====
section
/-! DEFINITION. System control (spec/48_system_control.md R355 to R375): the instructions on CCR and SR, MOVE USP,
RESET, RTE, STOP, CHK, TRAP, TRAPV, and the illegal and unimplemented words. -/

namespace Sys2Proof.Machine

/-- An immediate combined with CCR (R356 to R358): bits 4-0. -/
def updateCcr (v : Word) (op : Word → Word → Word) : M Unit := do
  fetchWords 1
  modify fun s => { s with sr := s.sr.setCcr (op s.sr.toWord v) }

/-- An immediate combined with SR (R359 to R361), privileged. -/
def updateSr (v : Word) (op : Word → Word → Word) : M Ending :=
  privileged (do
    fetchWords 1
    modify fun s => { s with sr := StatusReg.ofWord (op s.sr.toWord v) })

/-- ANDI to CCR (R356). -/
def execAndiToCcr (v : Word) (s : State) : Out := runPlain (updateCcr v (· &&& ·)) s

/-- ANDI to SR (R359). -/
def execAndiToSr (v : Word) (s : State) : Out := runInstr (updateSr v (· &&& ·)) s

/-- EORI to CCR (R357). -/
def execEoriToCcr (v : Word) (s : State) : Out := runPlain (updateCcr v (· ^^^ ·)) s

/-- EORI to SR (R360). -/
def execEoriToSr (v : Word) (s : State) : Out := runInstr (updateSr v (· ^^^ ·)) s

/-- ORI to CCR (R358). -/
def execOriToCcr (v : Word) (s : State) : Out := runPlain (updateCcr v (· ||| ·)) s

/-- ORI to SR (R361). -/
def execOriToSr (v : Word) (s : State) : Out := runInstr (updateSr v (· ||| ·)) s

/-- MOVE to CCR (R362): a word is read. -/
def execMoveToCcr (ea : EA) (s : State) : Out :=
  runPlain (do
    let v ← readEA ea .w
    modify fun s => { s with sr := s.sr.setCcr (lowWord v) }) s

/-- MOVE to SR (R365). -/
def execMoveToSr (ea : EA) (s : State) : Out :=
  runInstr (privileged (do
    let v ← readEA ea .w
    modify fun s => { s with sr := StatusReg.ofWord (lowWord v) })) s

/-- MOVE from SR (R366), not privileged; a memory destination is read first (R74). -/
def execMoveFromSr (ea : EA) (s : State) : Out :=
  runPlain (do
    let loc ← resolveEA ea .w
    discardRead loc .w
    writeLoc loc .w (ofWord (← get).sr.toWord)) s

/-- MOVE An,USP (R363). -/
def execMoveToUsp (an : RegNo) (s : State) : Out :=
  runInstr (privileged (modify fun s => { s with usp := s.readA an })) s

/-- MOVE USP,An (R364). -/
def execMoveFromUsp (an : RegNo) (s : State) : Out :=
  runInstr (privileged (modify fun s => s.writeA an s.usp)) s

/-- RESET (R367): one `ResetOut` event, nothing else (D20). -/
def execReset (s : State) : Out :=
  runInstr (privileged (modify fun s => { s with resetOuts := s.resetOuts + 1 })) s

/-- RTE (R368). -/
def execRte (s : State) : Out := runInstr (privileged returnFromException) s

/-- STOP (R369). -/
def execStop (v : Word) (s : State) : Out :=
  runInstr (privileged (do
    fetchWords 1
    modify fun s => { s with sr := StatusReg.ofWord v, pstate := .stopped })) s

/-- The flags of CHK (R370): Z, V, C free (U1); N as the comparison says, or free. -/
def StatusReg.chk (sr : StatusReg) (n : Option Bool) (free : Long) : StatusReg :=
  { sr with
    n := n.getD (free.getLsbD 3)
    z := free.getLsbD 2
    v := free.getLsbD 1
    c := free.getLsbD 0 }

/-- CHK (R370): vector 6 where `Dn` is negative or above the bound. -/
def execChk (dn : RegNo) (ea : EA) (s : State) : Out :=
  runInstr (do
    let src ← readEA ea .w
    let f ← drawFree
    let d := (lowWord ((← get).readD dn)).toInt
    if d < 0 then
      modify fun s => { s with sr := s.sr.chk (some true) f }
      return .trap 6
    else if (lowWord src).toInt < d then
      modify fun s => { s with sr := s.sr.chk (some false) f }
      return .trap 6
    else
      modify fun s => { s with sr := s.sr.chk none f }
      return .done) s

/-- TRAP (R371): vector 32 + v. -/
def execTrap (v : BitVec 4) (s : State) : Out := runInstr (return .trap (32 + v.setWidth 8)) s

/-- TRAPV (R372): vector 7 where V = 1. -/
def execTrapv (s : State) : Out :=
  runInstr (do
    if (← get).sr.v then return .trap 7 else return .done) s

/-- An illegal operation word (R373, R433): vector 4. -/
def execIllegalWord (s : State) : Out := runInstr (return .notExecuted 4) s

/-- `$4AFC` (R373). -/
def execIllegal4AFC (s : State) : Out := execIllegalWord s

/-- `$4AFA` (R373). -/
def execIllegal4AFA (s : State) : Out := execIllegalWord s

/-- `$4AFB` (R373). -/
def execIllegal4AFB (s : State) : Out := execIllegalWord s

/-- A line 1010 word (R374): vector 10; its low twelve bits are the emulator's. -/
def execLineA (_w : BitVec 12) (s : State) : Out := runInstr (return .notExecuted 10) s

/-- A line 1111 word (R375): vector 11. -/
def execLineF (_w : BitVec 12) (s : State) : Out := runInstr (return .notExecuted 11) s

end Sys2Proof.Machine
end

