-- ==== Sys2Proof/Machine/Dispatch.lean ====
section
/-! DEFINITION. The meaning of every instruction: one arm per constructor of `Instr`, each one call of the
instruction's own meaning. -/

namespace Sys2Proof.Machine

def exec (i : Instr) (s : State) : Host.Outcome State Fault Refusal :=
  match i with
  | .ori sz v ea => Sys2Proof.Machine.execOri sz v ea s
  | .andi sz v ea => Sys2Proof.Machine.execAndi sz v ea s
  | .subi sz v ea => Sys2Proof.Machine.execSubi sz v ea s
  | .addi sz v ea => Sys2Proof.Machine.execAddi sz v ea s
  | .eori sz v ea => Sys2Proof.Machine.execEori sz v ea s
  | .cmpi sz v ea => Sys2Proof.Machine.execCmpi sz v ea s
  | .oriToCcr v => Sys2Proof.Machine.execOriToCcr v s
  | .oriToSr v => Sys2Proof.Machine.execOriToSr v s
  | .andiToCcr v => Sys2Proof.Machine.execAndiToCcr v s
  | .andiToSr v => Sys2Proof.Machine.execAndiToSr v s
  | .eoriToCcr v => Sys2Proof.Machine.execEoriToCcr v s
  | .eoriToSr v => Sys2Proof.Machine.execEoriToSr v s
  | .btstImm b ea => Sys2Proof.Machine.execBtstImm b ea s
  | .btstReg dn ea => Sys2Proof.Machine.execBtstReg dn ea s
  | .bchgImm b ea => Sys2Proof.Machine.execBchgImm b ea s
  | .bchgReg dn ea => Sys2Proof.Machine.execBchgReg dn ea s
  | .bclrImm b ea => Sys2Proof.Machine.execBclrImm b ea s
  | .bclrReg dn ea => Sys2Proof.Machine.execBclrReg dn ea s
  | .bsetImm b ea => Sys2Proof.Machine.execBsetImm b ea s
  | .bsetReg dn ea => Sys2Proof.Machine.execBsetReg dn ea s
  | .movepWToReg dx ay d => Sys2Proof.Machine.execMovepWToReg dx ay d s
  | .movepLToReg dx ay d => Sys2Proof.Machine.execMovepLToReg dx ay d s
  | .movepWToMem dx ay d => Sys2Proof.Machine.execMovepWToMem dx ay d s
  | .movepLToMem dx ay d => Sys2Proof.Machine.execMovepLToMem dx ay d s
  | .moveB src dst => Sys2Proof.Machine.execMoveB src dst s
  | .moveL src dst => Sys2Proof.Machine.execMoveL src dst s
  | .moveW src dst => Sys2Proof.Machine.execMoveW src dst s
  | .moveaL an src => Sys2Proof.Machine.execMoveaL an src s
  | .moveaW an src => Sys2Proof.Machine.execMoveaW an src s
  | .negx sz ea => Sys2Proof.Machine.execNegx sz ea s
  | .moveFromSr ea => Sys2Proof.Machine.execMoveFromSr ea s
  | .chk dn ea => Sys2Proof.Machine.execChk dn ea s
  | .lea an ea => Sys2Proof.Machine.execLea an ea s
  | .clr sz ea => Sys2Proof.Machine.execClr sz ea s
  | .neg sz ea => Sys2Proof.Machine.execNeg sz ea s
  | .moveToCcr ea => Sys2Proof.Machine.execMoveToCcr ea s
  | .notOp sz ea => Sys2Proof.Machine.execNotOp sz ea s
  | .moveToSr ea => Sys2Proof.Machine.execMoveToSr ea s
  | .nbcd ea => Sys2Proof.Machine.execNbcd ea s
  | .swap dn => Sys2Proof.Machine.execSwap dn s
  | .pea ea => Sys2Proof.Machine.execPea ea s
  | .extW dn => Sys2Proof.Machine.execExtW dn s
  | .extL dn => Sys2Proof.Machine.execExtL dn s
  | .movemToMem sz list ea => Sys2Proof.Machine.execMovemToMem sz list ea s
  | .tst sz ea => Sys2Proof.Machine.execTst sz ea s
  | .tas ea => Sys2Proof.Machine.execTas ea s
  | .illegal4AFC => Sys2Proof.Machine.execIllegal4AFC s
  | .illegal4AFA => Sys2Proof.Machine.execIllegal4AFA s
  | .illegal4AFB => Sys2Proof.Machine.execIllegal4AFB s
  | .movemToRegs sz list ea => Sys2Proof.Machine.execMovemToRegs sz list ea s
  | .trap v => Sys2Proof.Machine.execTrap v s
  | .link an d => Sys2Proof.Machine.execLink an d s
  | .unlk an => Sys2Proof.Machine.execUnlk an s
  | .moveToUsp an => Sys2Proof.Machine.execMoveToUsp an s
  | .moveFromUsp an => Sys2Proof.Machine.execMoveFromUsp an s
  | .reset => Sys2Proof.Machine.execReset s
  | .nop => Sys2Proof.Machine.execNop s
  | .stop v => Sys2Proof.Machine.execStop v s
  | .rte => Sys2Proof.Machine.execRte s
  | .rts => Sys2Proof.Machine.execRts s
  | .trapv => Sys2Proof.Machine.execTrapv s
  | .rtr => Sys2Proof.Machine.execRtr s
  | .jsr ea => Sys2Proof.Machine.execJsr ea s
  | .jmp ea => Sys2Proof.Machine.execJmp ea s
  | .addq q sz ea => Sys2Proof.Machine.execAddq q sz ea s
  | .subq q sz ea => Sys2Proof.Machine.execSubq q sz ea s
  | .scc cond ea => Sys2Proof.Machine.execScc cond ea s
  | .dbcc cond dn d => Sys2Proof.Machine.execDbcc cond dn d s
  | .bra d => Sys2Proof.Machine.execBra d s
  | .bsr d => Sys2Proof.Machine.execBsr d s
  | .bcc cond d => Sys2Proof.Machine.execBcc cond d s
  | .moveq dn v => Sys2Proof.Machine.execMoveq dn v s
  | .orToReg sz dn ea => Sys2Proof.Machine.execOrToReg sz dn ea s
  | .orToMem sz dn ea => Sys2Proof.Machine.execOrToMem sz dn ea s
  | .divu dn ea => Sys2Proof.Machine.execDivu dn ea s
  | .divs dn ea => Sys2Proof.Machine.execDivs dn ea s
  | .sbcdReg dx dy => Sys2Proof.Machine.execSbcdReg dx dy s
  | .sbcdMem ax ay => Sys2Proof.Machine.execSbcdMem ax ay s
  | .subToReg sz dn ea => Sys2Proof.Machine.execSubToReg sz dn ea s
  | .subToMem sz dn ea => Sys2Proof.Machine.execSubToMem sz dn ea s
  | .subaW an ea => Sys2Proof.Machine.execSubaW an ea s
  | .subaL an ea => Sys2Proof.Machine.execSubaL an ea s
  | .subxReg sz dx dy => Sys2Proof.Machine.execSubxReg sz dx dy s
  | .subxMem sz ax ay => Sys2Proof.Machine.execSubxMem sz ax ay s
  | .addToReg sz dn ea => Sys2Proof.Machine.execAddToReg sz dn ea s
  | .addToMem sz dn ea => Sys2Proof.Machine.execAddToMem sz dn ea s
  | .addaW an ea => Sys2Proof.Machine.execAddaW an ea s
  | .addaL an ea => Sys2Proof.Machine.execAddaL an ea s
  | .addxReg sz dx dy => Sys2Proof.Machine.execAddxReg sz dx dy s
  | .addxMem sz ax ay => Sys2Proof.Machine.execAddxMem sz ax ay s
  | .lineA w => Sys2Proof.Machine.execLineA w s
  | .cmp sz dn ea => Sys2Proof.Machine.execCmp sz dn ea s
  | .cmpaW an ea => Sys2Proof.Machine.execCmpaW an ea s
  | .cmpaL an ea => Sys2Proof.Machine.execCmpaL an ea s
  | .eor sz dn ea => Sys2Proof.Machine.execEor sz dn ea s
  | .cmpm sz ax ay => Sys2Proof.Machine.execCmpm sz ax ay s
  | .andToReg sz dn ea => Sys2Proof.Machine.execAndToReg sz dn ea s
  | .andToMem sz dn ea => Sys2Proof.Machine.execAndToMem sz dn ea s
  | .mulu dn ea => Sys2Proof.Machine.execMulu dn ea s
  | .muls dn ea => Sys2Proof.Machine.execMuls dn ea s
  | .abcdReg dx dy => Sys2Proof.Machine.execAbcdReg dx dy s
  | .abcdMem ax ay => Sys2Proof.Machine.execAbcdMem ax ay s
  | .exgDD dx dy => Sys2Proof.Machine.execExgDD dx dy s
  | .exgAA ax ay => Sys2Proof.Machine.execExgAA ax ay s
  | .exgDA dx ay => Sys2Proof.Machine.execExgDA dx ay s
  | .aslReg c sz dy => Sys2Proof.Machine.execAslReg c sz dy s
  | .aslMem ea => Sys2Proof.Machine.execAslMem ea s
  | .asrReg c sz dy => Sys2Proof.Machine.execAsrReg c sz dy s
  | .asrMem ea => Sys2Proof.Machine.execAsrMem ea s
  | .lslReg c sz dy => Sys2Proof.Machine.execLslReg c sz dy s
  | .lslMem ea => Sys2Proof.Machine.execLslMem ea s
  | .lsrReg c sz dy => Sys2Proof.Machine.execLsrReg c sz dy s
  | .lsrMem ea => Sys2Proof.Machine.execLsrMem ea s
  | .roxlReg c sz dy => Sys2Proof.Machine.execRoxlReg c sz dy s
  | .roxlMem ea => Sys2Proof.Machine.execRoxlMem ea s
  | .roxrReg c sz dy => Sys2Proof.Machine.execRoxrReg c sz dy s
  | .roxrMem ea => Sys2Proof.Machine.execRoxrMem ea s
  | .rolReg c sz dy => Sys2Proof.Machine.execRolReg c sz dy s
  | .rolMem ea => Sys2Proof.Machine.execRolMem ea s
  | .rorReg c sz dy => Sys2Proof.Machine.execRorReg c sz dy s
  | .rorMem ea => Sys2Proof.Machine.execRorMem ea s
  | .lineF w => Sys2Proof.Machine.execLineF w s

end Sys2Proof.Machine
end

