-- ==== Sys2Proof/WellFormed.lean ====
section
/-! DEFINITION. Which terms of `Instr` are instructions: the constraints of the opcode table's rows (R152
to R164, spec/30_encoding.md) on addressing modes, sizes, conditions and displacements. -/

namespace Sys2Proof

/-- A Bcc has one of the conditions 0010-1111; the other two codes are BRA and BSR (R149, R156). -/
def Cond.isBranchCond : Cond → Bool
  | .t | .f => false
  | _ => true

/-- The 8-bit displacement `$00` announces a displacement word (R148), so a short displacement is not 0. -/
def Disp.isEncodable : Disp → Bool
  | .short d => d != 0
  | .word _ => true

/-- The constraints of the instruction's row. -/
def Instr.wellFormed : Instr → Bool
  | .ori sz v ea | .andi sz v ea | .subi sz v ea | .addi sz v ea | .eori sz v ea | .cmpi sz v ea =>
    v.admits sz && ea.isIn Mode.isDataAlterable sz
  | .btstImm _ ea => ea.isIn Mode.isDataNotImm .b
  | .btstReg _ ea => ea.isIn Mode.isData .b
  | .bchgImm _ ea | .bchgReg _ ea | .bclrImm _ ea | .bclrReg _ ea | .bsetImm _ ea | .bsetReg _ ea =>
    ea.isIn Mode.isDataAlterable .b
  | .moveB src dst => src.isIn Mode.isData .b && dst.isIn Mode.isDataAlterable .b
  | .moveL src dst => src.isIn Mode.isAny .l && dst.isIn Mode.isDataAlterable .l
  | .moveW src dst => src.isIn Mode.isAny .w && dst.isIn Mode.isDataAlterable .w
  | .moveaL _ src => src.isIn Mode.isAny .l
  | .moveaW _ src => src.isIn Mode.isAny .w
  | .negx sz ea | .clr sz ea | .neg sz ea | .notOp sz ea | .tst sz ea => ea.isIn Mode.isDataAlterable sz
  | .moveFromSr ea => ea.isIn Mode.isDataAlterable .w
  | .chk _ ea | .moveToCcr ea | .moveToSr ea => ea.isIn Mode.isData .w
  | .lea _ ea | .pea ea | .jsr ea | .jmp ea => ea.isIn Mode.isControl .l
  | .nbcd ea | .tas ea | .scc _ ea => ea.isIn Mode.isDataAlterable .b
  | .movemToMem sz _ ea => ea.isIn Mode.isMovemStore sz.size
  | .movemToRegs sz _ ea => ea.isIn Mode.isMovemLoad sz.size
  | .addq _ sz ea | .subq _ sz ea => ea.isIn Mode.isAlterable sz
  | .bra d | .bsr d => d.isEncodable
  | .bcc cond d => cond.isBranchCond && d.isEncodable
  | .orToReg sz _ ea | .andToReg sz _ ea => ea.isIn Mode.isData sz
  | .orToMem sz _ ea | .andToMem sz _ ea | .subToMem sz _ ea | .addToMem sz _ ea =>
    ea.isIn Mode.isMemoryAlterable sz
  | .divu _ ea | .divs _ ea | .mulu _ ea | .muls _ ea => ea.isIn Mode.isData .w
  | .subToReg sz _ ea | .addToReg sz _ ea | .cmp sz _ ea => ea.isIn Mode.isAny sz
  | .subaW _ ea | .addaW _ ea | .cmpaW _ ea => ea.isIn Mode.isAny .w
  | .subaL _ ea | .addaL _ ea | .cmpaL _ ea => ea.isIn Mode.isAny .l
  | .eor sz _ ea => ea.isIn Mode.isDataAlterable sz
  | .aslMem ea | .asrMem ea | .lslMem ea | .lsrMem ea | .roxlMem ea | .roxrMem ea | .rolMem ea
  | .rorMem ea => ea.isIn Mode.isMemoryAlterable .w
  | .oriToCcr _ | .oriToSr _ | .andiToCcr _ | .andiToSr _ | .eoriToCcr _ | .eoriToSr _ => true
  | .movepWToReg _ _ _ | .movepLToReg _ _ _ | .movepWToMem _ _ _ | .movepLToMem _ _ _ => true
  | .swap _ | .extW _ | .extL _ | .illegal4AFC | .illegal4AFA | .illegal4AFB => true
  | .trap _ | .link _ _ | .unlk _ | .moveToUsp _ | .moveFromUsp _ => true
  | .reset | .nop | .stop _ | .rte | .rts | .trapv | .rtr => true
  | .dbcc _ _ _ | .moveq _ _ => true
  | .sbcdReg _ _ | .sbcdMem _ _ | .abcdReg _ _ | .abcdMem _ _ => true
  | .subxReg _ _ _ | .subxMem _ _ _ | .addxReg _ _ _ | .addxMem _ _ _ | .cmpm _ _ _ => true
  | .exgDD _ _ | .exgAA _ _ | .exgDA _ _ => true
  | .lineA _ | .lineF _ => true
  | .aslReg _ _ _ | .asrReg _ _ _ | .lslReg _ _ _ | .lsrReg _ _ _ => true
  | .roxlReg _ _ _ | .roxrReg _ _ _ | .rolReg _ _ _ | .rorReg _ _ _ => true

end Sys2Proof
end

