-- ==== Sys2Proof/Decode.lean ====
section
/-! DEFINITION. The decoder and, after it, the encoder, both written from spec/30_encoding.md R140 to R166.
Every operation word is cut once into the five fields of R142 and R150: the line (bits 15-12), the register
field (11-9), bits 8-6, and the effective-address field's mode (5-3) and register (2-0). -/

namespace Sys2Proof

/-- Why the decoder rejects words. -/
inductive Reject where
  /-- The operation word is no legal first word (R166): the machine raises the illegal instruction
  exception. -/
  | illegalWord
  /-- The list of words ends inside the instruction. -/
  | truncated
  deriving DecidableEq, Repr

/-- What a decoding step gives: its result and the words after it. -/
abbrev Decoded (α : Type) := Except Reject (α × List Word)

/-! ## Fields -/

/-- Bits 15-12: the line of R152 to R165. -/
def Word.line (w : Word) : BitVec 4 := w.extractLsb' 12 4

/-- Bits 11-9: the register field `x` (R150). -/
def Word.regX (w : Word) : BitVec 3 := w.extractLsb' 9 3

/-- Bits 8-6: opmode, or a direction bit and the size field, or MOVE's destination mode. -/
def Word.opmode (w : Word) : BitVec 3 := w.extractLsb' 6 3

/-- Bits 5-3: the effective-address mode (R142). -/
def Word.eaMode (w : Word) : BitVec 3 := w.extractLsb' 3 3

/-- Bits 2-0: the effective-address register, or the register field `y` (R142, R150). -/
def Word.eaReg (w : Word) : BitVec 3 := w.extractLsb' 0 3

/-- An operation word from its five fields. -/
def opWord (line : BitVec 4) (x op mode reg : BitVec 3) : Word := line ++ x ++ op ++ mode ++ reg

/-- The register a 3-bit field names (R25). -/
def regOf (b : BitVec 3) : RegNo := ⟨b.toNat, b.isLt⟩

/-- The 3-bit field of a register (R25). -/
def regBits (r : RegNo) : BitVec 3 := BitVec.ofNat 3 r.val

/-- The size field of bits 7-6 (R146): 00, 01, 10; 11 is no size. -/
def sizeOf (ss : BitVec 2) : Option Size :=
  match ss.toNat with
  | 0 => some .b
  | 1 => some .w
  | 2 => some .l
  | _ => none

/-- The size field of a size (R146). -/
def sizeBits : Size → BitVec 2
  | .b => 0
  | .w => 1
  | .l => 2

/-- Bits 7-6 of the operation word: the low two bits of bits 8-6. -/
def ssOf (op : BitVec 3) : BitVec 2 := op.extractLsb' 0 2

/-- Bit 8 of the operation word. -/
def bit8 (op : BitVec 3) : Bool := op.getLsbD 2

/-- Bits 8-6 from bit 8 and the size field. -/
def opBits (hi : Bool) (ss : BitVec 2) : BitVec 3 := BitVec.ofBool hi ++ ss

/-- The low byte of the operation word (R147, R148), from its fields. -/
def low8 (op mode reg : BitVec 3) : Byte := ssOf op ++ mode ++ reg

/-- The low twelve bits of the operation word (R160, R165), from its fields. -/
def low12 (x op mode reg : BitVec 3) : BitVec 12 := x ++ op ++ mode ++ reg

/-- The condition field of bits 11-8 (R149), from the fields that hold it. -/
def condField (x op : BitVec 3) : BitVec 4 := x ++ op.extractLsb' 2 1

/-- The condition a code names (R335). -/
def condOf (c : BitVec 4) : Cond :=
  match c.toNat with
  | 0 => .t
  | 1 => .f
  | 2 => .hi
  | 3 => .ls
  | 4 => .cc
  | 5 => .cs
  | 6 => .ne
  | 7 => .eq
  | 8 => .vc
  | 9 => .vs
  | 10 => .pl
  | 11 => .mi
  | 12 => .ge
  | 13 => .lt
  | 14 => .gt
  | _ => .le

/-- The code of a condition (R335). -/
def condBits : Cond → BitVec 4
  | .t => 0
  | .f => 1
  | .hi => 2
  | .ls => 3
  | .cc => 4
  | .cs => 5
  | .ne => 6
  | .eq => 7
  | .vc => 8
  | .vs => 9
  | .pl => 10
  | .mi => 11
  | .ge => 12
  | .lt => 13
  | .gt => 14
  | .le => 15

/-- The mode that the mode and register bits name; 111 with 101 to 111 is no mode (R143). -/
def modeOf (mode reg : BitVec 3) : Option Mode :=
  match mode.toNat with
  | 0 => some .dreg
  | 1 => some .areg
  | 2 => some .ind
  | 3 => some .postInc
  | 4 => some .preDec
  | 5 => some .disp
  | 6 => some .index
  | _ =>
    match reg.toNat with
    | 0 => some .absW
    | 1 => some .absL
    | 2 => some .pcDisp
    | 3 => some .pcIndex
    | 4 => some .imm
    | _ => none

/-! ## Extension words -/

/-- The fields of an index extension word (R144). -/
def indexWordOf (w : Word) : IndexWord where
  isAddr := w.getLsbD 15
  reg := regOf (w.extractLsb' 12 3)
  long := w.getLsbD 11
  unused := w.extractLsb' 8 3
  d8 := w.extractLsb' 0 8

/-- The extension word of an indexed mode (R144). -/
def indexWordBits (x : IndexWord) : Word :=
  BitVec.ofBool x.isAddr ++ regBits x.reg ++ BitVec.ofBool x.long ++ x.unused ++ x.d8

/-- The next word. -/
def takeWord : List Word → Decoded Word
  | w :: ws => .ok (w, ws)
  | [] => .error .truncated

/-- The next two words as a long word, high-order word first (R145, R189). -/
def takeLong : List Word → Decoded Long
  | h :: l :: ws => .ok (h ++ l, ws)
  | _ => .error .truncated

/-- The two words of a long word, high-order word first. -/
def longWords (v : Long) : List Word := [v.extractLsb' 16 16, v.extractLsb' 0 16]

/-- The immediate of an immediate instruction (R145). -/
def takeImm (sz : Size) (ws : List Word) : Decoded Imm :=
  match sz with
  | .l => (takeLong ws).map fun (v, r) => (.long v, r)
  | _ => (takeWord ws).map fun (v, r) => (.word v, r)

/-- The words of an immediate (R145). -/
def immWords : Imm → List Word
  | .word v => [v]
  | .long v => longWords v

/-- The extension words of an effective address (R143). -/
def takeEA (m : Mode) (reg : RegNo) (sz : Size) (ws : List Word) : Decoded EA :=
  match m with
  | .dreg => .ok (.dreg reg, ws)
  | .areg => .ok (.areg reg, ws)
  | .ind => .ok (.ind reg, ws)
  | .postInc => .ok (.postInc reg, ws)
  | .preDec => .ok (.preDec reg, ws)
  | .disp => (takeWord ws).map fun (d, r) => (.disp reg d, r)
  | .index => (takeWord ws).map fun (x, r) => (.index reg (indexWordOf x), r)
  | .absW => (takeWord ws).map fun (v, r) => (.absW v, r)
  | .absL => (takeLong ws).map fun (v, r) => (.absL v, r)
  | .pcDisp => (takeWord ws).map fun (d, r) => (.pcDisp d, r)
  | .pcIndex => (takeWord ws).map fun (x, r) => (.pcIndex (indexWordOf x), r)
  | .imm =>
    match sz with
    | .l => (takeLong ws).map fun (v, r) => (.imm32 v, r)
    | _ => (takeWord ws).map fun (v, r) => (.imm16 v, r)

/-- An effective address of a category: the word is illegal where the mode is not of the category, where it
is no mode, or where it is `An` with byte size (R166, R182). Legality is decided before any extension word
is looked at (R141). -/
def decodeEA (category : Mode → Bool) (sz : Size) (mode reg : BitVec 3) (ws : List Word) : Decoded EA :=
  match modeOf mode reg with
  | none => .error .illegalWord
  | some m =>
    if category m && !(m == .areg && sz == .b) then takeEA m (regOf reg) sz ws
    else .error .illegalWord

/-! ## The decoder, line by line -/

/-- The immediate instruction of R152 that bits 11-9 select. -/
def immediateInstr (x : BitVec 3) (sz : Size) (v : Imm) (ea : EA) : Option Instr :=
  match x.toNat with
  | 0 => some (.ori sz v ea)
  | 1 => some (.andi sz v ea)
  | 2 => some (.subi sz v ea)
  | 3 => some (.addi sz v ea)
  | 5 => some (.eori sz v ea)
  | 6 => some (.cmpi sz v ea)
  | _ => none

/-- The six words `$003C` to `$0A7C` (R152): an immediate to CCR (byte size) or to SR (word size). -/
def toStatusInstr (x : BitVec 3) (ss : BitVec 2) (v : Word) : Option Instr :=
  match x.toNat, ss.toNat with
  | 0, 0 => some (.oriToCcr v)
  | 0, 1 => some (.oriToSr v)
  | 1, 0 => some (.andiToCcr v)
  | 1, 1 => some (.andiToSr v)
  | 5, 0 => some (.eoriToCcr v)
  | 5, 1 => some (.eoriToSr v)
  | _, _ => none

/-- An instruction where the row exists, else an illegal word. -/
def orIllegal (i : Option Instr) (ws : List Word) : Decoded Instr :=
  match i with
  | some i => .ok (i, ws)
  | none => .error .illegalWord

/-- The static bit instructions (R152), bit number word first. -/
def decodeBitStatic (ss : BitVec 2) (mode reg : BitVec 3) (ws : List Word) : Decoded Instr :=
  match ws with
  | [] => .error .truncated
  | b :: ws =>
    match ss.toNat with
    | 0 => (decodeEA Mode.isDataNotImm .b mode reg ws).map fun (ea, r) => (.btstImm b ea, r)
    | 1 => (decodeEA Mode.isDataAlterable .b mode reg ws).map fun (ea, r) => (.bchgImm b ea, r)
    | 2 => (decodeEA Mode.isDataAlterable .b mode reg ws).map fun (ea, r) => (.bclrImm b ea, r)
    | _ => (decodeEA Mode.isDataAlterable .b mode reg ws).map fun (ea, r) => (.bsetImm b ea, r)

/-- The dynamic bit instructions and, with mode 001, MOVEP (R152). -/
def decodeBitDynamic (x : BitVec 3) (ss : BitVec 2) (mode reg : BitVec 3) (ws : List Word) : Decoded Instr :=
  if mode.toNat = 1 then
    match ss.toNat with
    | 0 => (takeWord ws).map fun (d, r) => (.movepWToReg (regOf x) (regOf reg) d, r)
    | 1 => (takeWord ws).map fun (d, r) => (.movepLToReg (regOf x) (regOf reg) d, r)
    | 2 => (takeWord ws).map fun (d, r) => (.movepWToMem (regOf x) (regOf reg) d, r)
    | _ => (takeWord ws).map fun (d, r) => (.movepLToMem (regOf x) (regOf reg) d, r)
  else
    match ss.toNat with
    | 0 => (decodeEA Mode.isData .b mode reg ws).map fun (ea, r) => (.btstReg (regOf x) ea, r)
    | 1 => (decodeEA Mode.isDataAlterable .b mode reg ws).map fun (ea, r) => (.bchgReg (regOf x) ea, r)
    | 2 => (decodeEA Mode.isDataAlterable .b mode reg ws).map fun (ea, r) => (.bclrReg (regOf x) ea, r)
    | _ => (decodeEA Mode.isDataAlterable .b mode reg ws).map fun (ea, r) => (.bsetReg (regOf x) ea, r)

/-- Line 0000 (R152). -/
def decodeLine0 (x op mode reg : BitVec 3) (ws : List Word) : Decoded Instr :=
  if bit8 op then decodeBitDynamic x (ssOf op) mode reg ws
  else if x.toNat = 4 then decodeBitStatic (ssOf op) mode reg ws
  else if mode.toNat = 7 && reg.toNat = 4 then
    match toStatusInstr x (ssOf op) 0 with
    | none => .error .illegalWord
    | some _ =>
      match ws with
      | [] => .error .truncated
      | v :: ws => orIllegal (toStatusInstr x (ssOf op) v) ws
  else
    match sizeOf (ssOf op) with
    | none => .error .illegalWord
    | some sz =>
      match takeImm sz ws with
      | .error e => .error e
      | .ok (v, ws) =>
        match decodeEA Mode.isDataAlterable sz mode reg ws with
        | .error e => .error e
        | .ok (ea, ws) => orIllegal (immediateInstr x sz v ea) ws

/-- The MOVE of a size (R153). -/
def moveInstr (sz : Size) (src dst : EA) : Instr :=
  match sz with
  | .b => .moveB src dst
  | .w => .moveW src dst
  | .l => .moveL src dst

/-- The MOVEA of a size; MOVEA.B does not exist (R153). -/
def moveaInstr (sz : Size) (an : RegNo) (src : EA) : Option Instr :=
  match sz with
  | .b => none
  | .w => some (.moveaW an src)
  | .l => some (.moveaL an src)

/-- Lines 0001, 0010, 0011 (R153): source extension words first, then the destination's. The destination
field holds the register in bits 11-9 and the mode in bits 8-6. -/
def decodeMove (sz : Size) (x op mode reg : BitVec 3) (ws : List Word) : Decoded Instr :=
  if op.toNat = 1 then
    match moveaInstr sz (regOf x) (.dreg 0) with
    | none => .error .illegalWord
    | some _ =>
      match decodeEA Mode.isAny sz mode reg ws with
      | .error e => .error e
      | .ok (src, ws) => orIllegal (moveaInstr sz (regOf x) src) ws
  else
    match decodeEA Mode.isAny sz mode reg ws with
    | .error e => .error e
    | .ok (src, ws) =>
      match decodeEA Mode.isDataAlterable sz op x ws with
      | .error e => .error e
      | .ok (dst, ws) => .ok (moveInstr sz src dst, ws)

/-- The words `$4E40` to `$4E7F` (R154). -/
def decodeSystem (mode reg : BitVec 3) (ws : List Word) : Decoded Instr :=
  match mode.toNat with
  | 0 => .ok (.trap (mode.extractLsb' 0 1 ++ reg), ws)
  | 1 => .ok (.trap (mode.extractLsb' 0 1 ++ reg), ws)
  | 2 => (takeWord ws).map fun (d, r) => (.link (regOf reg) d, r)
  | 3 => .ok (.unlk (regOf reg), ws)
  | 4 => .ok (.moveToUsp (regOf reg), ws)
  | 5 => .ok (.moveFromUsp (regOf reg), ws)
  | 6 =>
    match reg.toNat with
    | 0 => .ok (.reset, ws)
    | 1 => .ok (.nop, ws)
    | 2 => (takeWord ws).map fun (v, r) => (.stop v, r)
    | 3 => .ok (.rte, ws)
    | 5 => .ok (.rts, ws)
    | 6 => .ok (.trapv, ws)
    | 7 => .ok (.rtr, ws)
    | _ => .error .illegalWord
  | _ => .error .illegalWord

/-- A single-operand instruction with a size field (R154). -/
def decodeSized (mk : Size → EA → Instr) (ss : BitVec 2) (mode reg : BitVec 3) (ws : List Word) :
    Decoded Instr :=
  match sizeOf ss with
  | none => .error .illegalWord
  | some sz => (decodeEA Mode.isDataAlterable sz mode reg ws).map fun (ea, r) => (mk sz ea, r)

/-- A MOVEM of one direction (R154): the mask word precedes the extension words (R151). -/
def decodeMovem (mk : Word → EA → Instr) (category : Mode → Bool) (sz : Size) (mode reg : BitVec 3)
    (ws : List Word) : Decoded Instr :=
  match ws with
  | [] => .error .truncated
  | list :: ws => (decodeEA category sz mode reg ws).map fun (ea, r) => (mk list ea, r)

/-- The one-operand group of line 0100 (bit 8 = 0), by bits 11-9 and 7-6 (R154). -/
def decodeMisc (x : BitVec 3) (ss : BitVec 2) (mode reg : BitVec 3) (ws : List Word) : Decoded Instr :=
  match x.toNat, ss.toNat with
  | 0, 3 => (decodeEA Mode.isDataAlterable .w mode reg ws).map fun (ea, r) => (.moveFromSr ea, r)
  | 0, _ => decodeSized .negx ss mode reg ws
  | 1, _ => decodeSized .clr ss mode reg ws
  | 2, 3 => (decodeEA Mode.isData .w mode reg ws).map fun (ea, r) => (.moveToCcr ea, r)
  | 2, _ => decodeSized .neg ss mode reg ws
  | 3, 3 => (decodeEA Mode.isData .w mode reg ws).map fun (ea, r) => (.moveToSr ea, r)
  | 3, _ => decodeSized .notOp ss mode reg ws
  | 4, 0 => (decodeEA Mode.isDataAlterable .b mode reg ws).map fun (ea, r) => (.nbcd ea, r)
  | 4, 1 =>
    if mode.toNat = 0 then .ok (.swap (regOf reg), ws)
    else (decodeEA Mode.isControl .l mode reg ws).map fun (ea, r) => (.pea ea, r)
  | 4, 2 =>
    if mode.toNat = 0 then .ok (.extW (regOf reg), ws)
    else decodeMovem (.movemToMem .w) Mode.isMovemStore .w mode reg ws
  | 4, _ =>
    if mode.toNat = 0 then .ok (.extL (regOf reg), ws)
    else decodeMovem (.movemToMem .l) Mode.isMovemStore .l mode reg ws
  | 5, 3 =>
    match mode.toNat, reg.toNat with
    | 7, 2 => .ok (.illegal4AFA, ws)
    | 7, 3 => .ok (.illegal4AFB, ws)
    | 7, 4 => .ok (.illegal4AFC, ws)
    | _, _ => (decodeEA Mode.isDataAlterable .b mode reg ws).map fun (ea, r) => (.tas ea, r)
  | 5, _ => decodeSized .tst ss mode reg ws
  | 6, 2 => decodeMovem (.movemToRegs .w) Mode.isMovemLoad .w mode reg ws
  | 6, 3 => decodeMovem (.movemToRegs .l) Mode.isMovemLoad .l mode reg ws
  | 7, 1 => decodeSystem mode reg ws
  | 7, 2 => (decodeEA Mode.isControl .l mode reg ws).map fun (ea, r) => (.jsr ea, r)
  | 7, 3 => (decodeEA Mode.isControl .l mode reg ws).map fun (ea, r) => (.jmp ea, r)
  | _, _ => .error .illegalWord

/-- Line 0100 (R154). -/
def decodeLine4 (x op mode reg : BitVec 3) (ws : List Word) : Decoded Instr :=
  match op.toNat with
  | 6 => (decodeEA Mode.isData .w mode reg ws).map fun (ea, r) => (.chk (regOf x) ea, r)
  | 7 => (decodeEA Mode.isControl .l mode reg ws).map fun (ea, r) => (.lea (regOf x) ea, r)
  | 4 => .error .illegalWord
  | 5 => .error .illegalWord
  | _ => decodeMisc x (ssOf op) mode reg ws

/-- Line 0101 (R155). -/
def decodeLine5 (x op mode reg : BitVec 3) (ws : List Word) : Decoded Instr :=
  match sizeOf (ssOf op) with
  | some sz =>
    (decodeEA Mode.isAlterable sz mode reg ws).map fun (ea, r) =>
      (if bit8 op then .subq x sz ea else .addq x sz ea, r)
  | none =>
    if mode.toNat = 1 then
      (takeWord ws).map fun (d, r) => (.dbcc (condOf (condField x op)) (regOf reg) d, r)
    else
      (decodeEA Mode.isDataAlterable .b mode reg ws).map fun (ea, r) => (.scc (condOf (condField x op)) ea, r)

/-- The displacement of a branch (R148): `$00` in the operation word announces a displacement word. -/
def takeDisp (d8 : Byte) (ws : List Word) : Decoded Disp :=
  if d8 = 0 then (takeWord ws).map fun (d, r) => (.word d, r) else .ok (.short d8, ws)

/-- Line 0110 (R156). -/
def decodeLine6 (x op mode reg : BitVec 3) (ws : List Word) : Decoded Instr :=
  (takeDisp (low8 op mode reg) ws).map fun (d, r) =>
    (match condOf (condField x op) with
      | .t => .bra d
      | .f => .bsr d
      | cond => .bcc cond d, r)

/-- Line 0111 (R157). -/
def decodeLine7 (x op mode reg : BitVec 3) (ws : List Word) : Decoded Instr :=
  if bit8 op then .error .illegalWord else .ok (.moveq (regOf x) (low8 op mode reg), ws)

/-- A two-operand instruction with a size in bits 7-6 and a register in bits 11-9. -/
def decodeDyadic (mk : Size → RegNo → EA → Instr) (category : Mode → Bool) (x op mode reg : BitVec 3)
    (ws : List Word) : Decoded Instr :=
  match sizeOf (ssOf op) with
  | none => .error .illegalWord
  | some sz => (decodeEA category sz mode reg ws).map fun (ea, r) => (mk sz (regOf x) ea, r)

/-- A two-operand instruction of one fixed size with a register in bits 11-9. -/
def decodeFixed (mk : RegNo → EA → Instr) (category : Mode → Bool) (sz : Size) (x mode reg : BitVec 3)
    (ws : List Word) : Decoded Instr :=
  (decodeEA category sz mode reg ws).map fun (ea, r) => (mk (regOf x) ea, r)

/-- A one-word instruction on two registers with a size in bits 7-6. -/
def decodePair (mk : Size → RegNo → RegNo → Instr) (x op reg : BitVec 3) (ws : List Word) : Decoded Instr :=
  match sizeOf (ssOf op) with
  | none => .error .illegalWord
  | some sz => .ok (mk sz (regOf x) (regOf reg), ws)

/-- Line 1000 (R158): OR, DIVU, DIVS, SBCD. -/
def decodeLine8 (x op mode reg : BitVec 3) (ws : List Word) : Decoded Instr :=
  match op.toNat, mode.toNat with
  | 3, _ => decodeFixed .divu Mode.isData .w x mode reg ws
  | 7, _ => decodeFixed .divs Mode.isData .w x mode reg ws
  | 4, 0 => .ok (.sbcdReg (regOf x) (regOf reg), ws)
  | 4, 1 => .ok (.sbcdMem (regOf x) (regOf reg), ws)
  | 4, _ => decodeDyadic .orToMem Mode.isMemoryAlterable x op mode reg ws
  | 5, _ => decodeDyadic .orToMem Mode.isMemoryAlterable x op mode reg ws
  | 6, _ => decodeDyadic .orToMem Mode.isMemoryAlterable x op mode reg ws
  | _, _ => decodeDyadic .orToReg Mode.isData x op mode reg ws

/-- Line 1001 (R159): SUB, SUBA, SUBX. -/
def decodeLine9 (x op mode reg : BitVec 3) (ws : List Word) : Decoded Instr :=
  if op.toNat = 3 then decodeFixed .subaW Mode.isAny .w x mode reg ws
  else if op.toNat = 7 then decodeFixed .subaL Mode.isAny .l x mode reg ws
  else if bit8 op then
    match mode.toNat with
    | 0 => decodePair .subxReg x op reg ws
    | 1 => decodePair .subxMem x op reg ws
    | _ => decodeDyadic .subToMem Mode.isMemoryAlterable x op mode reg ws
  else decodeDyadic .subToReg Mode.isAny x op mode reg ws

/-- Line 1011 (R161): CMP, CMPA, EOR, CMPM. -/
def decodeLineB (x op mode reg : BitVec 3) (ws : List Word) : Decoded Instr :=
  if op.toNat = 3 then decodeFixed .cmpaW Mode.isAny .w x mode reg ws
  else if op.toNat = 7 then decodeFixed .cmpaL Mode.isAny .l x mode reg ws
  else if bit8 op then
    match mode.toNat with
    | 1 => decodePair .cmpm x op reg ws
    | _ => decodeDyadic .eor Mode.isDataAlterable x op mode reg ws
  else decodeDyadic .cmp Mode.isAny x op mode reg ws

/-- Line 1100 (R162): AND, MULU, MULS, ABCD, EXG. -/
def decodeLineC (x op mode reg : BitVec 3) (ws : List Word) : Decoded Instr :=
  match op.toNat, mode.toNat with
  | 3, _ => decodeFixed .mulu Mode.isData .w x mode reg ws
  | 7, _ => decodeFixed .muls Mode.isData .w x mode reg ws
  | 4, 0 => .ok (.abcdReg (regOf x) (regOf reg), ws)
  | 4, 1 => .ok (.abcdMem (regOf x) (regOf reg), ws)
  | 5, 0 => .ok (.exgDD (regOf x) (regOf reg), ws)
  | 5, 1 => .ok (.exgAA (regOf x) (regOf reg), ws)
  | 6, 1 => .ok (.exgDA (regOf x) (regOf reg), ws)
  | 4, _ => decodeDyadic .andToMem Mode.isMemoryAlterable x op mode reg ws
  | 5, _ => decodeDyadic .andToMem Mode.isMemoryAlterable x op mode reg ws
  | 6, _ => decodeDyadic .andToMem Mode.isMemoryAlterable x op mode reg ws
  | _, _ => decodeDyadic .andToReg Mode.isData x op mode reg ws

/-- Line 1101 (R163): ADD, ADDA, ADDX, the same shapes as line 1001. -/
def decodeLineD (x op mode reg : BitVec 3) (ws : List Word) : Decoded Instr :=
  if op.toNat = 3 then decodeFixed .addaW Mode.isAny .w x mode reg ws
  else if op.toNat = 7 then decodeFixed .addaL Mode.isAny .l x mode reg ws
  else if bit8 op then
    match mode.toNat with
    | 0 => decodePair .addxReg x op reg ws
    | 1 => decodePair .addxMem x op reg ws
    | _ => decodeDyadic .addToMem Mode.isMemoryAlterable x op mode reg ws
  else decodeDyadic .addToReg Mode.isAny x op mode reg ws

/-- The register form of a shift (R164, R295): `tt` and the direction bit name the operation. -/
def shiftRegInstr (tt : BitVec 2) (left : Bool) (c : ShiftCount) (sz : Size) (dy : RegNo) : Instr :=
  match tt.toNat, left with
  | 0, true => .aslReg c sz dy
  | 0, false => .asrReg c sz dy
  | 1, true => .lslReg c sz dy
  | 1, false => .lsrReg c sz dy
  | 2, true => .roxlReg c sz dy
  | 2, false => .roxrReg c sz dy
  | _, true => .rolReg c sz dy
  | _, false => .rorReg c sz dy

/-- The memory form of a shift (R164, R305). -/
def shiftMemInstr (tt : BitVec 2) (left : Bool) (ea : EA) : Instr :=
  match tt.toNat, left with
  | 0, true => .aslMem ea
  | 0, false => .asrMem ea
  | 1, true => .lslMem ea
  | 1, false => .lsrMem ea
  | 2, true => .roxlMem ea
  | 2, false => .roxrMem ea
  | _, true => .rolMem ea
  | _, false => .rorMem ea

/-- Line 1110 (R164): shifts and rotates. -/
def decodeLineE (x op mode reg : BitVec 3) (ws : List Word) : Decoded Instr :=
  match sizeOf (ssOf op) with
  | some sz =>
    .ok (shiftRegInstr (mode.extractLsb' 0 2) (bit8 op)
      (if mode.getLsbD 2 then .reg (regOf x) else .imm x) sz (regOf reg), ws)
  | none =>
    if x.getLsbD 2 then .error .illegalWord
    else (decodeEA Mode.isMemoryAlterable .w mode reg ws).map fun (ea, r) =>
      (shiftMemInstr (x.extractLsb' 0 2) (bit8 op) ea, r)

/-- The instruction an operation word's fields and the words after it stand for (R141, R152 to R166). -/
def decodeFields (line : BitVec 4) (x op mode reg : BitVec 3) (ws : List Word) : Decoded Instr :=
  match line.toNat with
  | 0 => decodeLine0 x op mode reg ws
  | 1 => decodeMove .b x op mode reg ws
  | 2 => decodeMove .l x op mode reg ws
  | 3 => decodeMove .w x op mode reg ws
  | 4 => decodeLine4 x op mode reg ws
  | 5 => decodeLine5 x op mode reg ws
  | 6 => decodeLine6 x op mode reg ws
  | 7 => decodeLine7 x op mode reg ws
  | 8 => decodeLine8 x op mode reg ws
  | 9 => decodeLine9 x op mode reg ws
  | 10 => .ok (.lineA (low12 x op mode reg), ws)
  | 11 => decodeLineB x op mode reg ws
  | 12 => decodeLineC x op mode reg ws
  | 13 => decodeLineD x op mode reg ws
  | 14 => decodeLineE x op mode reg ws
  | _ => .ok (.lineF (low12 x op mode reg), ws)

/-- The decoder: the instruction at the head of a list of words, and the words after it. -/
def decode : List Word → Decoded Instr
  | [] => .error .truncated
  | w :: ws => decodeFields w.line w.regX w.opmode w.eaMode w.eaReg ws

/-! ## Bytes -/

/-- The words of a list of bytes: the byte at the lower address is the high-order byte (R61). -/
def wordsOfBytes : List Byte → List Word
  | hi :: lo :: bs => (hi ++ lo) :: wordsOfBytes bs
  | _ => []

/-- The bytes of a list of words (R61). -/
def bytesOfWords : List Word → List Byte
  | [] => []
  | w :: ws => w.extractLsb' 8 8 :: w.extractLsb' 0 8 :: bytesOfWords ws

/-- The decoder on bytes, lowest address first. -/
def decodeBytes (bs : List Byte) : Decoded Instr := decode (wordsOfBytes bs)

/-- The longest instruction has five words (R140). -/
def maxWords : Nat := 5

/-- The words of an instruction whose bits are the low `nbits` of `w`, numbered as spec/opcode_table.json
numbers them: the first word is bits 15-0, the second bits 31-16; `count` words, the bits above are 0. -/
def tableWords (nbits w : Nat) : Nat → List Word
  | 0 => []
  | k + 1 => tableWords nbits w k ++ [BitVec.ofNat 16 ((w % 2 ^ nbits) >>> (16 * k))]

/-- The instruction the decoder reads from the low `nbits` bits of `w`, numbered as spec/opcode_table.json
numbers them and laid out in bytes as the machine stores them; none where it rejects. -/
def decodeTableWord (nbits w : Nat) : Option Instr :=
  match decodeBytes (bytesOfWords (tableWords nbits w maxWords)) with
  | .ok (i, _) => some i
  | .error _ => none

/-! ## The encoder -/

/-- The mode bits of an effective address (R143). -/
def eaModeBits (ea : EA) : BitVec 3 :=
  match ea.mode with
  | .dreg => 0
  | .areg => 1
  | .ind => 2
  | .postInc => 3
  | .preDec => 4
  | .disp => 5
  | .index => 6
  | _ => 7

/-- The register bits of an effective address (R143). -/
def eaRegBits : EA → BitVec 3
  | .dreg n | .areg n | .ind n | .postInc n | .preDec n | .disp n _ | .index n _ => regBits n
  | .absW _ => 0
  | .absL _ => 1
  | .pcDisp _ => 2
  | .pcIndex _ => 3
  | .imm16 _ => 4
  | .imm32 _ => 4

/-- The extension words of an effective address, in the order they follow the operation word (R143). -/
def EA.extWords : EA → List Word
  | .dreg _ | .areg _ | .ind _ | .postInc _ | .preDec _ => []
  | .disp _ d => [d]
  | .index _ x => [indexWordBits x]
  | .absW v => [v]
  | .absL v => longWords v
  | .pcDisp d => [d]
  | .pcIndex x => [indexWordBits x]
  | .imm16 v => [v]
  | .imm32 v => longWords v

/-- An operation word with an effective address in bits 5-0. -/
def opWordEA (line : BitVec 4) (x op : BitVec 3) (ea : EA) : Word :=
  opWord line x op (eaModeBits ea) (eaRegBits ea)

/-- An immediate instruction: immediate words, then the effective address (R140, R152). -/
def encodeImmediate (x : BitVec 3) (sz : Size) (v : Imm) (ea : EA) : List Word :=
  opWordEA 0 x (opBits false (sizeBits sz)) ea :: (immWords v ++ ea.extWords)

/-- A static bit instruction: bit number word, then the effective address (R152). -/
def encodeBitStatic (ss : BitVec 2) (b : Word) (ea : EA) : List Word :=
  opWordEA 0 4 (opBits false ss) ea :: b :: ea.extWords

/-- An instruction whose operation word is followed by the effective address's words only. -/
def encodeEA (line : BitVec 4) (x op : BitVec 3) (ea : EA) : List Word :=
  opWordEA line x op ea :: ea.extWords

/-- A MOVE: source words, then destination words (R153). -/
def encodeMove (line : BitVec 4) (src dst : EA) : List Word :=
  opWord line (eaRegBits dst) (eaModeBits dst) (eaModeBits src) (eaRegBits src)
    :: (src.extWords ++ dst.extWords)

/-- A branch (R148, R156): the 8-bit displacement, or `$00` and the displacement word. -/
def encodeBranch (cond : Cond) (d : Disp) : List Word :=
  let c := condBits cond
  let op (b : Byte) : Word :=
    opWord 6 (c.extractLsb' 1 3) (c.extractLsb' 0 1 ++ b.extractLsb' 6 2) (b.extractLsb' 3 3) (b.extractLsb' 0 3)
  match d with
  | .short b => [op b]
  | .word w => [op 0, w]

/-- A register shift (R295). -/
def encodeShiftReg (tt : BitVec 2) (left : Bool) (c : ShiftCount) (sz : Size) (dy : RegNo) : List Word :=
  match c with
  | .imm n => [opWord 14 n (opBits left (sizeBits sz)) (0#1 ++ tt) (regBits dy)]
  | .reg n => [opWord 14 (regBits n) (opBits left (sizeBits sz)) (1#1 ++ tt) (regBits dy)]

/-- A memory shift (R305). -/
def encodeShiftMem (tt : BitVec 2) (left : Bool) (ea : EA) : List Word :=
  encodeEA 14 (0#1 ++ tt) (opBits left 3) ea

/-- The words of an instruction (R140, R152 to R165). -/
def encode : Instr → List Word
  | .ori sz v ea => encodeImmediate 0 sz v ea
  | .andi sz v ea => encodeImmediate 1 sz v ea
  | .subi sz v ea => encodeImmediate 2 sz v ea
  | .addi sz v ea => encodeImmediate 3 sz v ea
  | .eori sz v ea => encodeImmediate 5 sz v ea
  | .cmpi sz v ea => encodeImmediate 6 sz v ea
  | .oriToCcr v => [0x003C, v]
  | .oriToSr v => [0x007C, v]
  | .andiToCcr v => [0x023C, v]
  | .andiToSr v => [0x027C, v]
  | .eoriToCcr v => [0x0A3C, v]
  | .eoriToSr v => [0x0A7C, v]
  | .btstImm b ea => encodeBitStatic 0 b ea
  | .btstReg dn ea => encodeEA 0 (regBits dn) 4 ea
  | .bchgImm b ea => encodeBitStatic 1 b ea
  | .bchgReg dn ea => encodeEA 0 (regBits dn) 5 ea
  | .bclrImm b ea => encodeBitStatic 2 b ea
  | .bclrReg dn ea => encodeEA 0 (regBits dn) 6 ea
  | .bsetImm b ea => encodeBitStatic 3 b ea
  | .bsetReg dn ea => encodeEA 0 (regBits dn) 7 ea
  | .movepWToReg dx ay d => [opWord 0 (regBits dx) 4 1 (regBits ay), d]
  | .movepLToReg dx ay d => [opWord 0 (regBits dx) 5 1 (regBits ay), d]
  | .movepWToMem dx ay d => [opWord 0 (regBits dx) 6 1 (regBits ay), d]
  | .movepLToMem dx ay d => [opWord 0 (regBits dx) 7 1 (regBits ay), d]
  | .moveB src dst => encodeMove 1 src dst
  | .moveL src dst => encodeMove 2 src dst
  | .moveW src dst => encodeMove 3 src dst
  | .moveaL an src => encodeEA 2 (regBits an) 1 src
  | .moveaW an src => encodeEA 3 (regBits an) 1 src
  | .negx sz ea => encodeEA 4 0 (opBits false (sizeBits sz)) ea
  | .moveFromSr ea => encodeEA 4 0 3 ea
  | .chk dn ea => encodeEA 4 (regBits dn) 6 ea
  | .lea an ea => encodeEA 4 (regBits an) 7 ea
  | .clr sz ea => encodeEA 4 1 (opBits false (sizeBits sz)) ea
  | .neg sz ea => encodeEA 4 2 (opBits false (sizeBits sz)) ea
  | .moveToCcr ea => encodeEA 4 2 3 ea
  | .notOp sz ea => encodeEA 4 3 (opBits false (sizeBits sz)) ea
  | .moveToSr ea => encodeEA 4 3 3 ea
  | .nbcd ea => encodeEA 4 4 0 ea
  | .swap dn => [opWord 4 4 1 0 (regBits dn)]
  | .pea ea => encodeEA 4 4 1 ea
  | .extW dn => [opWord 4 4 2 0 (regBits dn)]
  | .extL dn => [opWord 4 4 3 0 (regBits dn)]
  | .movemToMem .w list ea => opWordEA 4 4 2 ea :: list :: ea.extWords
  | .movemToMem .l list ea => opWordEA 4 4 3 ea :: list :: ea.extWords
  | .tst sz ea => encodeEA 4 5 (opBits false (sizeBits sz)) ea
  | .tas ea => encodeEA 4 5 3 ea
  | .illegal4AFC => [0x4AFC]
  | .illegal4AFA => [0x4AFA]
  | .illegal4AFB => [0x4AFB]
  | .movemToRegs .w list ea => opWordEA 4 6 2 ea :: list :: ea.extWords
  | .movemToRegs .l list ea => opWordEA 4 6 3 ea :: list :: ea.extWords
  | .trap v => [opWord 4 7 1 (0#2 ++ v.extractLsb' 3 1) (v.extractLsb' 0 3)]
  | .link an d => [opWord 4 7 1 2 (regBits an), d]
  | .unlk an => [opWord 4 7 1 3 (regBits an)]
  | .moveToUsp an => [opWord 4 7 1 4 (regBits an)]
  | .moveFromUsp an => [opWord 4 7 1 5 (regBits an)]
  | .reset => [0x4E70]
  | .nop => [0x4E71]
  | .stop v => [0x4E72, v]
  | .rte => [0x4E73]
  | .rts => [0x4E75]
  | .trapv => [0x4E76]
  | .rtr => [0x4E77]
  | .jsr ea => encodeEA 4 7 2 ea
  | .jmp ea => encodeEA 4 7 3 ea
  | .addq q sz ea => encodeEA 5 q (opBits false (sizeBits sz)) ea
  | .subq q sz ea => encodeEA 5 q (opBits true (sizeBits sz)) ea
  | .scc cond ea =>
    encodeEA 5 ((condBits cond).extractLsb' 1 3) ((condBits cond).extractLsb' 0 1 ++ 3#2) ea
  | .dbcc cond dn d =>
    [opWord 5 ((condBits cond).extractLsb' 1 3) ((condBits cond).extractLsb' 0 1 ++ 3#2) 1 (regBits dn), d]
  | .bra d => encodeBranch .t d
  | .bsr d => encodeBranch .f d
  | .bcc cond d => encodeBranch cond d
  | .moveq dn v =>
    [opWord 7 (regBits dn) (0#1 ++ v.extractLsb' 6 2) (v.extractLsb' 3 3) (v.extractLsb' 0 3)]
  | .orToReg sz dn ea => encodeEA 8 (regBits dn) (opBits false (sizeBits sz)) ea
  | .orToMem sz dn ea => encodeEA 8 (regBits dn) (opBits true (sizeBits sz)) ea
  | .divu dn ea => encodeEA 8 (regBits dn) 3 ea
  | .divs dn ea => encodeEA 8 (regBits dn) 7 ea
  | .sbcdReg dx dy => [opWord 8 (regBits dx) 4 0 (regBits dy)]
  | .sbcdMem ax ay => [opWord 8 (regBits ax) 4 1 (regBits ay)]
  | .subToReg sz dn ea => encodeEA 9 (regBits dn) (opBits false (sizeBits sz)) ea
  | .subToMem sz dn ea => encodeEA 9 (regBits dn) (opBits true (sizeBits sz)) ea
  | .subaW an ea => encodeEA 9 (regBits an) 3 ea
  | .subaL an ea => encodeEA 9 (regBits an) 7 ea
  | .subxReg sz dx dy => [opWord 9 (regBits dx) (opBits true (sizeBits sz)) 0 (regBits dy)]
  | .subxMem sz ax ay => [opWord 9 (regBits ax) (opBits true (sizeBits sz)) 1 (regBits ay)]
  | .addToReg sz dn ea => encodeEA 13 (regBits dn) (opBits false (sizeBits sz)) ea
  | .addToMem sz dn ea => encodeEA 13 (regBits dn) (opBits true (sizeBits sz)) ea
  | .addaW an ea => encodeEA 13 (regBits an) 3 ea
  | .addaL an ea => encodeEA 13 (regBits an) 7 ea
  | .addxReg sz dx dy => [opWord 13 (regBits dx) (opBits true (sizeBits sz)) 0 (regBits dy)]
  | .addxMem sz ax ay => [opWord 13 (regBits ax) (opBits true (sizeBits sz)) 1 (regBits ay)]
  | .lineA w => [opWord 10 (w.extractLsb' 9 3) (w.extractLsb' 6 3) (w.extractLsb' 3 3) (w.extractLsb' 0 3)]
  | .cmp sz dn ea => encodeEA 11 (regBits dn) (opBits false (sizeBits sz)) ea
  | .cmpaW an ea => encodeEA 11 (regBits an) 3 ea
  | .cmpaL an ea => encodeEA 11 (regBits an) 7 ea
  | .eor sz dn ea => encodeEA 11 (regBits dn) (opBits true (sizeBits sz)) ea
  | .cmpm sz ax ay => [opWord 11 (regBits ax) (opBits true (sizeBits sz)) 1 (regBits ay)]
  | .andToReg sz dn ea => encodeEA 12 (regBits dn) (opBits false (sizeBits sz)) ea
  | .andToMem sz dn ea => encodeEA 12 (regBits dn) (opBits true (sizeBits sz)) ea
  | .mulu dn ea => encodeEA 12 (regBits dn) 3 ea
  | .muls dn ea => encodeEA 12 (regBits dn) 7 ea
  | .abcdReg dx dy => [opWord 12 (regBits dx) 4 0 (regBits dy)]
  | .abcdMem ax ay => [opWord 12 (regBits ax) 4 1 (regBits ay)]
  | .exgDD dx dy => [opWord 12 (regBits dx) 5 0 (regBits dy)]
  | .exgAA ax ay => [opWord 12 (regBits ax) 5 1 (regBits ay)]
  | .exgDA dx ay => [opWord 12 (regBits dx) 6 1 (regBits ay)]
  | .aslReg c sz dy => encodeShiftReg 0 true c sz dy
  | .aslMem ea => encodeShiftMem 0 true ea
  | .asrReg c sz dy => encodeShiftReg 0 false c sz dy
  | .asrMem ea => encodeShiftMem 0 false ea
  | .lslReg c sz dy => encodeShiftReg 1 true c sz dy
  | .lslMem ea => encodeShiftMem 1 true ea
  | .lsrReg c sz dy => encodeShiftReg 1 false c sz dy
  | .lsrMem ea => encodeShiftMem 1 false ea
  | .roxlReg c sz dy => encodeShiftReg 2 true c sz dy
  | .roxlMem ea => encodeShiftMem 2 true ea
  | .roxrReg c sz dy => encodeShiftReg 2 false c sz dy
  | .roxrMem ea => encodeShiftMem 2 false ea
  | .rolReg c sz dy => encodeShiftReg 3 true c sz dy
  | .rolMem ea => encodeShiftMem 3 true ea
  | .rorReg c sz dy => encodeShiftReg 3 false c sz dy
  | .rorMem ea => encodeShiftMem 3 false ea
  | .lineF w => [opWord 15 (w.extractLsb' 9 3) (w.extractLsb' 6 3) (w.extractLsb' 3 3) (w.extractLsb' 0 3)]

end Sys2Proof
end

