-- ==== Sys2Proof/Machine/Events.lean ====
section
/-! DEFINITION. What happens around an instruction in one step (R407, spec/60_exceptions.md): the inputs of the
step, interrupt recognition (R425), the fetch of the operation word (R141), the trace exception (R437), and
the placing of an instruction's words at the program counter. -/

namespace Sys2Proof.Machine

/-- What the environment does when it has announced nothing: no reset, no HALT, the level as it was, no other
bus master, every bus cycle ended by the platform's rules; an acknowledge cycle would be answered by VPA.
DESIGN CHOICE, unsafe, log entry 9. -/
def quietInput (ipl : BitVec 3) : Input where
  resetRequest := false
  haltPin := false
  ipl := ipl
  iack := .autovector
  dma := []
  turns := []

/-- The input of the coming step (R11). -/
def State.input (s : State) : Input :=
  match s.inputs with
  | i :: _ => i
  | [] => quietInput s.ipl

/-- The state with the step's input taken in: other masters' writes (R83), the sample of IPL2-IPL0, taken once
a step (D3), the level-7 edge latch (R35), and what it does about the bus cycles to come; the list of bus cycles
begins anew. -/
def State.sample (s : State) : State :=
  { s with
    inputs := s.inputs.tail
    turns := s.input.turns
    bus := []
    mem := Memory.writeAll s.mem s.input.dma
    ipl := s.input.ipl
    nmiPending := s.nmiPending || (s.input.ipl == 7 && s.ipl != 7) }

/-- `InterruptRecognised()` (R425): the level of the interrupt to take. -/
def State.interruptLevel (s : State) : Option (BitVec 3) :=
  if s.ipl = 7 && s.nmiPending then some 7
  else if s.sr.i < s.ipl then some s.ipl
  else none

/-- The beginning of an instruction (R141, R36, R444): the operation word is fetched, the window of the double
bus fault ends, and the trace bit is sampled. The program counter still is the operation word's address. -/
def fetchOperationWord : M Unit := do
  let s ← get
  let w ← memRead s.fcProg s.pc .w
  modify fun s => { s with ir := lowWord w, g0Active := false, tracePending := s.sr.t }

/-- The words of the instruction stream from an address on. -/
def State.streamWords (s : State) : Nat → Long → List Word
  | 0, _ => []
  | k + 1, a => s.peekWord s.fcProg a :: s.streamWords k (a + 2)

/-- The trace exception after an instruction that began with T = 1 (R437): vector 9, the address of the next
instruction. -/
def traceAfter (r : Out) : Out :=
  match r with
  | .next s =>
    if s.tracePending then
      finish s.pc true (takeException .group1 (.internal 9) s.pc { s with tracePending := false })
    else .next s
  | r => r

/-- One byte put where an address leads, read-only memory not excepted. -/
def State.placeByte (s : State) (fc : FuncCode) (a : Long) (b : Byte) : State :=
  { s with mem := Memory.write s.mem (s.location fc a) b }

/-- Words put into the instruction stream from an address on. -/
def State.placeWords (s : State) : Long → List Word → State
  | _, [] => s
  | a, w :: ws =>
    ((s.placeByte s.fcProg a (w.extractLsb' 8 8)).placeByte s.fcProg (a + 1) (w.extractLsb' 0 8)).placeWords (a + 2) ws

/-- An instruction placed at the program counter of a machine about to execute (`State.withFetchWord`): no
input and no turn of the bus is announced, no interrupt pending, the processing state normal. -/
def State.placeInstruction (s : State) (nbits w : Nat) : State :=
  { s.placeWords s.pc (tableWords nbits w maxWords) with
    pstate := .normal
    ipl := 0
    nmiPending := false
    inputs := []
    turns := [] }

end Sys2Proof.Machine
end

