-- ==== Sys2Proof/Machine/Cycle.lean ====
section
/-! DEFINITION. The machine step with every priority rule in one place (R407, spec/60_exceptions.md). -/

namespace Sys2Proof.Machine

/-- The words the next fetch cycles transfer, one after another from an address on: found by running those cycles ahead,
with the state they leave thrown away. After a cycle that fails, what memory holds: the rule that fetches such a word
stops there. -/
def wordsAhead : Nat → Long → State → List Word
  | 0, _, _ => []
  | k + 1, a, s =>
    match busRead .read s.fcProg a true s with
    | .ok w t => w :: wordsAhead k (a + 2) t
    | .error _ t => s.peekWord s.fcProg a :: wordsAhead k (a + 2) t

/-- The state an action leaves, however it ends. -/
def stateAfter {α : Type} : EStateM.Result BusStop State α → State
  | .ok _ t => t
  | .error _ t => t

/-- The first operand of the instructions that read it before they fetch their last words: MOVE (R214). Every other rule
fetches all its words before any other cycle. -/
def operandBetweenWords : Instr → Option (EA × Size)
  | .moveB src _ => some (src, .b)
  | .moveW src _ => some (src, .w)
  | .moveL src _ => some (src, .l)
  | _ => none

/-- The words the decoder is given once the operation word is fetched: that word as its cycle transferred it, and each
word after it as the instruction's own cycle will transfer it, whatever other masters or devices do meanwhile (R83,
R112). DEDUCED, safe, log entry 33. -/
def State.fetchedWords (s : State) : List Word :=
  let first := s.ir :: wordsAhead (maxWords - 1) (s.pc + 2) s
  match decode first with
  | .ok (i, _) =>
    match operandBetweenWords i with
    | some (src, sz) =>
      let k := eaWords src
      first.take (1 + k) ++ wordsAhead (maxWords - 1 - k) (s.pc + 2 + 2 * BitVec.ofNat 32 k)
        (stateAfter (readEA src sz { s with pc := s.pc + 2 }))
    | none => first
  | .error _ => first

/-- The instruction whose operation word has been fetched (R141): a word that is no first word of an
instruction raises the illegal instruction exception (R166, R433). -/
def executeDecoded (s : State) : Out :=
  match decode s.fetchedWords with
  | .ok (i, _) => exec i s
  | .error _ => execIllegalWord s

/-- One instruction with its fetch and its trace exception (R407). A fault on the fetch of the operation word
has no operation word (R441). -/
def runInstruction (s : State) : Out :=
  match fetchOperationWord s with
  | .error e s' => abandon s.pc false e s'
  | .ok _ s' => traceAfter (executeDecoded s')

/-- `RunStep()` (R407) on the state that has taken its input in: reset before everything, the HALT pin a
stutter (D15: DEDUCED, log entry 24), the halted state left by reset alone, then interrupts, then the
stopped state, then an instruction. -/
def runSampled (i : Input) (s : State) : Out :=
  if i.resetRequest then finish s.pc false (resetException s)
  else if i.haltPin || s.pstate == .halted then .next s
  else
    match s.interruptLevel with
    | some lvl => finish s.pc true (takeException .group1 (.interrupt lvl i.iack) s.pc s)
    | none => if s.pstate == .stopped then .next s else runInstruction s

/-- One step of the machine. -/
def runStep (s : State) : Out := runSampled s.input s.sample

end Sys2Proof.Machine
end

