-- ==== Sys2Proof/Machine/Step.lean ====
section
/-! DEFINITION. The machine's step and the placing of an instruction where it fetches next. -/

namespace Sys2Proof.Machine

/-- One step (R407): one instruction, one exception sequence, or one stutter (D1). -/
def step (s : State) : Host.Outcome State Fault Refusal := runStep s

/-- The state in which the next step fetches and runs the instruction of the low `nbits` bits of `w`: its words
stand in program memory at the program counter, the words after them are 0 (log entry 5). -/
def State.withFetchWord (s : State) (nbits w : Nat) : State := s.placeInstruction nbits w

end Sys2Proof.Machine
end

