-- ==== Sys2Proof/Safety.lean ====
section
/-! DEFINITION. The terms statements about runs are made in: a bus whose cycles complete, even addresses, the
value an operand has and where a result goes, as plain functions of the state; the exception frames; the
invariant of a machine between two steps. -/

namespace Sys2Proof.Machine

/-- Plain memory, and every memory cycle completes at its first run, normally or as a synchronous transfer (R112): no
device, mirror or read-only place, no turn of the environment's own, no answer but `ok` and `vpa`. The condition under
which an instruction meets no other master, bus error, re-run or endless wait. -/
def State.BusServes (s : State) : Prop :=
  s.turns = [] ∧ s.platform.map = [] ∧ ∀ fc dir a, s.answer fc dir a = .ok ∨ s.answer fc dir a = .vpa

/-- A cycle the platform's rules complete at its first run, normally or as a synchronous transfer (R112). -/
def State.Answers (s : State) (fc : FuncCode) (dir : Direction) (a : Long) : Prop :=
  s.answer fc dir a = .ok ∨ s.answer fc dir a = .vpa

/-- A cycle the platform's rules end at its first run, completed or with a bus error (R112). -/
def State.EndsAtOnce (s : State) (fc : FuncCode) (dir : Direction) (a : Long) : Prop :=
  s.Answers fc dir a ∨ s.answer fc dir a = .busError

/-- Another platform does with a bus cycle what that of `s` does: the same answer, the same place and location at each
byte of the cycle. -/
def State.TreatsAlike (s : State) (p : Platform) (c : BusCycle) : Prop :=
  let t : State := { s with platform := p }
  let a : Long := c.addr.setWidth 32
  t.answer c.fc c.kind.dir a = s.answer c.fc c.kind.dir a
    ∧ ∀ b ∈ [a, if c.isWord then a + 1 else a], t.place c.fc b = s.place c.fc b ∧ t.location c.fc b = s.location c.fc b

/-- The bus cycles that fetch `k` words of the instruction stream from an address on, where each is answered at once. -/
def State.fetchCycles (s : State) : Nat → Long → List BusCycle
  | 0, _ => []
  | k + 1, a => ⟨.read, s.fcProg, busAddr a, true, ⟨some (s.peekByte s.fcProg a), some (s.peekByte s.fcProg (a + 1))⟩,
      s.answer s.fcProg .read a⟩ :: s.fetchCycles k (a + 2)

/-- An address a word or long word may have (R65). -/
def EvenAddr (a : Long) : Prop := a.getLsbD 0 = false

/-- A machine whose bus serves it and whose instruction stands at an even address. -/
def State.Ready (s : State) : Prop := s.BusServes ∧ EvenAddr s.pc

/-- The words of the instruction stream at the program counter: as many as the longest instruction has (R140). -/
def State.instructionWords (s : State) : List Word := s.streamWords maxWords s.pc

/-- An operand of a size may be accessed at an address (R65): bytes anywhere, words and long words at even
addresses. -/
def Aligned (sz : Size) (a : Long) : Prop := sz = .b ∨ EvenAddr a

/-- A location that may be read or written in a size: a register, an immediate, or aligned memory. -/
def Loc.Accessible (loc : Loc) (sz : Size) : Prop :=
  match loc with
  | .mem a _ _ => Aligned sz a
  | _ => True

/-- The state whose program counter stands `k` words further in the instruction stream (R26). -/
def State.after (s : State) (k : Nat) : State := { s with pc := s.pc + 2 * BitVec.ofNat 32 k }

/-- The value an operand of a size has at a location (R194 `ReadLoc`). -/
def State.operand (s : State) (loc : Loc) (sz : Size) : Long :=
  match loc with
  | .dreg n => sz.trunc (s.readD n)
  | .areg n => sz.trunc (s.readA n)
  | .mem a fc _ => s.peek fc a sz
  | .imm v => v

/-- The registers after a result is written to a location (R194 `WriteLoc`): a data register keeps its upper
bits (R21), an address register is written whole (R23), a location in memory is no register. -/
def State.putReg (s : State) (loc : Loc) (sz : Size) (v : Long) : State :=
  match loc with
  | .dreg n => s.writeD n (sz.merge (s.readD n) v)
  | .areg n => s.writeA n (sz.sext v)
  | _ => s

/-- The locations of the bytes of an operand (R61, R73). -/
def State.bytesAt (s : State) (fc : FuncCode) (a : Long) : Size → List Nat
  | .b => [s.location fc a]
  | .w => [s.location fc a, s.location fc (a + 1)]
  | .l => [s.location fc a, s.location fc (a + 1), s.location fc (a + 2), s.location fc (a + 3)]

/-- Memory of `t` is memory of `s` but for the operand of a size at an address, which reads as `v`: every
byte outside it reads as before. -/
def StoredAt (s t : State) (fc : FuncCode) (a : Long) (sz : Size) (v : Long) : Prop :=
  t.peek fc a sz = sz.trunc v ∧ ∀ n, n ∉ s.bytesAt fc a sz → Memory.read t.mem n = Memory.read s.mem n

/-- Memory of `t` is memory of `s` but for a result stored at a location; no byte differs where the location
is no memory. -/
def Stored (s t : State) (loc : Loc) (sz : Size) (v : Long) : Prop :=
  match loc with
  | .mem a fc _ => StoredAt s t fc a sz v
  | _ => t.mem = s.mem

/-- The three-word frame at the supervisor stack pointer of `t` (R405): status register, program counter high,
program counter low; memory is otherwise that of `s`. -/
def Framed (s t : State) (sr : StatusReg) (pc : Long) : Prop :=
  t.peekWord .superData t.ssp = sr.toWord ∧ t.peekLong .superData (t.ssp + 2) = pc
    ∧ ∀ n, n ∉ s.bytesAt .superData t.ssp .w ++ s.bytesAt .superData (t.ssp + 2) .l →
        Memory.read t.mem n = Memory.read s.mem n

/-- The vector table entry of a vector number (R402), in a state. -/
def State.vector (s : State) (v : Byte) : Long := s.peekLong .superData (4#32 * v.setWidth 32)

/-- `t` is what an exception of group 1 or 2 with a vector number makes of `s` (R405, R408): supervisor state,
trace off, the frame of `pc` and the status register on the supervisor stack, the program counter from the
vector; no other register, and no trace left pending unless `traced`. -/
def TookException (s t : State) (v : Byte) (pc : Long) (traced : Bool) : Prop :=
  Framed s t s.sr pc
    ∧ t = { s with
        sr := { s.sr with s := true, t := false }
        ssp := s.ssp - 6
        pc := t.vector v
        pstate := .normal
        tracePending := traced
        mem := t.mem
        bus := t.bus }

/-- The instruction completes, and its next state is `t` but for the list of the step's bus cycles. -/
def Yields (o : Out) (t : State) : Prop := ∃ log, o = .next { t with bus := log }

/-- The instruction completes with `v` stored at a location: the next state is `t` but for the list of the step's
bus cycles and for memory, which is that of `t` with the operand stored (`Stored`). -/
def YieldsStoring (o : Out) (t : State) (loc : Loc) (sz : Size) (v : Long) : Prop :=
  ∃ m log, o = .next { t with mem := m, bus := log } ∧ Stored t { t with mem := m, bus := log } loc sz v

/-- The decimal rule (R325 to R328): what two bytes and X may become, and the flags. With four decimal digits
the byte is the decimal result, X and C are the decimal carry, and Z is kept by a zero result; with another digit byte,
X, C and Z are any value, each on its own. N and V are any value. -/
def DecimalOutcome (subtract : Bool) (src d : Long) (sr : StatusReg) (r : Long) (sr' : StatusReg) : Prop :=
  let digits (b : Long) : Prop := b.toNat / 16 ≤ 9 ∧ b.toNat % 16 ≤ 9
  let dec (b : Long) : Int := 10 * (b.toNat / 16) + b.toNat % 16
  let t : Int := if subtract then dec d - dec src - bitNat sr.x else dec d + dec src + bitNat sr.x
  sr' = { sr with x := sr'.x, n := sr'.n, z := sr'.z, v := sr'.v, c := sr'.c } ∧ r.toNat < 256
    ∧ (digits src ∧ digits d →
        digits r ∧ dec r = t % 100 ∧ (sr'.c = true ↔ t < 0 ∨ 99 < t) ∧ sr'.x = sr'.c ∧ sr'.z = (sr.z && r == 0))

/-- What holds between any two steps: memory in canonical form, no trace pending (R36: it is taken or dropped
within the step), no exception half processed (D1). -/
def State.Inv (s : State) : Prop :=
  Memory.wf s.mem ∧ s.tracePending = false ∧ ∀ g, s.pstate ≠ .exception g

end Sys2Proof.Machine
end

