-- ==== Sys2Proof/Certificates/Slice0/Obligations.lean ====
section
/-! DEFINITION. The statements for the provers. In the statements about an instruction, `s` is the state whose
program counter stands at its operation word, `s.after k` the state `k` words further on, `eaLoc` and `eaStep`
the location of an effective address and the update of its address register (R194); `t` is the state after the
operands are resolved. The next state is written out, so everything it does not mention is unchanged. -/

open Sys2Proof Sys2Proof.Machine

/-! ## Encoding -/

/-- Decoding an encoded instruction gives it back, with the words after it, for every well-formed instruction and
every value of every operand. -/
def Obligations.DecodeEncode : Prop :=
  ∀ (i : Instr) (ws : List Word), i.wellFormed = true → decode (encode i ++ ws) = .ok (i, ws)

/-- Whatever the decoder accepts is well formed and is the encoding of what it was decoded to, so each word
sequence has one reading.
The bits the machine ignores are kept in the syntax (the model's choice, log entry 18). -/
def Obligations.EncodeDecode : Prop :=
  ∀ (ws rest : List Word) (i : Instr), decode ws = .ok (i, rest) → i.wellFormed = true ∧ encode i ++ rest = ws

/-- Operation words printed in the examples of the instruction rules decode to those instructions. -/
def Obligations.KnownWordsDecode : Prop :=
  decode [0xC38A] = .ok (.exgDA 1 2, [])
  ∧ decode [0x43E8, 0x0008] = .ok (.lea 1 (.disp 0 8), [])
  ∧ decode [0x3280] = .ok (.moveW (.dreg 0) (.ind 1), [])
  ∧ decode [0x48E7, 0xC080] = .ok (.movemToMem .l 0xC080 (.preDec 7), [])
  ∧ decode [0x0640, 0x0001] = .ok (.addi .w (.word 1) (.dreg 0), [])
  ∧ decode [0xE340] = .ok (.aslReg (.imm 1) .w 0, [])
  ∧ decode [0x0890, 0x0000] = .ok (.bclrImm 0 (.ind 0), [])
  ∧ decode [0x8101] = .ok (.sbcdReg 0 1, [])
  ∧ decode [0x51C8, 0xFFFA] = .ok (.dbcc .f 0 0xFFFA, [])
  ∧ decode [0x4E4F] = .ok (.trap 15, [])

/-! ## Memory and registers -/

/-- Two memories in canonical form that read alike everywhere are equal: the form is one for each content.
The form is the model's own (log entry 2). -/
def Obligations.MemoryCanonical : Prop :=
  ∀ m m' : Memory, Memory.wf m → Memory.wf m' → (∀ a, Memory.read m a = Memory.read m' a) → m = m'

/-- Reading is big-endian: a word is the byte at its address and the byte after it, a long word the word at its
address and the word two bytes on, and reading changes nothing but the list of cycles. -/
def Obligations.ReadsAreBigEndian : Prop :=
  ∀ (s : State) (fc : FuncCode) (a : Long), s.BusServes →
    (∃ log, memRead fc a .b s = .ok (ofByte (s.peekByte fc a)) { s with bus := log })
    ∧ (EvenAddr a → ∃ log, memRead fc a .w s =
        .ok ((s.peekByte fc a ++ s.peekByte fc (a + 1)).setWidth 32) { s with bus := log })
    ∧ (EvenAddr a → ∃ log, memRead fc a .l s =
        .ok ((s.peekByte fc a ++ s.peekByte fc (a + 1)) ++ (s.peekByte fc (a + 2) ++ s.peekByte fc (a + 3)))
          { s with bus := log })

/-- A word or long access, or an instruction fetch, at an odd address raises an address error, and the whole state, the
list of bus cycles included, is as before; a byte access raises none at any address. -/
def Obligations.MisalignedAccessStops : Prop :=
  ∀ (s : State) (fc : FuncCode) (a : Long) (lowFirst : Bool) (v : Long),
    (∀ sz, sz ≠ .b → ¬ EvenAddr a →
      memRead fc a sz s = .error (.addressError ⟨a, .read, fc⟩) s
      ∧ memWrite fc a sz lowFirst v s = .error (.addressError ⟨a, .write, fc⟩) s)
    ∧ (¬ EvenAddr s.pc → fetchWord s = .error (.addressError ⟨s.pc, .read, s.fcProg⟩) s)
    ∧ ∀ acc t, memRead fc a .b s ≠ .error (.addressError acc) t ∧ memWrite fc a .b lowFirst v s ≠ .error (.addressError acc) t

/-- A cycle the platform ends with a bus error stops its access: a read of any size, in either half of a long word,
transfers nothing; a write of any size changes at most the bytes of its own cycle, and the half of a long word written
before it stays written. An instruction whose first access besides its own words reads an operand, pops a value, pushes
one or stores a register list or MOVEP's bytes, and whose access is at an odd address or ends in a bus error at its first
cycle, is abandoned to the group 0 exception with its address register or stack pointer stepped and nothing else done; so
is a step whose operation word is at an odd address or cannot be fetched.
The order of the halves, what a failed write leaves and what an abandoned instruction has done are the model's choice
(log entries 12, 38, 15). -/
def Obligations.FailedAccessStops : Prop :=
  (∀ (s : State) (fc : FuncCode) (a : Long) (lowFirst : Bool) (v : Long), s.turns = [] →
    let first := if lowFirst then a + 2 else a
    let second := if lowFirst then a else a + 2
    let half : Word := if lowFirst then lowWord v else highWord v
    let stops (sz : Size) (at_ : Long) (bytes : List Nat) (also : State → Prop) : Prop := ∃ t,
      memWrite fc a sz lowFirst v s = .error (.busError ⟨at_, .write, fc⟩) t
      ∧ t = { s with mem := t.mem, bus := t.bus, freeCount := t.freeCount }
      ∧ (∀ n, n ∉ bytes → Memory.read t.mem n = Memory.read s.mem n) ∧ also t
    (∀ sz, Aligned sz a → s.answer fc .read a = .busError → ∃ log,
      memRead fc a sz s = .error (.busError ⟨a, .read, fc⟩) { s with bus := log })
    ∧ (EvenAddr a → s.Answers fc .read a → s.answer fc .read (a + 2) = .busError → ∃ log n,
      memRead fc a .l s = .error (.busError ⟨a + 2, .read, fc⟩) { s with bus := log, freeCount := n })
    ∧ (∀ sz, sz ≠ .l → Aligned sz a → s.answer fc .write a = .busError →
      stops sz a (s.bytesAt fc a sz) fun _ => True)
    ∧ (EvenAddr a → s.answer fc .write first = .busError → stops .l first (s.bytesAt fc first .w) fun _ => True)
    ∧ (EvenAddr a → s.Answers fc .write first → s.answer fc .write second = .busError →
      stops .l second (s.bytesAt fc a .l) fun t => s.platform.map = [] → t.peekWord fc first = half))
  ∧ (∀ (s : State) (sz : Size) (ea dst : EA) (m n : RegNo) (q : BitVec 3) (cond : Cond) (v : Imm) (w : Word) (b : Byte)
      (size : SizeWL), s.turns = [] → s.platform.map = [] → EvenAddr s.pc →
      let answered (words : Nat) : Prop := ∀ k < words, s.Answers s.fcProg .read (s.pc + BitVec.ofNat 32 (2 + 2 * k))
      let reads (i : Instr) (sz : Size) (addr : Long) (fc : FuncCode) (t : State) : Prop :=
        (¬ Aligned sz addr → ∃ log,
          exec i s = abandon s.pc true (.addressError ⟨addr, .read, fc⟩) { t with bus := log })
        ∧ (Aligned sz addr → s.answer fc .read addr = .busError → ∃ log,
          exec i s = abandon s.pc true (.busError ⟨addr, .read, fc⟩) { t with bus := log })
      let writes (i : Instr) (sz : Size) (lowFirst : Bool) (addr : Long) (t : State) : Prop :=
        let first := if sz = .l ∧ lowFirst = true then addr + 2 else addr
        (¬ Aligned sz addr → ∃ log,
          exec i s = abandon s.pc true (.addressError ⟨addr, .write, s.fcData⟩) { t with bus := log })
        ∧ (Aligned sz addr → s.answer s.fcData .write first = .busError → ∃ mem log free,
          (∀ k, k ∉ s.bytesAt s.fcData first (if sz = .b then .b else .w) → Memory.read mem k = Memory.read s.mem k)
          ∧ exec i s = abandon s.pc true (.busError ⟨first, .write, s.fcData⟩)
            { t with mem := mem, bus := log, freeCount := free })
      let operand (words : Nat) (ea : EA) (sz : Size) (i : Instr) : Prop :=
        answered (words + eaWords ea) → ∀ addr fc lf, eaLoc ea sz (s.after (1 + words)) = .mem addr fc lf →
          reads i sz addr fc (eaStep ea sz (s.after (1 + words + eaWords ea)))
      let pushes (words : Nat) (i : Instr) : Prop :=
        answered words → writes i .l true (s.sp - 4) ((s.after (1 + words)).setSp (s.sp - 4))
      let any : List Instr := [.addToReg sz n ea, .subToReg sz n ea, .andToReg sz n ea, .orToReg sz n ea, .cmp sz n ea,
        .addToMem sz n ea, .subToMem sz n ea, .andToMem sz n ea, .orToMem sz n ea, .eor sz n ea, .neg sz ea,
        .negx sz ea, .notOp sz ea, .clr sz ea, .tst sz ea, .addq q sz ea, .subq q sz ea]
      let sized : List Instr := match sz with
        | .b => [.moveB ea dst, .scc cond ea, .nbcd ea, .tas ea, .btstReg n ea, .bchgReg n ea, .bclrReg n ea, .bsetReg n ea]
        | .w => [.moveW ea dst, .moveaW n ea, .addaW n ea, .subaW n ea, .cmpaW n ea, .chk n ea, .divu n ea, .divs n ea,
          .mulu n ea, .muls n ea, .moveToCcr ea, .moveFromSr ea, .aslMem ea, .asrMem ea, .lslMem ea, .lsrMem ea,
          .rolMem ea, .rorMem ea, .roxlMem ea, .roxrMem ea]
        | .l => [.moveL ea dst, .moveaL n ea, .addaL n ea, .subaL n ea, .cmpaL n ea]
      (∀ i ∈ any ++ sized, operand 0 ea sz i)
      ∧ (∀ i ∈ [Instr.addi sz v ea, .subi sz v ea, .andi sz v ea, .ori sz v ea, .eori sz v ea, .cmpi sz v ea],
        operand (immWordCount v) ea sz i)
      ∧ (∀ i ∈ [Instr.btstImm w ea, .bchgImm w ea, .bclrImm w ea, .bsetImm w ea], operand 1 ea .b i)
      ∧ (s.sr.s = true → operand 0 ea .w (.moveToSr ea))
      ∧ (∀ i ∈ [Instr.addxMem sz m n, .subxMem sz m n], operand 0 (.preDec n) sz i)
      ∧ operand 0 (.postInc n) sz (.cmpm sz m n)
      ∧ (∀ i ∈ [Instr.abcdMem m n, .sbcdMem m n], operand 0 (.preDec n) .b i)
      ∧ reads .rts .l s.sp s.fcData (s.after 1) ∧ reads .rtr .w s.sp s.fcData (s.after 1)
      ∧ (s.sr.s = true → reads .rte .w s.ssp .superData (s.after 1))
      ∧ reads (.unlk n) .l (s.readA n) s.fcData ((s.after 1).setSp (s.readA n))
      ∧ pushes 1 (.link n w) ∧ pushes 0 (.bsr (.short b)) ∧ pushes 1 (.bsr (.word w))
      ∧ (ea.isIn Mode.isControl .l = true → pushes (eaWords ea) (.pea ea) ∧ pushes (eaWords ea) (.jsr ea))
      ∧ (answered 1 → let addr := s.readA n + w.signExtend 32
        (∀ i ∈ [Instr.movepWToReg m n w, .movepLToReg m n w], reads i .b addr s.fcData (s.after 2))
        ∧ ∀ i ∈ [Instr.movepWToMem m n w, .movepLToMem m n w], writes i .b false addr (s.after 2))
      ∧ (answered (1 + eaWords ea) → ∀ addr fc lf, eaLoc ea size.size (s.after 2) = .mem addr fc lf →
        reads (.movemToRegs size w ea) size.size addr fc (s.after (2 + eaWords ea))
        ∧ (w ≠ 0 → ea.isIn Mode.isMovemStore size.size = true →
          writes (.movemToMem size w ea) size.size lf addr (s.after (2 + eaWords ea)))))
  ∧ ∀ s : State,
    let u := s.sample
    s.input.resetRequest = false → s.input.haltPin = false → u.pstate = .normal → u.interruptLevel = none →
      (¬ EvenAddr u.pc → step s = abandon u.pc false (.addressError ⟨u.pc, .read, u.fcProg⟩) u)
      ∧ (u.turns = [] → EvenAddr u.pc → u.answer u.fcProg .read u.pc = .busError → ∃ log,
        step s = abandon u.pc false (.busError ⟨u.pc, .read, u.fcProg⟩) { u with bus := log })

/-- What is written is what is read back, in either order of the halves, and every byte outside the operand reads as
before.
The two orders are those of log entry 12. -/
def Obligations.WriteThenRead : Prop :=
  ∀ (s : State) (fc : FuncCode) (a : Long) (sz : Size) (lowFirst : Bool) (v : Long),
    s.BusServes → Aligned sz a → ∃ m log log',
      memWrite fc a sz lowFirst v s = .ok () { s with mem := m, bus := log }
      ∧ memRead fc a sz { s with mem := m, bus := log } = .ok (sz.trunc v) { s with mem := m, bus := log' }
      ∧ ∀ n, n ∉ s.bytesAt fc a sz → Memory.read m n = Memory.read s.mem n

/-- Addresses that differ only in bits 31-24 name the same location: reads and writes through either do the same.
The spec's decision D6 (log entry 16). -/
def Obligations.AddressTopIgnored : Prop :=
  ∀ (s : State) (fc : FuncCode) (a b : Long) (sz : Size) (lowFirst : Bool) (v : Long),
    s.BusServes → Aligned sz a → a.extractLsb' 0 24 = b.extractLsb' 0 24 →
      memRead fc a sz s = memRead fc b sz s ∧ memWrite fc a sz lowFirst v s = memWrite fc b sz lowFirst v s

/-- A data register read in a size gives its low part, and a write changes that part alone; a word written to an address
register is sign-extended into the whole of it; the stack pointer register is SSP in supervisor state and USP in
user state. References carry the function codes of the privilege state. `(An)+` and `-(An)` step their register by the
size of the operand, A7 by two for a byte, and use the address before and after the step; the register modes and the
immediates are their own location.
That a long word stored through `-(An)` goes low word first (the last argument of its location) is log entry 12. -/
def Obligations.RegisterWrites : Prop :=
  ∀ (s : State) (n : RegNo) (v : Long),
    (readLoc (.dreg n) .b s = .ok (((s.readD n).extractLsb' 0 8).setWidth 32) s
      ∧ readLoc (.dreg n) .w s = .ok (((s.readD n).extractLsb' 0 16).setWidth 32) s
      ∧ readLoc (.dreg n) .l s = .ok (s.readD n) s)
    ∧ (∃ t, writeLoc (.dreg n) .b v s = .ok () t ∧ t = { s with d := t.d }
      ∧ t.readD n = (s.readD n).extractLsb' 8 24 ++ v.extractLsb' 0 8 ∧ ∀ k, k ≠ n → t.readD k = s.readD k)
    ∧ (∃ t, writeLoc (.dreg n) .w v s = .ok () t ∧ t = { s with d := t.d }
      ∧ t.readD n = (s.readD n).extractLsb' 16 16 ++ v.extractLsb' 0 16 ∧ ∀ k, k ≠ n → t.readD k = s.readD k)
    ∧ (∃ t, writeLoc (.dreg n) .l v s = .ok () t ∧ t = { s with d := t.d }
      ∧ t.readD n = v ∧ ∀ k, k ≠ n → t.readD k = s.readD k)
    ∧ (∃ t, writeLoc (.areg n) .w v s = .ok () t ∧ t = { s with a := t.a, usp := t.usp, ssp := t.ssp }
      ∧ t.readA n = (v.extractLsb' 0 16).signExtend 32 ∧ ∀ k, k ≠ n → t.readA k = s.readA k)
    ∧ s.readA 7 = (if s.sr.s then s.ssp else s.usp)
    ∧ s.writeA 7 v = (if s.sr.s then { s with ssp := v } else { s with usp := v })
    ∧ s.fcData = (if s.sr.s then .superData else .userData) ∧ s.fcProg = (if s.sr.s then .superProgram else .userProgram)
    ∧ FuncCode.userData.bits = 1 ∧ FuncCode.userProgram.bits = 2 ∧ FuncCode.superData.bits = 5
    ∧ FuncCode.superProgram.bits = 6 ∧ FuncCode.intAck.bits = 7
    ∧ (∀ sz : Size, let k : Long := match sz with
        | .b => if n = 7 then 2 else 1
        | .w => 2
        | .l => 4
      eaLoc (.postInc n) sz s = .mem (s.readA n) s.fcData false
      ∧ eaStep (.postInc n) sz s = s.writeA n (s.readA n + k) ∧ eaWords (.postInc n) = 0
      ∧ eaLoc (.preDec n) sz s = .mem (s.readA n - k) s.fcData true
      ∧ eaStep (.preDec n) sz s = s.writeA n (s.readA n - k) ∧ eaWords (.preDec n) = 0
      ∧ eaLoc (.dreg n) sz s = .dreg n ∧ eaStep (.dreg n) sz s = s ∧ eaWords (.dreg n) = 0
      ∧ eaLoc (.areg n) sz s = .areg n ∧ eaStep (.areg n) sz s = s ∧ eaWords (.areg n) = 0
      ∧ ∀ w : Word, eaStep (.imm16 w) sz s = s ∧ eaStep (.imm32 v) sz s = s)
    ∧ ∀ w : Word, eaLoc (.imm16 w) .b s = .imm ((w.extractLsb' 0 8).setWidth 32)
      ∧ eaLoc (.imm16 w) .w s = .imm (w.setWidth 32) ∧ eaWords (.imm16 w) = 1
      ∧ eaLoc (.imm32 v) .l s = .imm v ∧ eaWords (.imm32 v) = 2

/-- A write of a word to the status register stores it masked with `$A71F`, and a read gives back what is stored: the
unused bits read 0.
The layout and the unused bits are the spec's decision D8 (log entry 17). -/
def Obligations.StatusImage : Prop :=
  (∀ w : Word, (StatusReg.ofWord w).toWord = w &&& 0xA71F#16)
  ∧ (∀ r : StatusReg, StatusReg.ofWord r.toWord = r)
  ∧ ∀ (r : StatusReg) (w : Word), (r.setCcr w).toWord = (r.toWord &&& 0xFF00#16) ||| (w &&& 0x001F#16)

/-! ## Data movement -/

/-- MOVE in its three sizes: the source is read completely before the destination is resolved; N and Z from the
operand, V and C cleared, X kept. -/
def Obligations.MoveResult : Prop :=
  ∀ (s : State) (sz : Size) (src dst : EA), s.Ready →
    let t1 := eaStep src sz (s.after (1 + eaWords src))
    let v := t1.operand (eaLoc src sz (s.after 1)) sz
    let loc := eaLoc dst sz t1
    let t := eaStep dst sz (t1.after (eaWords dst))
    let i := match sz with
      | .b => Instr.moveB src dst
      | .w => Instr.moveW src dst
      | .l => Instr.moveL src dst
    (eaLoc src sz (s.after 1)).Accessible sz → loc.Accessible sz →
      YieldsStoring (exec i s)
        { t.putReg loc sz v with sr := { s.sr with n := sz.msb v, z := sz.trunc v == 0, v := false, c := false } }
        loc sz v

/-- MOVEA, ADDA and SUBA: a word source is sign-extended to 32 bits, the whole address register is written, and no flag
changes. -/
def Obligations.AddressResults : Prop :=
  ∀ (s : State) (an : RegNo) (ea : EA), s.Ready →
    ((eaLoc ea .w (s.after 1)).Accessible .w →
      let t := eaStep ea .w (s.after (1 + eaWords ea))
      let v := (lowWord (t.operand (eaLoc ea .w (s.after 1)) .w)).signExtend 32
      Yields (exec (.moveaW an ea) s) (t.writeA an v)
      ∧ Yields (exec (.addaW an ea) s) (t.writeA an (t.readA an + v))
      ∧ Yields (exec (.subaW an ea) s) (t.writeA an (t.readA an - v)))
    ∧ ((eaLoc ea .l (s.after 1)).Accessible .l →
      let t := eaStep ea .l (s.after (1 + eaWords ea))
      let v := t.operand (eaLoc ea .l (s.after 1)) .l
      Yields (exec (.moveaL an ea) s) (t.writeA an v)
      ∧ Yields (exec (.addaL an ea) s) (t.writeA an (t.readA an + v))
      ∧ Yields (exec (.subaL an ea) s) (t.writeA an (t.readA an - v)))

/-- MOVEQ, SWAP, EXT and EXG: the register results and flags, in every state, and the words that stand for them. -/
def Obligations.RegisterMoves : Prop :=
  ∀ (s : State) (x y : RegNo) (v : Byte),
    let t := s.after 1
    let flags (n z : Bool) : StatusReg := { s.sr with n := n, z := z, v := false, c := false }
    let q : Long := v.signExtend 32
    let w : Long := lowWord (s.readD x) ++ highWord (s.readD x)
    let b : Word := (lowByte (s.readD x)).signExtend 16
    let l : Long := (lowWord (s.readD x)).signExtend 32
    let rx := BitVec.ofNat 3 x.val
    let ry := BitVec.ofNat 3 y.val
    exec (.moveq x v) s = .next { t.writeD x q with sr := flags q.msb (q == 0) }
    ∧ exec (.swap x) s = .next { t.writeD x w with sr := flags w.msb (w == 0) }
    ∧ exec (.extW x) s = .next { t.writeD x (highWord (s.readD x) ++ b) with sr := flags b.msb (b == 0) }
    ∧ exec (.extL x) s = .next { t.writeD x l with sr := flags l.msb (l == 0) }
    ∧ exec (.exgDD x y) s = .next ((t.writeD x (s.readD y)).writeD y (s.readD x))
    ∧ exec (.exgAA x y) s = .next ((t.writeA x (s.readA y)).writeA y (s.readA x))
    ∧ exec (.exgDA x y) s = .next ((t.writeD x (s.readA y)).writeA y (s.readD x))
    ∧ encode (.moveq x v) = [0b0111#4 ++ rx ++ 0#1 ++ v] ∧ encode (.swap x) = [0b0100100001000#13 ++ rx]
    ∧ encode (.extW x) = [0b0100100010000#13 ++ rx] ∧ encode (.extL x) = [0b0100100011000#13 ++ rx]
    ∧ encode (.exgDD x y) = [0b1100#4 ++ rx ++ 0b101000#6 ++ ry]
    ∧ encode (.exgAA x y) = [0b1100#4 ++ rx ++ 0b101001#6 ++ ry]
    ∧ encode (.exgDA x y) = [0b1100#4 ++ rx ++ 0b110001#6 ++ ry]

/-- LEA loads the address its control mode computes and makes no bus cycle but those that fetch its extension words;
PEA pushes that address, computed before the stack pointer is decremented. The address of each control mode is written
out: the index is the whole register or its low word sign-extended, the base of a PC mode is the address of its extension
word; a PC mode is a program reference, any other a data reference.
That PEA of an A7 mode takes A7 before the decrement is the spec's pseudocode order (log entry 35), that bits 10 to 8 of an
index word are ignored is log entry 18. -/
def Obligations.LeaPea : Prop :=
  ∀ (s : State) (an : RegNo) (ea : EA), s.Ready → ea.isIn Mode.isControl .l = true →
    let index (u : State) (x : IndexWord) : Long :=
      let r := if x.isAddr then u.readA x.reg else u.readD x.reg
      if x.long then r else (lowWord r).signExtend 32
    let addr (u : State) : Long := match ea with
      | .ind n => u.readA n
      | .disp n d => u.readA n + d.signExtend 32
      | .index n x => u.readA n + x.d8.signExtend 32 + index u x
      | .absW w => w.signExtend 32
      | .absL v => v
      | .pcDisp d => u.pc + d.signExtend 32
      | .pcIndex x => u.pc + x.d8.signExtend 32 + index u x
      | _ => 0
    let fc (u : State) : FuncCode := match ea with
      | .pcDisp _ | .pcIndex _ => if u.sr.s then .superProgram else .userProgram
      | _ => if u.sr.s then .superData else .userData
    let words : Nat := match ea with
      | .ind _ => 0
      | .absL _ => 2
      | _ => 1
    let t := s.after (1 + words)
    (∀ (u : State) (sz : Size), eaLoc ea sz u = .mem (addr u) (fc u) false ∧ eaStep ea sz u = u) ∧ eaWords ea = words
      ∧ exec (.lea an ea) s =
        .next { t.writeA an (addr (s.after 1)) with bus := s.bus ++ s.fetchCycles words (s.pc + 2) }
      ∧ (EvenAddr s.sp →
        YieldsStoring (exec (.pea ea) s) (t.setSp (s.sp - 4)) (.mem (s.sp - 4) s.fcData true) .l (addr (s.after 1)))

/-- LINK pushes the register (for A7 the already decremented stack pointer), loads it with the stack pointer and adds
the displacement to the stack pointer; UNLK loads the stack pointer from the register and pops the register.
What A7 does is the spec's pseudocode order (log entry 35). -/
def Obligations.LinkUnlk : Prop :=
  ∀ (s : State) (an : RegNo), s.Ready →
    (∀ d : Word, EvenAddr s.sp →
      let t := (s.after 2).setSp (s.sp - 4)
      YieldsStoring (exec (.link an d) s) ((t.writeA an (s.sp - 4)).setSp ((t.writeA an (s.sp - 4)).sp + d.signExtend 32))
        (.mem (s.sp - 4) s.fcData true) .l (t.readA an))
    ∧ (EvenAddr (s.readA an) →
        Yields (exec (.unlk an) s)
          (((s.after 1).setSp (s.readA an + 4)).writeA an (s.peekLong s.fcData (s.readA an))))

/-- MOVEM registers to memory: the listed registers in ascending order of mask bit, at ascending addresses, or for
`-(An)` at descending addresses with `An` left at the last one; the base register is stored with its initial value;
every other byte is unchanged.
What the base register does is the spec's pseudocode order (log entry 35). -/
def Obligations.MovemStore : Prop :=
  ∀ (s : State) (size : SizeWL) (list : Word) (ea : EA), s.Ready → ea.isIn Mode.isMovemStore size.size = true →
    let sz := size.size
    let down := ea.mode == .preDec
    let order := movemOrder list down
    let t := s.after (2 + eaWords ea)
    ∃ base, (match ea with
        | .preDec n => base = s.readA n
        | _ => eaLoc ea sz (s.after 2) = .mem base s.fcData false)
      ∧ ((order = [] ∨ EvenAddr base) →
        let slot (j : Nat) : Long := if down then base - sz.bytes * BitVec.ofNat 32 (j + 1)
          else base + sz.bytes * BitVec.ofNat 32 j
        let final : State := match ea with
          | .preDec n => t.writeA n (base - sz.bytes * BitVec.ofNat 32 order.length)
          | _ => t
        ∃ m log, exec (.movemToMem size list ea) s = .next { final with mem := m, bus := log }
          ∧ (∀ j (h : j < order.length),
              ({ s with mem := m }).peek s.fcData (slot j) sz = sz.trunc (s.readR order[j]))
          ∧ ∀ n, (∀ j < order.length, n ∉ s.bytesAt s.fcData (slot j) sz) → Memory.read m n = Memory.read s.mem n)

/-- MOVEM memory to registers: the listed registers in ascending order of mask bit from ascending addresses, words
sign-extended into the whole register; `(An)+` leaves its base register at the address after the last operand,
listed or not; no other register and no memory changes. The last bus cycle reads one word more, just after the last
operand.
What the base register does is the spec's pseudocode order (log entry 35). -/
def Obligations.MovemLoad : Prop :=
  ∀ (s : State) (size : SizeWL) (list : Word) (ea : EA), s.Ready → ea.isIn Mode.isMovemLoad size.size = true →
    let sz := size.size
    let order := movemOrder list false
    ∃ base fc, eaLoc ea sz (s.after 2) = .mem base fc false
      ∧ (EvenAddr base → ∃ t, exec (.movemToRegs size list ea) s = .next t
        ∧ t = { s.after (2 + eaWords ea) with d := t.d, a := t.a, usp := t.usp, ssp := t.ssp, bus := t.bus }
        ∧ (if s.sr.s then t.usp = s.usp else t.ssp = s.ssp)
        ∧ (∀ j (h : j < order.length), (∀ n, ea = .postInc n → order[j].val ≠ 8 + n.val) →
            t.readR order[j] = sz.sext (s.peek fc (base + sz.bytes * BitVec.ofNat 32 j) sz))
        ∧ (∀ n, ea = .postInc n → t.readA n = base + sz.bytes * BitVec.ofNat 32 order.length)
        ∧ (∀ k, k ∉ order → (∀ n, ea = .postInc n → k.val ≠ 8 + n.val) → t.readR k = s.readR k)
        ∧ let e := base + sz.bytes * BitVec.ofNat 32 order.length
          t.bus.getLast? = some ⟨.read, fc, busAddr e, true, ⟨some (s.peekByte fc e), some (s.peekByte fc (e + 1))⟩,
            s.answer fc .read e⟩)

/-- MOVEP: two or four bytes at every second address, the high-order byte first, at any address; the word load keeps
the upper half of the register, and the bytes between are not touched. -/
def Obligations.MovepResult : Prop :=
  ∀ (s : State) (dx ay : RegNo) (d : Word), s.Ready →
    let t := s.after 2
    let a := s.readA ay + d.signExtend 32
    let byte (k : Nat) : Byte := s.peekByte s.fcData (a + BitVec.ofNat 32 (2 * k))
    let stored (m : Memory) (count : Nat) : Prop :=
      (∀ k < count, Memory.read m (s.location s.fcData (a + BitVec.ofNat 32 (2 * k)))
        = (s.readD dx >>> (8 * (count - 1 - k))).setWidth 8)
      ∧ ∀ n, (∀ k < count, n ≠ s.location s.fcData (a + BitVec.ofNat 32 (2 * k))) →
          Memory.read m n = Memory.read s.mem n
    Yields (exec (.movepWToReg dx ay d) s) (t.writeD dx (highWord (s.readD dx) ++ (byte 0 ++ byte 1)))
    ∧ Yields (exec (.movepLToReg dx ay d) s) (t.writeD dx ((byte 0 ++ byte 1) ++ (byte 2 ++ byte 3)))
    ∧ (∃ m log, exec (.movepWToMem dx ay d) s = .next { t with mem := m, bus := log } ∧ stored m 2)
    ∧ ∃ m log, exec (.movepLToMem dx ay d) s = .next { t with mem := m, bus := log } ∧ stored m 4

/-! ## Integer arithmetic -/

/-- The sum and difference helpers: the result modulo 2^w, C the carry or borrow, and V exactly when the signed sum or
difference does not fit in w bits. -/
def Obligations.SumAndDifference : Prop :=
  ∀ (sz : Size) (a b : Long) (k : Bool), a.toNat < 2 ^ sz.bits → b.toNat < 2 ^ sz.bits →
    let signed (v : Long) : Int := (sz.sext v).toInt
    let fits (x : Int) : Prop := -(2 ^ (sz.bits - 1) : Int) ≤ x ∧ x < (2 ^ (sz.bits - 1) : Int)
    ((addc sz a b k).r.toNat = (a.toNat + b.toNat + bitNat k) % 2 ^ sz.bits
      ∧ ((addc sz a b k).c = true ↔ 2 ^ sz.bits ≤ a.toNat + b.toNat + bitNat k)
      ∧ ((addc sz a b k).v = true ↔ ¬ fits (signed a + signed b + bitNat k)))
    ∧ ((subc sz a b k).r.toNat = (b.toNat + 2 * 2 ^ sz.bits - a.toNat - bitNat k) % 2 ^ sz.bits
      ∧ ((subc sz a b k).c = true ↔ b.toNat < a.toNat + bitNat k)
      ∧ ((subc sz a b k).v = true ↔ ¬ fits (signed b - signed a - bitNat k)))

/-- ADD, SUB, AND, OR to a data register: the source operand combined with the low part of the register, the upper
part kept; all five flags for ADD and SUB; N and Z, with V and C cleared and X kept, for AND and OR. -/
def Obligations.ToRegister : Prop :=
  ∀ (s : State) (sz : Size) (dn : RegNo) (ea : EA), s.Ready →
    let loc := eaLoc ea sz (s.after 1)
    let t := eaStep ea sz (s.after (1 + eaWords ea))
    let src := t.operand loc sz
    let dst := sz.trunc (s.readD dn)
    let put (r : Long) (sr : StatusReg) : State := { t.writeD dn (sz.merge (s.readD dn) r) with sr := sr }
    let five (u : Sum) : StatusReg := { s.sr with x := u.c, n := sz.msb u.r, z := u.r == 0, v := u.v, c := u.c }
    let logic (r : Long) : StatusReg := { s.sr with n := sz.msb r, z := sz.trunc r == 0, v := false, c := false }
    loc.Accessible sz →
      Yields (exec (.addToReg sz dn ea) s) (put (addc sz src dst false).r (five (addc sz src dst false)))
      ∧ Yields (exec (.subToReg sz dn ea) s) (put (subc sz src dst false).r (five (subc sz src dst false)))
      ∧ Yields (exec (.andToReg sz dn ea) s) (put (dst &&& src) (logic (dst &&& src)))
      ∧ Yields (exec (.orToReg sz dn ea) s) (put (dst ||| src) (logic (dst ||| src)))

/-- ADD, SUB, AND, OR, EOR from a data register to a destination: resolved once, read, written back at the same
place; all five flags for ADD and SUB; N and Z, with V and C cleared and X kept, for the others. -/
def Obligations.ToDestination : Prop :=
  ∀ (s : State) (sz : Size) (dn : RegNo) (ea : EA), s.Ready →
    let loc := eaLoc ea sz (s.after 1)
    let t := eaStep ea sz (s.after (1 + eaWords ea))
    let src := sz.trunc (s.readD dn)
    let dst := t.operand loc sz
    let yields (i : Instr) (r : Long) (sr : StatusReg) : Prop :=
      YieldsStoring (exec i s) { t.putReg loc sz r with sr := sr } loc sz r
    let five (u : Sum) : StatusReg := { s.sr with x := u.c, n := sz.msb u.r, z := u.r == 0, v := u.v, c := u.c }
    let logic (r : Long) : StatusReg := { s.sr with n := sz.msb r, z := sz.trunc r == 0, v := false, c := false }
    loc.Accessible sz →
      yields (.addToMem sz dn ea) (addc sz src dst false).r (five (addc sz src dst false))
      ∧ yields (.subToMem sz dn ea) (subc sz src dst false).r (five (subc sz src dst false))
      ∧ yields (.andToMem sz dn ea) (src &&& dst) (logic (src &&& dst))
      ∧ yields (.orToMem sz dn ea) (src ||| dst) (logic (src ||| dst))
      ∧ yields (.eor sz dn ea) (src ^^^ dst) (logic (src ^^^ dst))

/-- ADDI, SUBI, ANDI, ORI, EORI: the immediate is consumed before the words of the effective address, its high byte
ignored in a byte operation; otherwise as the forms to a destination.
That the high byte of a byte immediate is ignored is log entry 18. -/
def Obligations.ImmediateResults : Prop :=
  ∀ (s : State) (sz : Size) (v : Imm) (ea : EA), s.Ready → v.admits sz = true →
    let src : Long := match v with
      | .word w => sz.trunc (w.setWidth 32)
      | .long l => l
    let words : Nat := match v with
      | .word _ => 1
      | .long _ => 2
    let loc := eaLoc ea sz (s.after (1 + words))
    let t := eaStep ea sz (s.after (1 + words + eaWords ea))
    let dst := t.operand loc sz
    let yields (i : Instr) (r : Long) (sr : StatusReg) : Prop :=
      YieldsStoring (exec i s) { t.putReg loc sz r with sr := sr } loc sz r
    let five (u : Sum) : StatusReg := { s.sr with x := u.c, n := sz.msb u.r, z := u.r == 0, v := u.v, c := u.c }
    let logic (r : Long) : StatusReg := { s.sr with n := sz.msb r, z := sz.trunc r == 0, v := false, c := false }
    loc.Accessible sz →
      yields (.addi sz v ea) (addc sz src dst false).r (five (addc sz src dst false))
      ∧ yields (.subi sz v ea) (subc sz src dst false).r (five (subc sz src dst false))
      ∧ yields (.andi sz v ea) (src &&& dst) (logic (src &&& dst))
      ∧ yields (.ori sz v ea) (src ||| dst) (logic (src ||| dst))
      ∧ yields (.eori sz v ea) (src ^^^ dst) (logic (src ^^^ dst))

/-- ADDQ and SUBQ: 1 to 8, the field 0 standing for 8; on an address register all 32 bits and no flag, whatever the
size; elsewhere all five flags. -/
def Obligations.QuickResults : Prop :=
  ∀ (s : State) (q : BitVec 3) (sz : Size) (ea : EA), s.Ready →
    let k : Long := if q = 0 then 8 else q.setWidth 32
    let loc := eaLoc ea sz (s.after 1)
    let t := eaStep ea sz (s.after (1 + eaWords ea))
    let dst := t.operand loc sz
    let five (u : Sum) : StatusReg := { s.sr with x := u.c, n := sz.msb u.r, z := u.r == 0, v := u.v, c := u.c }
    (∀ n, ea = .areg n →
      exec (.addq q sz ea) s = .next (t.writeA n (s.readA n + k))
      ∧ exec (.subq q sz ea) s = .next (t.writeA n (s.readA n - k)))
    ∧ ((∀ n, ea ≠ .areg n) → loc.Accessible sz →
      YieldsStoring (exec (.addq q sz ea) s)
        { t.putReg loc sz (addc sz k dst false).r with sr := five (addc sz k dst false) } loc sz
        (addc sz k dst false).r
      ∧ YieldsStoring (exec (.subq q sz ea) s)
        { t.putReg loc sz (subc sz k dst false).r with sr := five (subc sz k dst false) } loc sz
        (subc sz k dst false).r)

/-- ADDX and SUBX on data registers: X takes part, and Z is cleared by a result that is not zero and kept otherwise. -/
def Obligations.ExtendedRegister : Prop :=
  ∀ (s : State) (sz : Size) (dx dy : RegNo),
    let src := sz.trunc (s.readD dy)
    let dst := sz.trunc (s.readD dx)
    let put (u : Sum) : State :=
      { (s.after 1).writeD dx (sz.merge (s.readD dx) u.r) with
        sr := { s.sr with x := u.c, n := sz.msb u.r, z := s.sr.z && u.r == 0, v := u.v, c := u.c } }
    exec (.addxReg sz dx dy) s = .next (put (addc sz src dst s.sr.x))
    ∧ exec (.subxReg sz dx dy) s = .next (put (subc sz src dst s.sr.x))

/-- ADDX and SUBX on memory: the source `-(Ay)` is decremented and read first, then the destination `-(Ax)`; with the
same register it is decremented twice. -/
def Obligations.ExtendedMemory : Prop :=
  ∀ (s : State) (sz : Size) (ax ay : RegNo), s.Ready →
    let t1 := eaStep (.preDec ay) sz (s.after 1)
    let t := eaStep (.preDec ax) sz t1
    let src := s.peek s.fcData (t1.readA ay) sz
    let dst := s.peek s.fcData (t.readA ax) sz
    let loc : Loc := .mem (t.readA ax) s.fcData true
    let flags (u : Sum) : StatusReg :=
      { s.sr with x := u.c, n := sz.msb u.r, z := s.sr.z && u.r == 0, v := u.v, c := u.c }
    Aligned sz (t1.readA ay) → Aligned sz (t.readA ax) →
      YieldsStoring (exec (.addxMem sz ax ay) s) { t with sr := flags (addc sz src dst s.sr.x) } loc sz
        (addc sz src dst s.sr.x).r
      ∧ YieldsStoring (exec (.subxMem sz ax ay) s) { t with sr := flags (subc sz src dst s.sr.x) } loc sz
        (subc sz src dst s.sr.x).r

/-- NEG, NEGX and NOT: zero minus the operand, zero minus the operand minus X, the complement; Z sticky for NEGX. -/
def Obligations.NegateResults : Prop :=
  ∀ (s : State) (sz : Size) (ea : EA), s.Ready →
    let loc := eaLoc ea sz (s.after 1)
    let t := eaStep ea sz (s.after (1 + eaWords ea))
    let d := t.operand loc sz
    let yields (i : Instr) (r : Long) (sr : StatusReg) : Prop :=
      YieldsStoring (exec i s) { t.putReg loc sz r with sr := sr } loc sz r
    let u := subc sz d 0 false
    let ux := subc sz d 0 s.sr.x
    let c := sz.trunc (~~~d)
    loc.Accessible sz →
      yields (.neg sz ea) u.r { s.sr with x := u.c, n := sz.msb u.r, z := u.r == 0, v := u.v, c := u.c }
      ∧ yields (.negx sz ea) ux.r
        { s.sr with x := ux.c, n := sz.msb ux.r, z := s.sr.z && ux.r == 0, v := ux.v, c := ux.c }
      ∧ yields (.notOp sz ea) c { s.sr with n := sz.msb c, z := c == 0, v := false, c := false }

/-- CLR, Scc and MOVE from SR: the value stored; a destination in memory is read by a cycle before it is written. -/
def Obligations.StoreOnly : Prop :=
  ∀ (s : State) (ea : EA), s.Ready →
    let yields (i : Instr) (sz : Size) (v : Long) (sr : StatusReg) : Prop :=
      let loc := eaLoc ea sz (s.after 1)
      let t := eaStep ea sz (s.after (1 + eaWords ea))
      loc.Accessible sz → ∃ m log,
        exec i s = .next { t.putReg loc sz v with sr := sr, mem := m, bus := log }
        ∧ Stored s { t.putReg loc sz v with sr := sr, mem := m, bus := log } loc sz v
        ∧ ∀ a fc lf, loc = .mem a fc lf →
            ∃ before after c, log = before ++ c :: after ∧ c.kind = .read ∧ c.fc = fc ∧ c.addr = busAddr a
              ∧ ∀ b ∈ before, b ∈ s.bus ∨ b.kind = .read
    (∀ sz, yields (.clr sz ea) sz 0 { s.sr with n := false, z := true, v := false, c := false })
    ∧ (∀ cond, yields (.scc cond ea) .b (if condHolds cond s.sr then 0xFF else 0) s.sr)
    ∧ yields (.moveFromSr ea) .w (s.sr.toWord.setWidth 32) s.sr

/-- The compares and TST write no register but those their operands step, no memory, and leave X: the flags of the
destination minus the source; CMPA is a 32-bit comparison of a sign-extended source. -/
def Obligations.CompareFlags : Prop :=
  ∀ (s : State) (sz : Size) (n : RegNo) (ea : EA), s.Ready →
    let flags (z : Size) (u : Sum) : StatusReg := { s.sr with n := z.msb u.r, z := u.r == 0, v := u.v, c := u.c }
    let t (z : Size) : State := eaStep ea z (s.after (1 + eaWords ea))
    let loc (z : Size) : Loc := eaLoc ea z (s.after 1)
    let src (z : Size) : Long := (t z).operand (loc z) z
    ((loc sz).Accessible sz →
      Yields (exec (.cmp sz n ea) s) { t sz with sr := flags sz (subc sz (src sz) (sz.trunc (s.readD n)) false) }
      ∧ Yields (exec (.tst sz ea) s)
        { t sz with sr := { s.sr with n := sz.msb (src sz), z := sz.trunc (src sz) == 0, v := false, c := false } })
    ∧ ((loc .w).Accessible .w →
      Yields (exec (.cmpaW n ea) s)
        { t .w with sr := flags .l (subc .l ((lowWord (src .w)).signExtend 32) ((t .w).readA n) false) })
    ∧ ((loc .l).Accessible .l →
      Yields (exec (.cmpaL n ea) s) { t .l with sr := flags .l (subc .l (src .l) ((t .l).readA n) false) })
    ∧ (∀ v : Imm, let u := eaStep ea sz (s.after (1 + immWordCount v + eaWords ea))
      let at1 := eaLoc ea sz (s.after (1 + immWordCount v))
      at1.Accessible sz →
        Yields (exec (.cmpi sz v ea) s) { u with sr := flags sz (subc sz (immValue v sz) (u.operand at1 sz) false) })
    ∧ ∀ ax ay : RegNo, let t1 := eaStep (.postInc ay) sz (s.after 1)
      let u := eaStep (.postInc ax) sz t1
      Aligned sz (s.readA ay) → Aligned sz (t1.readA ax) →
        Yields (exec (.cmpm sz ax ay) s)
          { u with sr := flags sz (subc sz (s.peek s.fcData (s.readA ay) sz) (s.peek s.fcData (t1.readA ax) sz) false) }

/-- TAS: the flags of the byte before bit 7 is set, and in memory the last two cycles are the read and the write of one
read-modify-write cycle at that byte. -/
def Obligations.TasResult : Prop :=
  ∀ (s : State) (ea : EA), s.Ready →
    let loc := eaLoc ea .b (s.after 1)
    let t := eaStep ea .b (s.after (1 + eaWords ea))
    let v := t.operand loc .b
    ∃ m log, exec (.tas ea) s = .next
        { t.putReg loc .b (v ||| 0x80) with
          sr := { s.sr with n := v.getLsbD 7, z := Size.b.trunc v == 0, v := false, c := false }, mem := m, bus := log }
      ∧ Stored s
        { t.putReg loc .b (v ||| 0x80) with
          sr := { s.sr with n := v.getLsbD 7, z := Size.b.trunc v == 0, v := false, c := false }, mem := m, bus := log }
        loc .b (v ||| 0x80)
      ∧ ∀ a fc lf, loc = .mem a fc lf → ∃ before r w, log = before ++ [r, w]
          ∧ r.kind = .rmwRead ∧ r.fc = fc ∧ r.addr = busAddr a ∧ r.isWord = false
          ∧ w.kind = .rmwWrite ∧ w.fc = fc ∧ w.addr = busAddr a ∧ w.isWord = false

/-- MULU and MULS: the 32-bit product of the low word of the register and the source word replaces the whole register;
N and Z from the product, V and C cleared, X kept. -/
def Obligations.MultiplyResults : Prop :=
  ∀ (s : State) (dn : RegNo) (ea : EA), s.Ready →
    let loc := eaLoc ea .w (s.after 1)
    let t := eaStep ea .w (s.after (1 + eaWords ea))
    let src := lowWord (t.operand loc .w)
    let d := lowWord (s.readD dn)
    let put (r : Long) : State :=
      { t.writeD dn r with sr := { s.sr with n := r.msb, z := r == 0, v := false, c := false } }
    loc.Accessible .w →
      (∃ r : Long, r.toNat = d.toNat * src.toNat ∧ Yields (exec (.mulu dn ea) s) (put r))
      ∧ ∃ r : Long, r.toInt = d.toInt * src.toInt ∧ Yields (exec (.muls dn ea) s) (put r)

/-- DIVU and DIVS with a divisor that is not zero: remainder in the high word, quotient in the low word, the remainder
with the sign of the dividend; on overflow the register is unchanged, V = 1, C = 0, N and Z any value.
The free N and Z are those of log entry 3. -/
def Obligations.DivideResults : Prop :=
  ∀ (s : State) (dn : RegNo) (ea : EA), s.Ready →
    let loc := eaLoc ea .w (s.after 1)
    let t := eaStep ea .w (s.after (1 + eaWords ea))
    let m := lowWord (t.operand loc .w)
    let d := s.readD dn
    let put (q rem : Word) : State :=
      { t.writeD dn (rem ++ q) with sr := { s.sr with n := q.msb, z := q == 0, v := false, c := false } }
    let overflows (i : Instr) : Prop := ∃ n z : Bool,
      Yields (exec i s) { t with sr := { s.sr with n := n, z := z, v := true, c := false }, freeCount := s.freeCount + 1 }
    loc.Accessible .w → m ≠ 0 →
      (if d.toNat / m.toNat ≤ 65535 then
        ∃ q rem : Word, q.toNat * m.toNat + rem.toNat = d.toNat ∧ rem.toNat < m.toNat
          ∧ Yields (exec (.divu dn ea) s) (put q rem)
      else overflows (.divu dn ea))
      ∧ (if -32768 ≤ d.toInt.tdiv m.toInt ∧ d.toInt.tdiv m.toInt ≤ 32767 then
        ∃ q rem : Word, q.toInt * m.toInt + rem.toInt = d.toInt ∧ |rem.toInt| < |m.toInt|
          ∧ (rem.toInt = 0 ∨ (rem.toInt < 0 ↔ d.toInt < 0)) ∧ Yields (exec (.divs dn ea) s) (put q rem)
      else overflows (.divs dn ea))

/-- A zero divisor: the zero divide exception, vector 5, after the source operand is read and its address register
stepped; the destination register is unchanged, C = 0, N, Z and V any value, and the next instruction's address is
stacked.
The free flags are those of log entry 3. -/
def Obligations.ZeroDivideTraps : Prop :=
  ∀ (s : State) (dn : RegNo) (ea : EA), s.Ready →
    let loc := eaLoc ea .w (s.after 1)
    let t := eaStep ea .w (s.after (1 + eaWords ea))
    loc.Accessible .w → lowWord (t.operand loc .w) = 0 → EvenAddr t.ssp →
      ∀ i ∈ [Instr.divu dn ea, Instr.divs dn ea], ∃ (n z v : Bool) (u : State),
        exec i s = .next u
        ∧ TookException { t with sr := { s.sr with n := n, z := z, v := v, c := false }, freeCount := s.freeCount + 1 } u
          5 t.pc s.tracePending

/-! ## Shifts, bits, decimal -/

/-- The eight shifts and rotates of a data register: the count, 1 to 8 or the register's low six bits read before the
result is written; the low part of the register rewritten, the upper part kept; N and Z from the result, X, V and
C as the one-bit steps leave them. -/
def Obligations.ShiftRegisterResults : Prop :=
  ∀ (s : State) (c : ShiftCount) (sz : Size) (dy : RegNo),
    let n : Nat := match c with
      | .imm k => if k = 0 then 8 else k.toNat
      | .reg r => (s.readD r).toNat % 64
    let yields (i : Instr) (op : ShiftOp) : Prop :=
      let u := shiftResult op sz n (sz.trunc (s.readD dy)) s.sr.x
      exec i s = .next
        { (s.after 1).writeD dy (sz.merge (s.readD dy) u.v) with
          sr := { s.sr with x := u.x, n := sz.msb u.v, z := sz.trunc u.v == 0, v := u.ov, c := u.c } }
    yields (.aslReg c sz dy) .asl ∧ yields (.asrReg c sz dy) .asr ∧ yields (.lslReg c sz dy) .lsl
    ∧ yields (.lsrReg c sz dy) .lsr ∧ yields (.rolReg c sz dy) .rol ∧ yields (.rorReg c sz dy) .ror
    ∧ yields (.roxlReg c sz dy) .roxl ∧ yields (.roxrReg c sz dy) .roxr

/-- The eight memory shifts: a word, by one bit, at one address; C is the bit shifted out, X is C for the shifts and
the rotates through extend and is kept by the plain rotates, and V is set only by an ASL that changes the sign. -/
def Obligations.ShiftMemoryResults : Prop :=
  ∀ (s : State) (ea : EA), s.Ready →
    let loc := eaLoc ea .w (s.after 1)
    let t := eaStep ea .w (s.after (1 + eaWords ea))
    let v : Word := lowWord (t.operand loc .w)
    let left (b : Bool) : Word := v.extractLsb' 0 15 ++ BitVec.ofBool b
    let right (b : Bool) : Word := BitVec.ofBool b ++ v.extractLsb' 1 15
    let hi := v.getLsbD 15
    let lo := v.getLsbD 0
    let yields (i : Instr) (r : Word) (x ov c : Bool) : Prop :=
      YieldsStoring (exec i s)
        { t.putReg loc .w (r.setWidth 32) with sr := { s.sr with x := x, n := r.msb, z := r == 0, v := ov, c := c } }
        loc .w (r.setWidth 32)
    loc.Accessible .w → loc.isMem = true →
      yields (.aslMem ea) (left false) hi (v.getLsbD 15 != v.getLsbD 14) hi
      ∧ yields (.asrMem ea) (right hi) lo false lo
      ∧ yields (.lslMem ea) (left false) hi false hi
      ∧ yields (.lsrMem ea) (right false) lo false lo
      ∧ yields (.rolMem ea) (left hi) s.sr.x false hi
      ∧ yields (.rorMem ea) (right lo) s.sr.x false lo
      ∧ yields (.roxlMem ea) (left s.sr.x) hi false hi
      ∧ yields (.roxrMem ea) (right s.sr.x) lo false lo

/-- The closed forms of the iterated shifts: LSL and LSR as shifts by the whole count with C the last bit out (0 for
a count of 0 or beyond the width), ASL's V as a change of sign on the way, ROL by the width giving the operand back
with C its bit 0, ROXL by the width plus one giving back operand and X, and ROR undoing ROL; ASR as an arithmetic shift
by the whole count, C of ASL and ASR the last bit out, X equal to C after a shift by at least one and kept else; ROL and
ROR as rotations by the count modulo the width, X kept, C the bit that went round last; ROXL and ROXR as rotations of
X and the operand together by the count modulo the width plus one, C equal to X; V of ASL clear after a count of 0 and,
after a count of at least the width, set exactly where the operand is not 0; V clear but for ASL. -/
def Obligations.ShiftClosedForms : Prop :=
  ∀ (sz : Size) (n : Nat) (v : Long) (x : Bool), v.toNat < 2 ^ sz.bits →
    ((shiftResult .lsl sz n v x).v = sz.trunc (v <<< n)
      ∧ (shiftResult .lsl sz n v x).c = (decide (0 < n ∧ n ≤ sz.bits) && v.getLsbD (sz.bits - n))
      ∧ (shiftResult .asl sz n v x).v = sz.trunc (v <<< n))
    ∧ ((shiftResult .lsr sz n v x).v = v >>> n
      ∧ (shiftResult .lsr sz n v x).c = (decide (0 < n) && v.getLsbD (n - 1)))
    ∧ (0 < n → n < sz.bits → ((shiftResult .asl sz n v x).ov = true ↔
        ∃ k ≤ n, v.getLsbD (sz.bits - 1 - k) ≠ v.getLsbD (sz.bits - 1)))
    ∧ ((shiftResult .rol sz sz.bits v x).v = v ∧ (shiftResult .rol sz sz.bits v x).c = v.getLsbD 0)
    ∧ ((shiftResult .roxl sz (sz.bits + 1) v x).v = v ∧ (shiftResult .roxl sz (sz.bits + 1) v x).x = x)
    ∧ (shiftResult .ror sz n (shiftResult .rol sz n v x).v x).v = v
    ∧ let after (op : ShiftOp) : ShiftState := shiftResult op sz n v x
      let w := sz.bits
      let m := n % w
      let k := n % (w + 1)
      let both : Nat := bitNat x * 2 ^ w + v.toNat
      let joined (t : ShiftState) : Nat := bitNat t.x * 2 ^ w + t.v.toNat
      ((after .asr).v = sz.trunc ((sz.sext v).sshiftRight n)
        ∧ (after .asr).c = (decide (0 < n) && v.getLsbD (min n w - 1)))
      ∧ (after .asl).c = (after .lsl).c
      ∧ (n = 0 → (after .asl).ov = false) ∧ (w ≤ n → ((after .asl).ov = true ↔ v ≠ 0))
      ∧ (∀ op ∈ [ShiftOp.asl, .asr, .lsl, .lsr], (after op).x = if n = 0 then x else (after op).c)
      ∧ ((after .rol).v = sz.trunc (v <<< m) ||| v >>> (w - m) ∧ (after .rol).x = x
        ∧ (after .rol).c = (decide (0 < n) && (after .rol).v.getLsbD 0))
      ∧ ((after .ror).v = v >>> m ||| sz.trunc (v <<< (w - m)) ∧ (after .ror).x = x
        ∧ (after .ror).c = (decide (0 < n) && sz.msb (after .ror).v))
      ∧ (joined (after .roxl) = both * 2 ^ k % 2 ^ (w + 1) + both / 2 ^ (w + 1 - k) ∧ (after .roxl).c = (after .roxl).x)
      ∧ (joined (after .roxr) = both / 2 ^ k + both % 2 ^ k * 2 ^ (w + 1 - k) ∧ (after .roxr).c = (after .roxr).x)
      ∧ ∀ op ∈ [ShiftOp.asr, .lsl, .lsr, .rol, .ror, .roxl, .roxr], (after op).ov = false

/-- BTST, BCHG, BCLR, BSET: the bit number modulo 32 on a data register and modulo 8 on a byte, from a register or
from the low byte of the word after the operation word; Z the complement of the bit before the change, no other flag.
That the high byte of the word is ignored is log entry 18. -/
def Obligations.BitResults : Prop :=
  ∀ (s : State) (ea : EA) (dn : RegNo) (w : Word), s.Ready →
    let sz : Size := if ea.mode = .dreg then .l else .b
    let loc (words : Nat) : Loc := eaLoc ea sz (s.after (1 + words))
    let t (words : Nat) : State := eaStep ea sz (s.after (1 + words + eaWords ea))
    let v (words : Nat) : Long := (t words).operand (loc words) sz
    let flags (words k : Nat) : StatusReg := { s.sr with z := !(v words).getLsbD k }
    let changes (i : Instr) (words k : Nat) (r : Long) : Prop :=
      YieldsStoring (exec i s) { (t words).putReg (loc words) sz r with sr := flags words k } (loc words) sz r
    let kd := (s.readD dn).toNat % sz.bits
    let ki := (w.toNat % 256) % sz.bits
    Yields (exec (.btstReg dn ea) s) { t 0 with sr := flags 0 kd }
    ∧ Yields (exec (.btstImm w ea) s) { t 1 with sr := flags 1 ki }
    ∧ changes (.bchgReg dn ea) 0 kd (v 0 ^^^ (1#32 <<< kd)) ∧ changes (.bchgImm w ea) 1 ki (v 1 ^^^ (1#32 <<< ki))
    ∧ changes (.bclrReg dn ea) 0 kd (v 0 &&& ~~~(1#32 <<< kd))
    ∧ changes (.bclrImm w ea) 1 ki (v 1 &&& ~~~(1#32 <<< ki))
    ∧ changes (.bsetReg dn ea) 0 kd (v 0 ||| (1#32 <<< kd)) ∧ changes (.bsetImm w ea) 1 ki (v 1 ||| (1#32 <<< ki))

/-- ABCD and SBCD on data registers, on memory with the source `-(Ay)` first, and NBCD, which subtracts its operand from
zero: the low byte of the destination and the flags, by the decimal rule.
The free values are those of log entries 3 and 19. -/
def Obligations.DecimalResults : Prop :=
  (∀ (s : State) (dx dy : RegNo),
    let src : Long := (lowByte (s.readD dy)).setWidth 32
    let d : Long := (lowByte (s.readD dx)).setWidth 32
    let yields (i : Instr) (subtract : Bool) : Prop := ∃ (r : Long) (sr : StatusReg),
      DecimalOutcome subtract src d s.sr r sr
      ∧ exec i s = .next
        { (s.after 1).writeD dx ((s.readD dx).extractLsb' 8 24 ++ lowByte r) with
          sr := sr, freeCount := s.freeCount + 1 }
    yields (.abcdReg dx dy) false ∧ yields (.sbcdReg dx dy) true)
  ∧ ∀ (s : State), s.Ready →
    (∀ ax ay : RegNo,
      let t1 := eaStep (.preDec ay) .b (s.after 1)
      let t := eaStep (.preDec ax) .b t1
      let src := s.peek s.fcData (t1.readA ay) .b
      let d := s.peek s.fcData (t.readA ax) .b
      let yields (i : Instr) (subtract : Bool) : Prop := ∃ (r : Long) (sr : StatusReg),
        DecimalOutcome subtract src d s.sr r sr
        ∧ YieldsStoring (exec i s) { t with sr := sr, freeCount := s.freeCount + 1 }
          (.mem (t.readA ax) s.fcData true) .b r
      yields (.abcdMem ax ay) false ∧ yields (.sbcdMem ax ay) true)
    ∧ ∀ ea : EA, ea.isIn Mode.isDataAlterable .b = true →
      let loc := eaLoc ea .b (s.after 1)
      let t := eaStep ea .b (s.after (1 + eaWords ea))
      ∃ (r : Long) (sr : StatusReg), DecimalOutcome true (t.operand loc .b) 0 s.sr r sr
        ∧ YieldsStoring (exec (.nbcd ea) s) { t.putReg loc .b r with sr := sr, freeCount := s.freeCount + 1 } loc .b r

/-! ## The environment -/

/-- The environment reaches the processor through the processor's own bus cycles. A cycle answered with BERR and HALT is
run again, the same in all but what other masters have written meanwhile, and without end where the platform's rules ask
for it for ever; a read-modify-write cycle so answered is a bus error. What other masters write before a cycle starts is
what the cycle finds, but none comes between the halves of a read-modify-write cycle. A byte at an even address travels
on the upper half of the data lines and a byte at an odd address on the lower half: a read from a device takes the half its
address selects, a read from memory shows the byte on that half alone, and a byte written is driven on both. And an
instruction that completes
does the same on every platform that treats alike the cycles it makes, whatever stands or answers at any other address.
How the environment's part of each cycle is said is the model's form (log entries 8, 10). -/
def Obligations.OnlyItsCyclesMatter : Prop :=
  (∀ (s : State) (kind : CycleKind) (fc : FuncCode) (a : Long) (isWord : Bool) (v : Word) (turn : BusTurn)
      (ts : List BusTurn),
    let s1 : State := { s with turns := turn :: ts }
    let u : State := { s with turns := ts, mem := Memory.writeAll s.mem turn.dma }
    (kind.isRmw = false → turn.answer = some .rerun →
      busRead kind fc a isWord s1 = busRead kind fc a isWord (u.logCycle kind fc a isWord none .rerun)
      ∧ busWrite kind fc a isWord v s1 = busWrite kind fc a isWord v (u.logCycle kind fc a isWord (some v) .rerun))
    ∧ (kind.isRmw = false → s.answer fc kind.dir a = .rerun → s.turns = [] →
      (kind.dir = .read → busRead kind fc a isWord s = .error .hang s)
      ∧ (kind.dir = .write → busWrite kind fc a isWord v s = .error .hang s))
    ∧ (turn.answer = some .rerun →
      busRead .rmwRead fc a isWord s1 =
        .error (.busError ⟨a, .read, fc⟩) (u.logCycle .rmwRead fc a isWord none .rerun)
      ∧ ∃ t, busWrite .rmwWrite fc a isWord v s1 = .error (.busError ⟨a, .write, fc⟩) t
        ∧ t = { s with turns := ts, mem := t.mem, bus := t.bus, freeCount := t.freeCount }
        ∧ ∀ n, n ∉ s.bytesAt fc a .w → Memory.read t.mem n = Memory.read s.mem n)
    ∧ (turn.answer = none → s.platform.map = [] →
      (s.Answers fc .read a → kind ≠ .rmwWrite → ∃ log, busRead kind fc a isWord s1 =
        .ok (if isWord then u.peekWord fc a else (u.peekByte fc a).setWidth 16) { u with bus := log })
      ∧ (s.Answers fc .write a → kind ≠ .rmwWrite → ∃ log, busWrite kind fc a isWord v s1 =
        .ok () { u.pokeCycle fc a isWord v with bus := log })
      ∧ (s.Answers fc .write a → ∃ log, busWrite .rmwWrite fc a isWord v s1 =
        .ok () { s.pokeCycle fc a isWord v with turns := ts, bus := log }))
    ∧ (turn.answer = none → (kind = .read ∨ kind = .rmwRead) → s.Answers fc .read a →
      let shown (byte : Byte) : DataLines := if a.getLsbD 0 then ⟨none, some byte⟩ else ⟨some byte, none⟩
      let logged (isWord : Bool) (d : DataLines) : State :=
        { u with bus := s.bus ++ [⟨kind, fc, busAddr a, isWord, d, s.answer fc .read a⟩] }
      (∀ w, turn.data = some w → s.place fc a = .device →
        let byte : Byte := if a.getLsbD 0 then w.extractLsb' 0 8 else w.extractLsb' 8 8
        busRead kind fc a false s1 = .ok (byte.setWidth 16) (logged false (shown byte))
        ∧ (s.place fc (a + 1) = .device → busRead kind fc a true s1 =
          .ok w (logged true ⟨some (w.extractLsb' 8 8), some (w.extractLsb' 0 8)⟩)))
      ∧ (s.place fc a ≠ .device → busRead kind fc a false s1 =
        .ok ((u.peekByte fc a).setWidth 16) (logged false (shown (u.peekByte fc a)))))
    ∧ (turn.answer = none → (kind = .write ∨ kind = .rmwWrite) → s.Answers fc .write a →
      let upper : Byte := if isWord then v.extractLsb' 8 8 else v.extractLsb' 0 8
      ∃ t, busWrite kind fc a isWord v s1 = .ok () t ∧ t.bus = s.bus ++
        [⟨kind, fc, busAddr a, isWord, ⟨some upper, some (v.extractLsb' 0 8)⟩, s.answer fc .write a⟩])
    ∧ ∀ c : BusCycle, (c.uds = true ↔ c.isWord = true ∨ c.addr.toNat % 2 = 0)
      ∧ (c.lds = true ↔ c.isWord = true ∨ c.addr.toNat % 2 = 1))
  ∧ ∀ (i : Instr) (s t : State) (p : Platform) (cycles : List BusCycle),
    exec i s = .next t → t.bus = s.bus ++ cycles → (∀ c ∈ cycles, s.TreatsAlike p c) →
      exec i { s with platform := p } = .next { t with platform := p }

/-! ## Program control -/

/-- BRA, Bcc, JMP, NOP: the target is the address of the operation word plus 2 plus the displacement; a displacement
word is passed when the branch is not taken; no register and no flag changes.
That the transfer completes at an odd target is the spec's decision D19 (log entry 20). -/
def Obligations.Branches : Prop :=
  ∀ (s : State), s.Ready →
    (∀ d : Disp,
      let target := s.pc + 2 + (match d with
        | .short b => b.signExtend 32
        | .word w => w.signExtend 32)
      let next := s.pc + (match d with
        | .short _ => 2
        | .word _ => 4)
      Yields (exec (.bra d) s) { s with pc := target }
      ∧ ∀ cond, Yields (exec (.bcc cond d) s) { s with pc := if condHolds cond s.sr then target else next })
    ∧ (∀ ea : EA, ea.isIn Mode.isControl .l = true → ∃ addr fc, eaLoc ea .l (s.after 1) = .mem addr fc false
        ∧ Yields (exec (.jmp ea) s) { s with pc := addr })
    ∧ exec .nop s = .next { s with pc := s.pc + 2 }

/-- The sixteen conditions, each by its expression in the flags, and after a comparison of `d` with `s` the unsigned and
the signed orderings they name. -/
def Obligations.ConditionsOrder : Prop :=
  (∀ r : StatusReg,
    condHolds .t r = true ∧ condHolds .f r = false
    ∧ condHolds .hi r = (!r.c && !r.z) ∧ condHolds .ls r = (r.c || r.z)
    ∧ condHolds .cc r = (!r.c) ∧ condHolds .cs r = r.c ∧ condHolds .ne r = (!r.z) ∧ condHolds .eq r = r.z
    ∧ condHolds .vc r = (!r.v) ∧ condHolds .vs r = r.v ∧ condHolds .pl r = (!r.n) ∧ condHolds .mi r = r.n
    ∧ condHolds .ge r = (r.n && r.v || !r.n && !r.v) ∧ condHolds .lt r = (r.n && !r.v || !r.n && r.v)
    ∧ condHolds .gt r = (r.n && r.v && !r.z || !r.n && !r.v && !r.z)
    ∧ condHolds .le r = (r.z || r.n && !r.v || !r.n && r.v))
  ∧ ∀ (r : StatusReg) (sz : Size) (a b : Long), a.toNat < 2 ^ sz.bits → b.toNat < 2 ^ sz.bits →
    let f := r.compare sz (subc sz a b false)
    let sa := (sz.sext a).toInt
    let sb := (sz.sext b).toInt
    (condHolds .hi f = true ↔ a.toNat < b.toNat) ∧ (condHolds .ls f = true ↔ b.toNat ≤ a.toNat)
    ∧ (condHolds .cc f = true ↔ a.toNat ≤ b.toNat) ∧ (condHolds .cs f = true ↔ b.toNat < a.toNat)
    ∧ (condHolds .eq f = true ↔ b = a) ∧ (condHolds .ne f = true ↔ b ≠ a)
    ∧ (condHolds .gt f = true ↔ sa < sb) ∧ (condHolds .le f = true ↔ sb ≤ sa)
    ∧ (condHolds .ge f = true ↔ sa ≤ sb) ∧ (condHolds .lt f = true ↔ sb < sa)

/-- BSR and JSR push the address after the instruction and go to their target, computed before the push.
That the transfer completes at an odd target is the spec's decision D19 (log entry 20). -/
def Obligations.SubroutineCalls : Prop :=
  ∀ (s : State), s.Ready → EvenAddr s.sp →
    let slot : Loc := .mem (s.sp - 4) s.fcData true
    (∀ b : Byte, YieldsStoring (exec (.bsr (.short b)) s)
      ({ s with pc := s.pc + 2 + b.signExtend 32 }.setSp (s.sp - 4)) slot .l (s.pc + 2))
    ∧ (∀ w : Word, YieldsStoring (exec (.bsr (.word w)) s)
      ({ s with pc := s.pc + 2 + w.signExtend 32 }.setSp (s.sp - 4)) slot .l (s.pc + 4))
    ∧ ∀ ea : EA, ea.isIn Mode.isControl .l = true → ∃ addr fc, eaLoc ea .l (s.after 1) = .mem addr fc false
      ∧ YieldsStoring (exec (.jsr ea) s) ({ s with pc := addr }.setSp (s.sp - 4)) slot .l
        (s.after (1 + eaWords ea)).pc

/-- RTS pops the program counter; RTR pops the condition codes, the system byte untouched, then the program counter.
That the transfer completes at an odd target is the spec's decision D19 (log entry 20). -/
def Obligations.SubroutineReturns : Prop :=
  ∀ (s : State), s.Ready → EvenAddr s.sp →
    Yields (exec .rts s) ({ s with pc := s.peekLong s.fcData s.sp }.setSp (s.sp + 4))
    ∧ let w := s.peekWord s.fcData s.sp
      Yields (exec .rtr s)
        { ({ s with pc := s.peekLong s.fcData (s.sp + 2) }.setSp (s.sp + 6)) with
          sr := { s.sr with
            x := w.getLsbD 4, n := w.getLsbD 3, z := w.getLsbD 2, v := w.getLsbD 1, c := w.getLsbD 0 } }

/-- DBcc: nothing where the condition holds; else the low word of the counter is decremented and the branch is taken
unless it becomes `$FFFF`.
That the transfer completes at an odd target is the spec's decision D19 (log entry 20). -/
def Obligations.DecrementBranch : Prop :=
  ∀ (s : State) (cond : Cond) (dn : RegNo) (d : Word), s.Ready →
    let n := (lowWord (s.readD dn)).toNat
    let put (c : Word) (pc : Long) : State := { s.writeD dn (highWord (s.readD dn) ++ c) with pc := pc }
    (condHolds cond s.sr = true → Yields (exec (.dbcc cond dn d) s) { s with pc := s.pc + 4 })
    ∧ (condHolds cond s.sr = false → n = 0 → Yields (exec (.dbcc cond dn d) s) (put 0xFFFF (s.pc + 4)))
    ∧ (condHolds cond s.sr = false → 0 < n →
        Yields (exec (.dbcc cond dn d) s) (put (BitVec.ofNat 16 (n - 1)) (s.pc + 2 + d.signExtend 32)))

/-! ## System control -/

/-- The instructions on the condition code register, in either state: bits 4-0 combined with the low bits of the
immediate, or loaded from the source word; the system byte is not changed. -/
def Obligations.ConditionCodeWrites : Prop :=
  ∀ (s : State) (v : Word) (ea : EA), s.Ready →
    let put (t : State) (x n z v c : Bool) : State := { t with sr := { s.sr with x := x, n := n, z := z, v := v, c := c } }
    let r := s.sr
    Yields (exec (.andiToCcr v) s) (put (s.after 2) (r.x && v.getLsbD 4) (r.n && v.getLsbD 3) (r.z && v.getLsbD 2)
      (r.v && v.getLsbD 1) (r.c && v.getLsbD 0))
    ∧ Yields (exec (.oriToCcr v) s) (put (s.after 2) (r.x || v.getLsbD 4) (r.n || v.getLsbD 3) (r.z || v.getLsbD 2)
      (r.v || v.getLsbD 1) (r.c || v.getLsbD 0))
    ∧ Yields (exec (.eoriToCcr v) s) (put (s.after 2) (r.x ^^ v.getLsbD 4) (r.n ^^ v.getLsbD 3) (r.z ^^ v.getLsbD 2)
      (r.v ^^ v.getLsbD 1) (r.c ^^ v.getLsbD 0))
    ∧ ((eaLoc ea .w (s.after 1)).Accessible .w →
      let t := eaStep ea .w (s.after (1 + eaWords ea))
      let w := t.operand (eaLoc ea .w (s.after 1)) .w
      Yields (exec (.moveToCcr ea) s)
        (put t (w.getLsbD 4) (w.getLsbD 3) (w.getLsbD 2) (w.getLsbD 1) (w.getLsbD 0)))

/-- The instructions on the whole status register, in supervisor state: the register combined with the immediate, or
loaded from the source, stored masked with `$A71F`.
The unused bits are the spec's decision D8 (log entry 17). -/
def Obligations.StatusRegisterWrites : Prop :=
  ∀ (s : State) (v : Word) (ea : EA), s.Ready → s.sr.s = true →
    let yields (i : Instr) (t : State) (w : Word) : Prop :=
      ∃ r : StatusReg, r.toWord = w &&& 0xA71F#16 ∧ Yields (exec i s) { t with sr := r }
    yields (.andiToSr v) (s.after 2) (s.sr.toWord &&& v)
    ∧ yields (.oriToSr v) (s.after 2) (s.sr.toWord ||| v)
    ∧ yields (.eoriToSr v) (s.after 2) (s.sr.toWord ^^^ v)
    ∧ ((eaLoc ea .w (s.after 1)).Accessible .w →
      let t := eaStep ea .w (s.after (1 + eaWords ea))
      yields (.moveToSr ea) t (lowWord (t.operand (eaLoc ea .w (s.after 1)) .w)))

/-- MOVE USP in both directions, RESET, STOP and RTE in supervisor state; RESET changes nothing of the processor but
sends one `ResetOut`; RTE takes the three-word frame from the supervisor stack.
The count of pulses is the model's form of the event (log entry 21). -/
def Obligations.SupervisorResults : Prop :=
  ∀ (s : State) (an : RegNo) (v : Word), s.Ready → s.sr.s = true →
    exec (.moveToUsp an) s = .next { s.after 1 with usp := s.readA an }
    ∧ exec (.moveFromUsp an) s = .next ((s.after 1).writeA an s.usp)
    ∧ exec .reset s = .next { s.after 1 with resetOuts := s.resetOuts + 1 }
    ∧ (∃ r : StatusReg, r.toWord = v &&& 0xA71F#16
      ∧ Yields (exec (.stop v) s) { s.after 2 with sr := r, pstate := .stopped })
    ∧ (EvenAddr s.ssp → ∃ r : StatusReg, r.toWord = s.peekWord .superData s.ssp &&& 0xA71F#16
      ∧ Yields (exec .rte s) { s with sr := r, ssp := s.ssp + 6, pc := s.peekLong .superData (s.ssp + 2) })

/-- In user state each privileged instruction has no effect of its own and takes the privilege violation, vector 8,
which stacks the instruction's own address and is not traced. -/
def Obligations.PrivilegeViolations : Prop :=
  ∀ (s : State) (an : RegNo) (v : Word) (ea : EA), s.BusServes → EvenAddr s.ssp → s.sr.s = false →
    ∀ i ∈ [Instr.andiToSr v, .oriToSr v, .eoriToSr v, .moveToSr ea, .moveToUsp an, .moveFromUsp an, .reset, .stop v,
        .rte],
      ∃ t, exec i s = .next t ∧ TookException s t 8 s.pc false

/-- Executed in user state, no instruction sets S but by exception processing: where exec answers in supervisor state, a
frame of six bytes, of fourteen, or of both has been stacked, the program counter stands where a vector says (other
masters apart), T is off and the mask as before, whatever the instruction and the operands.
The model's own form of the privilege rules R461 and R462. -/
def Obligations.UserStateKept : Prop :=
  ∀ (i : Instr) (s t : State), s.sr.s = false → exec i s = .next t → t.sr.s = true → t.pstate = .normal →
    t.sr.t = false ∧ t.sr.i = s.sr.i ∧ (∃ k ∈ [6, 14, 20], t.ssp = s.ssp - BitVec.ofNat 32 k)
      ∧ (s.turns = [] → s.platform.map = [] → ∃ v : Byte, t.pc = t.vector v)

/-- CHK: no trap where 0 ≤ Dn ≤ bound, and the next instruction is reached; else vector 6 with N = 1 for a negative
register and N = 0 for one above the bound; Z, V and C any value; no register but the operand's is changed.
The free flags are those of log entry 3. -/
def Obligations.CheckBounds : Prop :=
  ∀ (s : State) (dn : RegNo) (ea : EA), s.Ready →
    let loc := eaLoc ea .w (s.after 1)
    let t := eaStep ea .w (s.after (1 + eaWords ea))
    let bound := (lowWord (t.operand loc .w)).toInt
    let d := (lowWord (s.readD dn)).toInt
    let put (n z v c : Bool) : State :=
      { t with sr := { s.sr with n := n, z := z, v := v, c := c }, freeCount := s.freeCount + 1 }
    loc.Accessible .w →
      (0 ≤ d → d ≤ bound → ∃ n z v c, Yields (exec (.chk dn ea) s) (put n z v c))
      ∧ (EvenAddr t.ssp → (d < 0 ∨ bound < d) → ∃ z v c u, exec (.chk dn ea) s = .next u
          ∧ TookException (put (decide (d < 0)) z v c) u 6 t.pc s.tracePending)

/-- TRAP takes vector 32 + v and TRAPV with V = 1 vector 7, stacking the address of the next instruction; TRAPV with
V = 0 does nothing; the illegal words and the line 1010 and 1111 words take vectors 4, 10, 11, stacking their own
address and not traced. -/
def Obligations.TrapsAndIllegalWords : Prop :=
  ∀ (s : State) (n : BitVec 4) (w : BitVec 12), s.BusServes → EvenAddr s.ssp →
    let takes (i : Instr) (v : Byte) (pc : Long) (traced : Bool) : Prop :=
      ∃ t, exec i s = .next t ∧ TookException s t v pc traced
    takes (.trap n) (32 + n.setWidth 8) (s.pc + 2) s.tracePending
    ∧ (s.sr.v = true → takes .trapv 7 (s.pc + 2) s.tracePending)
    ∧ (s.sr.v = false → exec .trapv s = .next { s with pc := s.pc + 2 })
    ∧ takes .illegal4AFC 4 s.pc false ∧ takes .illegal4AFA 4 s.pc false ∧ takes .illegal4AFB 4 s.pc false
    ∧ takes (.lineA w) 10 s.pc false ∧ takes (.lineF w) 11 s.pc false
    ∧ encode (.trap n) = [0b010011100100#12 ++ n] ∧ encode .trapv = [0x4E76#16]
    ∧ encode (.lineA w) = [0b1010#4 ++ w] ∧ encode (.lineF w) = [0b1111#4 ++ w]

/-! ## The step -/

/-- A step runs the decoded instruction: where no reset, halt or interrupt comes first, the operation word is fetched,
the double-fault window ends, T is sampled, exec runs the instruction the words at the program counter decode to,
and a trace exception follows if T was set.
The end of the window is the spec's decision D22 (log entry 23); how the decoder comes by the
words after the operation word is log entry 33. -/
def Obligations.StepRunsDecoded : Prop :=
  ∀ (s : State) (i : Instr) (rest : List Word),
    let u := s.sample
    s.input.resetRequest = false → s.input.haltPin = false → u.pstate = .normal → u.interruptLevel = none → u.Ready →
    decode u.instructionWords = .ok (i, rest) →
      ∃ log, step s = traceAfter (exec i
        { u with ir := u.peekWord u.fcProg u.pc, g0Active := false, tracePending := u.sr.t, bus := log })

/-- Words that begin no instruction raise the illegal instruction exception: vector 4, the word's own address stacked,
no trace.
As in StepRunsDecoded, log entries 23 and 33 enter. -/
def Obligations.StepTrapsUndecodable : Prop :=
  ∀ (s : State) (e : Reject),
    let u := s.sample
    s.input.resetRequest = false → s.input.haltPin = false → u.pstate = .normal → u.interruptLevel = none → u.Ready →
    EvenAddr u.ssp → decode u.instructionWords = .error e →
      ∃ t, step s = .next t
        ∧ TookException { u with ir := u.peekWord u.fcProg u.pc, g0Active := false } t 4 u.pc false

/-- After an instruction that began with T = 1 the trace exception, vector 9, stacks the address of the next
instruction; without it the state is handed on as it is.
That it is part of the traced instruction's step is the model's choice (log entry 1). -/
def Obligations.TraceFollows : Prop :=
  ∀ t : State, (t.tracePending = false → traceAfter (.next t) = .next t)
    ∧ (t.tracePending = true → t.BusServes → EvenAddr t.ssp →
        ∃ u, traceAfter (.next t) = .next u ∧ TookException t u 9 t.pc false)

/-- An interrupt is recognised by a level above the mask, or by the level-7 edge whatever the mask, and by nothing else; a
change of the level to 7 sets the edge latch. An interrupt stacks the next instruction's address, sets the mask to its
level, leaves the stopped state, and goes through the vector supplied, 24 + level for an autovector, 24 for a spurious
interrupt; the one acknowledge cycle reads a word of function code 7 at `$FFFFF0` plus twice the level, and a level-7
acknowledge clears the latch.
When the inputs are sampled is the spec's decision D3 (log entry 9), that any number is used D25 (log entry 25), that an
interrupt ends the stopped state D21 (log entry 22). -/
def Obligations.InterruptEntry : Prop :=
  ∀ (s : State) (lvl : BitVec 3) (v : Byte),
    let u := s.sample
    (¬ (u.sr.i < u.ipl ∨ u.ipl = 7 ∧ u.nmiPending = true) → u.interruptLevel = none)
    ∧ (u.ipl = s.input.ipl ∧ (u.nmiPending = true ↔ s.nmiPending = true ∨ s.input.ipl = 7 ∧ s.ipl ≠ 7))
    ∧ (s.input.resetRequest = false → s.input.haltPin = false → u.pstate ≠ .halted → u.BusServes → EvenAddr u.ssp →
      u.ipl = lvl → (u.sr.i < lvl ∨ lvl = 7 ∧ u.nmiPending = true) →
      (s.input.iack = .vector v ∨ s.input.iack = .autovector ∧ v = 24 + lvl.setWidth 8
        ∨ s.input.iack = .busError ∧ v = 24) →
      ∃ t, step s = .next t ∧ Framed u t u.sr u.pc
        ∧ t = { u with
            sr := { u.sr with s := true, t := false, i := lvl }
            ssp := u.ssp - 6
            pc := t.vector v
            pstate := .normal
            nmiPending := if lvl = 7 then false else u.nmiPending
            mem := t.mem
            bus := t.bus }
        ∧ ∃ c, t.bus.filter (fun c => c.kind == .iack) = [c] ∧ c.fc = .intAck ∧ c.isWord = true
          ∧ c.addr = 0xFFFFF0#24 + 2#24 * lvl.setWidth 24)

/-- While stopped without an interrupt, halted, or held by the HALT pin, a step changes nothing but what the
environment did: no bus cycle, no register.
That a HALT pin makes whole steps stutter is the model's choice (log entry 24). -/
def Obligations.WaitingStates : Prop :=
  ∀ s : State, s.input.resetRequest = false →
    (s.pstate = .halted → step s = .next s.sample)
    ∧ (s.input.haltPin = true → step s = .next s.sample)
    ∧ (s.pstate = .stopped → s.sample.interruptLevel = none → step s = .next s.sample)

/-- The reset exception, from any processing state: supervisor state, trace off, mask 7, SSP and PC from the two long
words at 0 and 4 of supervisor program space; no other register and no memory changes. A bus error on any of the four
reads of those vectors halts the processor.
The edge latch is any value (D13, log entry 6), the group 0 flag the spec's decision D22 (log entry 23). -/
def Obligations.ResetExceptionState : Prop :=
  ∀ s : State, s.input.resetRequest = true →
    let u := s.sample
    (u.BusServes → ∃ nmi, Yields (step s)
      { u with
        sr := { u.sr with s := true, t := false, i := 7 }
        ssp := u.peekLong .superProgram 0
        pc := u.peekLong .superProgram 4
        pstate := .normal
        g0Active := true
        tracePending := false
        nmiPending := nmi
        freeCount := u.freeCount + 1 })
    ∧ (u.turns = [] → (∀ a ∈ [0#32, 2#32, 4#32, 6#32], u.EndsAtOnce .superProgram .read a) →
      (∃ a ∈ [0#32, 2#32, 4#32, 6#32], u.answer .superProgram .read a = .busError) →
      ∃ t, step s = .next t ∧ t.pstate = .halted)

/-- A bus error goes through vector 2 and an address error through vector 3: the seven-word frame on the supervisor
stack, trace off, the mask kept, no trace exception after it; only the cycles of the frame and of the vector need be
answered. The processor halts instead where group 0 processing is already going on, where the supervisor stack pointer
is odd, and where any of those cycles ends in a bus error.
The 32-bit address is the spec's decision D6 (log entry 16), the free values are D12 (log entry 14). -/
def Obligations.GroupZeroEntry : Prop :=
  ∀ (s : State) (acc : Access) (pc0 : Long) (hasOpw : Bool) (e : BusStop) (v : Byte), s.turns = [] →
    (e = .busError acc ∧ v = 2 ∨ e = .addressError acc ∧ v = 3) →
    let frame : List Long := (List.range 7).map fun j => s.ssp - 14 + BitVec.ofNat 32 (2 * j)
    let vector : List Long := [4#32 * v.setWidth 32, 4#32 * v.setWidth 32 + 2]
    let halts : Prop := ∃ t, abandon pc0 hasOpw e s = .next t ∧ t.pstate = .halted ∧ t.tracePending = false
    traceAfter (abandon pc0 hasOpw e s) = abandon pc0 hasOpw e s
    ∧ (s.g0Active = true → abandon pc0 hasOpw e s = .next { s with pstate := .halted, tracePending := false })
    ∧ (¬ EvenAddr s.ssp → halts)
    ∧ ((∀ a ∈ frame, s.EndsAtOnce .superData .write a) → (∀ a ∈ vector, s.EndsAtOnce .superData .read a) →
      ((∃ a ∈ frame, s.answer .superData .write a = .busError)
        ∨ ∃ a ∈ vector, s.answer .superData .read a = .busError) → halts)
    ∧ (s.g0Active = false → EvenAddr s.ssp → s.platform.map = [] → (∀ a ∈ frame, s.Answers .superData .write a) →
      (∀ a ∈ vector, s.Answers .superData .read a) → ∃ t, abandon pc0 hasOpw e s = .next t
      ∧ t = { s with
          sr := { s.sr with s := true, t := false }
          ssp := s.ssp - 14
          pc := t.vector v
          pstate := .normal
          g0Active := true
          tracePending := false
          mem := t.mem
          bus := t.bus
          freeCount := s.freeCount + 3 }
      ∧ (t.peekWord .superData t.ssp).extractLsb' 0 5
          = BitVec.ofBool (acc.dir == .read) ++ BitVec.ofBool s.pstate.notInstruction ++ acc.fc.bits
      ∧ t.peekLong .superData (t.ssp + 2) = acc.addr
      ∧ (s.pstate.notInstruction = false → hasOpw = true → t.peekWord .superData (t.ssp + 6) = s.ir)
      ∧ t.peekWord .superData (t.ssp + 8) = s.sr.toWord
      ∧ (s.pstate.notInstruction = false →
          ∃ k, 1 ≤ k ∧ k ≤ 5 ∧ t.peekLong .superData (t.ssp + 10) = pc0 + BitVec.ofNat 32 (2 * k))
      ∧ ∀ n, (∀ j < 14, n ≠ s.location .superData (t.ssp + BitVec.ofNat 32 j)) →
          Memory.read t.mem n = Memory.read s.mem n)

/-- The invariant of a machine between two steps is kept by every step, whatever the instruction, the inputs and the
platform.
The invariant is the model's own (log entries 2, 36). -/
def Obligations.StepKeepsInv : Prop := ∀ s t : State, s.Inv → step s = .next t → t.Inv

/-- The reset state has the invariant of a machine between two steps.
The invariant is the model's own (log entries 2, 36). -/
def Obligations.ResetHasInv : Prop := State.reset.Inv
end

