-- ==== Sys2Proof/Laws/State.lean ====
section
/-! SUPPORT. What each update of the state leaves alone, one lemma per field, and how the reads see it, so that
no proof unfolds a record update. -/

namespace Sys2Proof.Machine

set_option Elab.async false

/-! ## `State.writeD` -/

@[simp] theorem State.writeD_a (s : State) (n : RegNo) (v : Long) : (s.writeD n v).a = s.a := rfl
@[simp] theorem State.writeD_usp (s : State) (n : RegNo) (v : Long) : (s.writeD n v).usp = s.usp := rfl
@[simp] theorem State.writeD_ssp (s : State) (n : RegNo) (v : Long) : (s.writeD n v).ssp = s.ssp := rfl
@[simp] theorem State.writeD_pc (s : State) (n : RegNo) (v : Long) : (s.writeD n v).pc = s.pc := rfl
@[simp] theorem State.writeD_sr (s : State) (n : RegNo) (v : Long) : (s.writeD n v).sr = s.sr := rfl
@[simp] theorem State.writeD_pstate (s : State) (n : RegNo) (v : Long) : (s.writeD n v).pstate = s.pstate := rfl
@[simp] theorem State.writeD_ipl (s : State) (n : RegNo) (v : Long) : (s.writeD n v).ipl = s.ipl := rfl
@[simp] theorem State.writeD_nmiPending (s : State) (n : RegNo) (v : Long) : (s.writeD n v).nmiPending = s.nmiPending := rfl
@[simp] theorem State.writeD_tracePending (s : State) (n : RegNo) (v : Long) : (s.writeD n v).tracePending = s.tracePending := rfl
@[simp] theorem State.writeD_g0Active (s : State) (n : RegNo) (v : Long) : (s.writeD n v).g0Active = s.g0Active := rfl
@[simp] theorem State.writeD_ir (s : State) (n : RegNo) (v : Long) : (s.writeD n v).ir = s.ir := rfl
@[simp] theorem State.writeD_mem (s : State) (n : RegNo) (v : Long) : (s.writeD n v).mem = s.mem := rfl
@[simp] theorem State.writeD_platform (s : State) (n : RegNo) (v : Long) : (s.writeD n v).platform = s.platform := rfl
@[simp] theorem State.writeD_inputs (s : State) (n : RegNo) (v : Long) : (s.writeD n v).inputs = s.inputs := rfl
@[simp] theorem State.writeD_turns (s : State) (n : RegNo) (v : Long) : (s.writeD n v).turns = s.turns := rfl
@[simp] theorem State.writeD_bus (s : State) (n : RegNo) (v : Long) : (s.writeD n v).bus = s.bus := rfl
@[simp] theorem State.writeD_resetOuts (s : State) (n : RegNo) (v : Long) : (s.writeD n v).resetOuts = s.resetOuts := rfl
@[simp] theorem State.writeD_freeCount (s : State) (n : RegNo) (v : Long) : (s.writeD n v).freeCount = s.freeCount := rfl

/-! ## `State.setSp` -/

@[simp] theorem State.setSp_d (s : State) (v : Long) : (s.setSp v).d = s.d := by
  unfold State.setSp; split <;> rfl
@[simp] theorem State.setSp_a (s : State) (v : Long) : (s.setSp v).a = s.a := by
  unfold State.setSp; split <;> rfl
@[simp] theorem State.setSp_pc (s : State) (v : Long) : (s.setSp v).pc = s.pc := by
  unfold State.setSp; split <;> rfl
@[simp] theorem State.setSp_sr (s : State) (v : Long) : (s.setSp v).sr = s.sr := by
  unfold State.setSp; split <;> rfl
@[simp] theorem State.setSp_pstate (s : State) (v : Long) : (s.setSp v).pstate = s.pstate := by
  unfold State.setSp; split <;> rfl
@[simp] theorem State.setSp_ipl (s : State) (v : Long) : (s.setSp v).ipl = s.ipl := by
  unfold State.setSp; split <;> rfl
@[simp] theorem State.setSp_nmiPending (s : State) (v : Long) : (s.setSp v).nmiPending = s.nmiPending := by
  unfold State.setSp; split <;> rfl
@[simp] theorem State.setSp_tracePending (s : State) (v : Long) : (s.setSp v).tracePending = s.tracePending := by
  unfold State.setSp; split <;> rfl
@[simp] theorem State.setSp_g0Active (s : State) (v : Long) : (s.setSp v).g0Active = s.g0Active := by
  unfold State.setSp; split <;> rfl
@[simp] theorem State.setSp_ir (s : State) (v : Long) : (s.setSp v).ir = s.ir := by
  unfold State.setSp; split <;> rfl
@[simp] theorem State.setSp_mem (s : State) (v : Long) : (s.setSp v).mem = s.mem := by
  unfold State.setSp; split <;> rfl
@[simp] theorem State.setSp_platform (s : State) (v : Long) : (s.setSp v).platform = s.platform := by
  unfold State.setSp; split <;> rfl
@[simp] theorem State.setSp_inputs (s : State) (v : Long) : (s.setSp v).inputs = s.inputs := by
  unfold State.setSp; split <;> rfl
@[simp] theorem State.setSp_turns (s : State) (v : Long) : (s.setSp v).turns = s.turns := by
  unfold State.setSp; split <;> rfl
@[simp] theorem State.setSp_bus (s : State) (v : Long) : (s.setSp v).bus = s.bus := by
  unfold State.setSp; split <;> rfl
@[simp] theorem State.setSp_resetOuts (s : State) (v : Long) : (s.setSp v).resetOuts = s.resetOuts := by
  unfold State.setSp; split <;> rfl
@[simp] theorem State.setSp_freeCount (s : State) (v : Long) : (s.setSp v).freeCount = s.freeCount := by
  unfold State.setSp; split <;> rfl

/-! ## `State.writeA` -/

@[simp] theorem State.writeA_d (s : State) (n : RegNo) (v : Long) : (s.writeA n v).d = s.d := by
  unfold State.writeA; split <;> simp
@[simp] theorem State.writeA_pc (s : State) (n : RegNo) (v : Long) : (s.writeA n v).pc = s.pc := by
  unfold State.writeA; split <;> simp
@[simp] theorem State.writeA_sr (s : State) (n : RegNo) (v : Long) : (s.writeA n v).sr = s.sr := by
  unfold State.writeA; split <;> simp
@[simp] theorem State.writeA_pstate (s : State) (n : RegNo) (v : Long) : (s.writeA n v).pstate = s.pstate := by
  unfold State.writeA; split <;> simp
@[simp] theorem State.writeA_ipl (s : State) (n : RegNo) (v : Long) : (s.writeA n v).ipl = s.ipl := by
  unfold State.writeA; split <;> simp
@[simp] theorem State.writeA_nmiPending (s : State) (n : RegNo) (v : Long) : (s.writeA n v).nmiPending = s.nmiPending := by
  unfold State.writeA; split <;> simp
@[simp] theorem State.writeA_tracePending (s : State) (n : RegNo) (v : Long) : (s.writeA n v).tracePending = s.tracePending := by
  unfold State.writeA; split <;> simp
@[simp] theorem State.writeA_g0Active (s : State) (n : RegNo) (v : Long) : (s.writeA n v).g0Active = s.g0Active := by
  unfold State.writeA; split <;> simp
@[simp] theorem State.writeA_ir (s : State) (n : RegNo) (v : Long) : (s.writeA n v).ir = s.ir := by
  unfold State.writeA; split <;> simp
@[simp] theorem State.writeA_mem (s : State) (n : RegNo) (v : Long) : (s.writeA n v).mem = s.mem := by
  unfold State.writeA; split <;> simp
@[simp] theorem State.writeA_platform (s : State) (n : RegNo) (v : Long) : (s.writeA n v).platform = s.platform := by
  unfold State.writeA; split <;> simp
@[simp] theorem State.writeA_inputs (s : State) (n : RegNo) (v : Long) : (s.writeA n v).inputs = s.inputs := by
  unfold State.writeA; split <;> simp
@[simp] theorem State.writeA_turns (s : State) (n : RegNo) (v : Long) : (s.writeA n v).turns = s.turns := by
  unfold State.writeA; split <;> simp
@[simp] theorem State.writeA_bus (s : State) (n : RegNo) (v : Long) : (s.writeA n v).bus = s.bus := by
  unfold State.writeA; split <;> simp
@[simp] theorem State.writeA_resetOuts (s : State) (n : RegNo) (v : Long) : (s.writeA n v).resetOuts = s.resetOuts := by
  unfold State.writeA; split <;> simp
@[simp] theorem State.writeA_freeCount (s : State) (n : RegNo) (v : Long) : (s.writeA n v).freeCount = s.freeCount := by
  unfold State.writeA; split <;> simp

/-! ## `State.after` -/

@[simp] theorem State.after_d (s : State) (k : Nat) : (s.after k).d = s.d := rfl
@[simp] theorem State.after_a (s : State) (k : Nat) : (s.after k).a = s.a := rfl
@[simp] theorem State.after_usp (s : State) (k : Nat) : (s.after k).usp = s.usp := rfl
@[simp] theorem State.after_ssp (s : State) (k : Nat) : (s.after k).ssp = s.ssp := rfl
@[simp] theorem State.after_sr (s : State) (k : Nat) : (s.after k).sr = s.sr := rfl
@[simp] theorem State.after_pstate (s : State) (k : Nat) : (s.after k).pstate = s.pstate := rfl
@[simp] theorem State.after_ipl (s : State) (k : Nat) : (s.after k).ipl = s.ipl := rfl
@[simp] theorem State.after_nmiPending (s : State) (k : Nat) : (s.after k).nmiPending = s.nmiPending := rfl
@[simp] theorem State.after_tracePending (s : State) (k : Nat) : (s.after k).tracePending = s.tracePending := rfl
@[simp] theorem State.after_g0Active (s : State) (k : Nat) : (s.after k).g0Active = s.g0Active := rfl
@[simp] theorem State.after_ir (s : State) (k : Nat) : (s.after k).ir = s.ir := rfl
@[simp] theorem State.after_mem (s : State) (k : Nat) : (s.after k).mem = s.mem := rfl
@[simp] theorem State.after_platform (s : State) (k : Nat) : (s.after k).platform = s.platform := rfl
@[simp] theorem State.after_inputs (s : State) (k : Nat) : (s.after k).inputs = s.inputs := rfl
@[simp] theorem State.after_turns (s : State) (k : Nat) : (s.after k).turns = s.turns := rfl
@[simp] theorem State.after_bus (s : State) (k : Nat) : (s.after k).bus = s.bus := rfl
@[simp] theorem State.after_resetOuts (s : State) (k : Nat) : (s.after k).resetOuts = s.resetOuts := rfl
@[simp] theorem State.after_freeCount (s : State) (k : Nat) : (s.after k).freeCount = s.freeCount := rfl

/-! ## `State.pokeByte` -/

@[simp] theorem State.pokeByte_d (s : State) (fc : FuncCode) (a : Long) (b : Byte) : (s.pokeByte fc a b).d = s.d := rfl
@[simp] theorem State.pokeByte_a (s : State) (fc : FuncCode) (a : Long) (b : Byte) : (s.pokeByte fc a b).a = s.a := rfl
@[simp] theorem State.pokeByte_usp (s : State) (fc : FuncCode) (a : Long) (b : Byte) : (s.pokeByte fc a b).usp = s.usp := rfl
@[simp] theorem State.pokeByte_ssp (s : State) (fc : FuncCode) (a : Long) (b : Byte) : (s.pokeByte fc a b).ssp = s.ssp := rfl
@[simp] theorem State.pokeByte_pc (s : State) (fc : FuncCode) (a : Long) (b : Byte) : (s.pokeByte fc a b).pc = s.pc := rfl
@[simp] theorem State.pokeByte_sr (s : State) (fc : FuncCode) (a : Long) (b : Byte) : (s.pokeByte fc a b).sr = s.sr := rfl
@[simp] theorem State.pokeByte_pstate (s : State) (fc : FuncCode) (a : Long) (b : Byte) : (s.pokeByte fc a b).pstate = s.pstate := rfl
@[simp] theorem State.pokeByte_ipl (s : State) (fc : FuncCode) (a : Long) (b : Byte) : (s.pokeByte fc a b).ipl = s.ipl := rfl
@[simp] theorem State.pokeByte_nmiPending (s : State) (fc : FuncCode) (a : Long) (b : Byte) : (s.pokeByte fc a b).nmiPending = s.nmiPending := rfl
@[simp] theorem State.pokeByte_tracePending (s : State) (fc : FuncCode) (a : Long) (b : Byte) : (s.pokeByte fc a b).tracePending = s.tracePending := rfl
@[simp] theorem State.pokeByte_g0Active (s : State) (fc : FuncCode) (a : Long) (b : Byte) : (s.pokeByte fc a b).g0Active = s.g0Active := rfl
@[simp] theorem State.pokeByte_ir (s : State) (fc : FuncCode) (a : Long) (b : Byte) : (s.pokeByte fc a b).ir = s.ir := rfl
@[simp] theorem State.pokeByte_platform (s : State) (fc : FuncCode) (a : Long) (b : Byte) : (s.pokeByte fc a b).platform = s.platform := rfl
@[simp] theorem State.pokeByte_inputs (s : State) (fc : FuncCode) (a : Long) (b : Byte) : (s.pokeByte fc a b).inputs = s.inputs := rfl
@[simp] theorem State.pokeByte_turns (s : State) (fc : FuncCode) (a : Long) (b : Byte) : (s.pokeByte fc a b).turns = s.turns := rfl
@[simp] theorem State.pokeByte_bus (s : State) (fc : FuncCode) (a : Long) (b : Byte) : (s.pokeByte fc a b).bus = s.bus := rfl
@[simp] theorem State.pokeByte_resetOuts (s : State) (fc : FuncCode) (a : Long) (b : Byte) : (s.pokeByte fc a b).resetOuts = s.resetOuts := rfl
@[simp] theorem State.pokeByte_freeCount (s : State) (fc : FuncCode) (a : Long) (b : Byte) : (s.pokeByte fc a b).freeCount = s.freeCount := rfl

/-! ## `State.pokeWord` -/

@[simp] theorem State.pokeWord_d (s : State) (fc : FuncCode) (a : Long) (w : Word) : (s.pokeWord fc a w).d = s.d := rfl
@[simp] theorem State.pokeWord_a (s : State) (fc : FuncCode) (a : Long) (w : Word) : (s.pokeWord fc a w).a = s.a := rfl
@[simp] theorem State.pokeWord_usp (s : State) (fc : FuncCode) (a : Long) (w : Word) : (s.pokeWord fc a w).usp = s.usp := rfl
@[simp] theorem State.pokeWord_ssp (s : State) (fc : FuncCode) (a : Long) (w : Word) : (s.pokeWord fc a w).ssp = s.ssp := rfl
@[simp] theorem State.pokeWord_pc (s : State) (fc : FuncCode) (a : Long) (w : Word) : (s.pokeWord fc a w).pc = s.pc := rfl
@[simp] theorem State.pokeWord_sr (s : State) (fc : FuncCode) (a : Long) (w : Word) : (s.pokeWord fc a w).sr = s.sr := rfl
@[simp] theorem State.pokeWord_pstate (s : State) (fc : FuncCode) (a : Long) (w : Word) : (s.pokeWord fc a w).pstate = s.pstate := rfl
@[simp] theorem State.pokeWord_ipl (s : State) (fc : FuncCode) (a : Long) (w : Word) : (s.pokeWord fc a w).ipl = s.ipl := rfl
@[simp] theorem State.pokeWord_nmiPending (s : State) (fc : FuncCode) (a : Long) (w : Word) : (s.pokeWord fc a w).nmiPending = s.nmiPending := rfl
@[simp] theorem State.pokeWord_tracePending (s : State) (fc : FuncCode) (a : Long) (w : Word) : (s.pokeWord fc a w).tracePending = s.tracePending := rfl
@[simp] theorem State.pokeWord_g0Active (s : State) (fc : FuncCode) (a : Long) (w : Word) : (s.pokeWord fc a w).g0Active = s.g0Active := rfl
@[simp] theorem State.pokeWord_ir (s : State) (fc : FuncCode) (a : Long) (w : Word) : (s.pokeWord fc a w).ir = s.ir := rfl
@[simp] theorem State.pokeWord_platform (s : State) (fc : FuncCode) (a : Long) (w : Word) : (s.pokeWord fc a w).platform = s.platform := rfl
@[simp] theorem State.pokeWord_inputs (s : State) (fc : FuncCode) (a : Long) (w : Word) : (s.pokeWord fc a w).inputs = s.inputs := rfl
@[simp] theorem State.pokeWord_turns (s : State) (fc : FuncCode) (a : Long) (w : Word) : (s.pokeWord fc a w).turns = s.turns := rfl
@[simp] theorem State.pokeWord_bus (s : State) (fc : FuncCode) (a : Long) (w : Word) : (s.pokeWord fc a w).bus = s.bus := rfl
@[simp] theorem State.pokeWord_resetOuts (s : State) (fc : FuncCode) (a : Long) (w : Word) : (s.pokeWord fc a w).resetOuts = s.resetOuts := rfl
@[simp] theorem State.pokeWord_freeCount (s : State) (fc : FuncCode) (a : Long) (w : Word) : (s.pokeWord fc a w).freeCount = s.freeCount := rfl

/-! ## `State.logCycle` -/

@[simp] theorem State.logCycle_d (s : State) (k : CycleKind) (fc : FuncCode) (a : Long) (isWord : Bool) (data : Option Word) (ans : BusAnswer) : (s.logCycle k fc a isWord data ans).d = s.d := rfl
@[simp] theorem State.logCycle_a (s : State) (k : CycleKind) (fc : FuncCode) (a : Long) (isWord : Bool) (data : Option Word) (ans : BusAnswer) : (s.logCycle k fc a isWord data ans).a = s.a := rfl
@[simp] theorem State.logCycle_usp (s : State) (k : CycleKind) (fc : FuncCode) (a : Long) (isWord : Bool) (data : Option Word) (ans : BusAnswer) : (s.logCycle k fc a isWord data ans).usp = s.usp := rfl
@[simp] theorem State.logCycle_ssp (s : State) (k : CycleKind) (fc : FuncCode) (a : Long) (isWord : Bool) (data : Option Word) (ans : BusAnswer) : (s.logCycle k fc a isWord data ans).ssp = s.ssp := rfl
@[simp] theorem State.logCycle_pc (s : State) (k : CycleKind) (fc : FuncCode) (a : Long) (isWord : Bool) (data : Option Word) (ans : BusAnswer) : (s.logCycle k fc a isWord data ans).pc = s.pc := rfl
@[simp] theorem State.logCycle_sr (s : State) (k : CycleKind) (fc : FuncCode) (a : Long) (isWord : Bool) (data : Option Word) (ans : BusAnswer) : (s.logCycle k fc a isWord data ans).sr = s.sr := rfl
@[simp] theorem State.logCycle_pstate (s : State) (k : CycleKind) (fc : FuncCode) (a : Long) (isWord : Bool) (data : Option Word) (ans : BusAnswer) : (s.logCycle k fc a isWord data ans).pstate = s.pstate := rfl
@[simp] theorem State.logCycle_ipl (s : State) (k : CycleKind) (fc : FuncCode) (a : Long) (isWord : Bool) (data : Option Word) (ans : BusAnswer) : (s.logCycle k fc a isWord data ans).ipl = s.ipl := rfl
@[simp] theorem State.logCycle_nmiPending (s : State) (k : CycleKind) (fc : FuncCode) (a : Long) (isWord : Bool) (data : Option Word) (ans : BusAnswer) : (s.logCycle k fc a isWord data ans).nmiPending = s.nmiPending := rfl
@[simp] theorem State.logCycle_tracePending (s : State) (k : CycleKind) (fc : FuncCode) (a : Long) (isWord : Bool) (data : Option Word) (ans : BusAnswer) : (s.logCycle k fc a isWord data ans).tracePending = s.tracePending := rfl
@[simp] theorem State.logCycle_g0Active (s : State) (k : CycleKind) (fc : FuncCode) (a : Long) (isWord : Bool) (data : Option Word) (ans : BusAnswer) : (s.logCycle k fc a isWord data ans).g0Active = s.g0Active := rfl
@[simp] theorem State.logCycle_ir (s : State) (k : CycleKind) (fc : FuncCode) (a : Long) (isWord : Bool) (data : Option Word) (ans : BusAnswer) : (s.logCycle k fc a isWord data ans).ir = s.ir := rfl
@[simp] theorem State.logCycle_mem (s : State) (k : CycleKind) (fc : FuncCode) (a : Long) (isWord : Bool) (data : Option Word) (ans : BusAnswer) : (s.logCycle k fc a isWord data ans).mem = s.mem := rfl
@[simp] theorem State.logCycle_platform (s : State) (k : CycleKind) (fc : FuncCode) (a : Long) (isWord : Bool) (data : Option Word) (ans : BusAnswer) : (s.logCycle k fc a isWord data ans).platform = s.platform := rfl
@[simp] theorem State.logCycle_inputs (s : State) (k : CycleKind) (fc : FuncCode) (a : Long) (isWord : Bool) (data : Option Word) (ans : BusAnswer) : (s.logCycle k fc a isWord data ans).inputs = s.inputs := rfl
@[simp] theorem State.logCycle_turns (s : State) (k : CycleKind) (fc : FuncCode) (a : Long) (isWord : Bool) (data : Option Word) (ans : BusAnswer) : (s.logCycle k fc a isWord data ans).turns = s.turns := rfl
@[simp] theorem State.logCycle_resetOuts (s : State) (k : CycleKind) (fc : FuncCode) (a : Long) (isWord : Bool) (data : Option Word) (ans : BusAnswer) : (s.logCycle k fc a isWord data ans).resetOuts = s.resetOuts := rfl
@[simp] theorem State.logCycle_freeCount (s : State) (k : CycleKind) (fc : FuncCode) (a : Long) (isWord : Bool) (data : Option Word) (ans : BusAnswer) : (s.logCycle k fc a isWord data ans).freeCount = s.freeCount := rfl

/-! ## `State.putReg` -/

@[simp] theorem State.putReg_pc (s : State) (loc : Loc) (sz : Size) (v : Long) : (s.putReg loc sz v).pc = s.pc := by
  unfold State.putReg; split <;> simp
@[simp] theorem State.putReg_sr (s : State) (loc : Loc) (sz : Size) (v : Long) : (s.putReg loc sz v).sr = s.sr := by
  unfold State.putReg; split <;> simp
@[simp] theorem State.putReg_pstate (s : State) (loc : Loc) (sz : Size) (v : Long) : (s.putReg loc sz v).pstate = s.pstate := by
  unfold State.putReg; split <;> simp
@[simp] theorem State.putReg_ipl (s : State) (loc : Loc) (sz : Size) (v : Long) : (s.putReg loc sz v).ipl = s.ipl := by
  unfold State.putReg; split <;> simp
@[simp] theorem State.putReg_nmiPending (s : State) (loc : Loc) (sz : Size) (v : Long) : (s.putReg loc sz v).nmiPending = s.nmiPending := by
  unfold State.putReg; split <;> simp
@[simp] theorem State.putReg_tracePending (s : State) (loc : Loc) (sz : Size) (v : Long) : (s.putReg loc sz v).tracePending = s.tracePending := by
  unfold State.putReg; split <;> simp
@[simp] theorem State.putReg_g0Active (s : State) (loc : Loc) (sz : Size) (v : Long) : (s.putReg loc sz v).g0Active = s.g0Active := by
  unfold State.putReg; split <;> simp
@[simp] theorem State.putReg_ir (s : State) (loc : Loc) (sz : Size) (v : Long) : (s.putReg loc sz v).ir = s.ir := by
  unfold State.putReg; split <;> simp
@[simp] theorem State.putReg_mem (s : State) (loc : Loc) (sz : Size) (v : Long) : (s.putReg loc sz v).mem = s.mem := by
  unfold State.putReg; split <;> simp
@[simp] theorem State.putReg_platform (s : State) (loc : Loc) (sz : Size) (v : Long) : (s.putReg loc sz v).platform = s.platform := by
  unfold State.putReg; split <;> simp
@[simp] theorem State.putReg_inputs (s : State) (loc : Loc) (sz : Size) (v : Long) : (s.putReg loc sz v).inputs = s.inputs := by
  unfold State.putReg; split <;> simp
@[simp] theorem State.putReg_turns (s : State) (loc : Loc) (sz : Size) (v : Long) : (s.putReg loc sz v).turns = s.turns := by
  unfold State.putReg; split <;> simp
@[simp] theorem State.putReg_bus (s : State) (loc : Loc) (sz : Size) (v : Long) : (s.putReg loc sz v).bus = s.bus := by
  unfold State.putReg; split <;> simp
@[simp] theorem State.putReg_resetOuts (s : State) (loc : Loc) (sz : Size) (v : Long) : (s.putReg loc sz v).resetOuts = s.resetOuts := by
  unfold State.putReg; split <;> simp
@[simp] theorem State.putReg_freeCount (s : State) (loc : Loc) (sz : Size) (v : Long) : (s.putReg loc sz v).freeCount = s.freeCount := by
  unfold State.putReg; split <;> simp

/-! ## `eaStep` -/

@[simp] theorem eaStep_d (ea : EA) (sz : Size) (s : State) : (eaStep ea sz s).d = s.d := by
  unfold eaStep; split <;> simp
@[simp] theorem eaStep_pc (ea : EA) (sz : Size) (s : State) : (eaStep ea sz s).pc = s.pc := by
  unfold eaStep; split <;> simp
@[simp] theorem eaStep_sr (ea : EA) (sz : Size) (s : State) : (eaStep ea sz s).sr = s.sr := by
  unfold eaStep; split <;> simp
@[simp] theorem eaStep_pstate (ea : EA) (sz : Size) (s : State) : (eaStep ea sz s).pstate = s.pstate := by
  unfold eaStep; split <;> simp
@[simp] theorem eaStep_ipl (ea : EA) (sz : Size) (s : State) : (eaStep ea sz s).ipl = s.ipl := by
  unfold eaStep; split <;> simp
@[simp] theorem eaStep_nmiPending (ea : EA) (sz : Size) (s : State) : (eaStep ea sz s).nmiPending = s.nmiPending := by
  unfold eaStep; split <;> simp
@[simp] theorem eaStep_tracePending (ea : EA) (sz : Size) (s : State) : (eaStep ea sz s).tracePending = s.tracePending := by
  unfold eaStep; split <;> simp
@[simp] theorem eaStep_g0Active (ea : EA) (sz : Size) (s : State) : (eaStep ea sz s).g0Active = s.g0Active := by
  unfold eaStep; split <;> simp
@[simp] theorem eaStep_ir (ea : EA) (sz : Size) (s : State) : (eaStep ea sz s).ir = s.ir := by
  unfold eaStep; split <;> simp
@[simp] theorem eaStep_mem (ea : EA) (sz : Size) (s : State) : (eaStep ea sz s).mem = s.mem := by
  unfold eaStep; split <;> simp
@[simp] theorem eaStep_platform (ea : EA) (sz : Size) (s : State) : (eaStep ea sz s).platform = s.platform := by
  unfold eaStep; split <;> simp
@[simp] theorem eaStep_inputs (ea : EA) (sz : Size) (s : State) : (eaStep ea sz s).inputs = s.inputs := by
  unfold eaStep; split <;> simp
@[simp] theorem eaStep_turns (ea : EA) (sz : Size) (s : State) : (eaStep ea sz s).turns = s.turns := by
  unfold eaStep; split <;> simp
@[simp] theorem eaStep_bus (ea : EA) (sz : Size) (s : State) : (eaStep ea sz s).bus = s.bus := by
  unfold eaStep; split <;> simp
@[simp] theorem eaStep_resetOuts (ea : EA) (sz : Size) (s : State) : (eaStep ea sz s).resetOuts = s.resetOuts := by
  unfold eaStep; split <;> simp
@[simp] theorem eaStep_freeCount (ea : EA) (sz : Size) (s : State) : (eaStep ea sz s).freeCount = s.freeCount := by
  unfold eaStep; split <;> simp

/-! ## Reads of registers -/

@[simp] theorem State.readD_writeD_same (s : State) (n : RegNo) (v : Long) : (s.writeD n v).readD n = v := by
  simp [State.readD, State.writeD]

theorem State.readD_writeD_other (s : State) {n k : RegNo} (v : Long) (h : n ≠ k) :
    (s.writeD n v).readD k = s.readD k := by
  have h' : n.val ≠ k.val := fun e => h (Fin.ext e)
  simp [State.readD, State.writeD, Vector.getElem_set_ne, h']

@[simp] theorem State.readA_writeD (s : State) (n k : RegNo) (v : Long) : (s.writeD n v).readA k = s.readA k := rfl
@[simp] theorem State.sp_writeD (s : State) (n : RegNo) (v : Long) : (s.writeD n v).sp = s.sp := rfl
@[simp] theorem State.readD_setSp (s : State) (k : RegNo) (v : Long) : (s.setSp v).readD k = s.readD k := by
  simp [State.readD]

@[simp] theorem State.readD_writeA (s : State) (n k : RegNo) (v : Long) : (s.writeA n v).readD k = s.readD k := by
  simp [State.readD]

@[simp] theorem State.sp_setSp (s : State) (v : Long) : (s.setSp v).sp = v := by
  unfold State.setSp State.sp; split <;> simp_all

@[simp] theorem State.readA_writeA_same (s : State) (n : RegNo) (v : Long) : (s.writeA n v).readA n = v := by
  by_cases h : n.val < 7 <;> simp [State.readA, State.writeA, h]

theorem State.readA_writeA_other (s : State) {n k : RegNo} (v : Long) (h : n ≠ k) :
    (s.writeA n v).readA k = s.readA k := by
  have h' : n.val ≠ k.val := fun e => h (Fin.ext e)
  by_cases hn : n.val < 7 <;> by_cases hk : k.val < 7
  · simp [State.readA, State.writeA, hn, hk, Vector.getElem_set_ne, h']
  · simp [State.readA, State.writeA, hn, hk, State.sp]
  · simp [State.readA, State.writeA, hn, hk]
  · omega

@[simp] theorem State.readD_eaStep (ea : EA) (sz : Size) (s : State) (k : RegNo) :
    (eaStep ea sz s).readD k = s.readD k := by
  simp [State.readD]

/-! ## Updates of pc, sr, mem and bus under the others -/

@[simp] theorem State.writeA_with_pc (s : State) (x : Long) (n : RegNo) (v : Long) :
    ({ s with pc := x }).writeA n v = { s.writeA n v with pc := x } := by
  unfold State.writeA State.setSp; split <;> (try split) <;> rfl
@[simp] theorem State.writeA_with_bus (s : State) (x : List BusCycle) (n : RegNo) (v : Long) :
    ({ s with bus := x }).writeA n v = { s.writeA n v with bus := x } := by
  unfold State.writeA State.setSp; split <;> (try split) <;> rfl
@[simp] theorem State.writeA_with_mem (s : State) (x : Memory) (n : RegNo) (v : Long) :
    ({ s with mem := x }).writeA n v = { s.writeA n v with mem := x } := by
  unfold State.writeA State.setSp; split <;> (try split) <;> rfl
@[simp] theorem State.writeA_with_freeCount (s : State) (x : Nat) (n : RegNo) (v : Long) :
    ({ s with freeCount := x }).writeA n v = { s.writeA n v with freeCount := x } := by
  unfold State.writeA State.setSp; split <;> (try split) <;> rfl
@[simp] theorem State.setSp_with_pc (s : State) (x : Long) (v : Long) :
    ({ s with pc := x }).setSp v = { s.setSp v with pc := x } := by
  unfold State.setSp; split <;> rfl
@[simp] theorem State.setSp_with_bus (s : State) (x : List BusCycle) (v : Long) :
    ({ s with bus := x }).setSp v = { s.setSp v with bus := x } := by
  unfold State.setSp; split <;> rfl
@[simp] theorem State.setSp_with_mem (s : State) (x : Memory) (v : Long) :
    ({ s with mem := x }).setSp v = { s.setSp v with mem := x } := by
  unfold State.setSp; split <;> rfl
@[simp] theorem State.setSp_with_freeCount (s : State) (x : Nat) (v : Long) :
    ({ s with freeCount := x }).setSp v = { s.setSp v with freeCount := x } := by
  unfold State.setSp; split <;> rfl
@[simp] theorem State.readA_with_pc (s : State) (x : Long) (n : RegNo) : ({ s with pc := x }).readA n = s.readA n := rfl
@[simp] theorem State.readD_with_pc (s : State) (x : Long) (n : RegNo) : ({ s with pc := x }).readD n = s.readD n := rfl
@[simp] theorem State.sp_with_pc (s : State) (x : Long) : ({ s with pc := x }).sp = s.sp := rfl
@[simp] theorem eaStep_with_pc (ea : EA) (sz : Size) (s : State) (x : Long) :
    eaStep ea sz { s with pc := x } = { eaStep ea sz s with pc := x } := by
  cases ea <;> simp [eaStep]
@[simp] theorem State.readA_with_bus (s : State) (x : List BusCycle) (n : RegNo) : ({ s with bus := x }).readA n = s.readA n := rfl
@[simp] theorem State.readD_with_bus (s : State) (x : List BusCycle) (n : RegNo) : ({ s with bus := x }).readD n = s.readD n := rfl
@[simp] theorem State.sp_with_bus (s : State) (x : List BusCycle) : ({ s with bus := x }).sp = s.sp := rfl
@[simp] theorem eaStep_with_bus (ea : EA) (sz : Size) (s : State) (x : List BusCycle) :
    eaStep ea sz { s with bus := x } = { eaStep ea sz s with bus := x } := by
  cases ea <;> simp [eaStep]
@[simp] theorem State.readA_with_mem (s : State) (x : Memory) (n : RegNo) : ({ s with mem := x }).readA n = s.readA n := rfl
@[simp] theorem State.readD_with_mem (s : State) (x : Memory) (n : RegNo) : ({ s with mem := x }).readD n = s.readD n := rfl
@[simp] theorem State.sp_with_mem (s : State) (x : Memory) : ({ s with mem := x }).sp = s.sp := rfl
@[simp] theorem eaStep_with_mem (ea : EA) (sz : Size) (s : State) (x : Memory) :
    eaStep ea sz { s with mem := x } = { eaStep ea sz s with mem := x } := by
  cases ea <;> simp [eaStep]
@[simp] theorem State.readD_with_sr (s : State) (x : StatusReg) (n : RegNo) : ({ s with sr := x }).readD n = s.readD n := rfl
@[simp] theorem eaLoc_with_bus (ea : EA) (sz : Size) (s : State) (x : List BusCycle) :
    eaLoc ea sz { s with bus := x } = eaLoc ea sz s := rfl
@[simp] theorem eaLoc_with_mem (ea : EA) (sz : Size) (s : State) (x : Memory) :
    eaLoc ea sz { s with mem := x } = eaLoc ea sz s := rfl

/-! ## Reads of memory -/

@[simp] theorem State.peek_with_bus (s : State) (x : List BusCycle) (fc : FuncCode) (a : Long) (sz : Size) :
    ({ s with bus := x }).peek fc a sz = s.peek fc a sz := rfl

@[simp] theorem State.operand_with_bus (s : State) (x : List BusCycle) (loc : Loc) (sz : Size) :
    ({ s with bus := x }).operand loc sz = s.operand loc sz := rfl

/-- What a location of memory reads as depends on memory and on the platform alone. -/
theorem State.peek_congr {s t : State} (hm : t.mem = s.mem) (hp : t.platform = s.platform) (fc : FuncCode) (a : Long)
    (sz : Size) : t.peek fc a sz = s.peek fc a sz := by
  cases sz <;> simp [State.peek, State.peekLong, State.peekWord, State.peekByte, State.location, hm, hp]

theorem State.peekWord_congr {s t : State} (hm : t.mem = s.mem) (hp : t.platform = s.platform) (fc : FuncCode)
    (a : Long) : t.peekWord fc a = s.peekWord fc a := by
  simp [State.peekWord, State.peekByte, State.location, hm, hp]

theorem State.peekLong_congr {s t : State} (hm : t.mem = s.mem) (hp : t.platform = s.platform) (fc : FuncCode)
    (a : Long) : t.peekLong fc a = s.peekLong fc a := by
  simp [State.peekLong, State.peekWord_congr hm hp]

/-- How the platform answers depends on the platform alone. -/
theorem State.answer_congr {s t : State} (hp : t.platform = s.platform) (fc : FuncCode) (dir : Direction) (a : Long) :
    t.answer fc dir a = s.answer fc dir a := by
  simp [State.answer, hp]

theorem State.BusServes.congr {s t : State} (h : s.BusServes) (hp : t.platform = s.platform)
    (ht : t.turns = s.turns := by first | rfl | simp) : t.BusServes :=
  ⟨ht.trans h.1, hp ▸ h.2.1, fun fc dir a => State.answer_congr hp fc dir a ▸ h.2.2 fc dir a⟩

theorem State.BusServes.turns {s : State} (h : s.BusServes) : s.turns = [] := h.1

theorem State.BusServes.map {s : State} (h : s.BusServes) : s.platform.map = [] := h.2.1

theorem State.BusServes.answer {s : State} (h : s.BusServes) (fc : FuncCode) (dir : Direction) (a : Long) :
    s.answer fc dir a = .ok ∨ s.answer fc dir a = .vpa := h.2.2 fc dir a

theorem State.location_congr {s t : State} (hp : t.platform = s.platform) (fc : FuncCode) (a : Long) :
    t.location fc a = s.location fc a := by
  simp [State.location, hp]

theorem State.place_congr {s t : State} (hp : t.platform = s.platform) (fc : FuncCode) (a : Long) :
    t.place fc a = s.place fc a := by
  simp [State.place, hp]

/-- What a store makes of memory depends on memory and the platform alone. -/
theorem State.pokeByte_mem_congr {s t : State} (hm : t.mem = s.mem) (hp : t.platform = s.platform) (fc : FuncCode)
    (a : Long) (b : Byte) : (t.pokeByte fc a b).mem = (s.pokeByte fc a b).mem := by
  simp [State.pokeByte, State.memAfter, State.place_congr hp, State.location_congr hp, hm]

theorem State.pokeWord_mem_congr {s t : State} (hm : t.mem = s.mem) (hp : t.platform = s.platform) (fc : FuncCode)
    (a : Long) (w : Word) : (t.pokeWord fc a w).mem = (s.pokeWord fc a w).mem :=
  State.pokeByte_mem_congr (State.pokeByte_mem_congr hm hp _ _ _) hp _ _ _

/-- Where the memory map has no rule, every address is memory in the bank of its function code. -/
theorem State.place_of_map {s : State} (h : s.platform.map = []) (fc : FuncCode) (a : Long) :
    s.place fc a = .memory := by
  simp [State.place, h, mapRuleOf]

theorem State.location_of_map {s : State} (h : s.platform.map = []) (fc : FuncCode) (a : Long) :
    s.location fc a = s.platform.bank fc * Config.spaceSize + (busAddr a).toNat := by
  simp [State.location, h, mapRuleOf]

theorem State.bytesAt_congr {s t : State} (hp : t.platform = s.platform) (fc : FuncCode) (a : Long) (sz : Size) :
    t.bytesAt fc a sz = s.bytesAt fc a sz := by
  cases sz <;> simp [State.bytesAt, State.location_congr hp]

/-! ## What the program counter and the address registers' steps do not touch -/

@[simp] theorem State.readD_after (s : State) (k : Nat) (n : RegNo) : (s.after k).readD n = s.readD n := rfl
@[simp] theorem State.readA_after (s : State) (k : Nat) (n : RegNo) : (s.after k).readA n = s.readA n := rfl
@[simp] theorem State.readR_after (s : State) (k : Nat) (r : Fin 16) : (s.after k).readR r = s.readR r := rfl
@[simp] theorem State.sp_after (s : State) (k : Nat) : (s.after k).sp = s.sp := rfl
@[simp] theorem State.fcData_after (s : State) (k : Nat) : (s.after k).fcData = s.fcData := rfl
@[simp] theorem State.fcProg_after (s : State) (k : Nat) : (s.after k).fcProg = s.fcProg := rfl
@[simp] theorem State.peek_after (s : State) (k : Nat) (fc : FuncCode) (a : Long) (sz : Size) :
    (s.after k).peek fc a sz = s.peek fc a sz := rfl
@[simp] theorem State.operand_after (s : State) (k : Nat) (loc : Loc) (sz : Size) :
    (s.after k).operand loc sz = s.operand loc sz := rfl
@[simp] theorem State.fcData_eaStep (ea : EA) (sz : Size) (s : State) : (eaStep ea sz s).fcData = s.fcData := by
  simp [State.fcData]
@[simp] theorem State.peek_eaStep (ea : EA) (sz : Size) (s : State) (fc : FuncCode) (a : Long) (z : Size) :
    (eaStep ea sz s).peek fc a z = s.peek fc a z := State.peek_congr (by simp) (by simp) fc a z

/-! ## The program counter -/

theorem EvenAddr.add_two {a : Long} (h : EvenAddr a) : EvenAddr (a + 2) := by
  have h2 : a.toNat % 2 = 0 := by
    have := h; unfold EvenAddr at this; rw [BitVec.getLsbD, Nat.testBit_zero] at this; simpa using this
  unfold EvenAddr; rw [BitVec.getLsbD, Nat.testBit_zero]
  have : (a + 2).toNat = (a.toNat + 2) % 2 ^ 32 := by simp [BitVec.toNat_add]
  rw [this]; simp; omega

end Sys2Proof.Machine
end

