-- ==== Sys2Proof/Laws/Memory.lean ====
section
/-! SUPPORT. Memory: a read after a write, and every operation keeps the canonical form. -/

namespace Sys2Proof.Machine

set_option Elab.async false

theorem Memory.read_erase (m : Memory) (a n : Nat) :
    Memory.read (Memory.erase m a) n = if n = a then Config.unwrittenByte else Memory.read m n := by
  induction m with
  | nil => simp [Memory.erase, Memory.read]
  | cons c m ih =>
    by_cases hc : c.1 = a
    · simp only [Memory.erase, hc, if_true, ih, Memory.read]
      by_cases hn : n = a
      · simp [hn]
      · have : ¬ a = n := fun e => hn e.symm
        simp [hn, this]
    · simp only [Memory.erase, hc, if_false, Memory.read, ih]
      by_cases hn : n = a
      · subst hn; simp [hc]
      · simp [hn]

theorem Memory.mem_erase {m : Memory} {a : Nat} {c : Host.Cell} :
    c ∈ Memory.erase m a ↔ c ∈ m ∧ c.1 ≠ a := by
  induction m with
  | nil => simp [Memory.erase]
  | cons c' m ih =>
    by_cases hc : c'.1 = a
    · simp only [Memory.erase, hc, if_true, ih, List.mem_cons]
      constructor
      · rintro ⟨h, hne⟩; exact ⟨.inr h, hne⟩
      · rintro ⟨rfl | h, hne⟩
        · exact absurd hc hne
        · exact ⟨h, hne⟩
    · simp only [Memory.erase, hc, if_false, List.mem_cons, ih]
      constructor
      · rintro (rfl | ⟨h, hne⟩)
        · exact ⟨.inl rfl, hc⟩
        · exact ⟨.inr h, hne⟩
      · rintro ⟨rfl | h, hne⟩
        · exact .inl rfl
        · exact .inr ⟨h, hne⟩

theorem Memory.read_insert {m : Memory} {a : Nat} (b : Byte) (ha : ∀ c ∈ m, c.1 ≠ a) (n : Nat) :
    Memory.read (Memory.insert m a b) n = if n = a then b else Memory.read m n := by
  induction m with
  | nil =>
    by_cases hn : n = a
    · simp [Memory.insert, Memory.read, hn]
    · simp [Memory.insert, Memory.read, hn, Ne.symm (Ne.intro hn)]
  | cons c m ih =>
    have ih := ih fun c hc => ha c (List.mem_cons_of_mem _ hc)
    have hc := ha c List.mem_cons_self
    unfold Memory.insert
    split
    · by_cases hn : n = a
      · simp [Memory.read, hn]
      · simp [Memory.read, hn, Ne.symm (Ne.intro hn)]
    · simp only [Memory.read, ih]
      by_cases hn : n = a
      · subst hn; simp [hc]
      · simp [hn]

/-- A read after a write: the byte written at its own location, every other location as before. It holds of
any list, in canonical form or not. -/
theorem Memory.read_write (m : Memory) (a : Nat) (b : Byte) (n : Nat) :
    Memory.read (Memory.write m a b) n = if n = a then b else Memory.read m n := by
  unfold Memory.write
  split
  · rename_i h; rw [Memory.read_erase, h]
  · rw [Memory.read_insert, Memory.read_erase]
    · by_cases hn : n = a <;> simp [hn]
    · intro c hc; exact (Memory.mem_erase.mp hc).2

@[simp] theorem Memory.read_write_same (m : Memory) (a : Nat) (b : Byte) :
    Memory.read (Memory.write m a b) a = b := by
  simp [Memory.read_write]

theorem Memory.read_write_other {m : Memory} {a n : Nat} (b : Byte) (h : n ≠ a) :
    Memory.read (Memory.write m a b) n = Memory.read m n := by
  simp [Memory.read_write, h]

theorem Memory.erase_wf {m : Memory} (h : Memory.wf m) (a : Nat) : Memory.wf (Memory.erase m a) := by
  refine ⟨?_, fun c hc => h.2 c (Memory.mem_erase.mp hc).1⟩
  have hs : List.Sublist (Memory.erase m a) m := by
    clear h
    induction m with
    | nil => simp [Memory.erase]
    | cons c m ih =>
      unfold Memory.erase
      split
      · exact ih.cons _
      · exact ih.cons_cons _
  exact h.1.sublist hs

theorem Memory.mem_insert {m : Memory} {a : Nat} {b : Byte} {c : Host.Cell} :
    c ∈ Memory.insert m a b ↔ c = (a, b) ∨ c ∈ m := by
  induction m with
  | nil => simp [Memory.insert]
  | cons c' m ih =>
    unfold Memory.insert
    split
    · simp
    · simp only [List.mem_cons, ih]
      constructor
      · rintro (h | h | h)
        · exact .inr (.inl h)
        · exact .inl h
        · exact .inr (.inr h)
      · rintro (h | h | h)
        · exact .inr (.inl h)
        · exact .inl h
        · exact .inr (.inr h)

theorem Memory.insert_wf {m : Memory} {a : Nat} {b : Byte} (h : Memory.wf m) (ha : ∀ c ∈ m, c.1 ≠ a)
    (hb : b ≠ Config.unwrittenByte) : Memory.wf (Memory.insert m a b) := by
  refine ⟨?_, fun c hc => ?_⟩
  · have hp := h.1
    clear h
    induction m with
    | nil => simp [Memory.insert]
    | cons c m ih =>
      have hm := List.pairwise_cons.mp hp
      unfold Memory.insert
      split
      · rename_i hlt
        refine List.pairwise_cons.mpr ⟨fun c' hc' => ?_, hp⟩
        rcases List.mem_cons.mp hc' with rfl | hc'
        · exact hlt
        · exact Nat.lt_trans hlt (hm.1 c' hc')
      · rename_i hlt
        refine List.pairwise_cons.mpr ⟨fun c' hc' => ?_, ih (fun c hc => ha c (List.mem_cons_of_mem _ hc)) hm.2⟩
        rcases Memory.mem_insert.mp hc' with rfl | hc'
        · have := ha c List.mem_cons_self
          exact Nat.lt_of_le_of_ne (Nat.not_lt.mp hlt) this
        · exact hm.1 c' hc'
  · rcases Memory.mem_insert.mp hc with rfl | hc
    · exact hb
    · exact h.2 c hc

/-- A write keeps the canonical form. -/
theorem Memory.write_wf {m : Memory} (h : Memory.wf m) (a : Nat) (b : Byte) : Memory.wf (Memory.write m a b) := by
  unfold Memory.write
  split
  · exact Memory.erase_wf h a
  · rename_i hb
    exact Memory.insert_wf (Memory.erase_wf h a) (fun c hc => (Memory.mem_erase.mp hc).2) hb

/-- The writes of other bus masters keep the canonical form. -/
theorem Memory.writeAll_wf {m : Memory} (h : Memory.wf m) (cs : List Host.Cell) : Memory.wf (Memory.writeAll m cs) := by
  induction cs generalizing m with
  | nil => exact h
  | cons c cs ih => exact ih (Memory.write_wf h c.1 c.2)

theorem Memory.reset_wf : Memory.wf State.reset.mem := by simp [Memory.wf, State.reset]

theorem State.pokeByte_wf {s : State} (h : Memory.wf s.mem) (fc : FuncCode) (a : Long) (b : Byte) :
    Memory.wf (s.pokeByte fc a b).mem := by
  unfold State.pokeByte State.memAfter
  split
  · exact Memory.write_wf h _ _
  · exact h

theorem State.pokeWord_wf {s : State} (h : Memory.wf s.mem) (fc : FuncCode) (a : Long) (w : Word) :
    Memory.wf (s.pokeWord fc a w).mem := State.pokeByte_wf (State.pokeByte_wf h _ _ _) _ _ _

theorem State.placeWords_wf {s : State} (h : Memory.wf s.mem) (ws : List Word) (a : Long) :
    Memory.wf (s.placeWords a ws).mem := by
  induction ws generalizing s a with
  | nil => exact h
  | cons w ws ih => exact ih (Memory.write_wf (Memory.write_wf h _ _) _ _) _

theorem State.withFetchWord_wf {s : State} (h : Memory.wf s.mem) (nbits w : Nat) :
    Memory.wf (s.withFetchWord nbits w).mem := State.placeWords_wf h _ _

/-! ## Addresses that differ by less than the size of the space name different locations -/

theorem busAddr_toNat (a : Long) : (busAddr a).toNat = a.toNat % 16777216 := by
  simp [busAddr]

theorem State.location_ne {s : State} (hm : s.platform.map = []) {fc : FuncCode} {a b : Long}
    (h : a.toNat % 16777216 ≠ b.toNat % 16777216) : s.location fc a ≠ s.location fc b := by
  simp only [State.location_of_map hm, busAddr_toNat]; omega

/-- A byte of the state after a byte is stored. -/
theorem State.read_pokeByte {s : State} (hm : s.platform.map = []) (fc : FuncCode) (a : Long) (b : Byte) (n : Nat) :
    Memory.read (s.pokeByte fc a b).mem n = if n = s.location fc a then b else Memory.read s.mem n := by
  simp [State.pokeByte, State.memAfter, State.place_of_map hm, Memory.read_write]

/-- A byte of the state after a word is stored. -/
theorem State.read_pokeWord {s : State} (hm : s.platform.map = []) (fc : FuncCode) (a : Long) (w : Word) (n : Nat) :
    Memory.read (s.pokeWord fc a w).mem n =
      if n = s.location fc (a + 1) then w.extractLsb' 0 8
      else if n = s.location fc a then w.extractLsb' 8 8 else Memory.read s.mem n := by
  have hm' : (s.pokeByte fc a (w.extractLsb' 8 8)).platform.map = [] := hm
  simp only [State.pokeWord, State.read_pokeByte hm', State.read_pokeByte hm,
    State.location_congr (State.pokeByte_platform s fc a _)]

end Sys2Proof.Machine
end

