-- ==== Sys2Proof/Laws/Access.lean ====
section
/-! SUPPORT. What the access primitives and the operand procedures do, once for each: what they answer where the
bus serves every cycle, and what they can do at all. -/

namespace Sys2Proof.Machine

set_option Elab.async false

/-! ## The monad -/

theorem bind_ok {α β : Type} {x : M α} {f : α → M β} {s t : State} {a : α} (h : x s = .ok a t) :
    (x >>= f) s = f a t := by
  show EStateM.bind x f s = _; unfold EStateM.bind; rw [h]

theorem bind_error {α β : Type} {x : M α} {f : α → M β} {s t : State} {e : BusStop} (h : x s = .error e t) :
    (x >>= f) s = .error e t := by
  show EStateM.bind x f s = _; unfold EStateM.bind; rw [h]

@[simp] theorem pure_run {α : Type} (a : α) (s : State) : (pure a : M α) s = .ok a s := rfl
@[simp] theorem get_run (s : State) : (get : M State) s = .ok s s := rfl
@[simp] theorem modify_run (f : State → State) (s : State) : (modify f : M PUnit) s = .ok ⟨⟩ (f s) := rfl
@[simp] theorem get_bind_run {β : Type} (f : State → M β) (s : State) : (get >>= f) s = f s s := rfl
@[simp] theorem pure_bind_run {α β : Type} (a : α) (f : α → M β) (s : State) :
    ((pure a : M α) >>= f) s = f a s := rfl
@[simp] theorem modify_bind_run {β : Type} (g : State → State) (f : PUnit → M β) (s : State) :
    ((modify g : M PUnit) >>= f) s = f ⟨⟩ (g s) := rfl
@[simp] theorem drawFree_bind_run {β : Type} (f : Long → M β) (s : State) :
    (drawFree >>= f) s = f (Config.freeLong s.freeCount) { s with freeCount := s.freeCount + 1 } := rfl

/-- An action that answers goes on with what it answers, in any continuation. -/
theorem bind_run {α β : Type} (x : M α) (f : α → M β) (s : State) :
    (x >>= f) s = match x s with
      | .ok a t => f a t
      | .error e t => .error e t := by
  show EStateM.bind x f s = _; unfold EStateM.bind; cases x s <;> rfl

theorem runPlain_ok {body : M Unit} {s t : State} (h : body (s.after 1) = .ok () t) : runPlain body s = .next t := by
  have h' : body { s with pc := s.pc + 2 } = .ok () t := h
  unfold runPlain runInstr; simp only; rw [bind_ok h']; rfl

theorem runInstr_done {body : M Ending} {s t : State} (h : body (s.after 1) = .ok .done t) :
    runInstr body s = .next t := by
  have h' : body { s with pc := s.pc + 2 } = .ok .done t := h
  unfold runInstr; simp only; rw [h']

theorem runInstr_trap {body : M Ending} {s t : State} {v : Byte} (h : body (s.after 1) = .ok (.trap v) t) :
    runInstr body s = finish s.pc true (takeException .group2 (.internal v) t.pc t) := by
  have h' : body { s with pc := s.pc + 2 } = .ok (.trap v) t := h
  unfold runInstr; simp only; rw [h']

theorem runInstr_notExecuted {body : M Ending} {s t : State} {v : Byte}
    (h : body (s.after 1) = .ok (.notExecuted v) t) :
    runInstr body s =
      finish s.pc true (takeException .group1 (.internal v) s.pc { t with tracePending := false }) := by
  have h' : body { s with pc := s.pc + 2 } = .ok (.notExecuted v) t := h
  unfold runInstr; simp only; rw [h']

theorem runInstr_error {body : M Ending} {s t : State} {e : BusStop} (h : body (s.after 1) = .error e t) :
    runInstr body s = abandon s.pc true e t := by
  have h' : body { s with pc := s.pc + 2 } = .error e t := h
  unfold runInstr; simp only; rw [h']

theorem privileged_super {body : M Unit} {s t : State} (hs : s.sr.s = true) (h : body s = .ok () t) :
    privileged body s = .ok .done t := by
  unfold privileged; simp only [get_bind_run, hs, if_true]; rw [bind_ok h]; rfl

theorem privileged_user {body : M Unit} {s : State} (hs : s.sr.s = false) :
    privileged body s = .ok (.notExecuted 8) s := by
  unfold privileged; simp [hs]

/-! ## Actions that end without a stop -/

/-- Whatever the list of cycles is, the action answers `a` and leaves `t` but for that list. -/
def Serves {α : Type} (x : M α) (s : State) (a : α) (t : State) : Prop :=
  ∀ l, ∃ log, x { s with bus := l } = .ok a { t with bus := log }

theorem Serves.pure {α : Type} (a : α) (s : State) : Serves (Pure.pure a : M α) s a s := fun l => ⟨l, rfl⟩

theorem Serves.bind {α β : Type} {x : M α} {f : α → M β} {s t u : State} {a : α} {b : β} (hx : Serves x s a t)
    (hf : Serves (f a) t b u) : Serves (x >>= f) s b u := by
  intro l
  obtain ⟨l1, h1⟩ := hx l
  obtain ⟨l2, h2⟩ := hf l1
  exact ⟨l2, (bind_ok h1).trans h2⟩

/-- A rule reads the state: what it goes on with does not look at the list of cycles. -/
theorem Serves.get {β : Type} {f : State → M β} {s u : State} {b : β} (h : Serves (f s) s b u)
    (hf : ∀ l, f { s with bus := l } = f s := by intro; rfl) : Serves (MonadState.get >>= f) s b u := by
  intro l
  rw [get_bind_run, hf]; exact h l

/-- A rule changes the state: the change does not look at the list of cycles. -/
theorem Serves.modify {f : State → State} {s : State} (hf : ∀ l, f { s with bus := l } = { f s with bus := l } := by
    intro; rfl) : Serves (modify f : M PUnit) s ⟨⟩ (f s) := by
  intro l
  exact ⟨l, by rw [modify_run, hf]⟩

theorem Serves.draw (s : State) :
    Serves drawFree s (Config.freeLong s.freeCount) { s with freeCount := s.freeCount + 1 } := fun l => ⟨l, rfl⟩

theorem Serves.to {α : Type} {x : M α} {s t u : State} {a : α} (h : Serves x s a t) (e : t = u) : Serves x s a u :=
  e ▸ h

theorem Serves.run {α : Type} {x : M α} {s t : State} {a : α} (h : Serves x s a t) :
    ∃ log, x s = .ok a { t with bus := log } := h s.bus

theorem Serves.runPlain {body : M Unit} {s t : State} (h : Serves body (s.after 1) () t) :
    Yields (runPlain body s) t := by
  obtain ⟨log, hl⟩ := h.run
  exact ⟨log, runPlain_ok hl⟩

theorem Serves.runInstr {body : M Ending} {s t : State} (h : Serves body (s.after 1) .done t) :
    Yields (runInstr body s) t := by
  obtain ⟨log, hl⟩ := h.run
  exact ⟨log, runInstr_done hl⟩

theorem Serves.privileged {body : M Unit} {s t : State} (hs : s.sr.s = true) (h : Serves body s () t) :
    Serves (privileged body) s .done t := by
  intro l
  obtain ⟨log, hl⟩ := h l
  exact ⟨log, privileged_super hs hl⟩

/-- A rule that stores: the next state is `t` but for memory, where the operand stands. -/
def ServesStoring {α : Type} (x : M α) (s : State) (a : α) (t : State) (loc : Loc) (sz : Size) (v : Long) : Prop :=
  ∃ m, Serves x s a { t with mem := m } ∧ Stored t { t with mem := m } loc sz v

/-! ## The program counter -/

@[simp] theorem State.after_pc (s : State) (k : Nat) : (s.after k).pc = s.pc + 2 * BitVec.ofNat 32 k := rfl

theorem State.after_zero (s : State) : s.after 0 = s := by
  simp [State.after]

theorem State.after_after (s : State) (j k : Nat) : (s.after j).after k = s.after (j + k) := by
  simp only [State.after]
  congr 1
  rw [BitVec.ofNat_add, BitVec.mul_add, BitVec.add_assoc]

theorem EvenAddr.after {s : State} (h : EvenAddr s.pc) (k : Nat) : EvenAddr (s.after k).pc := by
  induction k with
  | zero => simpa [State.after_zero] using h
  | succ k ih =>
    have : (s.after (k + 1)).pc = (s.after k).pc + 2 := by
      rw [← State.after_after]; simp [State.after]
    rw [this]; exact ih.add_two

theorem State.Ready.after {s : State} (h : s.Ready) (k : Nat) : (s.after k).Ready :=
  ⟨h.1.congr rfl, h.2.after k⟩

theorem State.Ready.congr {s t : State} (h : s.Ready) (hp : t.platform = s.platform) (hpc : t.pc = s.pc)
    (ht : t.turns = s.turns := by first | rfl | simp) : t.Ready :=
  ⟨h.1.congr hp ht, hpc ▸ h.2⟩

theorem State.after_with_bus (s : State) (x : List BusCycle) (k : Nat) :
    ({ s with bus := x }).after k = { s.after k with bus := x } := rfl

/-! ## Bus cycles -/

/-- With no turn of the environment left, the platform's rules end the cycle at its first run. -/
theorem runCycle_nil (kind : CycleKind) (fc : FuncCode) (a : Long) (isWord : Bool) (data : Option Word) {ans : BusAnswer}
    (h : ans ≠ .rerun) {ts : List BusTurn} (hts : ts = []) (s : State) :
    runCycle kind fc a isWord data ans ts s = ⟨ans, none, s⟩ := by
  subst hts; simp [runCycle, h]

/-- All a bus cycle can change before anything is transferred: memory, by other masters, which keeps its canonical form;
the turns of the environment; the list of cycles. -/
theorem runCycle_state (kind : CycleKind) (fc : FuncCode) (a : Long) (isWord : Bool) (data : Option Word) (ans : BusAnswer)
    (ts : List BusTurn) (s : State) :
    ∃ m ts' l, (runCycle kind fc a isWord data ans ts s).state = { s with mem := m, turns := ts', bus := l }
      ∧ (Memory.wf s.mem → Memory.wf m) := by
  induction ts generalizing s with
  | nil => exact ⟨s.mem, s.turns, s.bus, rfl, id⟩
  | cons t ts ih =>
    have hw : Memory.wf s.mem → Memory.wf (if kind = .rmwWrite then s.mem else Memory.writeAll s.mem t.dma) := by
      intro h; split
      · exact h
      · exact Memory.writeAll_wf h _
    unfold runCycle
    simp only
    split
    · obtain ⟨m, ts', l, h1, h2⟩ := ih (State.logCycle { s with
        turns := ts, mem := if kind = .rmwWrite then s.mem else Memory.writeAll s.mem t.dma } kind fc a isWord data .rerun)
      exact ⟨m, ts', l, h1, fun h => h2 (hw h)⟩
    · exact ⟨_, _, _, rfl, hw⟩

/-- A cycle that is not part of a read-modify-write never ends in a re-run. -/
theorem runCycle_answer {kind : CycleKind} (hk : kind.isRmw = false) (fc : FuncCode) (a : Long) (isWord : Bool)
    (data : Option Word) (ans : BusAnswer) (ts : List BusTurn) (s : State) :
    (runCycle kind fc a isWord data ans ts s).answer ≠ .rerun := by
  induction ts generalizing s with
  | nil => unfold runCycle; simp only [hk]; cases ans <;> simp
  | cons t ts ih =>
    unfold runCycle
    simp only
    split
    · exact ih _
    · rename_i h; simpa [hk] using h

/-- Where every place is memory, a read cycle transfers what memory holds, whatever the platform puts on the bus. -/
theorem State.fetched_of_map {s : State} (h : s.platform.map = []) (fc : FuncCode) (a : Long) (isWord : Bool) (w : Word) :
    s.fetched fc a isWord w = if isWord then s.peekWord fc a else (s.peekByte fc a).setWidth 16 := by
  simp [State.fetched, State.fetchedByte, State.place_of_map h, State.peekWord]

/-- The end of a read cycle that reaches memory alone. -/
theorem readDone_of_map {e : CycleEnd} (h : e.state.platform.map = []) (kind : CycleKind) (fc : FuncCode) (a : Long)
    (isWord : Bool) :
    readDone kind fc a isWord e =
      let v := if isWord then e.state.peekWord fc a else (e.state.peekByte fc a).setWidth 16
      .ok v (e.state.logCycle kind fc a isWord (some v) e.answer) := by
  have hd : e.state.reachesDevice fc a isWord = false := by
    simp [State.reachesDevice, State.place_of_map h]
  unfold readDone
  simp only [hd, State.fetched_of_map h]
  cases e.supplied <;> rfl

/-- A read cycle that completes answers a word, and may change the count of free values and the list of cycles. -/
theorem readDone_ok (kind : CycleKind) (fc : FuncCode) (a : Long) (isWord : Bool) (e : CycleEnd) :
    ∃ v n l, readDone kind fc a isWord e = .ok v { e.state with freeCount := n, bus := l } := by
  unfold readDone State.logCycle
  cases e.supplied
  · by_cases h : e.state.reachesDevice fc a isWord = true
    · exact ⟨_, _, _, by simp only [h, if_true]; rfl⟩
    · exact ⟨_, _, _, by simp only [h]; rfl⟩
  · exact ⟨_, _, _, rfl⟩

theorem State.BusServes.answer_ne {s : State} (h : s.BusServes) (fc : FuncCode) (dir : Direction) (a : Long) :
    s.answer fc dir a ≠ .rerun := by
  rcases h.answer fc dir a with e | e <;> rw [e] <;> decide

/-- A read cycle where the bus serves: what memory holds, and the cycle in the list. -/
theorem busRead_run {s : State} (h : s.BusServes) (kind : CycleKind) (fc : FuncCode) (a : Long) (isWord : Bool) :
    busRead kind fc a isWord s =
      let v := if isWord then s.peekWord fc a else (s.peekByte fc a).setWidth 16
      .ok v (s.logCycle kind fc a isWord (some v) (s.answer fc .read a)) := by
  unfold busRead
  rw [runCycle_nil _ _ _ _ _ (h.answer_ne fc .read a) h.turns]
  rcases h.answer fc .read a with ha | ha <;> (rw [ha]; exact readDone_of_map (e := ⟨_, none, s⟩) h.map kind fc a isWord)

/-- A write cycle where the bus serves: the data stored, and the cycle in the list. -/
theorem busWrite_run {s : State} (h : s.BusServes) (kind : CycleKind) (fc : FuncCode) (a : Long) (isWord : Bool)
    (v : Word) :
    busWrite kind fc a isWord v s =
      .ok () ((s.pokeCycle fc a isWord v).logCycle kind fc a isWord (some v) (s.answer fc .write a)) := by
  unfold busWrite
  rw [runCycle_nil _ _ _ _ _ (h.answer_ne fc .write a) h.turns]
  rcases h.answer fc .write a with ha | ha <;> rw [ha]

theorem busRead_serves {s : State} (h : s.BusServes) (kind : CycleKind) (fc : FuncCode) (a : Long) (isWord : Bool) :
    Serves (busRead kind fc a isWord) s (if isWord then s.peekWord fc a else (s.peekByte fc a).setWidth 16) s :=
  fun l => ⟨_, busRead_run (s := { s with bus := l }) (h.congr rfl) kind fc a isWord⟩

theorem busWrite_serves {s : State} (h : s.BusServes) (kind : CycleKind) (fc : FuncCode) (a : Long) (isWord : Bool)
    (v : Word) : Serves (busWrite kind fc a isWord v) s () { s with mem := (s.pokeCycle fc a isWord v).mem } := by
  intro l
  have h' := busWrite_run (s := { s with bus := l }) (h.congr rfl) kind fc a isWord v
  cases isWord <;> exact ⟨_, h'⟩

/-- All a read cycle can change, however it ends: memory (by other masters), the environment's turns, the list of cycles
and the count of free values. It never ends in an address error. -/
theorem busRead_changes (kind : CycleKind) (fc : FuncCode) (a : Long) (isWord : Bool) (s : State) :
    ∃ m ts l n, (Memory.wf s.mem → Memory.wf m)
      ∧ ((∃ v, busRead kind fc a isWord s = .ok v { s with mem := m, turns := ts, bus := l, freeCount := n })
        ∨ (∃ e, (e = .hang ∨ e = .busError ⟨a, .read, fc⟩)
          ∧ busRead kind fc a isWord s = .error e { s with mem := m, turns := ts, bus := l, freeCount := n })) := by
  obtain ⟨m, ts, l, h1, h2⟩ := runCycle_state kind fc a isWord none (s.answer fc .read a) s.turns s
  unfold busRead
  simp only
  cases he : (runCycle kind fc a isWord none (s.answer fc .read a) s.turns s).answer <;> simp only
  case ok | vpa =>
    obtain ⟨v, n, l', hr⟩ := readDone_ok kind fc a isWord (runCycle kind fc a isWord none (s.answer fc .read a) s.turns s)
    rw [hr, h1]; exact ⟨m, ts, l', n, h2, .inl ⟨v, rfl⟩⟩
  case busError | rerun =>
    unfold State.logCycle
    rw [h1]; exact ⟨m, ts, _, s.freeCount, h2, .inr ⟨_, .inr rfl, rfl⟩⟩
  case never => rw [h1]; exact ⟨m, ts, l, s.freeCount, h2, .inr ⟨_, .inl rfl, rfl⟩⟩

/-- What a failed write leaves: memory and the count of free values may differ, nothing else. -/
theorem State.pokeFailed_eq (s : State) (fc : FuncCode) (a : Long) (isWord : Bool) (v : Word) :
    ∃ m n, s.pokeFailed fc a isWord v = { s with mem := m, freeCount := n } := by
  unfold State.pokeFailed State.pokeByte
  cases isWord <;> simp only [Bool.false_eq_true, if_false, if_true]
  · split <;> exact ⟨_, _, rfl⟩
  · split <;> split <;> exact ⟨_, _, rfl⟩

theorem State.pokeFailed_wf {s : State} (h : Memory.wf s.mem) (fc : FuncCode) (a : Long) (isWord : Bool) (v : Word) :
    Memory.wf (s.pokeFailed fc a isWord v).mem := by
  unfold State.pokeFailed
  cases isWord <;> simp only [Bool.false_eq_true, if_false, if_true]
  · split
    · exact State.pokeByte_wf h _ _ _
    · exact h
  · split <;> split <;> first
      | exact State.pokeByte_wf (State.pokeByte_wf h _ _ _) _ _ _
      | exact State.pokeByte_wf h _ _ _
      | exact h

theorem State.pokeCycle_wf {s : State} (h : Memory.wf s.mem) (fc : FuncCode) (a : Long) (isWord : Bool) (v : Word) :
    Memory.wf (s.pokeCycle fc a isWord v).mem := by
  unfold State.pokeCycle
  split
  · exact State.pokeWord_wf h _ _ _
  · exact State.pokeByte_wf h _ _ _

theorem State.pokeCycle_eq (s : State) (fc : FuncCode) (a : Long) (isWord : Bool) (v : Word) :
    s.pokeCycle fc a isWord v = { s with mem := (s.pokeCycle fc a isWord v).mem } := by
  unfold State.pokeCycle; split <;> rfl

/-- All a write cycle can change, however it ends: as a read cycle. -/
theorem busWrite_changes (kind : CycleKind) (fc : FuncCode) (a : Long) (isWord : Bool) (v : Word) (s : State) :
    ∃ m ts l n, (Memory.wf s.mem → Memory.wf m)
      ∧ (busWrite kind fc a isWord v s = .ok () { s with mem := m, turns := ts, bus := l, freeCount := n }
        ∨ (∃ e, (e = .hang ∨ e = .busError ⟨a, .write, fc⟩)
          ∧ busWrite kind fc a isWord v s = .error e { s with mem := m, turns := ts, bus := l, freeCount := n })) := by
  obtain ⟨m, ts, l, h1, h2⟩ := runCycle_state kind fc a isWord (some v) (s.answer fc .write a) s.turns s
  unfold busWrite
  generalize runCycle kind fc a isWord (some v) (s.answer fc .write a) s.turns s = e at h1
  have hw (h : Memory.wf s.mem) : Memory.wf e.state.mem := by rw [h1]; exact h2 h
  have hc := State.pokeCycle_eq e.state fc a isWord v
  obtain ⟨m', n', hf⟩ := State.pokeFailed_eq e.state fc a isWord v
  have hw' (h : Memory.wf s.mem) : Memory.wf m' := by
    have := State.pokeFailed_wf (hw h) fc a isWord v; rw [hf] at this; exact this
  have hl : e.state.bus = l := by rw [h1]
  have done (ans : BusAnswer) : (e.state.pokeCycle fc a isWord v).logCycle kind fc a isWord (some v) ans =
      { s with
        mem := (e.state.pokeCycle fc a isWord v).mem
        turns := ts
        bus := l ++ [⟨kind, fc, busAddr a, isWord, dataLines kind a isWord (some v), ans⟩]
        freeCount := s.freeCount } := by
    unfold State.logCycle; rw [hc]; simp only [hl]; rw [h1]
  have failed (ans : BusAnswer) : (e.state.pokeFailed fc a isWord v).logCycle kind fc a isWord (some v) ans =
      { s with mem := m', turns := ts, bus := l ++ [⟨kind, fc, busAddr a, isWord, dataLines kind a isWord (some v), ans⟩], freeCount := n' } := by
    unfold State.logCycle; rw [hf]; simp only [hl]; rw [h1]
  simp only
  cases e.answer <;> simp only [done, failed]
  case ok | vpa => exact ⟨_, ts, _, s.freeCount, fun h => State.pokeCycle_wf (hw h) fc a isWord v, .inl rfl⟩
  case busError | rerun => exact ⟨m', ts, _, n', hw', .inr ⟨_, .inr rfl, rfl⟩⟩
  case never => rw [h1]; exact ⟨m, ts, l, s.freeCount, h2, .inr ⟨_, .inl rfl, rfl⟩⟩

/-! ## Memory accesses -/

theorem checkAligned_ok {fc : FuncCode} {dir : Direction} {a : Long} {sz : Size} (h : Aligned sz a) (s : State) :
    checkAligned fc dir a sz s = .ok () s := by
  unfold checkAligned
  rcases h with rfl | h
  · rfl
  · unfold EvenAddr at h; simp only [h, Bool.and_false]; rfl

theorem checkAligned_odd {fc : FuncCode} {dir : Direction} {a : Long} {sz : Size} (h : ¬ Aligned sz a) (s : State) :
    checkAligned fc dir a sz s = .error (.addressError ⟨a, dir, fc⟩) s := by
  simp only [Aligned, EvenAddr, not_or, Bool.not_eq_false] at h
  have hb : (sz != Size.b) = true := by simpa using h.1
  unfold checkAligned; simp only [h.2, hb, Bool.and_true, if_true]

theorem State.BusServes.with_bus {s : State} (h : s.BusServes) (x : List BusCycle) :
    ({ s with bus := x }).BusServes := h.congr rfl

theorem checkAligned_serves {fc : FuncCode} {dir : Direction} {a : Long} {sz : Size} (h : Aligned sz a) (s : State) :
    Serves (checkAligned fc dir a sz) s () s := fun l => ⟨l, checkAligned_ok h _⟩

/-- `MemRead` where the bus serves: the operand, and nothing changed. -/
theorem memRead_serves {s : State} (h : s.BusServes) {fc : FuncCode} {a : Long} {sz : Size} (ha : Aligned sz a) :
    Serves (memRead fc a sz) s (s.peek fc a sz) s := by
  unfold memRead
  refine (checkAligned_serves ha s).bind ?_
  cases sz with
  | b =>
    have e : ofWord ((s.peekByte fc a).setWidth 16) = s.peek fc a .b := by simp [State.peek, ofByte, ofWord]
    exact (busRead_serves h .read fc a false).bind (e ▸ .pure _ s)
  | w => exact (busRead_serves h .read fc a true).bind (.pure _ s)
  | l => exact (busRead_serves h .read fc a true).bind ((busRead_serves h .read fc (a + 2) true).bind (.pure _ s))

theorem ofByte_eq (v : Long) : ofByte (lowByte v) = Size.b.trunc v := by
  simp only [ofByte, lowByte, Size.trunc]
  apply BitVec.eq_of_getLsbD_eq
  intro i hi
  simp
  interval_cases i <;> simp

theorem ofWord_eq (v : Long) : ofWord (lowWord v) = Size.w.trunc v := by
  simp only [ofWord, lowWord, Size.trunc]
  apply BitVec.eq_of_getLsbD_eq
  intro i hi
  simp
  interval_cases i <;> simp

theorem lowWord_ofWord (w : Word) : lowWord (ofWord w) = w := by
  ext i hi
  simp only [lowWord, ofWord, BitVec.getElem_extractLsb', BitVec.getLsbD_setWidth]
  have : i < 32 := by omega
  simp [this, BitVec.getLsbD_eq_getElem hi]

theorem highWord_append_lowWord (v : Long) : highWord v ++ lowWord v = v := by
  ext i hi
  rw [BitVec.getElem_append]
  split
  · simp [lowWord]; exact BitVec.getLsbD_eq_getElem hi
  · simp only [highWord, BitVec.getElem_extractLsb']
    rw [show 16 + (i - 16) = i by omega]; exact BitVec.getLsbD_eq_getElem hi

theorem byte_append (w : Word) : w.extractLsb' 8 8 ++ w.extractLsb' 0 8 = w := by
  ext i hi
  rw [BitVec.getElem_append]
  split
  · simp; exact BitVec.getLsbD_eq_getElem hi
  · simp only [BitVec.getElem_extractLsb']
    rw [show 8 + (i - 8) = i by omega]; exact BitVec.getLsbD_eq_getElem hi

theorem EvenAddr.toNat {a : Long} (h : EvenAddr a) : a.toNat % 2 = 0 := by
  unfold EvenAddr at h; rw [BitVec.getLsbD, Nat.testBit_zero] at h; simpa using h

theorem Long.add_toNat (a : Long) (k : Nat) :
    (a + BitVec.ofNat 32 k).toNat % 16777216 = (a.toNat + k) % 16777216 := by
  simp [BitVec.toNat_add]

/-- Two offsets below the size of the space name different locations. -/
theorem State.location_add_ne {s : State} (hm : s.platform.map = []) (fc : FuncCode) (a : Long) {j k : Nat} (hj : j < 16777216)
    (hk : k < 16777216) (h : j ≠ k) :
    s.location fc (a + BitVec.ofNat 32 j) ≠ s.location fc (a + BitVec.ofNat 32 k) := by
  apply State.location_ne hm
  rw [Long.add_toNat, Long.add_toNat]; omega

/-! ## Writing -/

theorem StoredAt_byte {s : State} (hm : s.platform.map = []) (fc : FuncCode) (a : Long) (v : Long) :
    StoredAt s (s.pokeCycle fc a false (lowWord (v &&& 0xFF#32))) fc a .b v := by
  constructor
  · simp only [State.pokeCycle, State.peek, State.peekByte, Bool.false_eq_true, if_false, State.read_pokeByte hm,
      State.location_congr (State.pokeByte_platform s fc a _), if_true]
    rw [← ofByte_eq]; congr 1
    ext i hi
    simp [lowByte, lowWord]
    interval_cases i <;> simp
  · intro n hn
    simp only [State.bytesAt, List.mem_singleton] at hn
    simp [State.pokeCycle, State.read_pokeByte hm, hn]

/-- Reading back the word just stored. -/
theorem State.peekWord_pokeWord_same {s : State} (hm : s.platform.map = []) (fc : FuncCode) (a : Long) (w : Word) :
    (s.pokeWord fc a w).peekWord fc a = w := by
  have hne : s.location fc a ≠ s.location fc (a + 1) := by
    have := State.location_add_ne hm fc a (j := 0) (k := 1) (by omega) (by omega) (by omega)
    simpa using this
  simp only [State.peekWord, State.peekByte, State.read_pokeWord hm,
    State.location_congr (State.pokeWord_platform s fc a w)]
  rw [if_neg hne]; simp only [if_true]; exact byte_append w

/-- Reading a word the stored word does not overlap. -/
theorem State.peekWord_pokeWord_other {s : State} (hm : s.platform.map = []) (fc : FuncCode) {a b : Long} (w : Word)
    (h : ∀ i ∈ s.bytesAt fc a .w, i ∉ s.bytesAt fc b .w) : (s.pokeWord fc a w).peekWord fc b = s.peekWord fc b := by
  simp only [State.bytesAt, List.mem_cons, List.not_mem_nil, or_false, not_or] at h
  have h0 := h _ (.inl rfl)
  have h1 := h _ (.inr rfl)
  simp only [State.peekWord, State.peekByte, State.read_pokeWord hm,
    State.location_congr (State.pokeWord_platform s fc a w)]
  rw [if_neg (Ne.symm h1.1), if_neg (Ne.symm h0.1), if_neg (Ne.symm h1.2), if_neg (Ne.symm h0.2)]

theorem StoredAt_word {s : State} (hm : s.platform.map = []) (fc : FuncCode) (a : Long) (v : Long) :
    StoredAt s (s.pokeWord fc a (lowWord v)) fc a .w v := by
  constructor
  · rw [← ofWord_eq]; simp [State.peek, State.peekWord_pokeWord_same hm]
  · intro n hn
    simp only [State.bytesAt, List.mem_cons, List.not_mem_nil, or_false, not_or] at hn
    rw [State.read_pokeWord hm, if_neg hn.2, if_neg hn.1]

theorem State.words_apart {s : State} (hm : s.platform.map = []) (fc : FuncCode) (a : Long) :
    (∀ i ∈ s.bytesAt fc a .w, i ∉ s.bytesAt fc (a + 2) .w) ∧ ∀ i ∈ s.bytesAt fc (a + 2) .w, i ∉ s.bytesAt fc a .w := by
  have key (j k : Nat) (hj : j < 4) (hk : k < 4) (h : j ≠ k) :
      s.location fc (a + BitVec.ofNat 32 j) ≠ s.location fc (a + BitVec.ofNat 32 k) :=
    State.location_add_ne hm fc a (by omega) (by omega) h
  have e0 : a + BitVec.ofNat 32 0 = a := by simp
  have e3 : a + 2 + 1 = a + BitVec.ofNat 32 3 := by rw [BitVec.add_assoc]; rfl
  have k02 := key 0 2 (by omega) (by omega) (by omega)
  have k03 := key 0 3 (by omega) (by omega) (by omega)
  have k12 := key 1 2 (by omega) (by omega) (by omega)
  have k13 := key 1 3 (by omega) (by omega) (by omega)
  rw [e0] at k02 k03
  constructor <;>
    · simp only [State.bytesAt, List.mem_cons, List.not_mem_nil, or_false, not_or, e3]
      rintro i (rfl | rfl)
      · first
          | exact ⟨k02, k03⟩
          | exact ⟨k02.symm, k12.symm⟩
      · first
          | exact ⟨k12, k13⟩
          | exact ⟨k03.symm, k13.symm⟩

theorem StoredAt_long {s : State} (hm : s.platform.map = []) (fc : FuncCode) (a : Long) (v : Long) :
    StoredAt s ((s.pokeWord fc a (highWord v)).pokeWord fc (a + 2) (lowWord v)) fc a .l v
    ∧ StoredAt s ((s.pokeWord fc (a + 2) (lowWord v)).pokeWord fc a (highWord v)) fc a .l v := by
  have hap := State.words_apart hm fc a
  have hm' (b : Long) (w : Word) : (s.pokeWord fc b w).platform.map = [] := hm
  have e3 : a + 2 + 1 = a + 3 := by rw [BitVec.add_assoc]; rfl
  have hb (t : State) (hp : t.platform = s.platform) (b : Long) := State.bytesAt_congr hp fc b .w
  have hl (b : Long) (w : Word) (c : Long) : (s.pokeWord fc b w).location fc c = s.location fc c :=
    State.location_congr (State.pokeWord_platform s fc b w) fc c
  refine ⟨⟨?_, ?_⟩, ⟨?_, ?_⟩⟩
  · simp only [State.peek, State.peekLong, Size.trunc]
    rw [State.peekWord_pokeWord_same (hm' _ _), State.peekWord_pokeWord_other (hm' _ _), State.peekWord_pokeWord_same hm,
      highWord_append_lowWord]
    rw [hb _ (by simp), hb _ (by simp)]; exact hap.2
  · intro n hn
    simp only [State.bytesAt, List.mem_cons, List.not_mem_nil, or_false, not_or] at hn
    simp only [State.read_pokeWord (hm' _ _), State.read_pokeWord hm, hl, e3]
    rw [if_neg hn.2.2.2, if_neg hn.2.2.1, if_neg hn.2.1, if_neg hn.1]
  · simp only [State.peek, State.peekLong, Size.trunc]
    rw [State.peekWord_pokeWord_same (hm' _ _), State.peekWord_pokeWord_other (hm' _ _), State.peekWord_pokeWord_same hm,
      highWord_append_lowWord]
    rw [hb _ (by simp), hb _ (by simp)]; exact hap.1
  · intro n hn
    simp only [State.bytesAt, List.mem_cons, List.not_mem_nil, or_false, not_or] at hn
    simp only [State.read_pokeWord (hm' _ _), State.read_pokeWord hm, hl, e3]
    rw [if_neg hn.2.1, if_neg hn.1, if_neg hn.2.2.2, if_neg hn.2.2.1]

/-- What `StoredAt` says depends on memory and the platform alone. -/
theorem StoredAt.congr {s t t' : State} {fc : FuncCode} {a : Long} {sz : Size} {v : Long} (h : StoredAt s t fc a sz v)
    (hm : t'.mem = t.mem) (hp : t'.platform = t.platform) : StoredAt s t' fc a sz v :=
  ⟨(State.peek_congr hm hp fc a sz).trans h.1, fun n hn => by rw [hm]; exact h.2 n hn⟩

theorem StoredAt.congr_left {s s' t : State} {fc : FuncCode} {a : Long} {sz : Size} {v : Long}
    (h : StoredAt s t fc a sz v) (hm : s'.mem = s.mem) (hp : s'.platform = s.platform) : StoredAt s' t fc a sz v :=
  ⟨h.1, fun n hn => by rw [hm]; exact h.2 n (State.bytesAt_congr hp fc a sz ▸ hn)⟩

theorem busWriteWord_serves {s : State} (h : s.BusServes) (fc : FuncCode) (a : Long) (v : Word) :
    Serves (busWrite .write fc a true v) s () (s.pokeWord fc a v) := busWrite_serves h .write fc a true v

/-- Two word writes one after the other. -/
theorem busWriteWords_serves {s : State} (h : s.BusServes) (fc : FuncCode) (a b : Long) (v w : Word) :
    Serves (busWrite .write fc a true v >>= fun _ => busWrite .write fc b true w) s ()
      ((s.pokeWord fc a v).pokeWord fc b w) := by
  have h' : (s.pokeWord fc a v).BusServes := h.congr (State.pokeWord_platform s fc a v)
  exact (busWriteWord_serves h fc a v).bind (busWriteWord_serves h' fc b w)

theorem StoredAt.of_mem {s t : State} {fc : FuncCode} {a : Long} {sz : Size} {v : Long} (h : StoredAt s t fc a sz v)
    (hp : t.platform = s.platform) : StoredAt s { s with mem := t.mem } fc a sz v := h.congr rfl hp.symm

theorem Serves.of_mem {α : Type} {x : M α} {s t : State} {a : α} (h : Serves x s a t) (ht : t = { s with mem := t.mem }) :
    Serves x s a { s with mem := t.mem } := ht ▸ h

theorem State.pokeWord_eq (s : State) (fc : FuncCode) (a : Long) (w : Word) :
    s.pokeWord fc a w = { s with mem := (s.pokeWord fc a w).mem } := rfl

/-- `MemWrite` where the bus serves: the operand is stored, and nothing else changed. -/
theorem memWrite_serves {s : State} (h : s.BusServes) {fc : FuncCode} {a : Long} {sz : Size} (ha : Aligned sz a)
    (lowFirst : Bool) (v : Long) :
    ∃ m, Serves (memWrite fc a sz lowFirst v) s () { s with mem := m } ∧ StoredAt s { s with mem := m } fc a sz v := by
  have two (b c : Long) (x y : Word) : Serves (busWrite .write fc b true x >>= fun _ => busWrite .write fc c true y) s ()
      { s with mem := ((s.pokeWord fc b x).pokeWord fc c y).mem } :=
    (busWriteWords_serves h fc b c x y).of_mem (by rw [State.pokeWord_eq, State.pokeWord_eq s])
  unfold memWrite
  cases sz with
  | b =>
    exact ⟨_, (checkAligned_serves ha s).bind (busWrite_serves h .write fc a false _), (StoredAt_byte h.map fc a v).of_mem rfl⟩
  | w =>
    exact ⟨_, (checkAligned_serves ha s).bind ((busWriteWord_serves h fc a _).of_mem (State.pokeWord_eq s fc a _)),
      (StoredAt_word h.map fc a v).of_mem (State.pokeWord_platform s fc a _)⟩
  | l =>
    have e (b c : Long) (x y : Word) : ((s.pokeWord fc b x).pokeWord fc c y).platform = s.platform := by
      rw [State.pokeWord_platform, State.pokeWord_platform]
    cases lowFirst
    · exact ⟨_, (checkAligned_serves ha s).bind (two a (a + 2) (highWord v) (lowWord v)),
        (StoredAt_long h.map fc a v).1.of_mem (e _ _ _ _)⟩
    · exact ⟨_, (checkAligned_serves ha s).bind (two (a + 2) a (lowWord v) (highWord v)),
        (StoredAt_long h.map fc a v).2.of_mem (e _ _ _ _)⟩

/-- A word write where the bus serves. -/
theorem memWriteWord_serves {s : State} (h : s.BusServes) {fc : FuncCode} {a : Long} (ha : EvenAddr a) (w : Word) :
    Serves (memWrite fc a .w false (ofWord w)) s () (s.pokeWord fc a w) := by
  unfold memWrite
  refine (checkAligned_serves (.inr ha) s).bind ?_
  simp only [lowWord_ofWord]
  exact busWriteWord_serves h fc a w

end Sys2Proof.Machine
end

