-- ==== Sys2Proof/Laws/Operands.lean ====
section
/-! SUPPORT. What the operand procedures of the spec do (R194), once for each: fetching extension words, resolving
an effective address, reading and writing a location, pushing and popping. -/

namespace Sys2Proof.Machine

set_option Elab.async false

theorem State.Ready.eaStep {s : State} (h : s.Ready) (ea : EA) (sz : Size) : (eaStep ea sz s).Ready :=
  h.congr (by simp) (by simp)

/-- `Fetch16` where the bus serves. -/
theorem fetchWord_serves {s : State} (h : s.Ready) : Serves fetchWord s (s.peekWord s.fcProg s.pc) (s.after 1) := by
  unfold fetchWord
  have e : lowWord (s.peek s.fcProg s.pc .w) = s.peekWord s.fcProg s.pc := lowWord_ofWord _
  exact .get ((memRead_serves h.1 (.inr h.2)).bind (Serves.bind .modify (e ▸ .pure _ _)))

/-- The extension words of an instruction are fetched: the program counter passes them, nothing else changes. -/
theorem fetchWords_serves {s : State} (h : s.Ready) (k : Nat) : Serves (fetchWords k) s () (s.after k) := by
  induction k generalizing s with
  | zero => rw [State.after_zero]; exact .pure _ _
  | succ k ih =>
    refine Serves.to ((fetchWord_serves h).bind (ih (h.after 1))) ?_
    rw [State.after_after, Nat.add_comm]

/-- `ResolveEA` where the bus serves. -/
theorem resolveEA_serves {s : State} (h : s.Ready) (ea : EA) (sz : Size) :
    Serves (resolveEA ea sz) s (eaLoc ea sz s) (eaStep ea sz (s.after (eaWords ea))) := by
  unfold resolveEA
  refine .get ((fetchWords_serves h _).bind (Serves.bind (.modify ?_) (.pure _ _)))
  intro l; exact eaStep_with_bus ea sz _ l

/-- `ReadLoc` where the bus serves. -/
theorem readLoc_serves {s : State} (h : s.BusServes) {loc : Loc} {sz : Size} (ha : loc.Accessible sz) :
    Serves (readLoc loc sz) s (s.operand loc sz) s := by
  cases loc with
  | mem a fc lf => exact memRead_serves h ha
  | dreg n => exact .get (.pure _ _)
  | areg n => exact .get (.pure _ _)
  | imm v => exact .pure _ _

/-- `WriteLoc` where the bus serves. -/
theorem writeLoc_serves {s : State} (h : s.BusServes) {loc : Loc} {sz : Size} (ha : loc.Accessible sz) (v : Long) :
    ServesStoring (writeLoc loc sz v) s () (s.putReg loc sz v) loc sz v := by
  cases loc with
  | mem a fc lf => exact memWrite_serves h ha lf v
  | dreg n => exact ⟨s.mem, .modify, rfl⟩
  | areg n =>
    refine ⟨s.mem, Serves.to (.modify fun l => State.writeA_with_bus s l n _) ?_, (State.writeA_mem s n _).symm⟩
    show s.writeA n (sz.sext v) = { s.writeA n (sz.sext v) with mem := s.mem }
    rw [← State.writeA_mem s n (sz.sext v)]
  | imm v => exact ⟨s.mem, .pure _ _, rfl⟩

/-- `ReadEA` where the bus serves. -/
theorem readEA_serves {s : State} (h : s.Ready) {ea : EA} {sz : Size} (ha : (eaLoc ea sz s).Accessible sz) :
    Serves (readEA ea sz) s ((eaStep ea sz (s.after (eaWords ea))).operand (eaLoc ea sz s) sz)
      (eaStep ea sz (s.after (eaWords ea))) :=
  (resolveEA_serves h ea sz).bind (readLoc_serves ((h.after _).eaStep ea sz).1 ha)

/-- The discarded read where the bus serves. -/
theorem discardRead_serves {s : State} (h : s.BusServes) {loc : Loc} {sz : Size} (ha : loc.Accessible sz) :
    Serves (discardRead loc sz) s () s := by
  cases loc with
  | mem a fc lf => exact (memRead_serves h ha).bind (.pure _ _)
  | _ => exact .pure _ _

/-- The immediate of an immediate instruction, where the bus serves. -/
theorem readImm_serves {s : State} (h : s.Ready) (v : Imm) (sz : Size) :
    Serves (readImm v sz) s (immValue v sz) (s.after (immWordCount v)) :=
  (fetchWords_serves h _).bind (.pure _ _)

/-! ## The stack -/

@[simp] theorem State.fcData_setSp (s : State) (v : Long) : (s.setSp v).fcData = s.fcData := by
  simp [State.fcData]

@[simp] theorem State.setSp_setSp (s : State) (v w : Long) : (s.setSp v).setSp w = s.setSp w := by
  simp only [State.setSp]; split <;> simp_all

theorem State.BusServes.setSp {s : State} (h : s.BusServes) (v : Long) : (s.setSp v).BusServes := h.congr (by simp)

theorem EvenAddr.sub {a : Long} (h : EvenAddr a) {k : Nat} (hk : k % 2 = 0) : EvenAddr (a - BitVec.ofNat 32 k) := by
  have h2 : a.toNat % 2 = 0 := h.toNat
  unfold EvenAddr; rw [BitVec.getLsbD, Nat.testBit_zero, BitVec.toNat_sub, BitVec.toNat_ofNat]
  simp; omega

theorem EvenAddr.add {a : Long} (h : EvenAddr a) {k : Nat} (hk : k % 2 = 0) : EvenAddr (a + BitVec.ofNat 32 k) := by
  have h2 : a.toNat % 2 = 0 := h.toNat
  unfold EvenAddr; rw [BitVec.getLsbD, Nat.testBit_zero, BitVec.toNat_add, BitVec.toNat_ofNat]
  simp; omega

/-- `Push32` where the bus serves and the stack pointer is even. -/
theorem push32_serves {s : State} (h : s.BusServes) (he : EvenAddr s.sp) (v : Long) :
    ServesStoring (push32 v) s () (s.setSp (s.sp - 4)) (.mem (s.sp - 4) s.fcData true) .l v := by
  obtain ⟨m, h1, h2⟩ := memWrite_serves (h.setSp (s.sp - 4)) (fc := s.fcData) (.inr (he.sub (k := 4) rfl)) true v
  refine ⟨m, ?_, h2⟩
  unfold push32
  refine (Serves.modify fun l => State.setSp_with_bus s l _).bind (.get ?_)
  rw [State.fcData_setSp, State.sp_setSp]; exact h1

/-- `Pop32` where the bus serves and the stack pointer is even. -/
theorem pop32_serves {s : State} (h : s.BusServes) (he : EvenAddr s.sp) :
    Serves pop32 s (s.peekLong s.fcData s.sp) (s.setSp (s.sp + 4)) := by
  unfold pop32
  exact .get ((memRead_serves h (.inr he)).bind ((Serves.modify fun l => State.setSp_with_bus s l _).bind (.pure _ _)))

/-- `Pop16` where the bus serves and the stack pointer is even. -/
theorem pop16_serves {s : State} (h : s.BusServes) (he : EvenAddr s.sp) :
    Serves pop16 s (s.peekWord s.fcData s.sp) (s.setSp (s.sp + 2)) := by
  unfold pop16
  have e : lowWord (s.peek s.fcData s.sp .w) = s.peekWord s.fcData s.sp := lowWord_ofWord _
  exact .get ((memRead_serves h (.inr he)).bind
    ((Serves.modify fun l => State.setSp_with_bus s l _).bind (e ▸ .pure _ _)))

end Sys2Proof.Machine
end

