-- ==== Sys2Proof/Laws/Exceptions.lean ====
section
/-! SUPPORT. What taking an exception (R405), returning from one (R368) and the reset exception (R470) do where the
bus serves, once for each. -/

namespace Sys2Proof.Machine

set_option Elab.async false

/-- Words at two offsets that do not overlap share no byte. -/
theorem State.word_apart {s : State} (hmap : s.platform.map = []) (fc : FuncCode) (a : Long) {j k : Nat} (hj : j + 1 < 16777216)
    (hk : k + 1 < 16777216) (h : j + 2 ≤ k ∨ k + 2 ≤ j) :
    ∀ i ∈ s.bytesAt fc (a + BitVec.ofNat 32 j) .w, i ∉ s.bytesAt fc (a + BitVec.ofNat 32 k) .w := by
  have e (n : Nat) : a + BitVec.ofNat 32 n + 1 = a + BitVec.ofNat 32 (n + 1) := by
    rw [BitVec.add_assoc, BitVec.ofNat_add]; rfl
  have key {m n : Nat} (hm : m < 16777216) (hn : n < 16777216) (h : m ≠ n) := State.location_add_ne hmap fc a hm hn h
  simp only [State.bytesAt, List.mem_cons, List.not_mem_nil, or_false, not_or, e]
  rintro i (rfl | rfl)
  · exact ⟨key (by omega) (by omega) (by omega), key (by omega) (by omega) (by omega)⟩
  · exact ⟨key (by omega) (by omega) (by omega), key (by omega) (by omega) (by omega)⟩

/-- Where the vector number comes from, when the acknowledge cycle ends at its first run: only `nmiPending` and the
list of cycles can change. -/
theorem number_internal (v : Byte) (s : State) : Serves (VectorSource.internal v).number s v s := .pure _ _

theorem number_vector (lvl : BitVec 3) (n : Byte) {s : State} (h : s.turns = []) :
    Serves (VectorSource.interrupt lvl (.vector n)).number s n
      { s with nmiPending := if lvl = 7 then false else s.nmiPending } := by
  intro l
  have e : (BitVec.setWidth 16 n).extractLsb' 0 8 = n := by
    ext i hi; simp; rw [BitVec.getLsbD_eq_getElem hi]; simp; omega
  show ∃ log, interruptAcknowledge lvl (.vector n) _ = _
  unfold interruptAcknowledge
  simp only [IackAnswer.onBus]
  rw [runCycle_nil _ _ _ _ _ (by decide) h]
  simp only [IackAnswer.word, e]
  exact ⟨_, rfl⟩

theorem number_autovector (lvl : BitVec 3) {s : State} (h : s.turns = []) :
    Serves (VectorSource.interrupt lvl .autovector).number s (24 + lvl.setWidth 8)
      { s with nmiPending := if lvl = 7 then false else s.nmiPending } := by
  intro l
  show ∃ log, interruptAcknowledge lvl .autovector _ = _
  unfold interruptAcknowledge
  simp only
  rw [runCycle_nil _ _ _ _ _ (by decide) h]
  exact ⟨_, rfl⟩

theorem number_spurious (lvl : BitVec 3) {s : State} (h : s.turns = []) :
    Serves (VectorSource.interrupt lvl .busError).number s 24
      { s with nmiPending := if lvl = 7 then false else s.nmiPending } := by
  intro l
  show ∃ log, interruptAcknowledge lvl .busError _ = _
  unfold interruptAcknowledge
  simp only
  rw [runCycle_nil _ _ _ _ _ (by decide) h]
  exact ⟨_, rfl⟩

/-- The three words of a frame, written in the order of R405, read back. -/
theorem frame_poked {s : State} (hm : s.platform.map = []) (b : Long) (sr : Word) (pcs : Long) :
    let t := ((s.pokeWord .superData (b + 4) (lowWord pcs)).pokeWord .superData b sr).pokeWord .superData (b + 2)
      (highWord pcs)
    t.peekWord .superData b = sr ∧ t.peekLong .superData (b + 2) = pcs
      ∧ ∀ n, n ∉ s.bytesAt .superData b .w ++ s.bytesAt .superData (b + 2) .l →
          Memory.read t.mem n = Memory.read s.mem n := by
  intro t
  have apart {u : State} (hu : u.platform.map = []) {j k : Nat} (hj : j + 1 < 16777216) (hk : k + 1 < 16777216) (h : j + 2 ≤ k ∨ k + 2 ≤ j) :=
    State.word_apart hu .superData b hj hk h
  have e0 : b + BitVec.ofNat 32 0 = b := by simp
  have e2 : b + 2 + 2 = b + 4 := by rw [BitVec.add_assoc]; rfl
  have e21 : b + 2 + 1 = b + 3 := by rw [BitVec.add_assoc]; rfl
  have e23 : b + 2 + 3 = b + 5 := by rw [BitVec.add_assoc]; rfl
  have e41 : b + 4 + 1 = b + 5 := by rw [BitVec.add_assoc]; rfl
  have a20 {u : State} (hu : u.platform.map = []) : ∀ i ∈ u.bytesAt .superData (b + 2) .w, i ∉ u.bytesAt .superData b .w := by
    have := apart hu (j := 2) (k := 0) (by omega) (by omega) (by omega)
    rw [e0] at this; exact this
  have a24 {u : State} (hu : u.platform.map = []) : ∀ i ∈ u.bytesAt .superData (b + 2) .w, i ∉ u.bytesAt .superData (b + 4) .w :=
    apart hu (j := 2) (k := 4) (by omega) (by omega) (by omega)
  have a04 {u : State} (hu : u.platform.map = []) : ∀ i ∈ u.bytesAt .superData b .w, i ∉ u.bytesAt .superData (b + 4) .w := by
    have := apart hu (j := 0) (k := 4) (by omega) (by omega) (by omega)
    rw [e0] at this; exact this
  let s1 : State := s.pokeWord .superData (b + 4) (lowWord pcs)
  let s2 : State := s1.pokeWord .superData b sr
  have h1 : s1.platform.map = [] := hm
  have h2 : s2.platform.map = [] := hm
  refine ⟨?_, ?_, ?_⟩
  · show (s2.pokeWord _ _ _).peekWord _ _ = _
    rw [State.peekWord_pokeWord_other h2 _ _ (a20 h2), State.peekWord_pokeWord_same h1]
  · show (s2.pokeWord _ _ _).peekLong _ _ = _
    rw [State.peekLong, State.peekWord_pokeWord_same h2, e2, State.peekWord_pokeWord_other h2 _ _ (a24 h2),
      State.peekWord_pokeWord_other h1 _ _ (a04 h1), State.peekWord_pokeWord_same hm, highWord_append_lowWord]
  · intro n hn
    have hl (u : State) (c : Long) (w : Word) (a : Long) :
        (u.pokeWord .superData c w).location .superData a = u.location .superData a :=
      State.location_congr (State.pokeWord_platform u .superData c w) .superData a
    simp only [State.bytesAt, List.cons_append, List.nil_append, List.mem_cons, List.not_mem_nil, or_false, not_or,
      e21, e2, e23] at hn
    show Memory.read (s2.pokeWord _ _ _).mem n = _
    rw [State.read_pokeWord h2, State.read_pokeWord h1, State.read_pokeWord hm]
    simp only [s1, s2, hl, e21, e41]
    rw [if_neg hn.2.2.2.1, if_neg hn.2.2.1, if_neg hn.2.1, if_neg hn.1, if_neg hn.2.2.2.2.2, if_neg hn.2.2.2.2.1]

/-- A state whose memory holds the three words of a frame at its supervisor stack pointer is framed. -/
theorem framed_of_poked {s t : State} (hm : s.platform.map = []) {b : Long} {sr : StatusReg} {pcs : Long}
    {m1 m2 : Memory} (hb : t.ssp = b) (hp : t.platform = s.platform)
    (h1 : m1 = (s.pokeWord .superData (b + 4) (lowWord pcs)).mem)
    (h2 : m2 = (({ s with mem := m1 } : State).pokeWord .superData b sr.toWord).mem)
    (h3 : t.mem = (({ s with mem := m2 } : State).pokeWord .superData (b + 2) (highWord pcs)).mem) :
    Framed s t sr pcs := by
  have h := frame_poked hm b sr.toWord pcs
  simp only at h
  rw [State.pokeWord_eq s, ← h1, State.pokeWord_eq { s with mem := m1 }, ← h2] at h
  generalize hu : ({ s with mem := m2 } : State).pokeWord .superData (b + 2) (highWord pcs) = u at h h3
  have hup : u.platform = s.platform := by rw [← hu]; simp
  obtain ⟨f1, f2, f3⟩ := h
  unfold Framed
  rw [hb]
  have hp' := hp.trans hup.symm
  exact ⟨(State.peekWord_congr h3 hp' _ _).trans f1, (State.peekLong_congr h3 hp' _ _).trans f2,
    fun n hn => (congrArg (Memory.read · n) h3).trans (f3 n hn)⟩

theorem vectorFetch_serves {s : State} (h : s.BusServes) (v : Byte) : Serves (vectorFetch v) s (s.vector v) s := by
  have ev : EvenAddr (4#32 * v.setWidth 32) := by
    unfold EvenAddr; rw [BitVec.getLsbD, Nat.testBit_zero, BitVec.toNat_mul]; simp; omega
  exact memRead_serves h (sz := .l) (.inr ev)

/-- The exception procedure (R405) where the bus serves, the supervisor stack pointer is even and the vector
number comes from `number` as said. -/
theorem takeException_serves {s : State} (h : s.BusServes) (he : EvenAddr s.ssp) (g : ExcGroup) (src : VectorSource)
    (pcs : Long) {v : Byte} {nmi : Bool → Bool}
    (hn : ∀ u : State, u.turns = [] → Serves src.number u v { u with nmiPending := nmi u.nmiPending }) :
    ∃ t, Serves (takeException g src pcs) s () t ∧ Framed s t s.sr pcs
      ∧ t = { s with
          sr := src.enter s.sr
          ssp := s.ssp - 6
          pc := t.vector v
          pstate := .normal
          nmiPending := nmi s.nmiPending
          mem := t.mem } := by
  obtain ⟨b, hb⟩ : ∃ b, s.ssp = b + 6 := ⟨s.ssp - 6, by simp⟩
  have e6 : s.ssp - 6 = b := by rw [hb]; simp
  have e4 : s.ssp - 4 = b + 2 := by rw [hb, BitVec.sub_eq_iff_eq_add, BitVec.add_assoc]; rfl
  have e2 : s.ssp - 2 = b + 4 := by rw [hb, BitVec.sub_eq_iff_eq_add, BitVec.add_assoc]; rfl
  have eb : EvenAddr b := by rw [← e6]; exact he.sub (k := 6) rfl
  have eb2 : EvenAddr (b + 2) := eb.add (k := 2) rfl
  have eb4 : EvenAddr (b + 4) := eb.add (k := 4) rfl
  obtain ⟨m1, hm1⟩ : ∃ m, m = (s.pokeWord .superData (b + 4) (lowWord pcs)).mem := ⟨_, rfl⟩
  obtain ⟨m2, hm2⟩ : ∃ m, m = (({ s with mem := m1 } : State).pokeWord .superData b s.sr.toWord).mem := ⟨_, rfl⟩
  obtain ⟨m3, hm3⟩ : ∃ m, m = (({ s with mem := m2 } : State).pokeWord .superData (b + 2) (highWord pcs)).mem :=
    ⟨_, rfl⟩
  let at_ (sp : Long) (nmi : Bool) (m : Memory) : State :=
    { s with pstate := .exception g, sr := src.enter s.sr, ssp := sp, nmiPending := nmi, mem := m }
  have hs (sp : Long) (nmi : Bool) (m : Memory) : (at_ sp nmi m).BusServes := h.congr rfl rfl
  have write {sp : Long} {nmi : Bool} {m m' : Memory} {a : Long} {w : Word} (ha : EvenAddr a)
      (hm : m' = (({ s with mem := m } : State).pokeWord .superData a w).mem) :
      Serves (memWrite .superData a .w false (ofWord w)) (at_ sp nmi m) () (at_ sp nmi m') := by
    refine Serves.to (memWriteWord_serves (hs sp nmi m) ha w) ?_
    have e : ((at_ sp nmi m).pokeWord .superData a w).mem = m' :=
      (State.pokeWord_mem_congr (s := { s with mem := m }) rfl rfl _ _ _).trans hm.symm
    rw [State.pokeWord_eq, e]
  let t : State := { s with
    sr := src.enter s.sr, ssp := b, pstate := .normal, nmiPending := nmi s.nmiPending, mem := m3
    pc := (at_ b (nmi s.nmiPending) m3).vector v }
  have ht : t.vector v = (at_ b (nmi s.nmiPending) m3).vector v := State.peekLong_congr rfl rfl _ _
  refine ⟨t, ?_, ?_, ?_⟩
  · unfold takeException
    refine .get (Serves.bind (t := at_ s.ssp s.nmiPending s.mem) .modify (.get ?_))
    show Serves (memWrite .superData (s.ssp - 2) .w false (ofWord (lowWord pcs)) >>= fun _ => src.number >>= fun v =>
      memWrite .superData (s.ssp - 6) .w false (ofWord s.sr.toWord) >>= fun _ =>
      memWrite .superData (s.ssp - 4) .w false (ofWord (highWord pcs)) >>= fun _ => _) _ () _
    rw [e2, e4, e6]
    have hn' : Serves src.number (at_ s.ssp s.nmiPending m1) v (at_ s.ssp (nmi s.nmiPending) m1) := hn _ h.turns
    have hm : Serves (modify fun s : State => { s with ssp := b }) (at_ s.ssp (nmi s.nmiPending) m3) ()
        (at_ b (nmi s.nmiPending) m3) := .modify
    have hv : Serves (vectorFetch v >>= fun pc => modify fun s : State => { s with pc := pc, pstate := .normal })
        (at_ b (nmi s.nmiPending) m3) () t := (vectorFetch_serves (hs _ _ _) v).bind .modify
    exact (write eb4 hm1).bind (hn'.bind ((write eb hm2).bind ((write eb2 hm3).bind (hm.bind hv))))
  · exact framed_of_poked h.map (b := b) rfl rfl hm1 hm2 hm3
  · rw [ht, e6]

/-- The state an internal exception leaves (R405), as `TookException` says it. -/
theorem takeException_internal {s : State} (h : s.BusServes) (he : EvenAddr s.ssp) (g : ExcGroup) (v : Byte)
    (pcs : Long) : ∃ t, takeException g (.internal v) pcs s = .ok () t ∧ TookException s t v pcs s.tracePending := by
  obtain ⟨t, h1, h2, h3⟩ := takeException_serves h he g (.internal v) pcs (v := v) (nmi := id)
    (fun u _ => number_internal v u)
  obtain ⟨log, hl⟩ := h1.run
  exact ⟨_, hl, h2, congrArg (fun u : State => { u with bus := log }) h3⟩

/-- RTE's restoring where the bus serves. -/
theorem returnFromException_serves {s : State} (h : s.BusServes) (he : EvenAddr s.ssp) :
    Serves returnFromException s ()
      { s with
        ssp := s.ssp + 6
        sr := StatusReg.ofWord (s.peekWord .superData s.ssp)
        pc := s.peekLong .superData (s.ssp + 2) } := by
  unfold returnFromException
  have e : lowWord (s.peek .superData s.ssp .w) = s.peekWord .superData s.ssp := lowWord_ofWord _
  refine .get ((memRead_serves h (.inr he)).bind ((memRead_serves h (.inr he.add_two)).bind (Serves.to .modify ?_)))
  rw [e]; rfl

/-- The reset exception where the bus serves (R470). -/
theorem resetException_serves {s : State} (h : s.BusServes) :
    Serves resetException s ()
      { s with
        sr := { s.sr with s := true, t := false, i := 7 }
        ssp := s.peekLong .superProgram 0
        pc := s.peekLong .superProgram 4
        pstate := .normal
        g0Active := true
        tracePending := false
        nmiPending := (Config.freeLong s.freeCount).getLsbD 0
        freeCount := s.freeCount + 1 } := by
  unfold resetException
  let s0 : State := { s with
    pstate := .exception .group0
    g0Active := true
    tracePending := false
    sr := { s.sr with s := true, t := false, i := 7 } }
  let s1 : State := { s0 with
    freeCount := s.freeCount + 1
    nmiPending := (Config.freeLong s.freeCount).getLsbD 0 }
  let s2 : State := { s1 with ssp := s.peekLong .superProgram 0 }
  have h1 : s1.BusServes := h.congr rfl
  have h2 : s2.BusServes := h.congr rfl
  refine Serves.bind (t := s0) .modify ((Serves.draw s0).bind (Serves.bind (t := s1) .modify ?_))
  refine (memRead_serves h1 (.inr (by unfold EvenAddr; rfl))).bind (Serves.bind (t := s2) .modify ?_)
  exact (memRead_serves h2 (.inr (by unfold EvenAddr; rfl))).bind .modify

end Sys2Proof.Machine
end

