-- ==== Sys2Proof/Laws/Environment.lean ====
section
/-! SUPPORT. What an action depends on of the platform: the answers and the places of the cycles it makes, and nothing
else. A rule that is built from the shared operations depends on what each of them depends on. -/

namespace Sys2Proof.Machine

set_option Elab.async false

/-- What another platform treats alike depends on the platforms alone. -/
theorem State.TreatsAlike.congr {s t : State} {p : Platform} {c : BusCycle} (h : s.TreatsAlike p c)
    (hp : t.platform = s.platform) : t.TreatsAlike p c := by
  unfold State.TreatsAlike State.answer State.place State.location at *
  simp only [hp]; exact h

/-- A state on another platform. -/
def State.on (s : State) (p : Platform) : State := { s with platform := p }

@[simp] theorem State.on_platform (s : State) (p : Platform) : (s.on p).platform = p := rfl
@[simp] theorem State.on_bus (s : State) (p : Platform) : (s.on p).bus = s.bus := rfl
@[simp] theorem State.on_turns (s : State) (p : Platform) : (s.on p).turns = s.turns := rfl
@[simp] theorem State.on_mem (s : State) (p : Platform) : (s.on p).mem = s.mem := rfl
@[simp] theorem State.on_freeCount (s : State) (p : Platform) : (s.on p).freeCount = s.freeCount := rfl
@[simp] theorem State.on_g0Active (s : State) (p : Platform) : (s.on p).g0Active = s.g0Active := rfl
@[simp] theorem State.logCycle_on (s : State) (p : Platform) (k : CycleKind) (fc : FuncCode) (a : Long) (isWord : Bool)
    (data : Option Word) (ans : BusAnswer) :
    (s.on p).logCycle k fc a isWord data ans = (s.logCycle k fc a isWord data ans).on p := rfl

/-- An action, from a state, ends alike on every platform that treats alike the cycles it made; an action that waits for
ever has no end to compare. -/
def LocalAt {α : Type} (x : M α) (s : State) : Prop :=
  match x s with
  | .ok a t => t.platform = s.platform ∧ ∃ cycles, t.bus = s.bus ++ cycles ∧
      ∀ p, (∀ c ∈ cycles, s.TreatsAlike p c) → x (s.on p) = .ok a (t.on p)
  | .error e t => e = .hang ∨ t.platform = s.platform ∧ ∃ cycles, t.bus = s.bus ++ cycles ∧
      ∀ p, (∀ c ∈ cycles, s.TreatsAlike p c) → x (s.on p) = .error e (t.on p)

/-- The same from every state. -/
def Local {α : Type} (x : M α) : Prop := ∀ s, LocalAt x s

theorem Local.pure {α : Type} (a : α) : Local (Pure.pure a : M α) :=
  fun _ => ⟨rfl, [], by simp, fun _ _ => rfl⟩

theorem Local.bind {α β : Type} {x : M α} {f : α → M β} (hx : Local x) (hf : ∀ a, Local (f a)) : Local (x >>= f) := by
  intro s
  have h1 := hx s
  unfold LocalAt at *
  rw [bind_run]
  cases e1 : x s with
  | error e t =>
    rw [e1] at h1
    rcases h1 with h1 | ⟨h1, cs, h2, h3⟩
    · exact .inl h1
    · exact .inr ⟨h1, cs, h2, fun p hp => by rw [bind_run, h3 p hp]⟩
  | ok a t =>
    rw [e1] at h1
    obtain ⟨h1, cs, h2, h3⟩ := h1
    have hg := hf a t
    unfold LocalAt at hg
    simp only
    cases e2 : f a t with
    | ok b u =>
      rw [e2] at hg
      obtain ⟨g1, cs', g2, g3⟩ := hg
      refine ⟨g1.trans h1, cs ++ cs', by rw [g2, h2, List.append_assoc], fun p hp => ?_⟩
      rw [bind_run, h3 p fun c hc => hp c (List.mem_append_left _ hc)]
      exact g3 p fun c hc => (hp c (List.mem_append_right _ hc)).congr h1
    | error e u =>
      rw [e2] at hg
      rcases hg with hg | ⟨g1, cs', g2, g3⟩
      · exact .inl hg
      refine .inr ⟨g1.trans h1, cs ++ cs', by rw [g2, h2, List.append_assoc], fun p hp => ?_⟩
      rw [bind_run, h3 p fun c hc => hp c (List.mem_append_left _ hc)]
      exact g3 p fun c hc => (hp c (List.mem_append_right _ hc)).congr h1

/-- A rule reads the state: what it goes on with does not look at the platform. -/
theorem Local.get_bind {β : Type} {f : State → M β} (hf : ∀ s, Local (f s))
    (hp : ∀ s p, f (s.on p) = f s := by intros; rfl) : Local ((MonadState.get : M State) >>= f) := by
  intro s
  have h := hf s s
  unfold LocalAt at *
  rw [get_bind_run]
  cases e : f s s with
  | ok a t =>
    rw [e] at h
    obtain ⟨h1, cs, h2, h3⟩ := h
    exact ⟨h1, cs, h2, fun p hc => by rw [get_bind_run, hp]; exact h3 p hc⟩
  | error er t =>
    rw [e] at h
    rcases h with h | ⟨h1, cs, h2, h3⟩
    · exact .inl h
    · exact .inr ⟨h1, cs, h2, fun p hc => by rw [get_bind_run, hp]; exact h3 p hc⟩

/-- A rule changes the state: the change neither looks at the platform nor touches it or the list of cycles. -/
theorem Local.modify {f : State → State} (h1 : ∀ s, (f s).platform = s.platform := by intros; first | rfl | simp)
    (h2 : ∀ s, (f s).bus = s.bus := by intros; first | rfl | simp)
    (h3 : ∀ s p, f (s.on p) = (f s).on p := by intros; first | rfl | simp) :
    Local (modify f : M PUnit) :=
  fun s => ⟨h1 s, [], by simp [h2], fun p _ => by rw [modify_run, h3]⟩

theorem Local.ite {α : Type} {c : Prop} [Decidable c] {x y : M α} (hx : Local x) (hy : Local y) :
    Local (if c then x else y) := by
  split <;> assumption

theorem drawFree_local : Local drawFree := fun _ => ⟨rfl, [], by simp, fun _ _ => rfl⟩

/-! ## Updates under another platform -/

@[simp] theorem State.setSp_on (s : State) (p : Platform) (v : Long) :
    (s.on p).setSp v = (s.setSp v).on p := by
  unfold State.setSp State.on; split <;> rfl

@[simp] theorem State.writeA_on (s : State) (p : Platform) (n : RegNo) (v : Long) :
    (s.on p).writeA n v = (s.writeA n v).on p := by
  unfold State.writeA State.setSp State.on; split <;> (try split) <;> rfl

@[simp] theorem State.readA_on (s : State) (p : Platform) (n : RegNo) :
    (s.on p).readA n = s.readA n := rfl

@[simp] theorem State.readD_on (s : State) (p : Platform) (n : RegNo) :
    (s.on p).readD n = s.readD n := rfl

@[simp] theorem State.sp_on (s : State) (p : Platform) : (s.on p).sp = s.sp := rfl

@[simp] theorem eaStep_on (ea : EA) (sz : Size) (s : State) (p : Platform) :
    eaStep ea sz (s.on p) = (eaStep ea sz s).on p := by
  cases ea <;> simp [eaStep]

@[simp] theorem eaLoc_on (ea : EA) (sz : Size) (s : State) (p : Platform) :
    eaLoc ea sz (s.on p) = eaLoc ea sz s := rfl

/-! ## One bus cycle -/

theorem busAddr_setWidth (a : Long) : busAddr ((busAddr a).setWidth 32) = busAddr a := by
  apply BitVec.eq_of_toNat_eq
  rw [busAddr_toNat, BitVec.toNat_setWidth, busAddr_toNat]; omega

theorem busAddr_setWidth_add (a : Long) : busAddr ((busAddr a).setWidth 32 + 1) = busAddr (a + 1) := by
  apply BitVec.eq_of_toNat_eq
  rw [busAddr_toNat, busAddr_toNat, BitVec.toNat_add, BitVec.toNat_add, BitVec.toNat_setWidth, busAddr_toNat]
  have : (1#32).toNat = 1 := rfl
  omega

/-- Two platforms agree on a byte's place and location. -/
def SamePlace (s : State) (p : Platform) (fc : FuncCode) (a : Long) : Prop :=
  (s.on p).place fc a = s.place fc a ∧ (s.on p).location fc a = s.location fc a

/-- What treating a cycle alike says in terms of the 32-bit address the cycle was made with. -/
theorem State.TreatsAlike.spread {s : State} {p : Platform} {kind : CycleKind} {fc : FuncCode} {a : Long} {isWord : Bool}
    {data : DataLines} {ans : BusAnswer} (h : s.TreatsAlike p ⟨kind, fc, busAddr a, isWord, data, ans⟩) :
    (s.on p).answer fc kind.dir a = s.answer fc kind.dir a ∧ SamePlace s p fc a
      ∧ (isWord = true → SamePlace s p fc (a + 1)) := by
  obtain ⟨h1, h2⟩ := h
  have e := busAddr_setWidth a
  have e' := busAddr_setWidth_add a
  unfold SamePlace State.answer State.place State.location at *
  simp only [e] at h1 h2
  refine ⟨h1, ?_, fun hw => ?_⟩
  · have := h2 _ List.mem_cons_self
    rw [e] at this; exact this
  · have := h2 _ (List.mem_cons_of_mem _ List.mem_cons_self)
    rw [hw, if_pos rfl, e'] at this; exact this

theorem SamePlace.congr {s t : State} {p : Platform} {fc : FuncCode} {a : Long} (h : SamePlace s p fc a)
    (hp : t.platform = s.platform) : SamePlace t p fc a := by
  unfold SamePlace State.place State.location at *
  simp only [hp]; exact h

theorem State.peekByte_on {s : State} {p : Platform} {fc : FuncCode} {a : Long} (h : SamePlace s p fc a) :
    (s.on p).peekByte fc a = s.peekByte fc a := by
  unfold State.peekByte; rw [h.2]; rfl

theorem State.pokeByte_on {s : State} {p : Platform} {fc : FuncCode} {a : Long} (h : SamePlace s p fc a)
    (b : Byte) : (s.on p).pokeByte fc a b = (s.pokeByte fc a b).on p := by
  unfold State.pokeByte State.memAfter; rw [h.1, h.2]; rfl

theorem State.pokeCycle_on {s : State} {p : Platform} {fc : FuncCode} {a : Long} {isWord : Bool}
    (h : SamePlace s p fc a) (h1 : isWord = true → SamePlace s p fc (a + 1)) (v : Word) :
    (s.on p).pokeCycle fc a isWord v = (s.pokeCycle fc a isWord v).on p := by
  unfold State.pokeCycle
  cases isWord
  · exact State.pokeByte_on h _
  · simp only [if_true, State.pokeWord]
    rw [State.pokeByte_on h]
    exact State.pokeByte_on (s := s.pokeByte fc a (v.extractLsb' 8 8)) ((h1 rfl).congr rfl) _

theorem State.pokeFailed_on {s : State} {p : Platform} {fc : FuncCode} {a : Long} {isWord : Bool}
    (h : SamePlace s p fc a) (h1 : isWord = true → SamePlace s p fc (a + 1)) (v : Word) :
    (s.on p).pokeFailed fc a isWord v = (s.pokeFailed fc a isWord v).on p := by
  have each (u : State) (hu : u.platform = s.platform) (f : Long) :
      (if isWord then
        let t := if f.getLsbD 1 then (u.on p).pokeByte fc a (v.extractLsb' 8 8) else u.on p
        if f.getLsbD 0 then t.pokeByte fc (a + 1) (v.extractLsb' 0 8) else t
      else if f.getLsbD 0 then (u.on p).pokeByte fc a (v.extractLsb' 0 8) else u.on p) =
      (if isWord then
        let t := if f.getLsbD 1 then u.pokeByte fc a (v.extractLsb' 8 8) else u
        if f.getLsbD 0 then t.pokeByte fc (a + 1) (v.extractLsb' 0 8) else t
      else if f.getLsbD 0 then u.pokeByte fc a (v.extractLsb' 0 8) else u).on p := by
    have e (b : Byte) : (u.on p).pokeByte fc a b = (u.pokeByte fc a b).on p := State.pokeByte_on (h.congr hu) b
    cases isWord
    · cases f.getLsbD 0 <;> simp [e]
    · have e1 (b : Byte) : (u.on p).pokeByte fc (a + 1) b = (u.pokeByte fc (a + 1) b).on p :=
        State.pokeByte_on ((h1 rfl).congr hu) b
      have e2 (b b' : Byte) : ((u.pokeByte fc a b).on p).pokeByte fc (a + 1) b' =
          ((u.pokeByte fc a b).pokeByte fc (a + 1) b').on p :=
        State.pokeByte_on (s := u.pokeByte fc a b) ((h1 rfl).congr hu) b'
      cases f.getLsbD 0 <;> cases f.getLsbD 1 <;>
        simp only [if_true, if_false, Bool.false_eq_true, e, e1, e2]
  exact each { s with freeCount := s.freeCount + 1 } rfl (Config.freeLong s.freeCount)

theorem State.fetched_on {s : State} {p : Platform} {fc : FuncCode} {a : Long} {isWord : Bool} (h : SamePlace s p fc a)
    (h1 : isWord = true → SamePlace s p fc (a + 1)) (w : Word) :
    (s.on p).fetched fc a isWord w = s.fetched fc a isWord w := by
  unfold State.fetched State.fetchedByte
  cases isWord
  · simp only [Bool.false_eq_true, if_false]; rw [h.1, State.peekByte_on h]
  · simp only [if_true]; rw [h.1, State.peekByte_on h, (h1 rfl).1, State.peekByte_on (h1 rfl)]

theorem State.reachesDevice_on {s : State} {p : Platform} {fc : FuncCode} {a : Long} {isWord : Bool}
    (h : SamePlace s p fc a) (h1 : isWord = true → SamePlace s p fc (a + 1)) :
    (s.on p).reachesDevice fc a isWord = s.reachesDevice fc a isWord := by
  unfold State.reachesDevice
  cases isWord
  · simp only [Bool.false_and]; rw [h.1]
  · rw [h.1, (h1 rfl).1]

theorem readDone_on {kind : CycleKind} {fc : FuncCode} {a : Long} {isWord : Bool} {e : CycleEnd} {p : Platform}
    (h : SamePlace e.state p fc a) (h1 : isWord = true → SamePlace e.state p fc (a + 1)) {v : Word} {t : State}
    (hr : readDone kind fc a isWord e = .ok v t) :
    readDone kind fc a isWord { e with state := e.state.on p } = .ok v (t.on p) := by
  obtain ⟨u, hu⟩ : ∃ u : State, u = { e.state with freeCount := e.state.freeCount + 1 } := ⟨_, rfl⟩
  have hup : u.platform = e.state.platform := by rw [hu]
  have eu : ({ e.state.on p with freeCount := (e.state.on p).freeCount + 1 } : State) = u.on p := by rw [hu]; rfl
  unfold readDone at *
  simp only [eu, ← hu, State.reachesDevice_on h h1, State.on_freeCount] at *
  rcases hs : e.supplied with _ | w <;> simp only [hs] at *
  · split at hr <;> rename_i hc
    · cases hr
      rw [if_pos hc, State.fetched_on (h.congr hup) fun hw => (h1 hw).congr hup]; rfl
    · cases hr
      rw [if_neg hc, State.fetched_on h h1]; rfl
  · cases hr
    rw [State.fetched_on h h1]; rfl

/-- The runs of a cycle before its last one: re-runs of it in the list, and nothing looked up on the platform. -/
theorem runCycle_local (kind : CycleKind) (fc : FuncCode) (a : Long) (isWord : Bool) (data : Option Word) (ans : BusAnswer)
    (ts : List BusTurn) (s : State) :
    let e := runCycle kind fc a isWord data ans ts s
    e.state.platform = s.platform ∧ (∃ cycles, e.state.bus = s.bus ++ cycles)
      ∧ ∀ p, runCycle kind fc a isWord data ans ts (s.on p) =
        { e with state := e.state.on p } := by
  induction ts generalizing s with
  | nil => exact ⟨rfl, ⟨[], by simp [runCycle]⟩, fun _ => rfl⟩
  | cons t ts ih =>
    obtain ⟨u, hu⟩ : ∃ u : State, u = { s with
      turns := ts, mem := if kind = .rmwWrite then s.mem else Memory.writeAll s.mem t.dma } := ⟨_, rfl⟩
    have hup : u.platform = s.platform ∧ u.bus = s.bus := by rw [hu]; exact ⟨rfl, rfl⟩
    have eu (p : Platform) : ({ s.on p with
        turns := ts, mem := if kind = .rmwWrite then (s.on p).mem else Memory.writeAll (s.on p).mem t.dma } : State) =
        u.on p := by rw [hu]; rfl
    by_cases hc : (t.answer.getD ans = .rerun && !kind.isRmw) = true
    · obtain ⟨h1, ⟨cs, h2⟩, h3⟩ := ih (u.logCycle kind fc a isWord data .rerun)
      have e0 : runCycle kind fc a isWord data ans (t :: ts) s =
          runCycle kind fc a isWord data ans ts (u.logCycle kind fc a isWord data .rerun) := by
        rw [runCycle]; simp only [← hu]; rw [if_pos hc]
      have e1 (p : Platform) : runCycle kind fc a isWord data ans (t :: ts) (s.on p) =
          runCycle kind fc a isWord data ans ts ((u.logCycle kind fc a isWord data .rerun).on p) := by
        rw [runCycle]; simp only [eu]; rw [if_pos hc]; rfl
      simp only [e0, e1]
      refine ⟨h1.trans hup.1, ⟨⟨kind, fc, busAddr a, isWord, dataLines kind a isWord data, .rerun⟩ :: cs, ?_⟩, h3⟩
      rw [h2]; unfold State.logCycle; rw [hup.2]; simp
    · have e0 : runCycle kind fc a isWord data ans (t :: ts) s = ⟨t.answer.getD ans, t.data, u⟩ := by
        rw [runCycle]; simp only [← hu]; rw [if_neg hc]
      have e1 (p : Platform) : runCycle kind fc a isWord data ans (t :: ts) (s.on p) =
          ⟨t.answer.getD ans, t.data, u.on p⟩ := by
        rw [runCycle]; simp only [eu]; rw [if_neg hc]
      simp only [e0, e1]
      exact ⟨hup.1, ⟨[], by simp [hup.2]⟩, fun _ => trivial⟩

theorem busRead_local {kind : CycleKind} (hk : kind.dir = .read) (fc : FuncCode) (a : Long) (isWord : Bool) :
    Local (busRead kind fc a isWord) := by
  intro s
  obtain ⟨h1, ⟨cs, h2⟩, h3⟩ := runCycle_local kind fc a isWord none (s.answer fc .read a) s.turns s
  unfold LocalAt busRead
  simp only [State.on_turns]
  generalize hr : runCycle kind fc a isWord none (s.answer fc .read a) s.turns s = e at h1 h2 h3
  have alike {p : Platform} {ans : BusAnswer} {d : DataLines}
      (hp : ∀ c ∈ cs ++ [BusCycle.mk kind fc (busAddr a) isWord d ans], s.TreatsAlike p c) :
      runCycle kind fc a isWord none ((s.on p).answer fc .read a) s.turns (s.on p) = { e with state := e.state.on p }
        ∧ SamePlace e.state p fc a ∧ (isWord = true → SamePlace e.state p fc (a + 1)) := by
    have hs := (hp _ (List.mem_append_right _ (List.mem_singleton.mpr rfl))).spread
    refine ⟨?_, hs.2.1.congr h1, fun hw => (hs.2.2 hw).congr h1⟩
    rw [← hk, hs.1, hk, h3 p]
  cases he : e.answer <;> simp only
  case never => exact .inl trivial
  case busError | rerun =>
    refine .inr ⟨h1, cs ++ [⟨kind, fc, busAddr a, isWord, dataLines kind a isWord none, e.answer⟩], ?_, fun p hp => ?_⟩
    · simp only [State.logCycle]; rw [h2, he, List.append_assoc]
    · rw [(alike hp).1]; simp only [he]; rfl
  case ok | vpa =>
    obtain ⟨v, n, l, hd⟩ := readDone_ok kind fc a isWord e
    have hl : l = e.state.bus ++ [⟨kind, fc, busAddr a, isWord, dataLines kind a isWord (some v), e.answer⟩] := by
      have h := hd
      unfold readDone at h
      simp only at h
      split at h
      · cases h; rfl
      · split at h <;> (cases h; rfl)
    rw [hd]
    refine ⟨h1, cs ++ [⟨kind, fc, busAddr a, isWord, dataLines kind a isWord (some v), e.answer⟩], by simp only [hl]; rw [h2, List.append_assoc],
      fun p hp => ?_⟩
    obtain ⟨g1, g2, g3⟩ := alike hp
    rw [g1]; simp only [he]
    have h := readDone_on g2 g3 hd
    rw [he] at h; exact h

theorem busWrite_local {kind : CycleKind} (hk : kind.dir = .write) (fc : FuncCode) (a : Long) (isWord : Bool) (v : Word) :
    Local (busWrite kind fc a isWord v) := by
  intro s
  obtain ⟨h1, ⟨cs, h2⟩, h3⟩ := runCycle_local kind fc a isWord (some v) (s.answer fc .write a) s.turns s
  unfold LocalAt busWrite
  simp only [State.on_turns]
  generalize hr : runCycle kind fc a isWord (some v) (s.answer fc .write a) s.turns s = e at h1 h2 h3
  have alike {p : Platform} {ans : BusAnswer} {d : DataLines}
      (hp : ∀ c ∈ cs ++ [BusCycle.mk kind fc (busAddr a) isWord d ans], s.TreatsAlike p c) :
      runCycle kind fc a isWord (some v) ((s.on p).answer fc .write a) s.turns (s.on p) = { e with state := e.state.on p }
        ∧ SamePlace e.state p fc a ∧ (isWord = true → SamePlace e.state p fc (a + 1)) := by
    have hs := (hp _ (List.mem_append_right _ (List.mem_singleton.mpr rfl))).spread
    refine ⟨?_, hs.2.1.congr h1, fun hw => (hs.2.2 hw).congr h1⟩
    rw [← hk, hs.1, hk, h3 p]
  have hpc : (e.state.pokeCycle fc a isWord v).platform = e.state.platform
      ∧ (e.state.pokeCycle fc a isWord v).bus = e.state.bus := by rw [State.pokeCycle_eq]; exact ⟨rfl, rfl⟩
  have hpf : (e.state.pokeFailed fc a isWord v).platform = e.state.platform
      ∧ (e.state.pokeFailed fc a isWord v).bus = e.state.bus := by
    obtain ⟨m', n', hpf⟩ := State.pokeFailed_eq e.state fc a isWord v
    rw [hpf]; exact ⟨rfl, rfl⟩
  have log {u : State} (ans : BusAnswer) (hu : u.bus = e.state.bus) : (u.logCycle kind fc a isWord (some v) ans).bus =
      s.bus ++ (cs ++ [⟨kind, fc, busAddr a, isWord, dataLines kind a isWord (some v), ans⟩]) := by
    unfold State.logCycle; simp only [hu]; rw [h2, List.append_assoc]
  cases he : e.answer <;> simp only
  case never => exact .inl trivial
  case busError | rerun =>
    refine .inr ⟨hpf.1.trans h1, _, log _ hpf.2, fun p hp => ?_⟩
    obtain ⟨g1, g2, g3⟩ := alike hp
    rw [g1]; simp only [he]
    rw [State.pokeFailed_on g2 g3]; rfl
  case ok | vpa =>
    refine ⟨hpc.1.trans h1, _, log _ hpc.2, fun p hp => ?_⟩
    obtain ⟨g1, g2, g3⟩ := alike hp
    rw [g1]; simp only [he]
    rw [State.pokeCycle_on g2 g3]; rfl

/-! ## Accesses and operands -/

theorem checkAligned_local (fc : FuncCode) (dir : Direction) (a : Long) (sz : Size) : Local (checkAligned fc dir a sz) := by
  intro s
  unfold LocalAt
  by_cases ha : Aligned sz a
  · rw [checkAligned_ok ha s]; exact ⟨rfl, [], by simp, fun p _ => checkAligned_ok ha _⟩
  · rw [checkAligned_odd ha s]; exact .inr ⟨rfl, [], by simp, fun p _ => checkAligned_odd ha _⟩

theorem memRead_local (fc : FuncCode) (a : Long) (sz : Size) : Local (memRead fc a sz) := by
  unfold memRead
  refine (checkAligned_local _ _ _ _).bind fun _ => ?_
  cases sz
  · exact (busRead_local rfl _ _ _).bind fun _ => .pure _
  · exact (busRead_local rfl _ _ _).bind fun _ => .pure _
  · exact (busRead_local rfl _ _ _).bind fun _ => (busRead_local rfl _ _ _).bind fun _ => .pure _

theorem memWrite_local (fc : FuncCode) (a : Long) (sz : Size) (lowFirst : Bool) (v : Long) :
    Local (memWrite fc a sz lowFirst v) := by
  unfold memWrite
  refine (checkAligned_local _ _ _ _).bind fun _ => ?_
  cases sz
  · exact busWrite_local rfl _ _ _ _
  · exact busWrite_local rfl _ _ _ _
  · cases lowFirst <;> exact (busWrite_local rfl _ _ _ _).bind fun _ => busWrite_local rfl _ _ _ _

theorem fetchWord_local : Local fetchWord :=
  .get_bind fun _ => (memRead_local _ _ _).bind fun _ => Local.bind .modify fun _ => .pure _

theorem fetchWords_local (k : Nat) : Local (fetchWords k) := by
  induction k with
  | zero => exact .pure _
  | succ k ih => exact fetchWord_local.bind fun _ => ih

theorem resolveEA_local (ea : EA) (sz : Size) : Local (resolveEA ea sz) :=
  .get_bind fun _ => (fetchWords_local _).bind fun _ => Local.bind .modify fun _ => .pure _

theorem readLoc_local (loc : Loc) (sz : Size) : Local (readLoc loc sz) := by
  cases loc with
  | mem a fc lf => exact memRead_local _ _ _
  | _ => first
    | exact .pure _
    | exact .get_bind fun _ => .pure _

theorem writeLoc_local (loc : Loc) (sz : Size) (v : Long) : Local (writeLoc loc sz v) := by
  cases loc with
  | mem a fc lf => exact memWrite_local _ _ _ _ _
  | imm v => exact .pure _
  | _ => exact .modify

theorem readEA_local (ea : EA) (sz : Size) : Local (readEA ea sz) :=
  (resolveEA_local _ _).bind fun _ => readLoc_local _ _

theorem discardRead_local (loc : Loc) (sz : Size) : Local (discardRead loc sz) := by
  cases loc with
  | mem a fc lf => exact (memRead_local _ _ _).bind fun _ => .pure _
  | _ => exact .pure _

theorem readImm_local (v : Imm) (sz : Size) : Local (readImm v sz) := (fetchWords_local _).bind fun _ => .pure _

theorem push32_local (v : Long) : Local (push32 v) :=
  Local.bind .modify fun _ => .get_bind fun _ => memWrite_local _ _ _ _ _

theorem pop16_local : Local pop16 :=
  .get_bind fun _ => (memRead_local _ _ _).bind fun _ => Local.bind .modify fun _ => .pure _

theorem pop32_local : Local pop32 :=
  .get_bind fun _ => (memRead_local _ _ _).bind fun _ => Local.bind .modify fun _ => .pure _

/-! ## Exceptions and the running of an instruction's rule -/

theorem takeException_local (g : ExcGroup) (v : Byte) (pcs : Long) : Local (takeException g (.internal v) pcs) :=
  .get_bind fun _ => Local.bind .modify fun _ => .get_bind fun _ => (memWrite_local _ _ _ _ _).bind fun _ =>
    (Local.pure v).bind fun _ => (memWrite_local _ _ _ _ _).bind fun _ => (memWrite_local _ _ _ _ _).bind fun _ =>
    Local.bind .modify fun _ => (memRead_local _ _ _).bind fun _ => .modify

theorem group0Frame_local (v : Byte) (acc : Access) (pc0 : Long) (hasOpw : Bool) :
    Local (group0Frame v acc pc0 hasOpw) :=
  .get_bind fun _ => Local.bind .modify fun _ => drawFree_local.bind fun _ => drawFree_local.bind fun _ =>
    drawFree_local.bind fun _ => (memWrite_local _ _ _ _ _).bind fun _ => (memWrite_local _ _ _ _ _).bind fun _ =>
    (memWrite_local _ _ _ _ _).bind fun _ => (memWrite_local _ _ _ _ _).bind fun _ =>
    (memWrite_local _ _ _ _ _).bind fun _ => (memWrite_local _ _ _ _ _).bind fun _ =>
    (memWrite_local _ _ _ _ _).bind fun _ => Local.bind .modify fun _ => (memRead_local _ _ _).bind fun _ => .modify

/-- An outcome that is a next state is the same on every platform that treats alike the cycles made since a state. -/
def OutLocal (f : State → Out) (s : State) : Prop :=
  ∀ t, f s = .next t → t.platform = s.platform ∧ ∃ cycles, t.bus = s.bus ++ cycles ∧
    ∀ p, (∀ c ∈ cycles, s.TreatsAlike p c) → f (s.on p) = .next (t.on p)

theorem enterGroup0_local (v : Byte) (acc : Access) (pc0 : Long) (hasOpw : Bool) (s : State) :
    OutLocal (enterGroup0 v acc pc0 hasOpw) s := by
  intro t ht
  have h := group0Frame_local v acc pc0 hasOpw s
  unfold LocalAt at h
  unfold enterGroup0 at *
  by_cases hg : s.g0Active = true
  · rw [if_pos hg] at ht; cases ht
    exact ⟨rfl, [], by simp [State.halt], fun p _ => by rw [if_pos (show (s.on p).g0Active = true from hg)]; rfl⟩
  · rw [if_neg hg] at ht
    cases e : group0Frame v acc pc0 hasOpw s with
    | ok a u =>
      rw [e] at h ht; cases ht
      obtain ⟨h1, cs, h2, h3⟩ := h
      exact ⟨h1, cs, h2, fun p hp => by
        rw [if_neg (show ¬(s.on p).g0Active = true from hg), h3 p hp]⟩
    | error er u =>
      rw [e] at h ht
      rcases h with rfl | ⟨h1, cs, h2, h3⟩
      · cases ht
      · cases er with
        | hang => cases ht
        | busError acc' => cases ht; exact ⟨h1, cs, h2, fun p hp => by
        rw [if_neg (show ¬(s.on p).g0Active = true from hg), h3 p hp]; rfl⟩
        | addressError acc' => cases ht; exact ⟨h1, cs, h2, fun p hp => by
        rw [if_neg (show ¬(s.on p).g0Active = true from hg), h3 p hp]; rfl⟩

theorem abandon_local (pc0 : Long) (hasOpw : Bool) (e : BusStop) (s : State) : OutLocal (abandon pc0 hasOpw e) s := by
  cases e with
  | busError acc => exact enterGroup0_local 2 acc pc0 hasOpw s
  | addressError acc => exact enterGroup0_local 3 acc pc0 hasOpw s
  | hang => intro t ht; cases ht

/-- One outcome after an action: where the action is local and so is what follows, so is the whole. -/
theorem OutLocal.after {s u t : State} {g : State → Out} {cs : List BusCycle} (hg : OutLocal g u)
    (h1 : u.platform = s.platform) (h2 : u.bus = s.bus ++ cs) (ht : g u = .next t) :
    t.platform = s.platform ∧ ∃ cycles, t.bus = s.bus ++ cycles ∧ (∀ c ∈ cs, c ∈ cycles) ∧
      ∀ p, (∀ c ∈ cycles, s.TreatsAlike p c) → g (u.on p) = .next (t.on p) := by
  obtain ⟨g1, cs', g2, g3⟩ := hg t ht
  exact ⟨g1.trans h1, cs ++ cs', by rw [g2, h2, List.append_assoc], fun c hc => List.mem_append_left _ hc,
    fun p hp => g3 p fun c hc => (hp c (List.mem_append_right _ hc)).congr h1⟩

theorem finish_local {x : M Unit} (hx : Local x) (pc0 : Long) (hasOpw : Bool) (s : State) :
    OutLocal (fun s => finish pc0 hasOpw (x s)) s := by
  intro t ht
  have h := hx s
  unfold LocalAt at h
  cases e : x s with
  | ok a u =>
    simp only [e] at h ht; cases ht
    obtain ⟨h1, cs, h2, h3⟩ := h
    exact ⟨h1, cs, h2, fun p hp => by simp only [h3 p hp]; rfl⟩
  | error er u =>
    simp only [e] at h ht
    rcases h with rfl | ⟨h1, cs, h2, h3⟩
    · cases ht
    · obtain ⟨g1, cs', g2, gc, g3⟩ := (abandon_local pc0 hasOpw er u).after h1 h2 ht
      exact ⟨g1, cs', g2, fun p hp => by simp only [h3 p fun c hc => hp c (gc c hc)]; exact g3 p hp⟩

/-- An instruction whose rule is local ends alike on every platform that treats alike the cycles it makes. -/
theorem runInstr_local {body : M Ending} (hb : Local body) (s : State) : OutLocal (runInstr body) s := by
  intro t ht
  have h := hb { s with pc := s.pc + 2 }
  unfold LocalAt at h
  have er (p : Platform) : runInstr body (s.on p) =
      match body (State.on { s with pc := s.pc + 2 } p) with
      | .ok .done s' => .next s'
      | .ok (.trap v) s' => finish s.pc true (takeException .group2 (.internal v) s'.pc s')
      | .ok (.notExecuted v) s' =>
        finish s.pc true (takeException .group1 (.internal v) s.pc { s' with tracePending := false })
      | .error e s' => abandon s.pc true e s' := rfl
  unfold runInstr at ht
  simp only at ht
  cases e : body { s with pc := s.pc + 2 } with
  | error x u =>
    rw [e] at h ht
    simp only at ht
    rcases h with rfl | ⟨h1, cs, h2, h3⟩
    · cases ht
    · obtain ⟨g1, cs', g2, gc, g3⟩ := (abandon_local s.pc true x u).after (s := s) h1 h2 ht
      refine ⟨g1, cs', g2, fun p hp => ?_⟩
      rw [er, h3 p fun c hc => (hp c (gc c hc)).congr rfl]; exact g3 p hp
  | ok a u =>
    rw [e] at h ht
    obtain ⟨h1, cs, h2, h3⟩ := h
    cases a with
    | done =>
      cases ht
      exact ⟨h1, cs, h2, fun p hp => by rw [er, h3 p fun c hc => (hp c hc).congr rfl]⟩
    | trap v =>
      obtain ⟨g1, cs', g2, gc, g3⟩ :=
        (finish_local (takeException_local .group2 v u.pc) s.pc true u).after (s := s) h1 h2 ht
      refine ⟨g1, cs', g2, fun p hp => ?_⟩
      rw [er, h3 p fun c hc => (hp c (gc c hc)).congr rfl]; exact g3 p hp
    | notExecuted v =>
      obtain ⟨g1, cs', g2, gc, g3⟩ := (finish_local (takeException_local .group1 v s.pc) s.pc true
        { u with tracePending := false }).after (s := s) h1 h2 ht
      refine ⟨g1, cs', g2, fun p hp => ?_⟩
      rw [er, h3 p fun c hc => (hp c (gc c hc)).congr rfl]; exact g3 p hp

theorem runPlain_local {body : M Unit} (hb : Local body) (s : State) : OutLocal (runPlain body) s :=
  runInstr_local (hb.bind fun _ => .pure _) s

theorem privileged_local {body : M Unit} (hb : Local body) : Local (privileged body) :=
  .get_bind fun _ => .ite (hb.bind fun _ => .pure _) (.pure _)

end Sys2Proof.Machine
end

