-- ==== Sys2Proof/Laws/Failures.lean ====
section
/-! SUPPORT. Accesses where only the cycles they make are known to be answered, and accesses whose first cycle fails. -/

namespace Sys2Proof.Machine

set_option Elab.async false

theorem State.Answers.ne_rerun {s : State} {fc : FuncCode} {dir : Direction} {a : Long} (h : s.Answers fc dir a) :
    s.answer fc dir a ≠ .rerun := by
  rcases h with e | e <;> rw [e] <;> decide

/-- A word is fetched where its one cycle is answered. -/
theorem fetchWord_answered {s : State} (ht : s.turns = []) (hm : s.platform.map = []) (he : EvenAddr s.pc)
    (h : s.Answers s.fcProg .read s.pc) :
    ∃ log, fetchWord s = .ok (s.peekWord s.fcProg s.pc) { s.after 1 with bus := log } := by
  obtain ⟨l, hl⟩ : ∃ l, busRead .read s.fcProg s.pc true s = .ok (s.peekWord s.fcProg s.pc) { s with bus := l } := by
    unfold busRead
    rw [runCycle_nil _ _ _ _ _ h.ne_rerun ht]
    rcases h with ha | ha <;> (rw [ha]; exact ⟨_, readDone_of_map (e := ⟨_, none, s⟩) hm .read s.fcProg s.pc true⟩)
  have e1 : memRead s.fcProg s.pc .w s = .ok (ofWord (s.peekWord s.fcProg s.pc)) { s with bus := l } := by
    unfold memRead
    rw [bind_ok (checkAligned_ok (.inr he) s)]
    exact bind_ok hl
  refine ⟨l, ?_⟩
  unfold fetchWord
  rw [get_bind_run, bind_ok e1, modify_bind_run, lowWord_ofWord]
  rfl

/-- The words of an instruction are fetched where the cycles that fetch them are answered. -/
theorem fetchWords_answered {s : State} (ht : s.turns = []) (hm : s.platform.map = []) (he : EvenAddr s.pc) (k : Nat)
    (h : ∀ j < k, s.Answers s.fcProg .read (s.pc + 2 * BitVec.ofNat 32 j)) :
    ∃ log, fetchWords k s = .ok () { s.after k with bus := log } := by
  induction k generalizing s with
  | zero => exact ⟨s.bus, by rw [State.after_zero]; rfl⟩
  | succ k ih =>
    have h0 := h 0 (by omega)
    rw [show s.pc + 2 * BitVec.ofNat 32 0 = s.pc by simp] at h0
    obtain ⟨l, hl⟩ := fetchWord_answered ht hm he h0
    have he1 : EvenAddr (s.after 1).pc := he.after 1
    obtain ⟨l', hl'⟩ := ih (s := { s.after 1 with bus := l }) ht hm he1 fun j hj => by
      have := h (j + 1) (by omega)
      rw [show s.pc + 2 * BitVec.ofNat 32 (j + 1) = (s.after 1).pc + 2 * BitVec.ofNat 32 j by
        apply BitVec.eq_of_toNat_eq
        have h2 : (2 : Long).toNat = 2 := rfl
        simp only [State.after_pc, BitVec.toNat_add, BitVec.toNat_mul, BitVec.toNat_ofNat, h2]
        omega] at this
      exact this
    refine ⟨l', ?_⟩
    show (fetchWord >>= fun _ => fetchWords k) s = _
    rw [bind_ok hl, hl', State.after_with_bus, State.after_after, Nat.add_comm]

/-- A read cycle that the platform's rules end in a bus error transfers nothing. -/
theorem busRead_failed {s : State} (ht : s.turns = []) (kind : CycleKind) (fc : FuncCode) (a : Long) (isWord : Bool)
    (h : s.answer fc .read a = .busError) :
    ∃ log, busRead kind fc a isWord s = .error (.busError ⟨a, .read, fc⟩) { s with bus := log } := by
  unfold busRead
  rw [runCycle_nil _ _ _ _ _ (by rw [h]; decide) ht, h]
  exact ⟨_, rfl⟩

/-- A read whose first cycle ends in a bus error transfers nothing. -/
theorem memRead_failed {s : State} (ht : s.turns = []) {fc : FuncCode} {a : Long} {sz : Size} (ha : Aligned sz a)
    (h : s.answer fc .read a = .busError) :
    ∃ log, memRead fc a sz s = .error (.busError ⟨a, .read, fc⟩) { s with bus := log } := by
  unfold memRead
  rw [bind_ok (checkAligned_ok ha s)]
  cases sz
  · obtain ⟨l, hl⟩ := busRead_failed ht .read fc a false h; exact ⟨l, bind_error hl⟩
  · obtain ⟨l, hl⟩ := busRead_failed ht .read fc a true h; exact ⟨l, bind_error hl⟩
  · obtain ⟨l, hl⟩ := busRead_failed ht .read fc a true h; exact ⟨l, bind_error hl⟩

/-- A read at an odd address, of a word or long word, does nothing. -/
theorem memRead_odd {fc : FuncCode} {a : Long} {sz : Size} (ha : ¬Aligned sz a) (s : State) :
    memRead fc a sz s = .error (.addressError ⟨a, .read, fc⟩) s := by
  unfold memRead; exact bind_error (checkAligned_odd ha s)

/-- A write at an odd address, of a word or long word, does nothing. -/
theorem memWrite_odd {fc : FuncCode} {a : Long} {sz : Size} (ha : ¬Aligned sz a) (lowFirst : Bool) (v : Long) (s : State) :
    memWrite fc a sz lowFirst v s = .error (.addressError ⟨a, .write, fc⟩) s := by
  unfold memWrite; exact bind_error (checkAligned_odd ha s)

/-- The cycle a write makes first: the low word's of a long word written low word first, else the one at its address. -/
def firstWritten (sz : Size) (lowFirst : Bool) (a : Long) : Long := if sz = .l ∧ lowFirst = true then a + 2 else a

/-- A write cycle that the platform's rules end in a bus error. -/
theorem busWrite_failed {s : State} (ht : s.turns = []) (kind : CycleKind) (fc : FuncCode) (a : Long) (isWord : Bool)
    (v : Word) (h : s.answer fc .write a = .busError) :
    ∃ log, busWrite kind fc a isWord v s =
      .error (.busError ⟨a, .write, fc⟩) { s.pokeFailed fc a isWord v with bus := log } := by
  unfold busWrite
  rw [runCycle_nil _ _ _ _ _ (by rw [h]; decide) ht, h]
  exact ⟨_, rfl⟩

/-- A failed write changes no byte outside its cycle. -/
theorem State.pokeFailed_other (s : State) (fc : FuncCode) (a : Long) (isWord : Bool) (v : Word) {n : Nat}
    (hn : n ∉ s.bytesAt fc a (if isWord then .w else .b)) :
    Memory.read (s.pokeFailed fc a isWord v).mem n = Memory.read s.mem n := by
  have poke {t : State} {b : Long} (c : Byte) (hp : t.platform = s.platform) (hb : n ≠ s.location fc b) :
      Memory.read (t.pokeByte fc b c).mem n = Memory.read t.mem n := by
    have hl : t.location fc b = s.location fc b := by unfold State.location; rw [hp]
    show Memory.read (t.memAfter fc b c) n = _
    unfold State.memAfter
    split
    · exact Memory.read_write_other _ (by rw [hl]; exact hb)
    · rfl
  unfold State.pokeFailed
  cases isWord <;> simp only [Bool.false_eq_true, if_false, if_true, State.bytesAt, List.mem_cons, List.not_mem_nil,
    or_false, not_or] at *
  · split
    · exact poke _ rfl hn
    · rfl
  · split <;> split
    · exact (poke (t := State.pokeByte { s with freeCount := s.freeCount + 1 } fc a _) _ rfl hn.2).trans
        (poke (t := { s with freeCount := s.freeCount + 1 }) _ rfl hn.1)
    · exact poke _ rfl hn.2
    · exact poke _ rfl hn.1
    · rfl

/-- A write whose first cycle ends in a bus error makes no other. -/
theorem memWrite_failed {s : State} (ht : s.turns = []) {fc : FuncCode} {a : Long} {sz : Size} (ha : Aligned sz a)
    (lowFirst : Bool) (v : Long) (h : s.answer fc .write (firstWritten sz lowFirst a) = .busError) :
    ∃ w log, memWrite fc a sz lowFirst v s = .error (.busError ⟨firstWritten sz lowFirst a, .write, fc⟩)
      { s.pokeFailed fc (firstWritten sz lowFirst a) (sz != .b) w with bus := log } := by
  unfold memWrite
  rw [bind_ok (checkAligned_ok ha s)]
  cases sz
  · obtain ⟨l, hl⟩ := busWrite_failed ht .write fc a false _ h; exact ⟨_, l, hl⟩
  · obtain ⟨l, hl⟩ := busWrite_failed ht .write fc a true _ h; exact ⟨_, l, hl⟩
  · cases lowFirst
    · obtain ⟨l, hl⟩ := busWrite_failed ht .write fc a true _ h; exact ⟨_, l, bind_error hl⟩
    · obtain ⟨l, hl⟩ := busWrite_failed ht .write fc (a + 2) true _ h; exact ⟨_, l, bind_error hl⟩

end Sys2Proof.Machine
end

