-- ==== Sys2Proof/Laws/Keeps.lean ====
section
/-! SUPPORT. What no action can break: memory stays in canonical form, and the processing state and the pending trace
are changed by name only. A rule that is built from the shared operations keeps what each of them keeps. -/

namespace Sys2Proof.Machine

set_option Elab.async false

/-- Memory in canonical form, and something said of the processing state and the pending trace. -/
def State.Keeping (Q : PState → Bool → Prop) (s : State) : Prop := Memory.wf s.mem ∧ Q s.pstate s.tracePending

/-- What holds of the state an action answers in, and what holds where it stops. -/
def Leaves {α : Type} (answered stopped : State → Prop) (r : EStateM.Result BusStop State α) : Prop :=
  match r with
  | .ok _ t => answered t
  | .error _ t => stopped t

/-- Whatever an action ends in, answer or stop, the property holds again. -/
def Keeps {α : Type} (P : State → Prop) (x : M α) : Prop := ∀ s, P s → Leaves P P (x s)

theorem Keeps.ok {α : Type} {P : State → Prop} {x : M α} (h : Keeps P x) {s t : State} {a : α} (hs : P s)
    (hx : x s = .ok a t) : P t := by
  have := h s hs; rw [hx] at this; exact this

theorem Keeps.error {α : Type} {P : State → Prop} {x : M α} (h : Keeps P x) {s t : State} {e : BusStop} (hs : P s)
    (hx : x s = .error e t) : P t := by
  have := h s hs; rw [hx] at this; exact this

theorem Keeps.pure {α : Type} (P : State → Prop) (a : α) : Keeps P (Pure.pure a : M α) := fun _ h => h

theorem Keeps.bind {α β : Type} {P : State → Prop} {x : M α} {f : α → M β} (hx : Keeps P x) (hf : ∀ a, Keeps P (f a)) :
    Keeps P (x >>= f) := by
  intro s hs
  rw [bind_run]
  have := hx s hs
  cases h : x s with
  | ok a t => rw [h] at this; exact hf a t this
  | error e t => rw [h] at this; exact this

theorem Keeps.get {P : State → Prop} : Keeps P (MonadStateOf.get : M State) := fun _ h => h

theorem Keeps.get_bind {β : Type} {P : State → Prop} {f : State → M β} (hf : ∀ s, Keeps P (f s)) :
    Keeps P ((MonadState.get : M State) >>= f) := fun s hs => hf s s hs

theorem Keeps.modify {P : State → Prop} {f : State → State} (hf : ∀ s, P s → P (f s)) :
    Keeps P (modify f : M PUnit) := fun s hs => hf s hs

theorem Keeps.ite {α : Type} {P : State → Prop} {c : Prop} [Decidable c] {x y : M α} (hx : Keeps P x)
    (hy : Keeps P y) : Keeps P (if c then x else y) := by
  split <;> assumption

variable {Q : PState → Bool → Prop}

/-- A property of the kind above survives any change of memory that keeps the canonical form and any change outside
the processing state and the pending trace. -/
theorem State.Keeping.of {s t : State} (h : s.Keeping Q) (hm : Memory.wf t.mem) (hp : t.pstate = s.pstate)
    (ht : t.tracePending = s.tracePending) : t.Keeping Q := ⟨hm, by rw [hp, ht]; exact h.2⟩

theorem State.Keeping.congr {s t : State} (h : s.Keeping Q) (hm : t.mem = s.mem) (hp : t.pstate = s.pstate)
    (ht : t.tracePending = s.tracePending) : t.Keeping Q := h.of (hm ▸ h.1) hp ht

theorem drawFree_keeps : Keeps (State.Keeping Q) drawFree := fun _ h => h.congr rfl rfl rfl

theorem busRead_keeps (kind : CycleKind) (fc : FuncCode) (a : Long) (isWord : Bool) :
    Keeps (State.Keeping Q) (busRead kind fc a isWord) := by
  intro s h
  obtain ⟨m, ts, l, n, hm, ⟨v, hv⟩ | ⟨e, -, he⟩⟩ := busRead_changes kind fc a isWord s
  · rw [hv]; exact h.of (hm h.1) rfl rfl
  · rw [he]; exact h.of (hm h.1) rfl rfl

theorem busWrite_keeps (kind : CycleKind) (fc : FuncCode) (a : Long) (isWord : Bool) (v : Word) :
    Keeps (State.Keeping Q) (busWrite kind fc a isWord v) := by
  intro s h
  obtain ⟨m, ts, l, n, hm, hv | ⟨e, -, he⟩⟩ := busWrite_changes kind fc a isWord v s
  · rw [hv]; exact h.of (hm h.1) rfl rfl
  · rw [he]; exact h.of (hm h.1) rfl rfl

theorem checkAligned_keeps {P : State → Prop} (fc : FuncCode) (dir : Direction) (a : Long) (sz : Size) :
    Keeps P (checkAligned fc dir a sz) := by
  intro s h
  by_cases ha : Aligned sz a
  · rw [checkAligned_ok ha s]; exact h
  · rw [checkAligned_odd ha s]; exact h

theorem memRead_keeps (fc : FuncCode) (a : Long) (sz : Size) : Keeps (State.Keeping Q) (memRead fc a sz) := by
  unfold memRead
  refine (checkAligned_keeps _ _ _ _).bind fun _ => ?_
  cases sz
  · exact (busRead_keeps _ _ _ _).bind fun _ => .pure _ _
  · exact (busRead_keeps _ _ _ _).bind fun _ => .pure _ _
  · exact (busRead_keeps _ _ _ _).bind fun _ => (busRead_keeps _ _ _ _).bind fun _ => .pure _ _

theorem memWrite_keeps (fc : FuncCode) (a : Long) (sz : Size) (lowFirst : Bool) (v : Long) :
    Keeps (State.Keeping Q) (memWrite fc a sz lowFirst v) := by
  unfold memWrite
  refine (checkAligned_keeps _ _ _ _).bind fun _ => ?_
  cases sz
  · exact busWrite_keeps _ _ _ _ _
  · exact busWrite_keeps _ _ _ _ _
  · cases lowFirst <;> exact (busWrite_keeps _ _ _ _ _).bind fun _ => busWrite_keeps _ _ _ _ _

/-! ## The operand procedures -/

theorem State.Keeping.setSp {s : State} (h : s.Keeping Q) (v : Long) : (s.setSp v).Keeping Q :=
  h.congr (by simp) (by simp) (by simp)

theorem State.Keeping.writeA {s : State} (h : s.Keeping Q) (n : RegNo) (v : Long) : (s.writeA n v).Keeping Q :=
  h.congr (by simp) (by simp) (by simp)

theorem State.Keeping.writeD {s : State} (h : s.Keeping Q) (n : RegNo) (v : Long) : (s.writeD n v).Keeping Q :=
  h.congr rfl rfl rfl

theorem State.Keeping.writeR {s : State} (h : s.Keeping Q) (k : Fin 16) (v : Long) : (s.writeR k v).Keeping Q := by
  unfold State.writeR; split
  · exact h.writeD _ _
  · exact h.writeA _ _

theorem fetchWord_keeps : Keeps (State.Keeping Q) fetchWord :=
  .get_bind fun _ => (memRead_keeps _ _ _).bind fun _ =>
    (Keeps.modify fun _ h => h.congr rfl rfl rfl).bind fun _ => .pure _ _

theorem fetchWords_keeps (k : Nat) : Keeps (State.Keeping Q) (fetchWords k) := by
  induction k with
  | zero => exact .pure _ _
  | succ k ih => exact fetchWord_keeps.bind fun _ => ih

theorem resolveEA_keeps (ea : EA) (sz : Size) : Keeps (State.Keeping Q) (resolveEA ea sz) :=
  .get_bind fun _ => (fetchWords_keeps _).bind fun _ =>
    (Keeps.modify fun _ h => h.congr (by simp) (by simp) (by simp)).bind fun _ => .pure _ _

theorem readLoc_keeps (loc : Loc) (sz : Size) : Keeps (State.Keeping Q) (readLoc loc sz) := by
  cases loc with
  | mem a fc lf => exact memRead_keeps _ _ _
  | _ => first
    | exact .pure _ _
    | exact .get_bind fun _ => .pure _ _

theorem writeLoc_keeps (loc : Loc) (sz : Size) (v : Long) : Keeps (State.Keeping Q) (writeLoc loc sz v) := by
  cases loc with
  | mem a fc lf => exact memWrite_keeps _ _ _ _ _
  | dreg n => exact .modify fun _ h => h.writeD _ _
  | areg n => exact .modify fun _ h => h.writeA _ _
  | imm v => exact .pure _ _

theorem readEA_keeps (ea : EA) (sz : Size) : Keeps (State.Keeping Q) (readEA ea sz) :=
  (resolveEA_keeps _ _).bind fun _ => readLoc_keeps _ _

theorem discardRead_keeps (loc : Loc) (sz : Size) : Keeps (State.Keeping Q) (discardRead loc sz) := by
  cases loc with
  | mem a fc lf => exact (memRead_keeps _ _ _).bind fun _ => .pure _ _
  | _ => exact .pure _ _

theorem readImm_keeps (v : Imm) (sz : Size) : Keeps (State.Keeping Q) (readImm v sz) :=
  (fetchWords_keeps _).bind fun _ => .pure _ _

theorem push32_keeps (v : Long) : Keeps (State.Keeping Q) (push32 v) :=
  (Keeps.modify fun _ h => h.setSp _).bind fun _ => .get_bind fun _ => memWrite_keeps _ _ _ _ _

theorem pop16_keeps : Keeps (State.Keeping Q) pop16 :=
  .get_bind fun _ => (memRead_keeps _ _ _).bind fun _ => (Keeps.modify fun _ h => h.setSp _).bind fun _ => .pure _ _

theorem pop32_keeps : Keeps (State.Keeping Q) pop32 :=
  .get_bind fun _ => (memRead_keeps _ _ _).bind fun _ => (Keeps.modify fun _ h => h.setSp _).bind fun _ => .pure _ _

/-! ## Exceptions -/

/-- What holds of every state an action answers in. -/
def Ends {α : Type} (P : State → Prop) (x : M α) : Prop := ∀ s a t, x s = .ok a t → P t

theorem Ends.bind {α β : Type} {P : State → Prop} {x : M α} {f : α → M β} (hf : ∀ a, Ends P (f a)) :
    Ends P (x >>= f) := by
  intro s b t h
  rw [bind_run] at h
  cases hx : x s with
  | ok a u => rw [hx] at h; exact hf a u b t h
  | error e u => rw [hx] at h; cases h

theorem Ends.modify {P : State → Prop} {f : State → State} (hf : ∀ s, P (f s)) : Ends P (modify f : M PUnit) := by
  intro s _ t h; cases h; exact hf s

/-- All an acknowledge cycle can change, however it ends: memory (by other masters), the environment's turns, the list of
cycles, the count of free values, and the edge latch. -/
theorem interruptAcknowledge_changes (lvl : BitVec 3) (ans : IackAnswer) (s : State) :
    ∃ m ts l n, (Memory.wf s.mem → Memory.wf m) ∧
      let t : State := { s with
        nmiPending := if lvl = 7 then false else s.nmiPending, mem := m, turns := ts, bus := l, freeCount := n }
      ((∃ v, interruptAcknowledge lvl ans s = .ok v t) ∨ interruptAcknowledge lvl ans s = .error .hang t) := by
  obtain ⟨m, ts, l, h1, h2⟩ := runCycle_state .iack .intAck (iackAddr lvl) true none ans.onBus s.turns
    { s with nmiPending := if lvl = 7 then false else s.nmiPending }
  unfold interruptAcknowledge State.logCycle
  simp only
  generalize runCycle .iack .intAck (iackAddr lvl) true none ans.onBus s.turns
    { s with nmiPending := if lvl = 7 then false else s.nmiPending } = e at h1
  cases e.answer <;> simp only [h1]
  case ok =>
    by_cases hc : e.supplied = none ∧ ans.onBus ≠ .ok
    · rw [if_pos hc]; exact ⟨m, ts, _, _, h2, .inl ⟨_, rfl⟩⟩
    · rw [if_neg hc]; exact ⟨m, ts, _, _, h2, .inl ⟨_, rfl⟩⟩
  case vpa | busError => exact ⟨m, ts, _, _, h2, .inl ⟨_, rfl⟩⟩
  case rerun | never => exact ⟨m, ts, _, _, h2, .inr rfl⟩

theorem number_keeps (src : VectorSource) : Keeps (State.Keeping Q) src.number := by
  cases src with
  | internal v => exact .pure _ _
  | interrupt lvl ans =>
    intro s h
    obtain ⟨m, ts, l, n, hm, ⟨v, hv⟩ | he⟩ := interruptAcknowledge_changes lvl ans s
    · exact (congrArg (Leaves _ _) hv).mpr (h.of (hm h.1) rfl rfl)
    · exact (congrArg (Leaves _ _) he).mpr (h.of (hm h.1) rfl rfl)

/-- Taking an exception keeps memory in canonical form and the pending trace as it was. -/
theorem takeException_keeps (R : Bool → Prop) (g : ExcGroup) (src : VectorSource) (pcs : Long) :
    Keeps (State.Keeping fun _ b => R b) (takeException g src pcs) :=
  .get_bind fun _ => (Keeps.modify fun _ h => ⟨h.1, h.2⟩).bind fun _ => .get_bind fun _ =>
    (memWrite_keeps _ _ _ _ _).bind fun _ => (number_keeps _).bind fun _ => (memWrite_keeps _ _ _ _ _).bind fun _ =>
    (memWrite_keeps _ _ _ _ _).bind fun _ => (Keeps.modify fun _ h => ⟨h.1, h.2⟩).bind fun _ =>
    (memRead_keeps _ _ _).bind fun _ => .modify fun _ h => ⟨h.1, h.2⟩

/-- An exception sequence that ends leaves the processing state normal. -/
theorem takeException_ends (g : ExcGroup) (src : VectorSource) (pcs : Long) :
    Ends (fun t => t.pstate = .normal) (takeException g src pcs) :=
  .bind fun _ => .bind fun _ => .bind fun _ => .bind fun _ => .bind fun _ => .bind fun _ => .bind fun _ =>
    .bind fun _ => .bind fun _ => .modify fun _ => rfl

/-- A group 0 frame keeps memory in canonical form and leaves no trace pending. -/
theorem group0Frame_keeps (v : Byte) (acc : Access) (pc0 : Long) (hasOpw : Bool) {s : State} (h : Memory.wf s.mem) :
    Leaves (State.Keeping fun p b => p = .normal ∧ b = false) (State.Keeping fun _ b => b = false)
      (group0Frame v acc pc0 hasOpw s) := by
  have frame : Leaves (State.Keeping fun _ b => b = false) (State.Keeping fun _ b => b = false)
      (group0Frame v acc pc0 hasOpw s) := by
    unfold group0Frame
    rw [get_bind_run, modify_bind_run]
    refine (?_ : Keeps (State.Keeping fun _ b => b = false) _)
      { s with
        g0Active := true
        tracePending := false
        pstate := .exception .group0
        sr := { s.sr with s := true, t := false } } ⟨h, rfl⟩
    exact drawFree_keeps.bind fun _ => drawFree_keeps.bind fun _ => drawFree_keeps.bind fun _ =>
      (memWrite_keeps _ _ _ _ _).bind fun _ => (memWrite_keeps _ _ _ _ _).bind fun _ =>
      (memWrite_keeps _ _ _ _ _).bind fun _ => (memWrite_keeps _ _ _ _ _).bind fun _ =>
      (memWrite_keeps _ _ _ _ _).bind fun _ => (memWrite_keeps _ _ _ _ _).bind fun _ =>
      (memWrite_keeps _ _ _ _ _).bind fun _ => (Keeps.modify fun _ h => ⟨h.1, h.2⟩).bind fun _ =>
      (memRead_keeps _ _ _).bind fun _ => .modify fun _ h => ⟨h.1, h.2⟩
  have normal : Ends (fun t => t.pstate = .normal) (group0Frame v acc pc0 hasOpw) :=
    .bind fun _ => .bind fun _ => .bind fun _ => .bind fun _ => .bind fun _ => .bind fun _ => .bind fun _ =>
      .bind fun _ => .bind fun _ => .bind fun _ => .bind fun _ => .bind fun _ => .bind fun _ => .bind fun _ =>
      .modify fun _ => rfl
  cases hr : group0Frame v acc pc0 hasOpw s with
  | ok a t => rw [hr] at frame; exact ⟨frame.1, normal _ _ _ hr, frame.2⟩
  | error x t => rw [hr] at frame; exact frame

/-! ## Whole outcomes -/

/-- What a step can leave: memory in canonical form, no exception half processed. -/
abbrev State.Settled : State → Prop := State.Keeping fun p _ => ∀ g, p ≠ .exception g

/-- A state a group 0 exception, taken or doubled, leaves. -/
theorem enterGroup0_settles {v : Byte} {acc : Access} {pc0 : Long} {hasOpw : Bool} {s t : State} (h : Memory.wf s.mem)
    (ht : enterGroup0 v acc pc0 hasOpw s = .next t) : t.Settled ∧ t.tracePending = false := by
  unfold enterGroup0 at ht
  split at ht
  · cases ht; exact ⟨⟨h, fun _ => nofun⟩, rfl⟩
  · have h0 := group0Frame_keeps v acc pc0 hasOpw h
    split at ht
    · rename_i hx; rw [hx] at h0; cases ht
      exact ⟨⟨h0.1, fun g hg => by rw [h0.2.1] at hg; cases hg⟩, h0.2.2⟩
    · cases ht
    · rename_i hx; rw [hx] at h0; cases ht
      exact ⟨⟨h0.1, fun _ => nofun⟩, rfl⟩

theorem abandon_settles {pc0 : Long} {hasOpw : Bool} {e : BusStop} {s t : State} (h : Memory.wf s.mem)
    (ht : abandon pc0 hasOpw e s = .next t) : t.Settled ∧ t.tracePending = false := by
  cases e with
  | hang => cases ht
  | _ => exact enterGroup0_settles h ht

/-- What an exception sequence, completed or abandoned, leaves. -/
theorem finish_takeException_settles {pc0 : Long} {g : ExcGroup} {src : VectorSource} {pcs : Long} {s t : State}
    (h : Memory.wf s.mem) (ht : finish pc0 true (takeException g src pcs s) = .next t) :
    t.Settled ∧ (s.tracePending = false → t.tracePending = false) := by
  unfold finish at ht
  split at ht
  · rename_i hx; cases ht
    have h1 := (takeException_keeps (fun b => s.tracePending = b) g src pcs).ok ⟨h, rfl⟩ hx
    have h2 := takeException_ends g src pcs _ _ _ hx
    exact ⟨⟨h1.1, fun _ hg => by rw [h2] at hg; cases hg⟩, fun hf => h1.2 ▸ hf⟩
  · rename_i hx
    have h1 := (takeException_keeps (fun b => s.tracePending = b) g src pcs).error ⟨h, rfl⟩ hx
    have h2 := abandon_settles h1.1 ht
    exact ⟨h2.1, fun _ => h2.2⟩

/-- An instruction whose rule keeps a settled state leaves one, however it ends. -/
theorem runInstr_settles {body : M Ending} (hb : Keeps State.Settled body) {s t : State} (h : s.Settled)
    (ht : runInstr body s = .next t) : t.Settled := by
  unfold runInstr at ht
  have h1 := hb { s with pc := s.pc + 2 } (h.congr rfl rfl rfl)
  simp only at ht
  split at ht <;> rename_i hx <;> rw [hx] at h1
  · cases ht; exact h1
  · exact (finish_takeException_settles h1.1 ht).1
  · refine (finish_takeException_settles ?_ ht).1; exact h1.1
  · exact (abandon_settles h1.1 ht).1

theorem runPlain_settles {body : M Unit} (hb : Keeps State.Settled body) {s t : State} (h : s.Settled)
    (ht : runPlain body s = .next t) : t.Settled :=
  runInstr_settles (hb.bind fun _ => .pure _ _) h ht

theorem privileged_keeps {P : State → Prop} {body : M Unit} (hb : Keeps P body) : Keeps P (privileged body) :=
  .get_bind fun _ => .ite (hb.bind fun _ => .pure _ _) (.pure _ _)

end Sys2Proof.Machine
end

