-- ==== Sys2Proof/Laws/PerInstr.lean ====
section
/-! SUPPORT. The lemmas stated once for each instruction, one family after another. -/

namespace Sys2Proof.Laws

set_option Elab.async false

/-- An instruction is one to five words long (R140). -/
def EncodedLength.Statement (i : Instr) : Prop := 1 ≤ (encode i).length ∧ (encode i).length ≤ 5

theorem extWords_length (ea : EA) : ea.extWords.length ≤ 2 := by cases ea <;> simp [EA.extWords, longWords]

theorem encodedLength_immediate (x : BitVec 3) (sz : Size) (v : Imm) (ea : EA) :
    1 ≤ (encodeImmediate x sz v ea).length ∧ (encodeImmediate x sz v ea).length ≤ 5 := by
  have h := extWords_length ea
  have hv : (immWords v).length ≤ 2 := by cases v <;> simp [immWords, longWords]
  simp only [encodeImmediate, List.length_cons, List.length_append]; omega

theorem encodedLength_static (ss : BitVec 2) (b : Word) (ea : EA) :
    1 ≤ (encodeBitStatic ss b ea).length ∧ (encodeBitStatic ss b ea).length ≤ 5 := by
  have h := extWords_length ea
  simp only [encodeBitStatic, List.length_cons]; omega

theorem encodedLength_ea (line : BitVec 4) (x op : BitVec 3) (ea : EA) :
    1 ≤ (encodeEA line x op ea).length ∧ (encodeEA line x op ea).length ≤ 5 := by
  have h := extWords_length ea
  simp only [encodeEA, List.length_cons]; omega

theorem encodedLength_move (line : BitVec 4) (src dst : EA) :
    1 ≤ (encodeMove line src dst).length ∧ (encodeMove line src dst).length ≤ 5 := by
  have h := extWords_length src
  have h' := extWords_length dst
  simp only [encodeMove, List.length_cons, List.length_append]; omega

theorem encodedLength_branch (cond : Cond) (d : Disp) :
    1 ≤ (encodeBranch cond d).length ∧ (encodeBranch cond d).length ≤ 5 := by
  cases d <;> simp [encodeBranch]

theorem encodedLength_shift (tt : BitVec 2) (left : Bool) (c : ShiftCount) (sz : Size) (dy : RegNo) :
    1 ≤ (encodeShiftReg tt left c sz dy).length ∧ (encodeShiftReg tt left c sz dy).length ≤ 5 := by
  cases c <;> simp [encodeShiftReg]

theorem encodedLength_movem (w list : Word) (ea : EA) :
    1 ≤ (w :: list :: ea.extWords).length ∧ (w :: list :: ea.extWords).length ≤ 5 := by
  have h := extWords_length ea
  simp only [List.length_cons]; omega

theorem EncodedLength.ori (sz : Size) (v : Imm) (ea : EA) :
    EncodedLength.Statement (.ori sz v ea) := encodedLength_immediate _ _ _ _
theorem EncodedLength.andi (sz : Size) (v : Imm) (ea : EA) :
    EncodedLength.Statement (.andi sz v ea) := encodedLength_immediate _ _ _ _
theorem EncodedLength.subi (sz : Size) (v : Imm) (ea : EA) :
    EncodedLength.Statement (.subi sz v ea) := encodedLength_immediate _ _ _ _
theorem EncodedLength.addi (sz : Size) (v : Imm) (ea : EA) :
    EncodedLength.Statement (.addi sz v ea) := encodedLength_immediate _ _ _ _
theorem EncodedLength.eori (sz : Size) (v : Imm) (ea : EA) :
    EncodedLength.Statement (.eori sz v ea) := encodedLength_immediate _ _ _ _
theorem EncodedLength.cmpi (sz : Size) (v : Imm) (ea : EA) :
    EncodedLength.Statement (.cmpi sz v ea) := encodedLength_immediate _ _ _ _
theorem EncodedLength.oriToCcr (v : Word) :
    EncodedLength.Statement (.oriToCcr v) := ⟨by simp [encode], by simp [encode]⟩
theorem EncodedLength.oriToSr (v : Word) :
    EncodedLength.Statement (.oriToSr v) := ⟨by simp [encode], by simp [encode]⟩
theorem EncodedLength.andiToCcr (v : Word) :
    EncodedLength.Statement (.andiToCcr v) := ⟨by simp [encode], by simp [encode]⟩
theorem EncodedLength.andiToSr (v : Word) :
    EncodedLength.Statement (.andiToSr v) := ⟨by simp [encode], by simp [encode]⟩
theorem EncodedLength.eoriToCcr (v : Word) :
    EncodedLength.Statement (.eoriToCcr v) := ⟨by simp [encode], by simp [encode]⟩
theorem EncodedLength.eoriToSr (v : Word) :
    EncodedLength.Statement (.eoriToSr v) := ⟨by simp [encode], by simp [encode]⟩
theorem EncodedLength.btstImm (b : Word) (ea : EA) :
    EncodedLength.Statement (.btstImm b ea) := encodedLength_static _ _ _
theorem EncodedLength.btstReg (dn : RegNo) (ea : EA) :
    EncodedLength.Statement (.btstReg dn ea) := encodedLength_ea _ _ _ _
theorem EncodedLength.bchgImm (b : Word) (ea : EA) :
    EncodedLength.Statement (.bchgImm b ea) := encodedLength_static _ _ _
theorem EncodedLength.bchgReg (dn : RegNo) (ea : EA) :
    EncodedLength.Statement (.bchgReg dn ea) := encodedLength_ea _ _ _ _
theorem EncodedLength.bclrImm (b : Word) (ea : EA) :
    EncodedLength.Statement (.bclrImm b ea) := encodedLength_static _ _ _
theorem EncodedLength.bclrReg (dn : RegNo) (ea : EA) :
    EncodedLength.Statement (.bclrReg dn ea) := encodedLength_ea _ _ _ _
theorem EncodedLength.bsetImm (b : Word) (ea : EA) :
    EncodedLength.Statement (.bsetImm b ea) := encodedLength_static _ _ _
theorem EncodedLength.bsetReg (dn : RegNo) (ea : EA) :
    EncodedLength.Statement (.bsetReg dn ea) := encodedLength_ea _ _ _ _
theorem EncodedLength.movepWToReg (dx : RegNo) (ay : RegNo) (d : Word) :
    EncodedLength.Statement (.movepWToReg dx ay d) := ⟨by simp [encode], by simp [encode]⟩
theorem EncodedLength.movepLToReg (dx : RegNo) (ay : RegNo) (d : Word) :
    EncodedLength.Statement (.movepLToReg dx ay d) := ⟨by simp [encode], by simp [encode]⟩
theorem EncodedLength.movepWToMem (dx : RegNo) (ay : RegNo) (d : Word) :
    EncodedLength.Statement (.movepWToMem dx ay d) := ⟨by simp [encode], by simp [encode]⟩
theorem EncodedLength.movepLToMem (dx : RegNo) (ay : RegNo) (d : Word) :
    EncodedLength.Statement (.movepLToMem dx ay d) := ⟨by simp [encode], by simp [encode]⟩
theorem EncodedLength.moveB (src dst : EA) :
    EncodedLength.Statement (.moveB src dst) := encodedLength_move _ _ _
theorem EncodedLength.moveL (src dst : EA) :
    EncodedLength.Statement (.moveL src dst) := encodedLength_move _ _ _
theorem EncodedLength.moveW (src dst : EA) :
    EncodedLength.Statement (.moveW src dst) := encodedLength_move _ _ _
theorem EncodedLength.moveaL (an : RegNo) (src : EA) :
    EncodedLength.Statement (.moveaL an src) := encodedLength_ea _ _ _ _
theorem EncodedLength.moveaW (an : RegNo) (src : EA) :
    EncodedLength.Statement (.moveaW an src) := encodedLength_ea _ _ _ _
theorem EncodedLength.negx (sz : Size) (ea : EA) :
    EncodedLength.Statement (.negx sz ea) := encodedLength_ea _ _ _ _
theorem EncodedLength.moveFromSr (ea : EA) :
    EncodedLength.Statement (.moveFromSr ea) := encodedLength_ea _ _ _ _
theorem EncodedLength.chk (dn : RegNo) (ea : EA) :
    EncodedLength.Statement (.chk dn ea) := encodedLength_ea _ _ _ _
theorem EncodedLength.lea (an : RegNo) (ea : EA) :
    EncodedLength.Statement (.lea an ea) := encodedLength_ea _ _ _ _
theorem EncodedLength.clr (sz : Size) (ea : EA) :
    EncodedLength.Statement (.clr sz ea) := encodedLength_ea _ _ _ _
theorem EncodedLength.neg (sz : Size) (ea : EA) :
    EncodedLength.Statement (.neg sz ea) := encodedLength_ea _ _ _ _
theorem EncodedLength.moveToCcr (ea : EA) :
    EncodedLength.Statement (.moveToCcr ea) := encodedLength_ea _ _ _ _
theorem EncodedLength.notOp (sz : Size) (ea : EA) :
    EncodedLength.Statement (.notOp sz ea) := encodedLength_ea _ _ _ _
theorem EncodedLength.moveToSr (ea : EA) :
    EncodedLength.Statement (.moveToSr ea) := encodedLength_ea _ _ _ _
theorem EncodedLength.nbcd (ea : EA) :
    EncodedLength.Statement (.nbcd ea) := encodedLength_ea _ _ _ _
theorem EncodedLength.swap (dn : RegNo) :
    EncodedLength.Statement (.swap dn) := ⟨by simp [encode], by simp [encode]⟩
theorem EncodedLength.pea (ea : EA) :
    EncodedLength.Statement (.pea ea) := encodedLength_ea _ _ _ _
theorem EncodedLength.extW (dn : RegNo) :
    EncodedLength.Statement (.extW dn) := ⟨by simp [encode], by simp [encode]⟩
theorem EncodedLength.extL (dn : RegNo) :
    EncodedLength.Statement (.extL dn) := ⟨by simp [encode], by simp [encode]⟩
theorem EncodedLength.movemToMem (sz : SizeWL) (list : Word) (ea : EA) :
    EncodedLength.Statement (.movemToMem sz list ea) := by
  cases sz <;> exact encodedLength_movem _ _ _
theorem EncodedLength.tst (sz : Size) (ea : EA) :
    EncodedLength.Statement (.tst sz ea) := encodedLength_ea _ _ _ _
theorem EncodedLength.tas (ea : EA) :
    EncodedLength.Statement (.tas ea) := encodedLength_ea _ _ _ _
theorem EncodedLength.illegal4AFC :
    EncodedLength.Statement .illegal4AFC := ⟨by decide, by decide⟩
theorem EncodedLength.illegal4AFA :
    EncodedLength.Statement .illegal4AFA := ⟨by decide, by decide⟩
theorem EncodedLength.illegal4AFB :
    EncodedLength.Statement .illegal4AFB := ⟨by decide, by decide⟩
theorem EncodedLength.movemToRegs (sz : SizeWL) (list : Word) (ea : EA) :
    EncodedLength.Statement (.movemToRegs sz list ea) := by
  cases sz <;> exact encodedLength_movem _ _ _
theorem EncodedLength.trap (v : BitVec 4) :
    EncodedLength.Statement (.trap v) := ⟨by simp [encode], by simp [encode]⟩
theorem EncodedLength.link (an : RegNo) (d : Word) :
    EncodedLength.Statement (.link an d) := ⟨by simp [encode], by simp [encode]⟩
theorem EncodedLength.unlk (an : RegNo) :
    EncodedLength.Statement (.unlk an) := ⟨by simp [encode], by simp [encode]⟩
theorem EncodedLength.moveToUsp (an : RegNo) :
    EncodedLength.Statement (.moveToUsp an) := ⟨by simp [encode], by simp [encode]⟩
theorem EncodedLength.moveFromUsp (an : RegNo) :
    EncodedLength.Statement (.moveFromUsp an) := ⟨by simp [encode], by simp [encode]⟩
theorem EncodedLength.reset :
    EncodedLength.Statement .reset := ⟨by decide, by decide⟩
theorem EncodedLength.nop :
    EncodedLength.Statement .nop := ⟨by decide, by decide⟩
theorem EncodedLength.stop (v : Word) :
    EncodedLength.Statement (.stop v) := ⟨by simp [encode], by simp [encode]⟩
theorem EncodedLength.rte :
    EncodedLength.Statement .rte := ⟨by decide, by decide⟩
theorem EncodedLength.rts :
    EncodedLength.Statement .rts := ⟨by decide, by decide⟩
theorem EncodedLength.trapv :
    EncodedLength.Statement .trapv := ⟨by decide, by decide⟩
theorem EncodedLength.rtr :
    EncodedLength.Statement .rtr := ⟨by decide, by decide⟩
theorem EncodedLength.jsr (ea : EA) :
    EncodedLength.Statement (.jsr ea) := encodedLength_ea _ _ _ _
theorem EncodedLength.jmp (ea : EA) :
    EncodedLength.Statement (.jmp ea) := encodedLength_ea _ _ _ _
theorem EncodedLength.addq (q : BitVec 3) (sz : Size) (ea : EA) :
    EncodedLength.Statement (.addq q sz ea) := encodedLength_ea _ _ _ _
theorem EncodedLength.subq (q : BitVec 3) (sz : Size) (ea : EA) :
    EncodedLength.Statement (.subq q sz ea) := encodedLength_ea _ _ _ _
theorem EncodedLength.scc (cond : Cond) (ea : EA) :
    EncodedLength.Statement (.scc cond ea) := encodedLength_ea _ _ _ _
theorem EncodedLength.dbcc (cond : Cond) (dn : RegNo) (d : Word) :
    EncodedLength.Statement (.dbcc cond dn d) := ⟨by simp [encode], by simp [encode]⟩
theorem EncodedLength.bra (d : Disp) :
    EncodedLength.Statement (.bra d) := encodedLength_branch _ _
theorem EncodedLength.bsr (d : Disp) :
    EncodedLength.Statement (.bsr d) := encodedLength_branch _ _
theorem EncodedLength.bcc (cond : Cond) (d : Disp) :
    EncodedLength.Statement (.bcc cond d) := encodedLength_branch _ _
theorem EncodedLength.moveq (dn : RegNo) (v : Byte) :
    EncodedLength.Statement (.moveq dn v) := ⟨by simp [encode], by simp [encode]⟩
theorem EncodedLength.orToReg (sz : Size) (dn : RegNo) (ea : EA) :
    EncodedLength.Statement (.orToReg sz dn ea) := encodedLength_ea _ _ _ _
theorem EncodedLength.orToMem (sz : Size) (dn : RegNo) (ea : EA) :
    EncodedLength.Statement (.orToMem sz dn ea) := encodedLength_ea _ _ _ _
theorem EncodedLength.divu (dn : RegNo) (ea : EA) :
    EncodedLength.Statement (.divu dn ea) := encodedLength_ea _ _ _ _
theorem EncodedLength.divs (dn : RegNo) (ea : EA) :
    EncodedLength.Statement (.divs dn ea) := encodedLength_ea _ _ _ _
theorem EncodedLength.sbcdReg (dx dy : RegNo) :
    EncodedLength.Statement (.sbcdReg dx dy) := ⟨by simp [encode], by simp [encode]⟩
theorem EncodedLength.sbcdMem (ax ay : RegNo) :
    EncodedLength.Statement (.sbcdMem ax ay) := ⟨by simp [encode], by simp [encode]⟩
theorem EncodedLength.subToReg (sz : Size) (dn : RegNo) (ea : EA) :
    EncodedLength.Statement (.subToReg sz dn ea) := encodedLength_ea _ _ _ _
theorem EncodedLength.subToMem (sz : Size) (dn : RegNo) (ea : EA) :
    EncodedLength.Statement (.subToMem sz dn ea) := encodedLength_ea _ _ _ _
theorem EncodedLength.subaW (an : RegNo) (ea : EA) :
    EncodedLength.Statement (.subaW an ea) := encodedLength_ea _ _ _ _
theorem EncodedLength.subaL (an : RegNo) (ea : EA) :
    EncodedLength.Statement (.subaL an ea) := encodedLength_ea _ _ _ _
theorem EncodedLength.subxReg (sz : Size) (dx dy : RegNo) :
    EncodedLength.Statement (.subxReg sz dx dy) := ⟨by simp [encode], by simp [encode]⟩
theorem EncodedLength.subxMem (sz : Size) (ax ay : RegNo) :
    EncodedLength.Statement (.subxMem sz ax ay) := ⟨by simp [encode], by simp [encode]⟩
theorem EncodedLength.addToReg (sz : Size) (dn : RegNo) (ea : EA) :
    EncodedLength.Statement (.addToReg sz dn ea) := encodedLength_ea _ _ _ _
theorem EncodedLength.addToMem (sz : Size) (dn : RegNo) (ea : EA) :
    EncodedLength.Statement (.addToMem sz dn ea) := encodedLength_ea _ _ _ _
theorem EncodedLength.addaW (an : RegNo) (ea : EA) :
    EncodedLength.Statement (.addaW an ea) := encodedLength_ea _ _ _ _
theorem EncodedLength.addaL (an : RegNo) (ea : EA) :
    EncodedLength.Statement (.addaL an ea) := encodedLength_ea _ _ _ _
theorem EncodedLength.addxReg (sz : Size) (dx dy : RegNo) :
    EncodedLength.Statement (.addxReg sz dx dy) := ⟨by simp [encode], by simp [encode]⟩
theorem EncodedLength.addxMem (sz : Size) (ax ay : RegNo) :
    EncodedLength.Statement (.addxMem sz ax ay) := ⟨by simp [encode], by simp [encode]⟩
theorem EncodedLength.lineA (w : BitVec 12) :
    EncodedLength.Statement (.lineA w) := ⟨by simp [encode], by simp [encode]⟩
theorem EncodedLength.cmp (sz : Size) (dn : RegNo) (ea : EA) :
    EncodedLength.Statement (.cmp sz dn ea) := encodedLength_ea _ _ _ _
theorem EncodedLength.cmpaW (an : RegNo) (ea : EA) :
    EncodedLength.Statement (.cmpaW an ea) := encodedLength_ea _ _ _ _
theorem EncodedLength.cmpaL (an : RegNo) (ea : EA) :
    EncodedLength.Statement (.cmpaL an ea) := encodedLength_ea _ _ _ _
theorem EncodedLength.eor (sz : Size) (dn : RegNo) (ea : EA) :
    EncodedLength.Statement (.eor sz dn ea) := encodedLength_ea _ _ _ _
theorem EncodedLength.cmpm (sz : Size) (ax ay : RegNo) :
    EncodedLength.Statement (.cmpm sz ax ay) := ⟨by simp [encode], by simp [encode]⟩
theorem EncodedLength.andToReg (sz : Size) (dn : RegNo) (ea : EA) :
    EncodedLength.Statement (.andToReg sz dn ea) := encodedLength_ea _ _ _ _
theorem EncodedLength.andToMem (sz : Size) (dn : RegNo) (ea : EA) :
    EncodedLength.Statement (.andToMem sz dn ea) := encodedLength_ea _ _ _ _
theorem EncodedLength.mulu (dn : RegNo) (ea : EA) :
    EncodedLength.Statement (.mulu dn ea) := encodedLength_ea _ _ _ _
theorem EncodedLength.muls (dn : RegNo) (ea : EA) :
    EncodedLength.Statement (.muls dn ea) := encodedLength_ea _ _ _ _
theorem EncodedLength.abcdReg (dx dy : RegNo) :
    EncodedLength.Statement (.abcdReg dx dy) := ⟨by simp [encode], by simp [encode]⟩
theorem EncodedLength.abcdMem (ax ay : RegNo) :
    EncodedLength.Statement (.abcdMem ax ay) := ⟨by simp [encode], by simp [encode]⟩
theorem EncodedLength.exgDD (dx dy : RegNo) :
    EncodedLength.Statement (.exgDD dx dy) := ⟨by simp [encode], by simp [encode]⟩
theorem EncodedLength.exgAA (ax ay : RegNo) :
    EncodedLength.Statement (.exgAA ax ay) := ⟨by simp [encode], by simp [encode]⟩
theorem EncodedLength.exgDA (dx ay : RegNo) :
    EncodedLength.Statement (.exgDA dx ay) := ⟨by simp [encode], by simp [encode]⟩
theorem EncodedLength.aslReg (c : ShiftCount) (sz : Size) (dy : RegNo) :
    EncodedLength.Statement (.aslReg c sz dy) := encodedLength_shift _ _ _ _ _
theorem EncodedLength.aslMem (ea : EA) :
    EncodedLength.Statement (.aslMem ea) := encodedLength_ea _ _ _ _
theorem EncodedLength.asrReg (c : ShiftCount) (sz : Size) (dy : RegNo) :
    EncodedLength.Statement (.asrReg c sz dy) := encodedLength_shift _ _ _ _ _
theorem EncodedLength.asrMem (ea : EA) :
    EncodedLength.Statement (.asrMem ea) := encodedLength_ea _ _ _ _
theorem EncodedLength.lslReg (c : ShiftCount) (sz : Size) (dy : RegNo) :
    EncodedLength.Statement (.lslReg c sz dy) := encodedLength_shift _ _ _ _ _
theorem EncodedLength.lslMem (ea : EA) :
    EncodedLength.Statement (.lslMem ea) := encodedLength_ea _ _ _ _
theorem EncodedLength.lsrReg (c : ShiftCount) (sz : Size) (dy : RegNo) :
    EncodedLength.Statement (.lsrReg c sz dy) := encodedLength_shift _ _ _ _ _
theorem EncodedLength.lsrMem (ea : EA) :
    EncodedLength.Statement (.lsrMem ea) := encodedLength_ea _ _ _ _
theorem EncodedLength.roxlReg (c : ShiftCount) (sz : Size) (dy : RegNo) :
    EncodedLength.Statement (.roxlReg c sz dy) := encodedLength_shift _ _ _ _ _
theorem EncodedLength.roxlMem (ea : EA) :
    EncodedLength.Statement (.roxlMem ea) := encodedLength_ea _ _ _ _
theorem EncodedLength.roxrReg (c : ShiftCount) (sz : Size) (dy : RegNo) :
    EncodedLength.Statement (.roxrReg c sz dy) := encodedLength_shift _ _ _ _ _
theorem EncodedLength.roxrMem (ea : EA) :
    EncodedLength.Statement (.roxrMem ea) := encodedLength_ea _ _ _ _
theorem EncodedLength.rolReg (c : ShiftCount) (sz : Size) (dy : RegNo) :
    EncodedLength.Statement (.rolReg c sz dy) := encodedLength_shift _ _ _ _ _
theorem EncodedLength.rolMem (ea : EA) :
    EncodedLength.Statement (.rolMem ea) := encodedLength_ea _ _ _ _
theorem EncodedLength.rorReg (c : ShiftCount) (sz : Size) (dy : RegNo) :
    EncodedLength.Statement (.rorReg c sz dy) := encodedLength_shift _ _ _ _ _
theorem EncodedLength.rorMem (ea : EA) :
    EncodedLength.Statement (.rorMem ea) := encodedLength_ea _ _ _ _
theorem EncodedLength.lineF (w : BitVec 12) :
    EncodedLength.Statement (.lineF w) := ⟨by simp [encode], by simp [encode]⟩

end Sys2Proof.Laws
end

