-- ==== Sys2Proof/Laws/Stream.lean ====
section
/-! SUPPORT. The words the decoder is given where the bus serves: those that stand in memory. -/

namespace Sys2Proof.Machine

set_option Elab.async false

/-- Words of the instruction stream depend on memory, the platform and the privilege state alone. -/
theorem State.streamWords_congr {s t : State} (hm : t.mem = s.mem) (hp : t.platform = s.platform) (hs : t.sr = s.sr)
    (k : Nat) (a : Long) : t.streamWords k a = s.streamWords k a := by
  have hf : t.fcProg = s.fcProg := by unfold State.fcProg; rw [hs]
  induction k generalizing a with
  | zero => rfl
  | succ k ih => unfold State.streamWords; rw [hf, State.peekWord_congr hm hp, ih]

/-- A stretch of the stream and the stretch after it. -/
theorem State.streamWords_append (s : State) (j k : Nat) (a : Long) :
    s.streamWords j a ++ s.streamWords k (a + 2 * BitVec.ofNat 32 j) = s.streamWords (j + k) a := by
  induction j generalizing a with
  | zero => simp [State.streamWords]
  | succ j ih =>
    rw [Nat.add_right_comm]
    simp only [State.streamWords, List.cons_append, List.cons.injEq, true_and]
    rw [← ih (a + 2)]
    congr 2
    apply BitVec.eq_of_toNat_eq
    have h2 : (2 : Long).toNat = 2 := rfl
    simp only [BitVec.toNat_add, BitVec.toNat_mul, BitVec.toNat_ofNat, h2]
    omega

theorem State.take_streamWords (s : State) (j k : Nat) (a : Long) : (s.streamWords (j + k) a).take j = s.streamWords j a := by
  induction j generalizing a with
  | zero => simp [State.streamWords]
  | succ j ih => rw [Nat.add_right_comm]; simp only [State.streamWords, List.take_succ_cons, ih]

/-- Where the bus serves, the words ahead are those that stand in memory. -/
theorem wordsAhead_serves {s : State} (h : s.BusServes) (k : Nat) (a : Long) : wordsAhead k a s = s.streamWords k a := by
  induction k generalizing a s with
  | zero => rfl
  | succ k ih =>
    unfold wordsAhead State.streamWords
    rw [busRead_run h]
    simp only [if_true]
    obtain ⟨u, hu⟩ : ∃ u, u = s.logCycle .read s.fcProg a true (some (s.peekWord s.fcProg a)) (s.answer s.fcProg .read a) := ⟨_, rfl⟩
    have hp : u.platform = s.platform ∧ u.turns = s.turns ∧ u.mem = s.mem ∧ u.sr = s.sr := by
      rw [hu]; exact ⟨rfl, rfl, rfl, rfl⟩
    rw [← hu, ih (h.congr hp.1 hp.2.1), State.streamWords_congr hp.2.2.1 hp.1 hp.2.2.2]

/-- What reading an operand leaves where the bus serves, misaligned or not: its address register stepped, its words
passed. -/
theorem readEA_stateAfter {s : State} (h : s.Ready) (ea : EA) (sz : Size) :
    ∃ l, stateAfter (readEA ea sz s) = { eaStep ea sz (s.after (eaWords ea)) with bus := l } := by
  by_cases ha : (eaLoc ea sz s).Accessible sz
  · obtain ⟨l, hl⟩ := (readEA_serves h ha).run
    exact ⟨l, by rw [hl]; rfl⟩
  · obtain ⟨l, hl⟩ := (resolveEA_serves h ea sz).run
    refine ⟨l, ?_⟩
    unfold readEA
    rw [bind_ok hl]
    cases hloc : eaLoc ea sz s with
    | mem a fc lf =>
      have hm : ¬Aligned sz a := by rw [hloc] at ha; exact ha
      show stateAfter (memRead fc a sz _) = _
      unfold memRead
      rw [bind_error (checkAligned_odd hm _)]; rfl
    | _ => exact absurd (by rw [hloc]; trivial) ha

/-- Where the bus serves, the decoder is given the operation word and the words that stand after it in memory. -/
theorem State.fetchedWords_serves {s : State} (h : s.Ready) :
    s.fetchedWords = s.ir :: s.streamWords (maxWords - 1) (s.pc + 2) := by
  unfold State.fetchedWords
  simp only [wordsAhead_serves h.1]
  split
  next i rest hd =>
    split
    next src sz hi =>
      obtain ⟨l, hl⟩ := readEA_stateAfter (h.after 1) src sz
      obtain ⟨u, hu⟩ : ∃ u, u = stateAfter (readEA src sz { s with pc := s.pc + 2 }) := ⟨_, rfl⟩
      have hp : u.platform = s.platform ∧ u.turns = s.turns ∧ u.mem = s.mem ∧ u.sr = s.sr := by
        rw [hu, show stateAfter (readEA src sz { s with pc := s.pc + 2 }) = _ from hl]; simp
      rw [← hu, wordsAhead_serves (h.1.congr hp.1 hp.2.1), State.streamWords_congr hp.2.2.1 hp.1 hp.2.2.2]
      have hk : eaWords src ≤ maxWords - 1 := by cases src <;> simp [eaWords, maxWords]
      obtain ⟨j, hj⟩ := Nat.exists_eq_add_of_le hk
      rw [hj, Nat.add_comm 1, List.take_succ_cons, State.take_streamWords, List.cons_append, Nat.add_sub_cancel_left,
        State.streamWords_append]
    next => rfl
  next => rfl

end Sys2Proof.Machine
end

