-- ==== Sys2Proof/Laws/Updates.lean ====
section
/-! SUPPORT. What the shared shapes of Machine/Updates.lean do where the bus serves, once for each. -/

namespace Sys2Proof.Machine

set_option Elab.async false

/-! ## A result written to a register, under other updates -/

@[simp] theorem State.putReg_with_bus (s : State) (x : List BusCycle) (loc : Loc) (sz : Size) (v : Long) :
    ({ s with bus := x }).putReg loc sz v = { s.putReg loc sz v with bus := x } := by
  cases loc with
  | areg n => exact State.writeA_with_bus s x n _
  | _ => rfl

@[simp] theorem State.putReg_with_freeCount (s : State) (x : Nat) (loc : Loc) (sz : Size) (v : Long) :
    ({ s with freeCount := x }).putReg loc sz v = { s.putReg loc sz v with freeCount := x } := by
  cases loc with
  | areg n => exact State.writeA_with_freeCount s x n _
  | _ => rfl

theorem State.writeA_with_sr (s : State) {r : StatusReg} (hr : r.s = s.sr.s) (n : RegNo) (v : Long) :
    ({ s with sr := r }).writeA n v = { s.writeA n v with sr := r } := by
  simp only [State.writeA, State.setSp, hr]
  split <;> (try split) <;> rfl

/-- Which stack pointer `A7` is depends on the S bit alone. -/
theorem State.putReg_with_sr (s : State) {r : StatusReg} (hr : r.s = s.sr.s) (loc : Loc) (sz : Size) (v : Long) :
    ({ s with sr := r }).putReg loc sz v = { s.putReg loc sz v with sr := r } := by
  cases loc with
  | areg n => exact State.writeA_with_sr s hr n _
  | _ => rfl

/-- What `Stored` says depends on memory and the platform alone. -/
theorem Stored.congr {s t s' t' : State} {loc : Loc} {sz : Size} {v : Long} (h : Stored s t loc sz v)
    (hs : s'.mem = s.mem) (hsp : s'.platform = s.platform) (ht : t'.mem = t.mem) (htp : t'.platform = t.platform) :
    Stored s' t' loc sz v := by
  cases loc with
  | mem a fc lf => exact (StoredAt.congr h ht htp).congr_left hs hsp
  | _ => exact ht.trans (Eq.trans h hs.symm)

/-! ## Storing rules composed -/

theorem ServesStoring.before {α β : Type} {x : M α} {f : α → M β} {s t u : State} {a : α} {b : β} {loc : Loc}
    {sz : Size} {v : Long} (hx : Serves x s a t) (hf : ServesStoring (f a) t b u loc sz v) :
    ServesStoring (x >>= f) s b u loc sz v := by
  obtain ⟨m, h1, h2⟩ := hf
  exact ⟨m, hx.bind h1, h2⟩

/-- A store, then a change of the status register. -/
theorem ServesStoring.setSr {x : M Unit} {s t : State} {loc : Loc} {sz : Size} {v : Long}
    (hx : ServesStoring x s () t loc sz v) (g : StatusReg → StatusReg) :
    ServesStoring (x >>= fun _ => modify fun s => { s with sr := g s.sr }) s ⟨⟩ { t with sr := g t.sr } loc sz v := by
  obtain ⟨m, h1, h2⟩ := hx
  exact ⟨m, h1.bind .modify, h2.congr rfl rfl rfl rfl⟩

theorem ServesStoring.to {α : Type} {x : M α} {s t u : State} {a : α} {loc : Loc} {sz : Size} {v : Long}
    (h : ServesStoring x s a t loc sz v) (e : t = u) : ServesStoring x s a u loc sz v := e ▸ h

theorem ServesStoring.runPlain {body : M Unit} {s t : State} {loc : Loc} {sz : Size} {v : Long}
    (h : ServesStoring body (s.after 1) () t loc sz v) : YieldsStoring (runPlain body s) t loc sz v := by
  obtain ⟨m, h1, h2⟩ := h
  obtain ⟨log, hl⟩ := h1.run
  exact ⟨m, log, runPlain_ok hl, h2.congr rfl rfl rfl rfl⟩

/-! ## The shapes -/

/-- `op <ea>,Dn`. -/
theorem updateD_serves {s : State} (h : s.Ready) {ea : EA} {sz : Size} (ha : (eaLoc ea sz s).Accessible sz)
    (dn : RegNo) (f : Long → Update) :
    let t := eaStep ea sz (s.after (eaWords ea))
    let u := f (t.operand (eaLoc ea sz s) sz) (sz.trunc (s.readD dn)) s.sr
    Serves (updateD sz dn ea f) s () { t.writeD dn (sz.merge (s.readD dn) u.1) with sr := u.2 } := by
  intro t u
  refine Serves.to ((readEA_serves h ha).bind .modify) ?_
  simp only [State.readD_eaStep, State.readD_after, eaStep_sr, State.after_sr]; rfl

/-- A location read, changed, written back. -/
theorem updateLoc_serves {s : State} (h : s.BusServes) {loc : Loc} {sz : Size} (ha : loc.Accessible sz) (f : Update) :
    let u := f (s.operand loc sz) s.sr
    ServesStoring (updateLoc loc sz f) s () { s.putReg loc sz u.1 with sr := u.2 } loc sz u.1 := by
  intro u
  obtain ⟨m, h1, h2⟩ := (writeLoc_serves h ha u.1).setSr fun _ => u.2
  exact ⟨m, (readLoc_serves h ha).bind (.get h1), h2⟩

/-- A location read and changed, the flags set, the result written; the operation leaves S alone. -/
theorem updateLocFlagsFirst_serves {s : State} (h : s.BusServes) {loc : Loc} {sz : Size} (ha : loc.Accessible sz)
    (f : Update) (hf : (f (s.operand loc sz) s.sr).2.s = s.sr.s) :
    let u := f (s.operand loc sz) s.sr
    ServesStoring (updateLocFlagsFirst loc sz f) s () { s.putReg loc sz u.1 with sr := u.2 } loc sz u.1 := by
  intro u
  obtain ⟨m, h1, h2⟩ := (writeLoc_serves (s := { s with sr := u.2 }) (h.congr rfl) ha u.1).to
    (State.putReg_with_sr s hf loc sz u.1)
  exact ⟨m, (readLoc_serves h ha).bind (.get (Serves.bind .modify h1)), h2⟩

/-- `op <ea>` where the bus serves. -/
theorem updateEA_serves {s : State} (h : s.Ready) {ea : EA} {sz : Size} (ha : (eaLoc ea sz s).Accessible sz)
    (f : Update) :
    let t := eaStep ea sz (s.after (eaWords ea))
    let loc := eaLoc ea sz s
    let u := f (t.operand loc sz) s.sr
    ServesStoring (updateEA ea sz f) s () { t.putReg loc sz u.1 with sr := u.2 } loc sz u.1 := by
  intro t loc u
  have hu : f (t.operand loc sz) t.sr = u := by simp [u, t]
  rw [← hu]
  exact .before (resolveEA_serves h ea sz) (updateLoc_serves ((h.after _).eaStep ea sz).1 ha f)

/-- `op #imm,<ea>` where the bus serves. -/
theorem updateImm_serves {s : State} (h : s.Ready) (v : Imm) {ea : EA} {sz : Size}
    (ha : (eaLoc ea sz (s.after (immWordCount v))).Accessible sz) (f : Long → Update) :
    let t := eaStep ea sz (s.after (immWordCount v + eaWords ea))
    let loc := eaLoc ea sz (s.after (immWordCount v))
    let u := f (immValue v sz) (t.operand loc sz) s.sr
    ServesStoring (updateImm sz v ea f) s () { t.putReg loc sz u.1 with sr := u.2 } loc sz u.1 := by
  have h2 := updateEA_serves (h.after (immWordCount v)) ha (f (immValue v sz))
  rw [State.after_after] at h2
  exact .before (readImm_serves h v sz) h2

/-- `op Dn,<ea>` where the bus serves. -/
theorem updateByD_serves {s : State} (h : s.Ready) {ea : EA} {sz : Size} (ha : (eaLoc ea sz s).Accessible sz)
    (dn : RegNo) (f : Long → Update) :
    let t := eaStep ea sz (s.after (eaWords ea))
    let loc := eaLoc ea sz s
    let u := f (sz.trunc (s.readD dn)) (t.operand loc sz) s.sr
    ServesStoring (updateByD sz dn ea f) s () { t.putReg loc sz u.1 with sr := u.2 } loc sz u.1 := by
  intro t loc u
  have ht : t.Ready := (h.after _).eaStep ea sz
  have hu : f (sz.trunc (t.readD dn)) (t.operand loc sz) t.sr = u := by simp [u, t]
  obtain ⟨m, h1, h2⟩ := (writeLoc_serves ht.1 (loc := loc) ha u.1).setSr fun _ => u.2
  refine ⟨m, (resolveEA_serves h ea sz).bind ((readLoc_serves ht.1 ha).bind (.get (.get ?_))), h2⟩
  simp only [loc, t] at hu
  rw [hu]; exact h1

/-- Two data registers. -/
theorem updatePair_serves (s : State) (sz : Size) (dx dy : RegNo) (f : Long → Update) :
    let u := f (sz.trunc (s.readD dy)) (sz.trunc (s.readD dx)) s.sr
    Serves (updatePair sz dx dy f) s () { s.writeD dx (sz.merge (s.readD dx) u.1) with sr := u.2 } := .modify

/-- `op -(Ay),-(Ax)` where the bus serves. -/
theorem updatePairMem_serves {s : State} (h : s.Ready) {sz : Size} {ax ay : RegNo}
    (h1 : (eaLoc (.preDec ay) sz s).Accessible sz)
    (h2 : (eaLoc (.preDec ax) sz (eaStep (.preDec ay) sz s)).Accessible sz) (f : Long → Update) :
    let t1 := eaStep (.preDec ay) sz s
    let t := eaStep (.preDec ax) sz t1
    let loc := eaLoc (.preDec ax) sz t1
    let u := f (t1.operand (eaLoc (.preDec ay) sz s) sz) (t.operand loc sz) s.sr
    ServesStoring (updatePairMem sz ax ay f) s () { t with sr := u.2 } loc sz u.1 := by
  intro t1 t loc u
  have hr := readEA_serves h h1
  simp only [eaWords, State.after_zero] at hr
  have hw := updateEA_serves (h.eaStep (.preDec ay) sz) h2 (f (t1.operand (eaLoc (.preDec ay) sz s) sz))
  simp only [eaWords, State.after_zero] at hw
  have hs : t1.sr = s.sr := by simp [t1]
  have e : { t with sr := u.2 } = { t.putReg loc sz u.1 with sr := u.2 } := rfl
  have hu : u = f (t1.operand (eaLoc (.preDec ay) sz s) sz) (t.operand loc sz) t1.sr := by rw [hs]
  rw [e, hu]
  exact .before hr hw

end Sys2Proof.Machine
end

