-- ==== Sys2Proof/Tests/Slice0.lean ====
section
/-! SUPPORT. The model's own tests: the smoke tests of well-formedness, the words of every constructor written out
from the encodings of spec/30_encoding.md, one or two steps of each instruction, and for each obligation with
hypotheses a state and operands that meet them. -/

namespace Sys2Proof.Tests

set_option Elab.async false

open Sys2Proof.Machine

/-! ## Well-formedness: an ill-formed term for each check, which the check refuses -/

theorem test_wf_imm_destination : (Instr.addi .w (.word 1) (.imm16 2)).wellFormed = false := by decide
theorem test_wf_imm_long_word : (Instr.ori .l (.word 1) (.dreg 0)).wellFormed = false := by decide
theorem test_wf_imm_byte_long : (Instr.cmpi .b (.long 1) (.dreg 0)).wellFormed = false := by decide
theorem test_wf_btst_static_imm : (Instr.btstImm 0 (.imm16 1)).wellFormed = false := by decide
theorem test_wf_btst_dynamic_areg : (Instr.btstReg 0 (.areg 1)).wellFormed = false := by decide
theorem test_wf_bset_pc : (Instr.bsetReg 0 (.pcDisp 1)).wellFormed = false := by decide
theorem test_wf_move_byte_areg : (Instr.moveB (.areg 0) (.dreg 0)).wellFormed = false := by decide
theorem test_wf_move_to_areg : (Instr.moveW (.dreg 0) (.areg 0)).wellFormed = false := by decide
theorem test_wf_move_long_imm16 : (Instr.moveL (.imm16 0) (.dreg 0)).wellFormed = false := by decide
theorem test_wf_movea_word_imm32 : (Instr.moveaW 0 (.imm32 0)).wellFormed = false := by decide
theorem test_wf_movea_long_imm16 : (Instr.moveaL 0 (.imm16 0)).wellFormed = false := by decide
theorem test_wf_clr_areg : (Instr.clr .l (.areg 0)).wellFormed = false := by decide
theorem test_wf_move_from_sr_pc : (Instr.moveFromSr (.pcDisp 0)).wellFormed = false := by decide
theorem test_wf_chk_areg : (Instr.chk 0 (.areg 0)).wellFormed = false := by decide
theorem test_wf_lea_dreg : (Instr.lea 0 (.dreg 0)).wellFormed = false := by decide
theorem test_wf_jmp_postinc : (Instr.jmp (.postInc 0)).wellFormed = false := by decide
theorem test_wf_tas_imm : (Instr.tas (.imm16 0)).wellFormed = false := by decide
theorem test_wf_movem_store_postinc : (Instr.movemToMem .w 1 (.postInc 0)).wellFormed = false := by decide
theorem test_wf_movem_load_predec : (Instr.movemToRegs .w 1 (.preDec 0)).wellFormed = false := by decide
theorem test_wf_addq_byte_areg : (Instr.addq 1 .b (.areg 0)).wellFormed = false := by decide
theorem test_wf_bra_short_zero : (Instr.bra (.short 0)).wellFormed = false := by decide
theorem test_wf_bcc_condition_t : (Instr.bcc .t (.word 4)).wellFormed = false := by decide
theorem test_wf_bcc_short_zero : (Instr.bcc .ne (.short 0)).wellFormed = false := by decide
theorem test_wf_or_areg : (Instr.orToReg .w 0 (.areg 0)).wellFormed = false := by decide
theorem test_wf_add_to_dreg : (Instr.addToMem .w 0 (.dreg 0)).wellFormed = false := by decide
theorem test_wf_divu_areg : (Instr.divu 0 (.areg 0)).wellFormed = false := by decide
theorem test_wf_add_byte_areg : (Instr.addToReg .b 0 (.areg 0)).wellFormed = false := by decide
theorem test_wf_adda_long_imm16 : (Instr.addaL 0 (.imm16 0)).wellFormed = false := by decide
theorem test_wf_suba_word_imm32 : (Instr.subaW 0 (.imm32 0)).wellFormed = false := by decide
theorem test_wf_eor_imm : (Instr.eor .w 0 (.imm16 0)).wellFormed = false := by decide
theorem test_wf_shift_dreg : (Instr.aslMem (.dreg 0)).wellFormed = false := by decide

/-! ## Decoding: a word for each constructor, written from its encoding (R140 to R165) -/

/-- Each word sequence decodes to the instruction beside it, with no word left. -/
def decodesAll (cases : List (List Word × Instr)) : Bool :=
  cases.all fun c => match decode c.1 with
    | .ok (i, []) => i == c.2
    | _ => false

theorem test_decode_immediate_bit_movep : decodesAll [
    ([0b0000000000110101, 0xFF5A, 0b1011100011110000], .ori .b (.word 0xFF5A) (.index 5 ⟨true, 3, true, 0, 0xF0⟩)),
    ([0b0000001001011111, 0xFF5A], .andi .w (.word 0xFF5A) (.postInc 7)),
    ([0b0000010010111001, 0x89AB, 0xCDEF, 0x0012, 0x3456], .subi .l (.long 0x89ABCDEF) (.absL 0x00123456)),
    ([0b0000011000101100, 0xFF5A, 0x8004], .addi .b (.word 0xFF5A) (.disp 4 0x8004)),
    ([0b0000101001010010, 0xFF5A], .eori .w (.word 0xFF5A) (.ind 2)),
    ([0b0000110010111000, 0x89AB, 0xCDEF, 0x9000], .cmpi .l (.long 0x89ABCDEF) (.absW 0x9000)),
    ([0b0000000000111100, 0x271F], .oriToCcr 0x271F),
    ([0b0000000001111100, 0x271F], .oriToSr 0x271F),
    ([0b0000001000111100, 0x271F], .andiToCcr 0x271F),
    ([0b0000001001111100, 0x271F], .andiToSr 0x271F),
    ([0b0000101000111100, 0x271F], .eoriToCcr 0x271F),
    ([0b0000101001111100, 0x271F], .eoriToSr 0x271F),
    ([0b0000100000110101, 0x0107, 0b1011100011110000], .btstImm 0x0107 (.index 5 ⟨true, 3, true, 0, 0xF0⟩)),
    ([0b0000101100111001, 0x0012, 0x3456], .btstReg 5 (.absL 0x00123456)),
    ([0b0000100001110101, 0x0107, 0b1011100011110000], .bchgImm 0x0107 (.index 5 ⟨true, 3, true, 0, 0xF0⟩)),
    ([0b0000101101011111], .bchgReg 5 (.postInc 7)),
    ([0b0000100010111001, 0x0107, 0x0012, 0x3456], .bclrImm 0x0107 (.absL 0x00123456)),
    ([0b0000101110101100, 0x8004], .bclrReg 5 (.disp 4 0x8004)),
    ([0b0000100011010010, 0x0107], .bsetImm 0x0107 (.ind 2)),
    ([0b0000101111111000, 0x9000], .bsetReg 5 (.absW 0x9000)),
    ([0b0000101100001010, 0xFFFC], .movepWToReg 5 2 0xFFFC),
    ([0b0000101101001010, 0xFFFC], .movepLToReg 5 2 0xFFFC),
    ([0b0000101110001010, 0xFFFC], .movepWToMem 5 2 0xFFFC),
    ([0b0000101111001010, 0xFFFC], .movepLToMem 5 2 0xFFFC)] = true := by decide

theorem test_decode_move_b : decodesAll [
    ([0b0001011000111011, 0b0110011100001000], .moveB (.pcIndex ⟨false, 6, false, 7, 0x08⟩) (.dreg 3))] = true := by decide

theorem test_decode_move_l : decodesAll [
    ([0b0010111011001110], .moveL (.areg 6) (.postInc 7)),
    ([0b0010101001111010, 0x0010], .moveaL 5 (.pcDisp 0x0010))] = true := by decide

theorem test_decode_move_w : decodesAll [
    ([0b0011100101111100, 0x1234, 0x8004], .moveW (.imm16 0x1234) (.disp 4 0x8004)),
    ([0b0011101001010010], .moveaW 5 (.ind 2))] = true := by decide

theorem test_decode_line_4 : decodesAll [
    ([0b0100000010100001], .negx .l (.preDec 1)),
    ([0b0100000011000011], .moveFromSr (.dreg 3)),
    ([0b0100101110101100, 0x8004], .chk 5 (.disp 4 0x8004)),
    ([0b0100101111111001, 0x0012, 0x3456], .lea 5 (.absL 0x00123456)),
    ([0b0100001000111001, 0x0012, 0x3456], .clr .b (.absL 0x00123456)),
    ([0b0100010001101100, 0x8004], .neg .w (.disp 4 0x8004)),
    ([0b0100010011011111], .moveToCcr (.postInc 7)),
    ([0b0100011000111000, 0x9000], .notOp .b (.absW 0x9000)),
    ([0b0100011011010010], .moveToSr (.ind 2)),
    ([0b0100100000000011], .nbcd (.dreg 3)),
    ([0b0100100001000101], .swap 5),
    ([0b0100100001111001, 0x0012, 0x3456], .pea (.absL 0x00123456)),
    ([0b0100100010000101], .extW 5),
    ([0b0100100011000101], .extL 5),
    ([0b0100100011101100, 0x80F1, 0x8004], .movemToMem .l 0x80F1 (.disp 4 0x8004)),
    ([0b0100101010111001, 0x0012, 0x3456], .tst .l (.absL 0x00123456)),
    ([0b0100101011101100, 0x8004], .tas (.disp 4 0x8004)),
    ([0b0100101011111100], .illegal4AFC),
    ([0b0100101011111010], .illegal4AFA),
    ([0b0100101011111011], .illegal4AFB),
    ([0b0100110011011111, 0x80F1], .movemToRegs .l 0x80F1 (.postInc 7)),
    ([0b0100111001001110], .trap 14),
    ([0b0100111001010101, 0xFFFC], .link 5 0xFFFC),
    ([0b0100111001011101], .unlk 5),
    ([0b0100111001100101], .moveToUsp 5),
    ([0b0100111001101101], .moveFromUsp 5),
    ([0b0100111001110000], .reset),
    ([0b0100111001110001], .nop),
    ([0b0100111001110010, 0x271F], .stop 0x271F),
    ([0b0100111001110011], .rte),
    ([0b0100111001110101], .rts),
    ([0b0100111001110110], .trapv),
    ([0b0100111001110111], .rtr),
    ([0b0100111010101100, 0x8004], .jsr (.disp 4 0x8004)),
    ([0b0100111011111011, 0b0110011100001000], .jmp (.pcIndex ⟨false, 6, false, 7, 0x08⟩))] = true := by decide

theorem test_decode_quick_scc_dbcc : decodesAll [
    ([0b0101000001010010], .addq 0 .w (.ind 2)),
    ([0b0101111110111000, 0x9000], .subq 7 .l (.absW 0x9000)),
    ([0b0101000111011111], .scc .f (.postInc 7)),
    ([0b0101011011001101, 0xFFFC], .dbcc .ne 5 0xFFFC)] = true := by decide

theorem test_decode_branches : decodesAll [
    ([0b0110000000000000, 0x8002], .bra (.word 0x8002)),
    ([0b0110000111111110], .bsr (.short 0xFE)),
    ([0b0110011000000000, 0x8002], .bcc .ne (.word 0x8002))] = true := by decide

theorem test_decode_moveq : decodesAll [
    ([0b0111101010000001], .moveq 5 0x81)] = true := by decide

theorem test_decode_or_div_sbcd : decodesAll [
    ([0b1000101000111000, 0x9000], .orToReg .b 5 (.absW 0x9000)),
    ([0b1000101101101100, 0x8004], .orToMem .w 5 (.disp 4 0x8004)),
    ([0b1000101011110101, 0b1011100011110000], .divu 5 (.index 5 ⟨true, 3, true, 0, 0xF0⟩)),
    ([0b1000101111111100, 0x1234], .divs 5 (.imm16 0x1234)),
    ([0b1000101100000010], .sbcdReg 5 2),
    ([0b1000101100001010], .sbcdMem 5 2)] = true := by decide

theorem test_decode_sub : decodesAll [
    ([0b1001101000101100, 0x8004], .subToReg .b 5 (.disp 4 0x8004)),
    ([0b1001101101100001], .subToMem .w 5 (.preDec 1)),
    ([0b1001101011101100, 0x8004], .subaW 5 (.disp 4 0x8004)),
    ([0b1001101111111011, 0b0110011100001000], .subaL 5 (.pcIndex ⟨false, 6, false, 7, 0x08⟩)),
    ([0b1001101101000010], .subxReg .w 5 2),
    ([0b1001101110001010], .subxMem .l 5 2)] = true := by decide

theorem test_decode_add : decodesAll [
    ([0b1101101000011111], .addToReg .b 5 (.postInc 7)),
    ([0b1101101101011111], .addToMem .w 5 (.postInc 7)),
    ([0b1101101011001110], .addaW 5 (.areg 6)),
    ([0b1101101111110101, 0b1011100011110000], .addaL 5 (.index 5 ⟨true, 3, true, 0, 0xF0⟩)),
    ([0b1101101101000010], .addxReg .w 5 2),
    ([0b1101101110001010], .addxMem .l 5 2)] = true := by decide

theorem test_decode_line_1010 : decodesAll [
    ([0b1010000100100011], .lineA 0x123)] = true := by decide

theorem test_decode_cmp_eor : decodesAll [
    ([0b1011101001111100, 0x1234], .cmp .w 5 (.imm16 0x1234)),
    ([0b1011101011100001], .cmpaW 5 (.preDec 1)),
    ([0b1011101111111010, 0x0010], .cmpaL 5 (.pcDisp 0x0010)),
    ([0b1011101101011111], .eor .w 5 (.postInc 7)),
    ([0b1011101110001010], .cmpm .l 5 2)] = true := by decide

theorem test_decode_and_mul_abcd_exg : decodesAll [
    ([0b1100101000111011, 0b0110011100001000], .andToReg .b 5 (.pcIndex ⟨false, 6, false, 7, 0x08⟩)),
    ([0b1100101101111001, 0x0012, 0x3456], .andToMem .w 5 (.absL 0x00123456)),
    ([0b1100101011111010, 0x0010], .mulu 5 (.pcDisp 0x0010)),
    ([0b1100101111011111], .muls 5 (.postInc 7)),
    ([0b1100101100000010], .abcdReg 5 2),
    ([0b1100101100001010], .abcdMem 5 2),
    ([0b1100101101000010], .exgDD 5 2),
    ([0b1100101101001010], .exgAA 5 2),
    ([0b1100101110001010], .exgDA 5 2)] = true := by decide

theorem test_decode_shifts : decodesAll [
    ([0b1110000100000101], .aslReg (.imm 0) .b 5),
    ([0b1110000111010010], .aslMem (.ind 2)),
    ([0b1110000010000101], .asrReg (.imm 0) .l 5),
    ([0b1110000011111000, 0x9000], .asrMem (.absW 0x9000)),
    ([0b1110000101001101], .lslReg (.imm 0) .w 5),
    ([0b1110001111101100, 0x8004], .lslMem (.disp 4 0x8004)),
    ([0b1110000000001101], .lsrReg (.imm 0) .b 5),
    ([0b1110001011011111], .lsrMem (.postInc 7)),
    ([0b1110000110010101], .roxlReg (.imm 0) .l 5),
    ([0b1110010111111001, 0x0012, 0x3456], .roxlMem (.absL 0x00123456)),
    ([0b1110000001010101], .roxrReg (.imm 0) .w 5),
    ([0b1110010011110101, 0b1011100011110000], .roxrMem (.index 5 ⟨true, 3, true, 0, 0xF0⟩)),
    ([0b1110000100011101], .rolReg (.imm 0) .b 5),
    ([0b1110011111100001], .rolMem (.preDec 1)),
    ([0b1110000010011101], .rorReg (.imm 0) .l 5),
    ([0b1110011011010010], .rorMem (.ind 2))] = true := by decide

theorem test_decode_line_1111 : decodesAll [
    ([0b1111000100100011], .lineF 0x123)] = true := by decide

/-- Words that begin no instruction (R166 and the spot checks of spec/95_test_vectors.md section 1). -/
theorem test_decode_illegal : ([0x00BC, 0x017C, 0x083C, 0x1008, 0x1040, 0x4E74, 0x4E7A, 0x42C0, 0x4848, 0x49C0, 0x50FC,
    0x7100].all fun w => match decode [w, 0, 0, 0, 0] with
      | .ok _ => false
      | .error _ => true) = true := by decide

/-! ## One step of each instruction

The vectors named by a letter and a number are those of spec/95_test_vectors.md section 3; the others are computed by
hand from the instruction's rule. -/

/-- The vectors' start state: PC = $1000, SSP = $8000, USP = $7000, the words at PC. -/
def start (ws : List Word) : State :=
  ({ State.reset with g0Active := false, pc := 0x1000, ssp := 0x8000, usp := 0x7000 }).placeWords 0x1000 ws

/-- An input with a level, an answer to the acknowledge cycle, and nothing else. -/
def quiet (ipl : BitVec 3) (iack : IackAnswer) : Input where
  resetRequest := false
  haltPin := false
  ipl := ipl
  iack := iack
  dma := []
  turns := []

/-- The step completes in a state of which something holds. -/
def nextHas (o : Out) (p : State → Bool) : Bool :=
  match o with
  | .next s => p s
  | _ => false

/-- The condition codes X N Z V C as bits 4-0. -/
def ccr (s : State) : Word := s.sr.toWord &&& 0x1F

/-- A1: MOVE.W (A0),D0. -/
theorem test_moveW_A1 : nextHas (step ((start [0x3010])
      |>.writeA 0 0x2000
      |>.writeD 0 0xAAAAAAAA
      |>.pokeWord .superData 0x2000 0x1234))
    (fun s => s.pc == 0x1002 && s.readD 0 == 0xAAAA1234 && s.readA 0 == 0x2000 && ccr s == 0x0) = true := by decide +kernel

/-- A2: MOVE.B (A0)+,D0. -/
theorem test_moveB_A2 : nextHas (step ((start [0x1018])
      |>.writeA 0 0x2001
      |>.pokeByte .superData 0x2001 0x80))
    (fun s => s.pc == 0x1002 && s.readD 0 == 0x80 && s.readA 0 == 0x2002 && ccr s == 0x8) = true := by decide +kernel

/-- A4: MOVE.B D0,-(A7). -/
theorem test_moveB_A4 : nextHas (step ((start [0x1F00])
      |>.writeD 0 0xAB
      |>.pokeWord .superData 0x7FFE 0x1122))
    (fun s => s.pc == 0x1002 && s.ssp == 0x7FFE && s.peek .superData 0x7FFE .w == 0xAB22 &&
      ccr s == 0x8) = true := by decide +kernel

/-- A5: MOVE.L -(A0),D0. -/
theorem test_moveL_A5 : nextHas (step ((start [0x2020])
      |>.writeA 0 0x2004
      |>.pokeWord .superData 0x2000 0x89AB
      |>.pokeWord .superData 0x2002 0xCDEF))
    (fun s => s.pc == 0x1002 && s.readD 0 == 0x89ABCDEF && s.readA 0 == 0x2000 && ccr s == 0x8) = true := by decide +kernel

/-- A8: MOVE.W 4(A0,D1.W),D0. -/
theorem test_moveW_A8 : nextHas (step ((start [0x3030, 0x1004])
      |>.writeA 0 0x2000
      |>.writeD 1 0x1FFFE
      |>.pokeWord .superData 0x2002 0x44))
    (fun s => s.pc == 0x1004 && s.readD 0 == 0x44 && ccr s == 0x0) = true := by decide +kernel

/-- A10: MOVE.W -4(A0,A1.L),D0. -/
theorem test_moveW_A10 : nextHas (step ((start [0x3030, 0x98FC])
      |>.writeA 0 0x2000
      |>.writeA 1 0x10
      |>.pokeWord .superData 0x200C 0x46))
    (fun s => s.pc == 0x1004 && s.readD 0 == 0x46 && ccr s == 0x0) = true := by decide +kernel

/-- M1: EXG D1,D2. -/
theorem test_exgDD_M1 : nextHas (step ((start [0xC342])
      |>.writeD 1 0x11111111
      |>.writeD 2 0x22222222))
    (fun s => s.pc == 0x1002 && s.readD 1 == 0x22222222 && s.readD 2 == 0x11111111 && ccr s == 0x0) = true := by decide +kernel

/-- M2: EXG A1,A2. -/
theorem test_exgAA_M2 : nextHas (step ((start [0xC34A])
      |>.writeA 1 0x11111111
      |>.writeA 2 0x22222222))
    (fun s => s.pc == 0x1002 && s.readA 1 == 0x22222222 && s.readA 2 == 0x11111111 && ccr s == 0x0) = true := by decide +kernel

/-- M4: LEA $8000.W,A0. -/
theorem test_lea_M4 : nextHas (step ((start [0x41F8, 0x8000])))
    (fun s => s.pc == 0x1004 && s.readA 0 == 0xFFFF8000 && ccr s == 0x0) = true := by decide +kernel

/-- M6: LINK A6,#8. -/
theorem test_link_M6 : nextHas (step ((start [0x4E56, 0x8])
      |>.writeA 6 0xA6A6))
    (fun s => s.pc == 0x1004 && s.readA 6 == 0x7FFC && s.ssp == 0x8004 &&
      s.peek .superData 0x7FFC .l == 0xA6A6) = true := by decide +kernel

/-- M8: UNLK A7. -/
theorem test_unlk_M8 : nextHas (step ((start [0x4E5F])
      |>.pokeWord .superData 0x8000 0x0
      |>.pokeWord .superData 0x8002 0x6000))
    (fun s => s.pc == 0x1002 && s.ssp == 0x6000) = true := by decide +kernel

/-- M11: MOVE.W D0,A0 (MOVEA.W). -/
theorem test_moveaW_M11 : nextHas (step (({ start [0x3040] with sr := .ofWord 0x271F })
      |>.writeD 0 0xFFFE))
    (fun s => s.pc == 0x1002 && s.readA 0 == 0xFFFFFFFE && ccr s == 0x1F) = true := by decide +kernel

/-- M12: MOVEA.L A7,A0. -/
theorem test_moveaL_M12 : nextHas (step ((start [0x204F])))
    (fun s => s.pc == 0x1002 && s.readA 0 == 0x8000) = true := by decide +kernel

/-- M13: MOVEM.W D0/A0,(A1). -/
theorem test_movemToMem_M13 : nextHas (step ((start [0x4891, 0x101])
      |>.writeD 0 0x1234ABCD
      |>.writeA 0 0x5678
      |>.writeA 1 0x3000))
    (fun s => s.pc == 0x1004 && s.peek .superData 0x3000 .w == 0xABCD && s.peek .superData 0x3002 .w == 0x5678 &&
      s.readA 1 == 0x3000) = true := by decide +kernel

/-- By hand, after M15: MOVEM.W (A0)+,D0 sign-extends. -/
theorem test_movemToRegs_hand : nextHas (step ((start [0x4C98, 0x0001])
      |>.writeA 0 0x3000
      |>.pokeWord .superData 0x3000 0x89AB))
    (fun s => s.readD 0 == 0xFFFF89AB && s.readA 0 == 0x3002) = true := by decide +kernel

/-- By hand, after M20: MOVEP.L 0(A0),D0. -/
theorem test_movepLToReg_hand : nextHas (exec (.movepLToReg 0 0 0) ((start []).writeA 0 0x4000
      |>.pokeByte .superData 0x4006 0x44))
    (fun s => s.readD 0 == 0x44) = true := by decide +kernel

/-- M21: MOVEP.W D0,1(A0). -/
theorem test_movepWToMem_M21 : nextHas (step ((start [0x188, 0x1])
      |>.writeA 0 0x4000
      |>.writeD 0 0xBEEF
      |>.pokeWord .superData 0x4000 0x1111
      |>.pokeWord .superData 0x4002 0x1111))
    (fun s => s.pc == 0x1004 && s.peek .superData 0x4000 .l == 0x11BE11EF) = true := by decide +kernel

/-- M22: MOVEQ #0,D0. -/
theorem test_moveq_M22 : nextHas (step (({ start [0x7000] with sr := .ofWord 0x271B })
      |>.writeD 0 0xFFFFFFFF))
    (fun s => s.pc == 0x1002 && s.readD 0 == 0x0 && ccr s == 0x14) = true := by decide +kernel

/-- M24: PEA 4(A7). -/
theorem test_pea_M24 : nextHas (step ((start [0x486F, 0x4])))
    (fun s => s.pc == 0x1004 && s.ssp == 0x7FFC && s.peek .superData 0x7FFC .l == 0x8004) = true := by decide +kernel

/-- M25: SWAP D0. -/
theorem test_swap_M25 : nextHas (step (({ start [0x4840] with sr := .ofWord 0x271F })
      |>.writeD 0 0x0))
    (fun s => s.pc == 0x1002 && s.readD 0 == 0x0 && ccr s == 0x14) = true := by decide +kernel

/-- I1: ADD.B D1,D0. -/
theorem test_addToReg_I1 : nextHas (step ((start [0xD001])
      |>.writeD 0 0xAAAAAA7F
      |>.writeD 1 0x1))
    (fun s => s.pc == 0x1002 && s.readD 0 == 0xAAAAAA80 && ccr s == 0xA) = true := by decide +kernel

/-- I3: ADD.L D0,(A0). -/
theorem test_addToMem_I3 : nextHas (step ((start [0xD190])
      |>.writeD 0 0x80000000
      |>.writeA 0 0x2000
      |>.pokeWord .superData 0x2000 0x8000
      |>.pokeWord .superData 0x2002 0x0))
    (fun s => s.pc == 0x1002 && s.peek .superData 0x2000 .l == 0x0 && ccr s == 0x17) = true := by decide +kernel

/-- I4: ADDA.W D0,A0. -/
theorem test_addaW_I4 : nextHas (step (({ start [0xD0C0] with sr := .ofWord 0x271F })
      |>.writeD 0 0x8000
      |>.writeA 0 0x10000))
    (fun s => s.pc == 0x1002 && s.readA 0 == 0x8000 && ccr s == 0x1F) = true := by decide +kernel

/-- I5: ADDI.B #$FF,D0. -/
theorem test_addi_I5 : nextHas (step ((start [0x600, 0xFF])
      |>.writeD 0 0x1))
    (fun s => s.pc == 0x1004 && s.readD 0 == 0x0 && ccr s == 0x15) = true := by decide +kernel

/-- I7: ADDQ.L #8,D0. -/
theorem test_addq_I7 : nextHas (step ((start [0x5080])
      |>.writeD 0 0xFFFFFFF8))
    (fun s => s.pc == 0x1002 && s.readD 0 == 0x0 && ccr s == 0x15) = true := by decide +kernel

/-- I10: ADDX.L D1,D0. -/
theorem test_addxReg_I10 : nextHas (step (({ start [0xD181] with sr := .ofWord 0x2714 })
      |>.writeD 0 0xFFFFFFFF
      |>.writeD 1 0x0))
    (fun s => s.pc == 0x1002 && s.readD 0 == 0x0 && ccr s == 0x15) = true := by decide +kernel

/-- I12: ADDX.B -(A1),-(A0). -/
theorem test_addxMem_I12 : nextHas (step (({ start [0xD109] with sr := .ofWord 0x2704 })
      |>.writeA 0 0x2001
      |>.writeA 1 0x3001
      |>.pokeByte .superData 0x2000 0x1
      |>.pokeByte .superData 0x3000 0x2))
    (fun s => s.pc == 0x1002 && s.readA 0 == 0x2000 && s.readA 1 == 0x3000 && s.peek .superData 0x2000 .b == 0x3 &&
      ccr s == 0x0) = true := by decide +kernel

/-- I13: CLR.W (A0). -/
theorem test_clr_I13 : nextHas (step (({ start [0x4250] with sr := .ofWord 0x271F })
      |>.writeA 0 0x2000
      |>.pokeWord .superData 0x2000 0xFFFF))
    (fun s => s.pc == 0x1002 && s.peek .superData 0x2000 .w == 0x0 && ccr s == 0x14) = true := by decide +kernel

/-- I14: CMP.B D1,D0. -/
theorem test_cmp_I14 : nextHas (step (({ start [0xB001] with sr := .ofWord 0x2710 })
      |>.writeD 0 0x0
      |>.writeD 1 0x1))
    (fun s => s.pc == 0x1002 && s.readD 0 == 0x0 && ccr s == 0x19) = true := by decide +kernel

/-- I16: CMPA.W D0,A0. -/
theorem test_cmpaW_I16 : nextHas (step ((start [0xB0C0])
      |>.writeD 0 0xFFFF
      |>.writeA 0 0xFFFFFFFF))
    (fun s => s.pc == 0x1002 && ccr s == 0x4) = true := by decide +kernel

/-- I17: CMPI.L #$12345678,D0. -/
theorem test_cmpi_I17 : nextHas (step ((start [0xC80, 0x1234, 0x5678])
      |>.writeD 0 0x12345678))
    (fun s => s.pc == 0x1006 && ccr s == 0x4) = true := by decide +kernel

/-- I18: CMPM.B (A0)+,(A1)+. -/
theorem test_cmpm_I18 : nextHas (step ((start [0xB308])
      |>.writeA 0 0x2000
      |>.writeA 1 0x3000
      |>.pokeByte .superData 0x2000 0x5
      |>.pokeByte .superData 0x3000 0x3))
    (fun s => s.pc == 0x1002 && s.readA 0 == 0x2001 && s.readA 1 == 0x3001 && ccr s == 0x9) = true := by decide +kernel

/-- I20: DIVS D1,D0. -/
theorem test_divs_I20 : nextHas (step ((start [0x81C1])
      |>.writeD 0 0xFFFFFFF9
      |>.writeD 1 0x2))
    (fun s => s.pc == 0x1002 && s.readD 0 == 0xFFFFFFFD && ccr s == 0x8) = true := by decide +kernel

/-- I23: DIVU D1,D0. -/
theorem test_divu_I23 : nextHas (step ((start [0x80C1])
      |>.writeD 0 0x10000
      |>.writeD 1 0x1))
    (fun s => s.pc == 0x1002 && s.readD 0 == 0x10000 && !s.sr.x && s.sr.v && !s.sr.c) = true := by decide +kernel

/-- I26: EXT.W D0. -/
theorem test_extW_I26 : nextHas (step ((start [0x4880])
      |>.writeD 0 0xAAAA0080))
    (fun s => s.pc == 0x1002 && s.readD 0 == 0xAAAAFF80 && ccr s == 0x8) = true := by decide +kernel

/-- I27: EXT.L D0. -/
theorem test_extL_I27 : nextHas (step ((start [0x48C0])
      |>.writeD 0 0xAAAA7FFF))
    (fun s => s.pc == 0x1002 && s.readD 0 == 0x7FFF && ccr s == 0x0) = true := by decide +kernel

/-- I28: MULS D1,D0. -/
theorem test_muls_I28 : nextHas (step ((start [0xC1C1])
      |>.writeD 0 0xAAAAFFFF
      |>.writeD 1 0x2))
    (fun s => s.pc == 0x1002 && s.readD 0 == 0xFFFFFFFE && ccr s == 0x8) = true := by decide +kernel

/-- I30: MULU D1,D0. -/
theorem test_mulu_I30 : nextHas (step ((start [0xC0C1])
      |>.writeD 0 0xFFFF
      |>.writeD 1 0xFFFF))
    (fun s => s.pc == 0x1002 && s.readD 0 == 0xFFFE0001 && ccr s == 0x8) = true := by decide +kernel

/-- I31: NEG.B D0. -/
theorem test_neg_I31 : nextHas (step ((start [0x4400])
      |>.writeD 0 0x80))
    (fun s => s.pc == 0x1002 && s.readD 0 == 0x80 && ccr s == 0x1B) = true := by decide +kernel

/-- I33: NEGX.B D0. -/
theorem test_negx_I33 : nextHas (step (({ start [0x4000] with sr := .ofWord 0x2714 })
      |>.writeD 0 0x0))
    (fun s => s.pc == 0x1002 && s.readD 0 == 0xFF && ccr s == 0x19) = true := by decide +kernel

/-- I36: SUB.W D1,D0. -/
theorem test_subToReg_I36 : nextHas (step ((start [0x9041])
      |>.writeD 0 0x0
      |>.writeD 1 0x1))
    (fun s => s.pc == 0x1002 && s.readD 0 == 0xFFFF && ccr s == 0x19) = true := by decide +kernel

/-- I37: SUBA.L D0,A0. -/
theorem test_subaL_I37 : nextHas (step (({ start [0x91C0] with sr := .ofWord 0x2700 })
      |>.writeD 0 0x1
      |>.writeA 0 0x0))
    (fun s => s.pc == 0x1002 && s.readA 0 == 0xFFFFFFFF && ccr s == 0x0) = true := by decide +kernel

/-- I38: SUBI.W #1,D0. -/
theorem test_subi_I38 : nextHas (step ((start [0x440, 0x1])
      |>.writeD 0 0x8000))
    (fun s => s.pc == 0x1004 && s.readD 0 == 0x7FFF && ccr s == 0x2) = true := by decide +kernel

/-- I39: SUBQ.W #1,A0. -/
theorem test_subq_I39 : nextHas (step ((start [0x5348])
      |>.writeA 0 0x0))
    (fun s => s.pc == 0x1002 && s.readA 0 == 0xFFFFFFFF && ccr s == 0x0) = true := by decide +kernel

/-- I41: SUBX.L D1,D0. -/
theorem test_subxReg_I41 : nextHas (step (({ start [0x9181] with sr := .ofWord 0x2714 })
      |>.writeD 0 0x0
      |>.writeD 1 0x0))
    (fun s => s.pc == 0x1002 && s.readD 0 == 0xFFFFFFFF && ccr s == 0x19) = true := by decide +kernel

/-- I42: TAS (A0). -/
theorem test_tas_I42 : nextHas (step ((start [0x4AD0])
      |>.writeA 0 0x2000
      |>.pokeByte .superData 0x2000 0x0))
    (fun s => s.pc == 0x1002 && s.peek .superData 0x2000 .b == 0x80 && ccr s == 0x4) = true := by decide +kernel

/-- I44: TST.L D0. -/
theorem test_tst_I44 : nextHas (step (({ start [0x4A80] with sr := .ofWord 0x2713 })
      |>.writeD 0 0x80000000))
    (fun s => s.pc == 0x1002 && ccr s == 0x18) = true := by decide +kernel

/-- G1: AND.W D1,D0. -/
theorem test_andToReg_G1 : nextHas (step (({ start [0xC041] with sr := .ofWord 0x271F })
      |>.writeD 0 0xFFFF8F0F
      |>.writeD 1 0xF0F0))
    (fun s => s.pc == 0x1002 && s.readD 0 == 0xFFFF8000 && ccr s == 0x18) = true := by decide +kernel

/-- G2: AND.L D0,(A0). -/
theorem test_andToMem_G2 : nextHas (step ((start [0xC190])
      |>.writeD 0 0xFFFF
      |>.writeA 0 0x2000
      |>.pokeWord .superData 0x2000 0x1234
      |>.pokeWord .superData 0x2002 0x5678))
    (fun s => s.pc == 0x1002 && s.peek .superData 0x2000 .l == 0x5678 && ccr s == 0x0) = true := by decide +kernel

/-- G3: AND.W A0,D0. -/
theorem test_step_G3 : nextHas (step ((start [0xC048])
      |>.pokeWord .superData 0x10 0x0
      |>.pokeWord .superData 0x12 0x4000))
    (fun s => s.pc == 0x4000 && s.ssp == 0x7FFA && s.peek .superData 0x7FFC .l == 0x1000) = true := by decide +kernel

/-- G4: ANDI.B #$0F,D0. -/
theorem test_andi_G4 : nextHas (step ((start [0x200, 0xF])
      |>.writeD 0 0x123456F0))
    (fun s => s.pc == 0x1004 && s.readD 0 == 0x12345600 && ccr s == 0x4) = true := by decide +kernel

/-- G5: OR.B D1,D0. -/
theorem test_orToReg_G5 : nextHas (step ((start [0x8001])
      |>.writeD 0 0x1
      |>.writeD 1 0x80))
    (fun s => s.pc == 0x1002 && s.readD 0 == 0x81 && ccr s == 0x8) = true := by decide +kernel

/-- G6: OR.W D0,(A0)+. -/
theorem test_orToMem_G6 : nextHas (step ((start [0x8158])
      |>.writeD 0 0xF
      |>.writeA 0 0x2000
      |>.pokeWord .superData 0x2000 0xF0))
    (fun s => s.pc == 0x1002 && s.peek .superData 0x2000 .w == 0xFF && s.readA 0 == 0x2002 &&
      ccr s == 0x0) = true := by decide +kernel

/-- G7: ORI.L #$80000000,D0. -/
theorem test_ori_G7 : nextHas (step ((start [0x80, 0x8000, 0x0])
      |>.writeD 0 0x1))
    (fun s => s.pc == 0x1006 && s.readD 0 == 0x80000001 && ccr s == 0x8) = true := by decide +kernel

/-- G8: EOR.W D1,D0. -/
theorem test_eor_G8 : nextHas (step ((start [0xB340])
      |>.writeD 0 0xFFFF
      |>.writeD 1 0xFF00))
    (fun s => s.pc == 0x1002 && s.readD 0 == 0xFF && ccr s == 0x0) = true := by decide +kernel

/-- G10: EORI.W #$FFFF,D0. -/
theorem test_eori_G10 : nextHas (step ((start [0xA40, 0xFFFF])
      |>.writeD 0 0x5555))
    (fun s => s.pc == 0x1004 && s.readD 0 == 0xAAAA && ccr s == 0x8) = true := by decide +kernel

/-- G11: NOT.B D0. -/
theorem test_notOp_G11 : nextHas (step ((start [0x4600])
      |>.writeD 0 0xFF))
    (fun s => s.pc == 0x1002 && s.readD 0 == 0x0 && ccr s == 0x4) = true := by decide +kernel

/-- S1: ASL.B #1,D0. -/
theorem test_aslReg_S1 : nextHas (step ((start [0xE300])
      |>.writeD 0 0x40))
    (fun s => s.pc == 0x1002 && s.readD 0 == 0x80 && ccr s == 0xA) = true := by decide +kernel

/-- S6: ASR.W #1,D0. -/
theorem test_asrReg_S6 : nextHas (step ((start [0xE240])
      |>.writeD 0 0x8001))
    (fun s => s.pc == 0x1002 && s.readD 0 == 0xC000 && ccr s == 0x19) = true := by decide +kernel

/-- S8: LSL.L D1,D0. -/
theorem test_lslReg_S8 : nextHas (step ((start [0xE3A8])
      |>.writeD 0 0x1
      |>.writeD 1 0x20))
    (fun s => s.pc == 0x1002 && s.readD 0 == 0x0 && ccr s == 0x15) = true := by decide +kernel

/-- S10: LSR.W #1,D0. -/
theorem test_lsrReg_S10 : nextHas (step ((start [0xE248])
      |>.writeD 0 0x1))
    (fun s => s.pc == 0x1002 && s.readD 0 == 0x0 && ccr s == 0x15) = true := by decide +kernel

/-- S12: ROL.B #1,D0. -/
theorem test_rolReg_S12 : nextHas (step (({ start [0xE318] with sr := .ofWord 0x2710 })
      |>.writeD 0 0x80))
    (fun s => s.pc == 0x1002 && s.readD 0 == 0x1 && ccr s == 0x11) = true := by decide +kernel

/-- S15: ROR.L #1,D0. -/
theorem test_rorReg_S15 : nextHas (step ((start [0xE298])
      |>.writeD 0 0x1))
    (fun s => s.pc == 0x1002 && s.readD 0 == 0x80000000 && ccr s == 0x9) = true := by decide +kernel

/-- S16: ROXL.B #1,D0. -/
theorem test_roxlReg_S16 : nextHas (step ((start [0xE310])
      |>.writeD 0 0x80))
    (fun s => s.pc == 0x1002 && s.readD 0 == 0x0 && ccr s == 0x15) = true := by decide +kernel

/-- S18: ROXR.W D1,D0. -/
theorem test_roxrReg_S18 : nextHas (step (({ start [0xE270] with sr := .ofWord 0x2710 })
      |>.writeD 0 0x1234
      |>.writeD 1 0x0))
    (fun s => s.pc == 0x1002 && s.readD 0 == 0x1234 && ccr s == 0x11) = true := by decide +kernel

/-- S20: ASL (A0). -/
theorem test_aslMem_S20 : nextHas (step ((start [0xE1D0])
      |>.writeA 0 0x2000
      |>.pokeWord .superData 0x2000 0xC000))
    (fun s => s.pc == 0x1002 && s.peek .superData 0x2000 .w == 0x8000 && ccr s == 0x19) = true := by decide +kernel

/-- S21: LSR (A0). -/
theorem test_lsrMem_S21 : nextHas (step ((start [0xE2D0])
      |>.writeA 0 0x2000
      |>.pokeWord .superData 0x2000 0x1))
    (fun s => s.pc == 0x1002 && s.peek .superData 0x2000 .w == 0x0 && ccr s == 0x15) = true := by decide +kernel

/-- S22: ROXL (A0). -/
theorem test_roxlMem_S22 : nextHas (step (({ start [0xE5D0] with sr := .ofWord 0x2710 })
      |>.writeA 0 0x2000
      |>.pokeWord .superData 0x2000 0x8000))
    (fun s => s.pc == 0x1002 && s.peek .superData 0x2000 .w == 0x1 && ccr s == 0x11) = true := by decide +kernel

/-- S23: ROR (A0)+. -/
theorem test_rorMem_S23 : nextHas (step ((start [0xE6D8])
      |>.writeA 0 0x2000
      |>.pokeWord .superData 0x2000 0x1))
    (fun s => s.pc == 0x1002 && s.peek .superData 0x2000 .w == 0x8000 && s.readA 0 == 0x2002 &&
      ccr s == 0x9) = true := by decide +kernel

/-- S24: (illegal) $E1C0. -/
theorem test_step_S24 : nextHas (step ((start [0xE1C0])
      |>.pokeWord .superData 0x10 0x0
      |>.pokeWord .superData 0x12 0x4000))
    (fun s => s.pc == 0x4000 && s.ssp == 0x7FFA && s.peek .superData 0x7FFC .l == 0x1000) = true := by decide +kernel

/-- S25: (illegal) $E8D0. -/
theorem test_step_S25 : nextHas (step ((start [0xE8D0])
      |>.pokeWord .superData 0x10 0x0
      |>.pokeWord .superData 0x12 0x4000))
    (fun s => s.pc == 0x4000 && s.ssp == 0x7FFA && s.peek .superData 0x7FFC .l == 0x1000) = true := by decide +kernel

/-- T1: BTST D1,D0. -/
theorem test_btstReg_T1 : nextHas (step ((start [0x300])
      |>.writeD 0 0x2
      |>.writeD 1 0x21))
    (fun s => s.pc == 0x1002 && s.readD 0 == 0x2 && ccr s == 0x0) = true := by decide +kernel

/-- T2: BTST #15,(A0). -/
theorem test_btstImm_T2 : nextHas (step ((start [0x810, 0xF])
      |>.writeA 0 0x2000
      |>.pokeByte .superData 0x2000 0x7F))
    (fun s => s.pc == 0x1004 && ccr s == 0x4) = true := by decide +kernel

/-- T4: BTST #0,#1 (illegal). -/
theorem test_step_T4 : nextHas (step ((start [0x83C, 0x0])
      |>.pokeWord .superData 0x10 0x0
      |>.pokeWord .superData 0x12 0x4000))
    (fun s => s.pc == 0x4000 && s.ssp == 0x7FFA && s.peek .superData 0x7FFC .l == 0x1000) = true := by decide +kernel

/-- T5: BCHG #31,D0. -/
theorem test_bchgImm_T5 : nextHas (step ((start [0x840, 0x1F])
      |>.writeD 0 0x0))
    (fun s => s.pc == 0x1004 && s.readD 0 == 0x80000000 && ccr s == 0x4) = true := by decide +kernel

/-- T7: BCLR D1,(A0). -/
theorem test_bclrReg_T7 : nextHas (step ((start [0x390])
      |>.writeD 1 0xF
      |>.writeA 0 0x2001
      |>.pokeByte .superData 0x2001 0xFF))
    (fun s => s.pc == 0x1002 && s.peek .superData 0x2001 .b == 0x7F && ccr s == 0x0) = true := by decide +kernel

/-- T8: BSET #3,(A0)+. -/
theorem test_bsetImm_T8 : nextHas (step ((start [0x8D8, 0x3])
      |>.writeA 0 0x2000))
    (fun s => s.pc == 0x1004 && s.peek .superData 0x2000 .b == 0x8 && s.readA 0 == 0x2001 &&
      ccr s == 0x4) = true := by decide +kernel

/-- T9: BSET D0,D0. -/
theorem test_bsetReg_T9 : nextHas (step ((start [0x1C0])
      |>.writeD 0 0x5))
    (fun s => s.pc == 0x1002 && s.readD 0 == 0x25 && ccr s == 0x4) = true := by decide +kernel

/-- B1: ABCD D1,D0. -/
theorem test_abcdReg_B1 : nextHas (step (({ start [0xC101] with sr := .ofWord 0x2704 })
      |>.writeD 0 0xAAAAAA99
      |>.writeD 1 0x1))
    (fun s => s.pc == 0x1002 && s.readD 0 == 0xAAAAAA00 && s.sr.x && s.sr.z && s.sr.c) = true := by decide +kernel

/-- B3: ABCD -(A1),-(A0). -/
theorem test_abcdMem_B3 : nextHas (step ((start [0xC109])
      |>.writeA 0 0x2001
      |>.writeA 1 0x3001
      |>.pokeByte .superData 0x2000 0x19
      |>.pokeByte .superData 0x3000 0x1))
    (fun s => s.pc == 0x1002 && s.peek .superData 0x2000 .b == 0x20 && s.readA 0 == 0x2000 &&
      s.readA 1 == 0x3000 && !s.sr.x) = true := by decide +kernel

/-- B4: SBCD D1,D0. -/
theorem test_sbcdReg_B4 : nextHas (step (({ start [0x8101] with sr := .ofWord 0x2704 })
      |>.writeD 0 0x0
      |>.writeD 1 0x1))
    (fun s => s.pc == 0x1002 && s.readD 0 == 0x99 && s.sr.x && !s.sr.z && s.sr.c) = true := by decide +kernel

/-- B6: NBCD D0. -/
theorem test_nbcd_B6 : nextHas (step (({ start [0x4800] with sr := .ofWord 0x2704 })
      |>.writeD 0 0x0))
    (fun s => s.pc == 0x1002 && s.readD 0 == 0x0 && !s.sr.x && s.sr.z && !s.sr.c) = true := by decide +kernel

/-- P1: BNE.S *+6. -/
theorem test_bcc_P1 : nextHas (step (({ start [0x6604] with sr := .ofWord 0x2700 })))
    (fun s => s.pc == 0x1006) = true := by decide +kernel

/-- P7: BRA.S *+$82 (backwards). -/
theorem test_bra_P7 : nextHas (step ((start [0x6080])))
    (fun s => s.pc == 0xF82) = true := by decide +kernel

/-- P10: BSR.S *+$12. -/
theorem test_bsr_P10 : nextHas (step ((start [0x6110])))
    (fun s => s.pc == 0x1012 && s.ssp == 0x7FFC && s.peek .superData 0x7FFC .l == 0x1002) = true := by decide +kernel

/-- P12: DBF D0,*. -/
theorem test_dbcc_P12 : nextHas (step ((start [0x51C8, 0xFFFE])
      |>.writeD 0 0x10002))
    (fun s => s.pc == 0x1000 && s.readD 0 == 0x10001) = true := by decide +kernel

/-- P16: ST D0. -/
theorem test_scc_P16 : nextHas (step (({ start [0x50C0] with sr := .ofWord 0x271F })
      |>.writeD 0 0x12345600))
    (fun s => s.pc == 0x1002 && s.readD 0 == 0x123456FF && ccr s == 0x1F) = true := by decide +kernel

/-- P20: JMP (A0). -/
theorem test_jmp_P20 : nextHas (step ((start [0x4ED0])
      |>.writeA 0 0x2000))
    (fun s => s.pc == 0x2000) = true := by decide +kernel

/-- P24: JSR (A0). -/
theorem test_jsr_P24 : nextHas (step ((start [0x4E90])
      |>.writeA 0 0x2000))
    (fun s => s.pc == 0x2000 && s.ssp == 0x7FFC && s.peek .superData 0x7FFC .l == 0x1002) = true := by decide +kernel

/-- P27: RTS. -/
theorem test_rts_P27 : nextHas (step ((start [0x4E75])
      |>.pokeWord .superData 0x8000 0x0
      |>.pokeWord .superData 0x8002 0x2000))
    (fun s => s.pc == 0x2000 && s.ssp == 0x8004) = true := by decide +kernel

/-- P28: RTR. -/
theorem test_rtr_P28 : nextHas (step (({ start [0x4E77] with sr := .ofWord 0x2700 })
      |>.pokeWord .superData 0x8000 0xFFF5
      |>.pokeWord .superData 0x8002 0x0
      |>.pokeWord .superData 0x8004 0x2000))
    (fun s => s.pc == 0x2000 && s.ssp == 0x8006 && s.sr.toWord == 0x2715) = true := by decide +kernel

/-- P29: NOP. -/
theorem test_nop_P29 : nextHas (step (({ start [0x4E71] with sr := .ofWord 0x271F })))
    (fun s => s.pc == 0x1002 && ccr s == 0x1F) = true := by decide +kernel

/-- Y1: ANDI #$FE,CCR. -/
theorem test_andiToCcr_Y1 : nextHas (step (({ start [0x23C, 0xFFFE] with sr := .ofWord 0x271F })))
    (fun s => s.pc == 0x1004 && s.sr.toWord == 0x271E) = true := by decide +kernel

/-- Y2: EORI #$1F,CCR. -/
theorem test_eoriToCcr_Y2 : nextHas (step (({ start [0xA3C, 0x1F] with sr := .ofWord 0x2715 })))
    (fun s => s.pc == 0x1004 && s.sr.toWord == 0x270A) = true := by decide +kernel

/-- Y3: ORI #$FF,CCR. -/
theorem test_oriToCcr_Y3 : nextHas (step (({ start [0x3C, 0xFF] with sr := .ofWord 0x2700 })))
    (fun s => s.pc == 0x1004 && s.sr.toWord == 0x271F) = true := by decide +kernel

/-- Y4: ANDI #$DFFF,SR. -/
theorem test_andiToSr_Y4 : nextHas (step ((start [0x27C, 0xDFFF])))
    (fun s => s.pc == 0x1004 && s.sr.toWord == 0x700 && s.ssp == 0x8000 && s.usp == 0x7000) = true := by decide +kernel

/-- Y5: ORI #$2000,SR (user). -/
theorem test_oriToSr_Y5 : nextHas (step (({ start [0x7C, 0x2000] with sr := .ofWord 0x0 })
      |>.pokeWord .superData 0x20 0x0
      |>.pokeWord .superData 0x22 0x4000))
    (fun s => s.pc == 0x4000 && s.sr.toWord == 0x2000 && s.ssp == 0x7FFA && s.usp == 0x7000 &&
      s.peek .superData 0x7FFA .w == 0x0) = true := by decide +kernel

/-- Y6: EORI #$8000,SR. -/
theorem test_eoriToSr_Y6 : nextHas (step ((start [0xA7C, 0x8000])))
    (fun s => s.pc == 0x1004 && s.sr.toWord == 0xA700 && s.ssp == 0x8000) = true := by decide +kernel

/-- Y7: MOVE D0,CCR. -/
theorem test_moveToCcr_Y7 : nextHas (step ((start [0x44C0])
      |>.writeD 0 0xFFFF))
    (fun s => s.pc == 0x1002 && s.sr.toWord == 0x271F) = true := by decide +kernel

/-- Y8: MOVE D0,SR. -/
theorem test_moveToSr_Y8 : nextHas (step ((start [0x46C0])
      |>.writeD 0 0xFFFF))
    (fun s => s.pc == 0x1002 && s.sr.toWord == 0xA71F) = true := by decide +kernel

/-- Y10: MOVE SR,D0 (user). -/
theorem test_moveFromSr_Y10 : nextHas (step (({ start [0x40C0] with sr := .ofWord 0x1F })
      |>.writeD 0 0xFFFFFFFF))
    (fun s => s.pc == 0x1002 && s.readD 0 == 0xFFFF001F && s.sr.toWord == 0x1F) = true := by decide +kernel

/-- Y12: MOVE A0,USP. -/
theorem test_moveToUsp_Y12 : nextHas (step ((start [0x4E60])
      |>.writeA 0 0x6000))
    (fun s => s.pc == 0x1002 && s.usp == 0x6000 && s.ssp == 0x8000) = true := by decide +kernel

/-- Y13: MOVE USP,A1. -/
theorem test_moveFromUsp_Y13 : nextHas (step ((start [0x4E69])))
    (fun s => s.pc == 0x1002 && s.readA 1 == 0x7000) = true := by decide +kernel

/-- Y15: RESET. -/
theorem test_reset_Y15 : nextHas (step (({ start [0x4E70] with sr := .ofWord 0x271F })
      |>.writeD 0 0x12345678))
    (fun s => s.pc == 0x1002 && s.readD 0 == 0x12345678 && s.sr.toWord == 0x271F) = true := by decide +kernel

/-- Y16: RTE. -/
theorem test_rte_Y16 : nextHas (step ((start [0x4E73])
      |>.pokeWord .superData 0x8000 0x15
      |>.pokeWord .superData 0x8002 0x0
      |>.pokeWord .superData 0x8004 0x2000))
    (fun s => s.pc == 0x2000 && s.sr.toWord == 0x15 && s.ssp == 0x8006 && s.usp == 0x7000) = true := by decide +kernel

/-- Y19: STOP #$2000. -/
theorem test_stop_Y19 : nextHas (step ((start [0x4E72, 0x2000])))
    (fun s => s.pc == 0x1004 && s.sr.toWord == 0x2000 && s.pstate == .stopped) = true := by decide +kernel

/-- Y23: STOP #$2700 with T = 1. -/
theorem test_stop_Y23 : nextHas (step (({ start [0x4E72, 0x2700] with sr := .ofWord 0xA700 })
      |>.pokeWord .superData 0x24 0x0
      |>.pokeWord .superData 0x26 0x4800))
    (fun s => s.pc == 0x4800 && s.sr.toWord == 0x2700 && s.pstate == .normal && s.ssp == 0x7FFA &&
      s.peek .superData 0x7FFA .w == 0x2700) = true := by decide +kernel

/-- Y27: CHK D1,D0, D0.W equal to the bound. -/
theorem test_chk_Y27 : nextHas (step (({ start [0x4181] with sr := .ofWord 0x2710 })
      |>.writeD 0 0xFFFF0010
      |>.writeD 1 0x10))
    (fun s => s.pc == 0x1002 && s.ssp == 0x8000 && s.sr.x) = true := by decide +kernel

/-- Y25: CHK D1,D0, D0.W negative: a frame is pushed (its condition codes hold free values). -/
theorem test_chk_Y25 : nextHas (step ((start [0x4181])
      |>.writeD 0 0xFFFF
      |>.writeD 1 0x10))
    (fun s => s.ssp == 0x7FFA) = true := by decide +kernel

/-- Y29: TRAP #0. -/
theorem test_trap_Y29 : nextHas (step ((start [0x4E40])
      |>.pokeWord .superData 0x80 0x0
      |>.pokeWord .superData 0x82 0x4000))
    (fun s => s.pc == 0x4000 && s.sr.toWord == 0x2700 && s.ssp == 0x7FFA &&
      s.peek .superData 0x7FFA .w == 0x2700 && s.peek .superData 0x7FFC .l == 0x1002) = true := by decide +kernel

/-- Y30: TRAP #15 (user, T = 1). -/
theorem test_trap_Y30 : nextHas (step (({ start [0x4E4F] with sr := .ofWord 0x8010 })
      |>.pokeWord .superData 0xBC 0x0
      |>.pokeWord .superData 0xBE 0x4000
      |>.pokeWord .superData 0x24 0x0
      |>.pokeWord .superData 0x26 0x4800))
    (fun s => s.pc == 0x4800 && s.sr.toWord == 0x2010 && s.ssp == 0x7FF4 && s.usp == 0x7000 &&
      s.peek .superData 0x7FFA .w == 0x8010) = true := by decide +kernel

/-- Y31: TRAPV. -/
theorem test_trapv_Y31 : nextHas (step (({ start [0x4E76] with sr := .ofWord 0x2702 })
      |>.pokeWord .superData 0x1C 0x0
      |>.pokeWord .superData 0x1E 0x4000))
    (fun s => s.pc == 0x4000 && s.ssp == 0x7FFA && s.peek .superData 0x7FFA .w == 0x2702 &&
      s.peek .superData 0x7FFC .l == 0x1002) = true := by decide +kernel

/-- Y33: ILLEGAL. -/
theorem test_illegal4AFC_Y33 : nextHas (step ((start [0x4AFC])
      |>.pokeWord .superData 0x10 0x0
      |>.pokeWord .superData 0x12 0x4000))
    (fun s => s.pc == 0x4000 && s.ssp == 0x7FFA && s.peek .superData 0x7FFC .l == 0x1000) = true := by decide +kernel

/-- Y34: $4AFA. -/
theorem test_illegal4AFA_Y34 : nextHas (step ((start [0x4AFA])
      |>.pokeWord .superData 0x10 0x0
      |>.pokeWord .superData 0x12 0x4000))
    (fun s => s.pc == 0x4000 && s.ssp == 0x7FFA && s.peek .superData 0x7FFC .l == 0x1000) = true := by decide +kernel

/-- Y35: $A123 (line 1010). -/
theorem test_lineA_Y35 : nextHas (step ((start [0xA123])
      |>.pokeWord .superData 0x28 0x0
      |>.pokeWord .superData 0x2A 0x4000))
    (fun s => s.pc == 0x4000 && s.ssp == 0x7FFA && s.peek .superData 0x7FFC .l == 0x1000) = true := by decide +kernel

/-- Y36: $FFFF (line 1111). -/
theorem test_lineF_Y36 : nextHas (step ((start [0xFFFF])
      |>.pokeWord .superData 0x2C 0x0
      |>.pokeWord .superData 0x2E 0x4000))
    (fun s => s.pc == 0x4000 && s.ssp == 0x7FFA && s.peek .superData 0x7FFC .l == 0x1000) = true := by decide +kernel

/-- Y37: $4E74 (RTD on later parts). -/
theorem test_step_Y37 : nextHas (step ((start [0x4E74])
      |>.pokeWord .superData 0x10 0x0
      |>.pokeWord .superData 0x12 0x4000))
    (fun s => s.pc == 0x4000 && s.ssp == 0x7FFA && s.peek .superData 0x7FFC .l == 0x1000) = true := by decide +kernel

/-- Y38: $4E7A (MOVEC on later parts). -/
theorem test_step_Y38 : nextHas (step ((start [0x4E7A])
      |>.pokeWord .superData 0x10 0x0
      |>.pokeWord .superData 0x12 0x4000))
    (fun s => s.pc == 0x4000 && s.ssp == 0x7FFA && s.peek .superData 0x7FFC .l == 0x1000) = true := by decide +kernel

/-- Y39: $42C0 (MOVE CCR,D0 on later parts). -/
theorem test_step_Y39 : nextHas (step ((start [0x42C0])
      |>.pokeWord .superData 0x10 0x0
      |>.pokeWord .superData 0x12 0x4000))
    (fun s => s.pc == 0x4000 && s.ssp == 0x7FFA && s.peek .superData 0x7FFC .l == 0x1000) = true := by decide +kernel

/-- E1: NOP with T = 1. -/
theorem test_nop_E1 : nextHas (step (({ start [0x4E71] with sr := .ofWord 0xA700 })
      |>.pokeWord .superData 0x24 0x0
      |>.pokeWord .superData 0x26 0x4800))
    (fun s => s.pc == 0x4800 && s.sr.toWord == 0x2700 && s.ssp == 0x7FFA &&
      s.peek .superData 0x7FFA .w == 0xA700 && s.peek .superData 0x7FFC .l == 0x1002) = true := by decide +kernel

/-- E2: NOP, IPL = 3, mask 2, device vector 64. -/
theorem test_nop_E2 : nextHas (step (({ start [0x4E71] with sr := .ofWord 0x2200, inputs := [quiet 3 (.vector 64)] })
      |>.pokeWord .superData 0x100 0x0
      |>.pokeWord .superData 0x102 0x5000))
    (fun s => s.pc == 0x5000 && s.sr.toWord == 0x2300 && s.ssp == 0x7FFA &&
      s.peek .superData 0x7FFA .w == 0x2200 && s.peek .superData 0x7FFC .l == 0x1000) = true := by decide +kernel

/-- E4: NOP, IPL = 7, mask 7 (edge). -/
theorem test_nop_E4 : nextHas (step (({ start [0x4E71] with sr := .ofWord 0x2700, inputs := [quiet 7 .autovector] })
      |>.pokeWord .superData 0x7C 0x0
      |>.pokeWord .superData 0x7E 0x5000))
    (fun s => s.pc == 0x5000 && s.sr.toWord == 0x2700 && s.ssp == 0x7FFA &&
      s.peek .superData 0x7FFA .w == 0x2700 && s.peek .superData 0x7FFC .l == 0x1000) = true := by decide +kernel

/-- E6: NOP (user), IPL = 5 autovector. -/
theorem test_nop_E6 : nextHas (step (({ start [0x4E71] with sr := .ofWord 0x0, inputs := [quiet 5 .autovector] })
      |>.pokeWord .superData 0x74 0x0
      |>.pokeWord .superData 0x76 0x5000))
    (fun s => s.pc == 0x5000 && s.sr.toWord == 0x2500 && s.ssp == 0x7FFA && s.peek .superData 0x7FFA .w == 0x0 &&
      s.peek .superData 0x7FFC .l == 0x1000) = true := by decide +kernel

/-- E7: NOP, IPL = 2, acknowledge ends in BERR. -/
theorem test_nop_E7 : nextHas (step (({ start [0x4E71] with sr := .ofWord 0x2000, inputs := [quiet 2 .busError] })
      |>.pokeWord .superData 0x60 0x0
      |>.pokeWord .superData 0x62 0x5000))
    (fun s => s.pc == 0x5000 && s.sr.toWord == 0x2200 && s.ssp == 0x7FFA &&
      s.peek .superData 0x7FFA .w == 0x2000 && s.peek .superData 0x7FFC .l == 0x1000) = true := by decide +kernel

/-- E14 with an odd SSP in place of an unmapped one: MOVE.W (A0),D0. -/
theorem test_moveW_E14 : nextHas (step (({ start [0x3010] with ssp := 0x7FFF })
      |>.writeA 0 0x2001))
    (fun s => s.pstate == .halted) = true := by decide +kernel

/-- E15: TRAP #0 with SSP odd. -/
theorem test_trap_E15 : nextHas (step (({ start [0x4E40] with ssp := 0x7FFF })
      |>.pokeWord .superData 0x80 0x0
      |>.pokeWord .superData 0x82 0x4000))
    (fun s => s.pstate == .halted) = true := by decide +kernel

/-- E19: external reset. -/
theorem test_step_E19 : nextHas (step (({ start [] with
      inputs := [{ quiet 0 .autovector with resetRequest := true }], sr := .ofWord 0x801F, ssp := 0x1111, pstate := .halted })
      |>.writeD 0 0x12345678
      |>.pokeWord .superData 0x0 0x0
      |>.pokeWord .superData 0x2 0x8000
      |>.pokeWord .superData 0x4 0x0
      |>.pokeWord .superData 0x6 0x1000))
    (fun s => s.pc == 0x1000 && s.sr.toWord == 0x271F && s.ssp == 0x8000 && s.usp == 0x7000 &&
      s.readD 0 == 0x12345678) = true := by decide +kernel

theorem test_bchgReg_hand : nextHas (step ((start [0x0350]) |>.writeA 0 0x2000 |>.writeD 1 9))
    (fun s => s.peek .superData 0x2000 .b == 2 && s.sr.z) = true := by decide +kernel

theorem test_bclrImm_hand : nextHas (step ((start [0x0890, 0x0000]) |>.writeA 0 0x2000
      |>.pokeByte .superData 0x2000 0xFF))
    (fun s => s.peek .superData 0x2000 .b == 0xFE && !s.sr.z && s.pc == 0x1004) = true := by decide +kernel

theorem test_movepWToReg_hand : nextHas (step ((start [0x0308, 0x0000]) |>.writeA 0 0x2000 |>.writeD 1 0xAAAAAAAA
      |>.pokeWord .superData 0x2000 0x12FF |>.pokeWord .superData 0x2002 0x34FF))
    (fun s => s.readD 1 == 0xAAAA1234) = true := by decide +kernel

theorem test_movepLToMem_hand : nextHas (exec (.movepLToMem 0 0 0) ((start []).writeA 0 0x4000 |>.writeD 0 0x44))
    (fun s => s.peek .superData 0x4006 .b == 0x44) = true := by decide +kernel

theorem test_illegal4AFB_hand : nextHas (step ((start [0x4AFB]) |>.pokeWord .superData 0x12 0x4000))
    (fun s => s.pc == 0x4000 && s.peek .superData 0x7FFC .l == 0x1000) = true := by decide +kernel

theorem test_sbcdMem_hand : nextHas (step ((start [0x8109]) |>.writeA 1 0x2001 |>.writeA 0 0x2011
      |>.pokeByte .superData 0x2000 0x01))
    (fun s => s.peek .superData 0x2010 .b == 0x99 && s.sr.c && s.sr.x && s.readA 0 == 0x2010) = true := by decide +kernel

theorem test_subToMem_hand : nextHas (step ((start [0x9150]) |>.writeA 0 0x2000 |>.writeD 0 1))
    (fun s => s.peek .superData 0x2000 .w == 0xFFFF && ccr s == 0x19) = true := by decide +kernel

theorem test_subaW_hand : nextHas (step ((start [0x90C0]) |>.writeA 0 0x10 |>.writeD 0 0xFFFF))
    (fun s => s.readA 0 == 0x11 && ccr s == 0) = true := by decide +kernel

theorem test_subxMem_hand : nextHas (step (({ start [0x9109] with sr := .ofWord 0x2714 }) |>.writeA 1 0x2001
      |>.writeA 0 0x2011))
    (fun s => s.peek .superData 0x2010 .b == 0xFF && ccr s == 0x19) = true := by decide +kernel

theorem test_addaL_hand : nextHas (step ((start [0xD1C0]) |>.writeD 0 0xFFFFFFFF))
    (fun s => s.readA 0 == 0xFFFFFFFF && ccr s == 0) = true := by decide +kernel

theorem test_cmpaL_hand : nextHas (step ((start [0xB1C0]) |>.writeD 0 1))
    (fun s => s.readA 0 == 0 && ccr s == 0x09) = true := by decide +kernel

theorem test_exgDA_hand : nextHas (step ((start [0xC38A]) |>.writeD 1 0x11111111 |>.writeA 2 0x22222222))
    (fun s => s.readD 1 == 0x22222222 && s.readA 2 == 0x11111111) = true := by decide +kernel

theorem test_asrMem_hand : nextHas (step ((start [0xE0D0]) |>.writeA 0 0x2000 |>.pokeWord .superData 0x2000 0x8001))
    (fun s => s.peek .superData 0x2000 .w == 0xC000 && ccr s == 0x19) = true := by decide +kernel

theorem test_lslMem_hand : nextHas (step ((start [0xE3D0]) |>.writeA 0 0x2000 |>.pokeWord .superData 0x2000 0x8001))
    (fun s => s.peek .superData 0x2000 .w == 0x0002 && ccr s == 0x11) = true := by decide +kernel

theorem test_roxrMem_hand : nextHas (step (({ start [0xE4D0] with sr := .ofWord 0x2710 }) |>.writeA 0 0x2000))
    (fun s => s.peek .superData 0x2000 .w == 0x8000 && ccr s == 0x08) = true := by decide +kernel

theorem test_rolMem_hand : nextHas (step (({ start [0xE7D0] with sr := .ofWord 0x2710 }) |>.writeA 0 0x2000
      |>.pokeWord .superData 0x2000 0x8000))
    (fun s => s.peek .superData 0x2000 .w == 0x0001 && ccr s == 0x11) = true := by decide +kernel

/-! ## The environment's part of a bus cycle (R83, R112, R113, R428; D14, D29) -/

/-- An environment that does nothing about a cycle. -/
def noTurn : BusTurn := ⟨[], none, none⟩

/-- Another master writes between the two halves of a long read (R80): old high word, new low word. -/
theorem test_torn_long_read : nextHas (exec (.moveL (.ind 0) (.dreg 1))
      { (start []).writeA 0 0x2000 with turns := [noTurn, ⟨[(0x2001, 1), (0x2003, 2)], none, none⟩] })
    (fun s => s.readD 1 == 0x00000002) = true := by decide +kernel

/-- The last word of MOVE.W ($3000).W,($2000).W, changed by another master once the source is read (R83). -/
theorem test_word_by_other_master : nextHas (step { (start [0x31F8, 0x3000, 0x2000]).placeWords 0x3000 [0x1234] with
      inputs := [{ quiet 0 .autovector with turns := [noTurn, noTurn, noTurn, ⟨[(0x1004, 0x22)], none, none⟩] }] })
    (fun s => s.peekWord .superData 0x2200 == 0x1234 && s.peekWord .superData 0x2000 == 0
      && s.bus.map (·.data) == [⟨some 0x31, some 0xF8⟩, ⟨some 0x30, some 0⟩, ⟨some 0x12, some 0x34⟩, ⟨some 0x22, some 0⟩,
        ⟨some 0x12, some 0x34⟩]) = true := by decide +kernel

/-- BERR with HALT, twice: the same cycle three times, nothing else (R113). -/
theorem test_rerun_cycle : nextHas (exec (.moveB (.ind 0) (.dreg 1))
      { (start []).writeA 0 0x2000 with turns := [⟨[], some .rerun, none⟩, ⟨[(0x2000, 7)], some .rerun, none⟩] })
    (fun s => s.readD 1 == 7 && s.bus.map (·.answer) == [.rerun, .rerun, .ok]) = true := by decide +kernel

/-- A platform whose first map rule is given. -/
def mapped (r : MapRule) (turns : List BusTurn) : State :=
  let s := (start []).writeA 0 0xFF0000
  { s with platform := { s.platform with map := [r] }, turns := turns }

/-- A device supplies the byte read (D29); at an even address it is on D15-D8 (R70). -/
theorem test_device_read : nextHas (exec (.moveB (.ind 0) (.dreg 1))
      (mapped ⟨[.superData], 0xFF0000, 0xFF00FF, .device, 0, 0⟩ [⟨[], none, some 0x5AC3⟩]))
    (fun s => s.readD 1 == 0x5A && s.bus.map (·.data) == [⟨some 0x5A, none⟩]) = true := by decide +kernel

/-- MOVEP.W 1(A0),D1 from a device on the lower half of the bus: odd addresses, D7-D0 (R70, R223). -/
theorem test_device_movep : nextHas (exec (.movepWToReg 1 0 1)
      (mapped ⟨[.superData], 0xFF0000, 0xFF00FF, .device, 0, 0⟩
        [noTurn, ⟨[], none, some 0xFF12⟩, ⟨[], none, some 0xFF34⟩]))
    (fun s => s.readD 1 == 0x1234 && s.bus.map (·.uds) == [true, false, false]
      && s.bus.map (·.lds) == [true, true, true]) = true := by decide +kernel

/-- A write to read-only memory completes and changes nothing (D29). -/
theorem test_readOnly_write : nextHas (exec (.moveB (.dreg 1) (.ind 0))
      ((mapped ⟨[.superData], 0xFF0000, 0xFF00FF, .readOnly, 0xFF0000, 0⟩ []).writeD 1 9))
    (fun s => s.peek .superData 0xFF0000 .b == 0 && s.bus.map (·.data) == [⟨some 9, some 9⟩]) = true := by decide +kernel

/-- Mirrors: 16 bytes of memory through 256 addresses (D29). -/
theorem test_mirror : nextHas (exec (.moveB (.dreg 1) (.ind 0))
      ((mapped ⟨[.superData], 0xFF0000, 0xFF00FF, .memory, 0xFF0000, 16⟩ []).writeD 1 9))
    (fun s => s.peek .superData 0xFF00F0 .b == 9) = true := by decide +kernel

/-- A re-run acknowledge cycle is asked again (R428); the vector number is the low byte of the word. -/
theorem test_iack_rerun : (match interruptAcknowledge 3 .autovector
      { start [] with turns := [⟨[], some .rerun, none⟩, ⟨[], some .ok, some 0xAB41⟩] } with
    | .ok v s => v == 0x41 && s.bus.map (·.answer) == [.rerun, .ok]
    | _ => false) = true := by decide +kernel

/-! ## Witnesses: for each statement with hypotheses, a state and operands that meet all of them -/

/-- A bus with no rule, no map and no turn serves. -/
theorem serves (s : State) (h : s.platform.rules = []) (m : s.platform.map = [] := by rfl)
    (t : s.turns = [] := by rfl) : s.BusServes :=
  ⟨t, m, fun fc dir a => .inl (by unfold State.answer; rw [h]; rfl)⟩

theorem even {a : Long} (h : a.getLsbD 0 = false) : EvenAddr a := h

theorem ready (s : State) (h : s.platform.rules = []) (e : s.pc.getLsbD 0 = false)
    (m : s.platform.map = [] := by rfl) (t : s.turns = [] := by rfl) : s.Ready := ⟨serves s h m t, e⟩

theorem mem_accessible {loc : Loc} {a : Long} {fc : FuncCode} {lf : Bool} (sz : Size) (h : loc = .mem a fc lf)
    (e : a.getLsbD 0 = false) : loc.Accessible sz := by
  subst h; exact .inr e

theorem nextHas_exists {o : Out} {p : State → Bool} (h : nextHas o p = true) : ∃ t, o = .next t ∧ p t = true := by
  cases o with
  | next t => exact ⟨t, rfl, h⟩
  | fault f => cases h
  | refused r => cases h

theorem answers_of {s : State} {fc : FuncCode} {dir : Direction} {l : List Long}
    (h : (l.all fun a => s.answer fc dir a == .ok || s.answer fc dir a == .vpa) = true) :
    ∀ a ∈ l, s.Answers fc dir a := fun a ha => by
  simpa [State.Answers] using List.all_eq_true.mp h a ha

theorem ends_of {s : State} {fc : FuncCode} {dir : Direction} {l : List Long}
    (h : (l.all fun a => s.answer fc dir a == .ok || s.answer fc dir a == .vpa || s.answer fc dir a == .busError) = true) :
    ∀ a ∈ l, s.EndsAtOnce fc dir a := fun a ha => by
  simpa [State.EndsAtOnce, State.Answers] using List.all_eq_true.mp h a ha

/-- A supervisor state with even address registers, and the same in user state. -/
def sup : State := ((start []).writeA 0 0x4000).writeA 1 0x5000

def user : State := { sup with sr := .ofWord 0x0000 }

theorem sup_ready : sup.Ready := ready sup rfl rfl

theorem user_ready : user.Ready := ready user rfl rfl

theorem witness_DecodeEncode : (Instr.movemToMem .l 0xFFFF (.index 7 ⟨true, 7, true, 7, 0xFF⟩)).wellFormed = true := by
  decide

theorem witness_EncodeDecode : decode [0x4E71, 0xFFFF] = .ok (.nop, [0xFFFF]) := by decide

theorem witness_MemoryCanonical : Memory.wf [(0, 1), (0x00FFFFFF, 0xFF)] ∧ ∀ a,
    Memory.read [(0, 1), (0x00FFFFFF, 0xFF)] a = Memory.read [(0, 1), (0x00FFFFFF, 0xFF)] a :=
  ⟨by decide, fun _ => rfl⟩

theorem witness_ReadsAreBigEndian : sup.BusServes ∧ EvenAddr 0x00000000 ∧ EvenAddr 0xFFFFFFFE :=
  ⟨sup_ready.1, even rfl, even rfl⟩

theorem witness_MisalignedAccessStops : Size.w ≠ .b ∧ Size.l ≠ .b ∧ ¬ EvenAddr 0x00000001 ∧ ¬ EvenAddr 0xFFFFFFFF
    ∧ ¬ EvenAddr { sup with pc := 0x1001 }.pc :=
  ⟨by decide, by decide, by unfold EvenAddr; decide, by unfold EvenAddr; decide, by unfold EvenAddr; decide⟩

/-- A state in which no cycle from `$010000` on completes. -/
def holed : State :=
  { sup with platform := { sup.platform with rules :=
      [⟨[.userData, .userProgram, .superData, .superProgram], 0x010000, 0xFFFFFF, true, true, .busError⟩] } }

/-- A stack of which the last long word pushed, or an operand at its top, begins in the hole or one word before it. -/
def deep (ssp : Long) : State := { holed with ssp := ssp }

/-- Every half of a long word, in both orders, with the bus error in it alone; a source operand in the hole and one at an
odd address, with no word or four before it; a value popped, pushed or listed in the hole and at an odd address; an
operation word in the hole and one at an odd address. -/
theorem witness_FailedAccessStops : holed.turns = [] ∧ holed.platform.map = []
    ∧ (EvenAddr 0x010000 ∧ holed.answer .superData .read 0x010000 = .busError
      ∧ holed.answer .superData .write 0x010000 = .busError)
    ∧ (EvenAddr 0x00FFFE ∧ holed.Answers .superData .read 0x00FFFE ∧ holed.Answers .superData .write 0x00FFFE
      ∧ holed.answer .superData .read (0x00FFFE + 2) = .busError
      ∧ holed.answer .superData .write (0x00FFFE + 2) = .busError)
    ∧ (EvenAddr 0xFFFFFE ∧ holed.Answers .superData .write (0xFFFFFE + 2)
      ∧ holed.answer .superData .write 0xFFFFFE = .busError)
    ∧ (EvenAddr holed.pc ∧ holed.Answers holed.fcProg .read (holed.pc + BitVec.ofNat 32 (2 + 2 * 0))
      ∧ eaLoc (.disp 0 0x7FFF) .w (holed.after 1) = .mem 0xBFFF .superData false ∧ ¬ Aligned .w 0xBFFF
      ∧ eaLoc (.absL 0x010000) .w (holed.after 1) = .mem 0x010000 .superData false ∧ Aligned .w 0x010000)
    ∧ (∀ k < 4, holed.Answers holed.fcProg .read (holed.pc + BitVec.ofNat 32 (2 + 2 * k)))
    ∧ (holed.sr.s = true ∧ eaLoc (.preDec 7) .l ((deep 0x010004).after 1) = .mem 0x010000 .superData true
      ∧ eaLoc (.postInc 7) .b ((deep 0x010000).after 1) = .mem 0x010000 .superData false
      ∧ (deep 0x010000).sp = 0x010000 ∧ (deep 0x010000).readA 7 = 0x010000 ∧ (deep 0x010000).fcData = .superData
      ∧ Aligned .l (deep 0x010000).ssp ∧ (deep 0x010000).answer .superData .read 0x010000 = .busError)
    ∧ (Aligned .l ((deep 0x010002).sp - 4) ∧ (deep 0x010002).answer .superData .write ((deep 0x010002).sp - 4 + 2) = .busError
      ∧ (deep 0x010002).Answers .superData .write ((deep 0x010002).sp - 4)
      ∧ ¬ Aligned .l ((deep 0x010001).sp - 4) ∧ (EA.absL 0x010000).isIn Mode.isControl .l = true)
    ∧ ((deep 0x010000).answer .superData .write ((deep 0x010000).readA 7 + (0 : Word).signExtend 32) = .busError
      ∧ (0x8000 : Word) ≠ 0 ∧ (EA.preDec 7).isIn Mode.isMovemStore .l = true ∧ (EA.ind 7).isIn Mode.isMovemStore .w = true)
    ∧ (let u := { holed with pc := 0x010000 }.sample
      u.pstate = .normal ∧ u.interruptLevel = none ∧ u.turns = [] ∧ EvenAddr u.pc
        ∧ u.answer u.fcProg .read u.pc = .busError)
    ∧ ¬ EvenAddr { holed with pc := 0x1001 }.sample.pc := by
  simp only [EvenAddr, Aligned, State.Answers]; decide +kernel

theorem witness_WriteThenRead : sup.BusServes ∧ Aligned .b 0xFFFFFFFF ∧ Aligned .l 0x00FFFFFE :=
  ⟨sup_ready.1, .inl rfl, .inr (even rfl)⟩

theorem witness_AddressTopIgnored : sup.BusServes ∧ Aligned .l 0xFF123456
    ∧ (0xFF123456 : Long).extractLsb' 0 24 = (0x00123456 : Long).extractLsb' 0 24 :=
  ⟨sup_ready.1, .inr (even rfl), by decide⟩

theorem witness_MoveResult : sup.Ready ∧ (eaLoc (.postInc 0) .w (sup.after 1)).Accessible .w
    ∧ (eaLoc (.preDec 0) .w (eaStep (.postInc 0) .w (sup.after 1))).Accessible .w :=
  ⟨sup_ready, mem_accessible .w rfl (by decide), mem_accessible .w rfl (by decide)⟩

theorem witness_AddressResults : sup.Ready ∧ (eaLoc (.postInc 0) .w (sup.after 1)).Accessible .w
    ∧ (eaLoc (.preDec 0) .l (sup.after 1)).Accessible .l :=
  ⟨sup_ready, mem_accessible .w rfl (by decide), mem_accessible .l rfl (by decide)⟩

theorem witness_LeaPea : sup.Ready ∧ (EA.disp 0 0xFFFF).isIn Mode.isControl .l = true ∧ EvenAddr sup.sp
    ∧ (EA.absL 0xFFFFFFFF).isIn Mode.isControl .l = true ∧ (EA.ind 7).isIn Mode.isControl .l = true
    ∧ (EA.pcIndex ⟨true, 7, false, 7, 0x80⟩).isIn Mode.isControl .l = true :=
  ⟨sup_ready, by decide, even (by decide), by decide, by decide, by decide⟩

theorem witness_LinkUnlk : user.Ready ∧ EvenAddr user.sp ∧ EvenAddr (user.readA 0) ∧ EvenAddr (user.readA 7) :=
  ⟨user_ready, even (by decide), even (by decide), even (by decide)⟩

/-- The whole list, and the empty one. -/
theorem witness_MovemStore : sup.Ready ∧ (EA.preDec 0).isIn Mode.isMovemStore .l = true
    ∧ (movemOrder 0xFFFF true ≠ [] ∧ EvenAddr (sup.readA 0)) ∧ (EA.absW 1).isIn Mode.isMovemStore .w = true
    ∧ movemOrder 0 false = [] :=
  ⟨sup_ready, by decide, ⟨by decide, even (by decide)⟩, by decide, by decide⟩

theorem witness_MovemLoad : sup.Ready ∧ (EA.postInc 0).isIn Mode.isMovemLoad .l = true
    ∧ eaLoc (.postInc 0) .l (sup.after 2) = .mem 0x4000 .superData false ∧ EvenAddr 0x4000
    ∧ (EA.pcDisp 4).isIn Mode.isMovemLoad .w = true :=
  ⟨sup_ready, by decide, by decide, even rfl, by decide⟩

theorem witness_MovepResult : sup.Ready := sup_ready

theorem witness_SumAndDifference : (0xFF : Long).toNat < 2 ^ Size.b.bits ∧ (0 : Long).toNat < 2 ^ Size.b.bits
    ∧ (0xFFFFFFFF : Long).toNat < 2 ^ Size.l.bits := by decide

theorem witness_ToRegister : sup.Ready ∧ (eaLoc (.preDec 0) .l (sup.after 1)).Accessible .l :=
  ⟨sup_ready, mem_accessible .l rfl (by decide)⟩

theorem witness_ToDestination : sup.Ready ∧ (eaLoc (.postInc 0) .w (sup.after 1)).Accessible .w :=
  ⟨sup_ready, mem_accessible .w rfl (by decide)⟩

theorem witness_ImmediateResults : sup.Ready ∧ (Imm.word 0xFFFF).admits .b = true ∧ (Imm.long 1).admits .l = true
    ∧ (eaLoc (.postInc 0) .b (sup.after 2)).Accessible .b ∧ (eaLoc (.ind 0) .l (sup.after 3)).Accessible .l :=
  ⟨sup_ready, by decide, by decide, mem_accessible .b rfl (by decide), mem_accessible .l rfl (by decide)⟩

theorem witness_QuickResults : sup.Ready ∧ (∃ n, EA.areg 7 = .areg n) ∧ (∀ n, EA.ind 0 ≠ .areg n)
    ∧ (eaLoc (.ind 0) .l (sup.after 1)).Accessible .l :=
  ⟨sup_ready, ⟨7, rfl⟩, fun _ h => (nomatch h), mem_accessible .l rfl (by decide)⟩

theorem witness_ExtendedMemory : sup.Ready ∧ Aligned .w ((eaStep (.preDec 0) .w (sup.after 1)).readA 0)
    ∧ Aligned .w ((eaStep (.preDec 0) .w (eaStep (.preDec 0) .w (sup.after 1))).readA 0) :=
  ⟨sup_ready, .inr (even (by decide)), .inr (even (by decide))⟩

theorem witness_NegateResults : sup.Ready ∧ (eaLoc (.preDec 7) .b (sup.after 1)).Accessible .b :=
  ⟨sup_ready, mem_accessible .b rfl (by decide)⟩

theorem witness_StoreOnly : sup.Ready ∧ (eaLoc (.postInc 0) .l (sup.after 1)).Accessible .l
    ∧ (eaLoc (.ind 0) .b (sup.after 1)).Accessible .b ∧ (eaLoc (.absL 0xFFFFFFFE) .w (sup.after 1)).Accessible .w :=
  ⟨sup_ready, mem_accessible .l rfl (by decide), mem_accessible .b rfl (by decide), mem_accessible .w rfl (by decide)⟩

theorem witness_CompareFlags : sup.Ready ∧ (eaLoc (.ind 0) .w (sup.after 1)).Accessible .w
    ∧ (eaLoc (.ind 0) .l (sup.after 1)).Accessible .l ∧ (eaLoc (.ind 0) .w (sup.after 2)).Accessible .w
    ∧ Aligned .w (sup.readA 0) ∧ Aligned .w ((eaStep (.postInc 0) .w (sup.after 1)).readA 0) :=
  ⟨sup_ready, mem_accessible .w rfl (by decide), mem_accessible .l rfl (by decide), mem_accessible .w rfl (by decide),
    .inr (even (by decide)), .inr (even (by decide))⟩

theorem witness_TasResult : sup.Ready := sup_ready

theorem witness_MultiplyResults : sup.Ready ∧ (eaLoc (.imm16 0xFFFF) .w (sup.after 1)).Accessible .w :=
  ⟨sup_ready, True.intro⟩

/-- The operand of the immediate source in the state `sup` with D0 loaded. -/
def divisor (d : Long) (m : Word) : Word :=
  lowWord ((eaStep (.imm16 m) .w ((sup.writeD 0 d).after 2)).operand (eaLoc (.imm16 m) .w ((sup.writeD 0 d).after 1)) .w)

theorem divide_ready (d : Long) (m : Word) :
    (sup.writeD 0 d).Ready ∧ (eaLoc (.imm16 m) .w ((sup.writeD 0 d).after 1)).Accessible .w :=
  ⟨ready (sup.writeD 0 d) rfl (by show (0x1000 : Long).getLsbD 0 = false; decide), True.intro⟩

/-- Unsigned quotients of 65535 and 65536; signed ones of -32768, -32769, 32767 and 32768. -/
theorem witness_DivideResults : divisor 0x0000FFFF 1 = 1 ∧ divisor 0x80000000 0xFFFF = 0xFFFF
    ∧ ((0x0000FFFF : Long).toNat / 1 ≤ 65535 ∧ ¬ (0x00010000 : Long).toNat / 1 ≤ 65535)
    ∧ (-32768 ≤ (0xFFFF8000 : Long).toInt.tdiv 1 ∧ ¬ -32768 ≤ (0xFFFF7FFF : Long).toInt.tdiv 1)
    ∧ ((0x00007FFF : Long).toInt.tdiv 1 ≤ 32767 ∧ ¬ (0x00008000 : Long).toInt.tdiv 1 ≤ 32767) := by decide

theorem witness_ZeroDivideTraps : sup.Ready ∧ (eaLoc (.ind 0) .w (sup.after 1)).Accessible .w
    ∧ lowWord ((eaStep (.ind 0) .w (sup.after 1)).operand (eaLoc (.ind 0) .w (sup.after 1)) .w) = 0
    ∧ EvenAddr (eaStep (.ind 0) .w (sup.after 1)).ssp :=
  ⟨sup_ready, mem_accessible .w rfl (by decide), by decide, even (by decide)⟩

theorem witness_ShiftMemoryResults : sup.Ready ∧ (eaLoc (.ind 0) .w (sup.after 1)).Accessible .w
    ∧ (eaLoc (.ind 0) .w (sup.after 1)).isMem = true :=
  ⟨sup_ready, mem_accessible .w rfl (by decide), by decide⟩

theorem witness_ShiftClosedForms : (0xFF : Long).toNat < 2 ^ Size.b.bits ∧ 0 < 1 ∧ 1 < Size.b.bits ∧ 7 < Size.b.bits
    ∧ 31 < Size.l.bits ∧ (0 : Nat) = 0 ∧ Size.b.bits ≤ 8 ∧ Size.l.bits ≤ 32 := by decide

theorem witness_BitResults : sup.Ready := sup_ready

/-- Four decimal digits, and operands with another digit. -/
theorem witness_DecimalResults : sup.Ready ∧ (EA.preDec 7).isIn Mode.isDataAlterable .b = true
    ∧ ((0x99 : Long).toNat / 16 ≤ 9 ∧ (0x99 : Long).toNat % 16 ≤ 9) ∧ ¬ (0xA0 : Long).toNat / 16 ≤ 9 :=
  ⟨sup_ready, by decide, by decide, by decide⟩

/-- The platform of `holed` treats alike every cycle of an instruction that stays below the hole, and the first turn is
one of each kind. -/
theorem witness_OnlyItsCyclesMatter : CycleKind.read.isRmw = false
    ∧ (BusTurn.mk [(0x2000, 1)] (some .rerun) none).answer = some .rerun
    ∧ (BusTurn.mk [(0x2000, 1)] none none).answer = none ∧ sup.platform.map = []
    ∧ sup.Answers .superData .read 0x2000 ∧ sup.Answers .superData .write 0x2000
    ∧ (let s := { sup with platform := { sup.platform with
          rules := [⟨[.superData], 0, 0xFFFFFF, true, true, .rerun⟩] } }
      s.answer .superData CycleKind.write.dir 0x2000 = .rerun ∧ s.turns = [])
    ∧ (let s := mapped ⟨[.superData], 0xFF0000, 0xFF00FF, .device, 0, 0⟩ []
      (BusTurn.mk [] none (some 0x5AC3)).data = some 0x5AC3 ∧ s.Answers .superData .read 0xFF0000
        ∧ s.Answers .superData .write 0xFF00FF ∧ s.place .superData 0xFF0000 = .device
        ∧ s.place .superData 0xFF0001 = .device ∧ s.place .superData 0xFF0100 ≠ .device)
    ∧ ∃ t, exec (.moveW (.ind 0) (.dreg 1)) sup = .next t
      ∧ (t.bus == sup.bus ++ [⟨.read, .superData, 0x004000, true, ⟨some 0, some 0⟩, .ok⟩]) = true
      ∧ ∀ c ∈ [BusCycle.mk .read .superData 0x004000 true ⟨some 0, some 0⟩ .ok], sup.TreatsAlike holed.platform c := by
  refine ⟨by decide, by decide, by decide, by decide, .inl (by decide +kernel), .inl (by decide +kernel),
    ⟨by decide +kernel, by decide⟩, ⟨by decide, .inl (by decide +kernel), .inl (by decide +kernel), by decide +kernel,
      by decide +kernel, by decide +kernel⟩, ?_⟩
  obtain ⟨t, h1, h2⟩ := nextHas_exists (o := exec (.moveW (.ind 0) (.dreg 1)) sup)
    (p := fun t => t.bus == sup.bus ++ [⟨.read, .superData, 0x004000, true, ⟨some 0, some 0⟩, .ok⟩]) (by decide +kernel)
  refine ⟨t, h1, h2, fun c hc => ?_⟩
  rw [List.mem_singleton] at hc
  subst hc
  unfold State.TreatsAlike
  constructor
  · decide +kernel
  · intro b hb
    simp only [List.mem_cons, List.not_mem_nil, or_false] at hb
    rcases hb with rfl | rfl <;> decide +kernel

theorem witness_Branches : sup.Ready ∧ (EA.pcIndex ⟨true, 7, true, 0, 0xFF⟩).isIn Mode.isControl .l = true :=
  ⟨sup_ready, by decide⟩

theorem witness_ConditionsOrder : (0xFF : Long).toNat < 2 ^ Size.b.bits ∧ (0x80 : Long).toNat < 2 ^ Size.b.bits := by
  decide

theorem witness_SubroutineCalls : user.Ready ∧ EvenAddr user.sp ∧ (EA.ind 7).isIn Mode.isControl .l = true :=
  ⟨user_ready, even (by decide), by decide⟩

theorem witness_SubroutineReturns : user.Ready ∧ EvenAddr user.sp := ⟨user_ready, even (by decide)⟩

/-- The three clauses, the last two at their boundary: the counter 0, 1 and `$FFFF`. -/
theorem witness_DecrementBranch : user.Ready ∧ condHolds .t user.sr = true ∧ condHolds .f user.sr = false
    ∧ (lowWord (user.readD 0)).toNat = 0 ∧ (lowWord ((user.writeD 0 0xFFFF0001).readD 0)).toNat = 1
    ∧ 0 < (lowWord ((user.writeD 0 0xFFFF).readD 0)).toNat ∧ (user.writeD 0 0xFFFF0001).Ready :=
  ⟨user_ready, by decide, by decide, by decide, by decide, by decide, ready _ rfl rfl⟩

theorem witness_ConditionCodeWrites : user.Ready ∧ (eaLoc (.ind 0) .w (user.after 1)).Accessible .w :=
  ⟨user_ready, mem_accessible .w rfl (by decide)⟩

theorem witness_StatusRegisterWrites : sup.Ready ∧ sup.sr.s = true
    ∧ (eaLoc (.postInc 0) .w (sup.after 1)).Accessible .w :=
  ⟨sup_ready, by decide, mem_accessible .w rfl (by decide)⟩

theorem witness_SupervisorResults : sup.Ready ∧ sup.sr.s = true ∧ EvenAddr sup.ssp :=
  ⟨sup_ready, by decide, even (by decide)⟩

theorem witness_PrivilegeViolations : user.BusServes ∧ EvenAddr user.ssp ∧ user.sr.s = false :=
  ⟨user_ready.1, even (by decide), by decide⟩

/-- TRAP in user state. -/
theorem witness_UserStateKept : user.sr.s = false ∧ ∃ t, exec (.trap 0) user = .next t
    ∧ (t.sr.s && t.pstate == .normal) = true := by
  exact ⟨by decide, nextHas_exists (by decide)⟩

/-- The register at 0, at the bound, one below 0 and one above the bound. -/
theorem witness_CheckBounds : sup.Ready ∧ (eaLoc (.imm16 0x7FFE) .w (sup.after 1)).Accessible .w
    ∧ (lowWord ((sup.after 2).operand (eaLoc (.imm16 0x7FFE) .w (sup.after 1)) .w)).toInt = 32766
    ∧ (0 ≤ (0x0000 : Word).toInt ∧ (0x7FFE : Word).toInt ≤ 32766)
    ∧ ((0xFFFF : Word).toInt < 0 ∧ 32766 < (0x7FFF : Word).toInt) ∧ EvenAddr sup.ssp :=
  ⟨sup_ready, True.intro, by decide, by decide, by decide, even (by decide)⟩

theorem witness_TrapsAndIllegalWords : user.BusServes ∧ EvenAddr user.ssp ∧ user.sr.v = false
    ∧ { user with sr := .ofWord 2 }.sr.v = true ∧ { user with sr := .ofWord 2 }.BusServes :=
  ⟨user_ready.1, even (by decide), by decide, by decide, serves _ rfl⟩

theorem witness_StepRunsDecoded : sup.input.resetRequest = false ∧ sup.input.haltPin = false
    ∧ sup.sample.pstate = .normal ∧ sup.sample.interruptLevel = none ∧ sup.sample.Ready
    ∧ ∃ i rest, decode sup.sample.instructionWords = .ok (i, rest) := by
  exact ⟨by decide, by decide, by decide, by decide, ready _ rfl rfl, .ori .b (.word 0) (.dreg 0), [0, 0, 0], by decide⟩

theorem witness_StepTrapsUndecodable :
    let s := start [0x4E74]
    s.input.resetRequest = false ∧ s.input.haltPin = false ∧ s.sample.pstate = .normal
    ∧ s.sample.interruptLevel = none ∧ s.sample.Ready ∧ EvenAddr s.sample.ssp
    ∧ (match decode s.sample.instructionWords with
      | .ok _ => false
      | .error _ => true) = true := by
  exact ⟨by decide, by decide, by decide, by decide, ready _ rfl rfl, even (by decide), by decide⟩

theorem witness_TraceFollows : sup.tracePending = false ∧ { sup with tracePending := true }.tracePending = true
    ∧ { sup with tracePending := true }.BusServes ∧ EvenAddr { sup with tracePending := true }.ssp :=
  ⟨by decide, rfl, serves _ rfl, even (by decide)⟩

/-- A state about to take in a level and an acknowledge answer, with a mask. -/
def interrupted (ipl mask : BitVec 3) (iack : IackAnswer) : State :=
  { sup with sr := { sup.sr with i := mask }, pstate := .stopped, inputs := [quiet ipl iack] }

/-- A vector at one level above the mask, an autovector, a spurious interrupt, and level 7 under mask 7. -/
theorem witness_InterruptEntry :
    (∀ x ∈ [interrupted 1 0 (.vector 255), interrupted 6 5 .autovector, interrupted 7 6 .busError,
        interrupted 7 7 .autovector],
      x.input.resetRequest = false ∧ x.input.haltPin = false ∧ x.sample.pstate ≠ .halted
        ∧ (x.sample.sr.i < x.sample.ipl ∨ x.sample.ipl = 7 ∧ x.sample.nmiPending = true)
        ∧ x.sample.ssp.getLsbD 0 = false)
    ∧ (¬ ((interrupted 5 5 .autovector).sample.sr.i < (interrupted 5 5 .autovector).sample.ipl
      ∨ (interrupted 5 5 .autovector).sample.ipl = 7 ∧ (interrupted 5 5 .autovector).sample.nmiPending = true))
    ∧ ∀ ipl mask iack, (interrupted ipl mask iack).sample.BusServes :=
  ⟨by decide, by decide, fun _ _ _ => serves _ rfl⟩

theorem witness_WaitingStates : { sup with pstate := .halted }.input.resetRequest = false
    ∧ { sup with inputs := [{ quiet 7 .autovector with haltPin := true }] }.input.haltPin = true
    ∧ { sup with inputs := [{ quiet 7 .autovector with haltPin := true }] }.input.resetRequest = false
    ∧ { sup with pstate := .stopped }.input.resetRequest = false
    ∧ { sup with pstate := .stopped }.sample.interruptLevel = none := by decide

theorem witness_ResetExceptionState :
    let s := { user with pstate := .halted, inputs := [{ quiet 0 .autovector with resetRequest := true }] }
    let broken := { s with platform := { s.platform with rules := [⟨[.superProgram], 6, 7, true, false, .busError⟩] } }
    s.input.resetRequest = true ∧ s.sample.BusServes ∧ broken.input.resetRequest = true ∧ broken.sample.turns = []
    ∧ (∀ a ∈ [0#32, 2#32, 4#32, 6#32], broken.sample.EndsAtOnce .superProgram .read a)
    ∧ broken.sample.answer .superProgram .read 6 = .busError :=
  ⟨by decide, serves _ rfl, by decide, by decide, ends_of (by decide +kernel), by decide +kernel⟩

/-- A platform like the spec's default one (D4): the cycles of the frame and of the vectors are answered, no other; and
one that fails the last cycle of the frame. -/
def island : State :=
  { sup with platform := { sup.platform with rules :=
      [⟨[.superData], 0x007F00, 0x007FFF, true, true, .ok⟩, ⟨[.superData], 0, 0x3FF, true, false, .ok⟩,
       ⟨[.userData, .userProgram, .superData, .superProgram], 0, 0xFFFFFF, true, true, .busError⟩] } }

def brokenFrame : State :=
  { sup with platform := { sup.platform with rules := [⟨[.superData], 0x007FFE, 0x007FFF, false, true, .busError⟩] } }

theorem witness_GroupZeroEntry : { sup with g0Active := true }.g0Active = true ∧ ¬ EvenAddr { sup with ssp := 1 }.ssp
    ∧ (island.turns = [] ∧ island.g0Active = false ∧ EvenAddr island.ssp ∧ island.platform.map = []
      ∧ (∀ a ∈ (List.range 7).map fun j => island.ssp - 14 + BitVec.ofNat 32 (2 * j), island.Answers .superData .write a)
      ∧ ∀ a ∈ [8#32, 10#32, 12#32, 14#32], island.Answers .superData .read a)
    ∧ (island.pstate.notInstruction = false ∧ island.answer .superData .read 0x4000 = .busError)
    ∧ (brokenFrame.turns = []
      ∧ (∀ a ∈ (List.range 7).map fun j => brokenFrame.ssp - 14 + BitVec.ofNat 32 (2 * j),
        brokenFrame.EndsAtOnce .superData .write a)
      ∧ (∀ a ∈ [8#32, 10#32], brokenFrame.EndsAtOnce .superData .read a)
      ∧ brokenFrame.answer .superData .write (brokenFrame.ssp - 14 + BitVec.ofNat 32 12) = .busError) := by
  exact ⟨by decide, by unfold EvenAddr; decide,
    ⟨by decide, by decide, even (by decide), by decide, answers_of (by decide +kernel), answers_of (by decide +kernel)⟩,
    ⟨by decide, by decide +kernel⟩,
    ⟨by decide, ends_of (by decide +kernel), ends_of (by decide +kernel), by decide +kernel⟩⟩

theorem witness_StepKeepsInv : (start [0x4E71]).Inv ∧ ∃ t, step (start [0x4E71]) = .next t := by
  refine ⟨⟨by decide +kernel, by decide, fun g => by cases g <;> decide⟩, ?_⟩
  have h : nextHas (step (start [0x4E71])) (fun _ => true) = true := by decide +kernel
  revert h
  cases step (start [0x4E71]) with
  | next t => exact fun _ => ⟨t, rfl⟩
  | _ => exact fun h => nomatch h

end Sys2Proof.Tests
end

section
/-! LAWS AND CERTIFICATE. The sum and difference helpers `addc` and `subc` (R10) against integer arithmetic. Each
result is first tied to the exact sum or difference by one equation with its carry or borrow (`addc_r_add_carry`,
`subc_r_add_subtrahend`); the signed overflow of both follows from that equation and from what a sign bit weighs. -/

namespace Sys2Proof

/-! ## The size functions as arithmetic -/

/-- The modulus of a size is twice the weight of its sign bit. -/
theorem Size.two_pow_bits (sz : Size) : 2 ^ sz.bits = 2 * 2 ^ (sz.bits - 1) := by
  cases sz <;> rfl

theorem Size.two_pow_bits_le (sz : Size) : 2 ^ sz.bits ≤ 2 ^ 32 := by
  cases sz <;> decide

theorem Size.toNat_trunc (sz : Size) (v : Long) : (sz.trunc v).toNat = v.toNat % 2 ^ sz.bits := by
  cases sz with
  | b => simpa [Size.trunc, Size.bits] using Nat.and_two_pow_sub_one_eq_mod v.toNat 8
  | w => simpa [Size.trunc, Size.bits] using Nat.and_two_pow_sub_one_eq_mod v.toNat 16
  | l => exact (Nat.mod_eq_of_lt v.isLt).symm

theorem Size.msb_eq_getLsbD (sz : Size) (v : Long) : sz.msb v = v.getLsbD (sz.bits - 1) := by
  cases sz <;> rfl

/-- The sign bit of an operand says in which half of the range it lies. -/
theorem Size.msb_eq_decide_le (sz : Size) {v : Long} (hv : v.toNat < 2 ^ sz.bits) :
    sz.msb v = decide (2 ^ (sz.bits - 1) ≤ v.toNat) := by
  rw [sz.msb_eq_getLsbD, BitVec.getLsbD]
  by_cases hle : 2 ^ (sz.bits - 1) ≤ v.toNat
  · have hlt : v.toNat < 2 ^ (sz.bits - 1 + 1) := by rwa [Nat.pow_succ', ← sz.two_pow_bits]
    rw [Nat.testBit_of_two_pow_le_and_two_pow_add_one_gt hle hlt, decide_eq_true hle]
  · rw [Nat.testBit_lt_two_pow (Nat.lt_of_not_le hle), decide_eq_false hle]

/-- Sign extension reads the low bits of a size as a balanced residue. -/
theorem Size.toInt_sext_eq_bmod (sz : Size) (v : Long) :
    (sz.sext v).toInt = (v.toNat : Int).bmod (2 ^ sz.bits) := by
  cases sz with
  | b => simp [Size.sext, sextByte, lowByte, Size.bits, BitVec.toInt_signExtend_of_le]
  | w => simp [Size.sext, sextWord, lowWord, Size.bits, BitVec.toInt_signExtend_of_le]
  | l => exact v.toInt_eq_toNat_bmod

/-- The signed value of an operand: the modulus less from the sign bit's weight on. -/
theorem Size.toInt_sext (sz : Size) {v : Long} (hv : v.toNat < 2 ^ sz.bits) :
    (sz.sext v).toInt = if 2 ^ (sz.bits - 1) ≤ v.toNat then (v.toNat : Int) - 2 ^ sz.bits else v.toNat := by
  have hhalf : ((2 ^ sz.bits : Nat) + 1 : Int) / 2 = (2 ^ (sz.bits - 1) : Nat) := by
    have := sz.two_pow_bits
    omega
  rw [sz.toInt_sext_eq_bmod, Int.bmod_def, Int.emod_eq_of_lt (by omega) (by exact_mod_cast hv), hhalf]
  by_cases hle : 2 ^ (sz.bits - 1) ≤ v.toNat
  · rw [if_neg (by omega), if_pos hle, Nat.cast_pow, Nat.cast_ofNat]
  · rw [if_pos (by omega), if_neg hle]

end Sys2Proof

namespace Sys2Proof.Machine

theorem bitNat_le_one (k : Bool) : bitNat k ≤ 1 := by
  cases k <;> decide

section
variable {sz : Size} {a b : Long} {k : Bool}

/-! ## Result and carry -/

theorem addc_toNat_r : (addc sz a b k).r.toNat = (a.toNat + b.toNat + bitNat k) % 2 ^ sz.bits := by
  have hlt := Nat.mod_lt (a.toNat + b.toNat + bitNat k) (Nat.two_pow_pos sz.bits)
  exact Nat.mod_eq_of_lt (hlt.trans_le sz.two_pow_bits_le)

theorem addc_r_lt : (addc sz a b k).r.toNat < 2 ^ sz.bits :=
  addc_toNat_r ▸ Nat.mod_lt _ (Nat.two_pow_pos _)

theorem addc_c_iff : (addc sz a b k).c = true ↔ 2 ^ sz.bits ≤ a.toNat + b.toNat + bitNat k :=
  decide_eq_true_iff

/-- The result and the carry together are the exact sum. -/
theorem addc_r_add_carry (ha : a.toNat < 2 ^ sz.bits) (hb : b.toNat < 2 ^ sz.bits) :
    (addc sz a b k).r.toNat + (if (addc sz a b k).c then 2 ^ sz.bits else 0)
      = a.toNat + b.toNat + bitNat k := by
  have hk := bitNat_le_one k
  simp only [addc_toNat_r, addc_c_iff]
  split
  next hc =>
    rw [Nat.mod_eq_sub_mod hc, Nat.mod_eq_of_lt (by omega)]
    omega
  next hc => rw [Nat.mod_eq_of_lt (by omega), Nat.add_zero]

/-- Two moduli are room enough for the subtrahend and the borrow. -/
theorem subc_toNat_r (ha : a.toNat < 2 ^ sz.bits) : (subc sz a b k).r.toNat
    = (b.toNat + 2 * 2 ^ sz.bits - a.toNat - bitNat k) % 2 ^ sz.bits := by
  have hk := bitNat_le_one k
  have hkn : (BitVec.ofNat 32 (bitNat k)).toNat = bitNat k := Nat.mod_eq_of_lt (by omega)
  rw [subc, Size.toNat_trunc, BitVec.toNat_sub, BitVec.toNat_sub, hkn]
  cases sz <;> simp only [Size.bits] at ha ⊢ <;> omega

theorem subc_r_lt : (subc sz a b k).r.toNat < 2 ^ sz.bits := by
  rw [subc, Size.toNat_trunc]
  exact Nat.mod_lt _ (Nat.two_pow_pos _)

theorem subc_c_iff : (subc sz a b k).c = true ↔ b.toNat < a.toNat + bitNat k :=
  decide_eq_true_iff

/-- The result is the exact difference when the borrow is given back. -/
theorem subc_r_add_subtrahend (ha : a.toNat < 2 ^ sz.bits) (hb : b.toNat < 2 ^ sz.bits) :
    (subc sz a b k).r.toNat + a.toNat + bitNat k
      = b.toNat + if (subc sz a b k).c then 2 ^ sz.bits else 0 := by
  have hk := bitNat_le_one k
  simp only [subc_toNat_r ha, subc_c_iff]
  split
  next hc =>
    rw [Nat.mod_eq_sub_mod (by omega), Nat.mod_eq_of_lt (by omega)]
    omega
  next hc =>
    rw [Nat.mod_eq_sub_mod (by omega), Nat.mod_eq_sub_mod (by omega), Nat.mod_eq_of_lt (by omega)]
    omega

/-! ## Signed overflow -/

/-- V of a sum by the halves of the range: the operands lie in one half and the result in the other. -/
theorem addc_v_iff_halves (ha : a.toNat < 2 ^ sz.bits) (hb : b.toNat < 2 ^ sz.bits) :
    (addc sz a b k).v = true ↔ (2 ^ (sz.bits - 1) ≤ a.toNat ↔ 2 ^ (sz.bits - 1) ≤ b.toNat)
      ∧ ¬ (2 ^ (sz.bits - 1) ≤ (addc sz a b k).r.toNat ↔ 2 ^ (sz.bits - 1) ≤ b.toNat) := by
  have hv : (addc sz a b k).v = (sz.msb a == sz.msb b && sz.msb (addc sz a b k).r != sz.msb b) := rfl
  simp [hv, Size.msb_eq_decide_le, ha, hb, addc_r_lt]

/-- V of a difference by the halves of the range: the operands lie in different halves and the result in the
subtrahend's. -/
theorem subc_v_iff_halves (ha : a.toNat < 2 ^ sz.bits) (hb : b.toNat < 2 ^ sz.bits) :
    (subc sz a b k).v = true ↔ ¬ (2 ^ (sz.bits - 1) ≤ a.toNat ↔ 2 ^ (sz.bits - 1) ≤ b.toNat)
      ∧ ¬ (2 ^ (sz.bits - 1) ≤ (subc sz a b k).r.toNat ↔ 2 ^ (sz.bits - 1) ≤ b.toNat) := by
  have hv : (subc sz a b k).v = (sz.msb a != sz.msb b && sz.msb (subc sz a b k).r != sz.msb b) := rfl
  simp [hv, Size.msb_eq_decide_le, ha, hb, subc_r_lt]

/-- The integers a size holds as a signed number. -/
def FitsSigned (sz : Size) (x : Int) : Prop :=
  -(2 ^ (sz.bits - 1) : Int) ≤ x ∧ x < (2 ^ (sz.bits - 1) : Int)

/-- The cases are the halves of the operands and the carry. -/
theorem addc_v_iff_not_fits (ha : a.toNat < 2 ^ sz.bits) (hb : b.toNat < 2 ^ sz.bits) :
    (addc sz a b k).v = true ↔ ¬ FitsSigned sz ((sz.sext a).toInt + (sz.sext b).toInt + bitNat k) := by
  have hk := bitNat_le_one k
  have hlt : (addc sz a b k).r.toNat < 2 ^ sz.bits := addc_r_lt
  have hsum := addc_r_add_carry (k := k) ha hb
  have hhalf := sz.two_pow_bits
  rw [addc_v_iff_halves ha hb, sz.toInt_sext ha, sz.toInt_sext hb, FitsSigned]
  zify at *
  split_ifs at * <;> omega

/-- The cases are the halves of the operands and the borrow. -/
theorem subc_v_iff_not_fits (ha : a.toNat < 2 ^ sz.bits) (hb : b.toNat < 2 ^ sz.bits) :
    (subc sz a b k).v = true ↔ ¬ FitsSigned sz ((sz.sext b).toInt - (sz.sext a).toInt - bitNat k) := by
  have hk := bitNat_le_one k
  have hlt : (subc sz a b k).r.toNat < 2 ^ sz.bits := subc_r_lt
  have hdiff := subc_r_add_subtrahend (k := k) ha hb
  have hhalf := sz.two_pow_bits
  rw [subc_v_iff_halves ha hb, sz.toInt_sext ha, sz.toInt_sext hb, FitsSigned]
  zify at *
  split_ifs at * <;> omega

end

/-- Settles O20: result, carry and overflow of the sum, then of the difference. -/
theorem sumAndDifference : Obligations.SumAndDifference := by
  intro sz a b k ha hb
  exact ⟨⟨addc_toNat_r, addc_c_iff, addc_v_iff_not_fits ha hb⟩,
    ⟨subc_toNat_r ha, subc_c_iff, subc_v_iff_not_fits ha hb⟩⟩

end Sys2Proof.Machine
end

section
/-! LAWS AND CERTIFICATE. The invariant of a machine between two steps (`State.Inv`). Every rule is built from the
shared operations, so it keeps what they keep (`Keeps`): first the shapes of Machine/Updates.lean, then the families,
then each instruction leaves a settled state (`exec_settles`), and the step adds that no trace is left pending. One
declaration is elaborated at a time, as in the model's lemma files. -/

namespace Sys2Proof.Machine

set_option Elab.async false

/-! ## An update of other fields, and a rule run as an instruction -/

/-- An update that leaves memory, the processing state and the pending trace alone keeps what is said of them. -/
theorem modify_keeps {Q : PState → Bool → Prop} {f : State → State}
    (hf : ∀ s, (f s).mem = s.mem ∧ (f s).pstate = s.pstate ∧ (f s).tracePending = s.tracePending := by simp) :
    Keeps (State.Keeping Q) (modify f) :=
  .modify fun s h => by
    obtain ⟨hm, hp, ht⟩ := hf s
    exact h.congr hm hp ht

/-- From a settled state every next state is settled again. -/
def Settles (f : State → Out) : Prop := ∀ s t, s.Settled → f s = .next t → t.Settled

theorem Settles.runInstr {body : M Ending} (hb : Keeps State.Settled body) : Settles (runInstr body) :=
  fun _ _ => runInstr_settles hb

theorem Settles.runPlain {body : M Unit} (hb : Keeps State.Settled body) : Settles (runPlain body) :=
  fun _ _ => runPlain_settles hb

section
variable {Q : PState → Bool → Prop}

/-! ## The shared shapes -/

theorem updateD_keeps (sz : Size) (dn : RegNo) (ea : EA) (f : Long → Update) :
    Keeps (State.Keeping Q) (updateD sz dn ea f) :=
  (readEA_keeps _ _).bind fun _ => modify_keeps

theorem updateLoc_keeps (loc : Loc) (sz : Size) (f : Update) : Keeps (State.Keeping Q) (updateLoc loc sz f) :=
  (readLoc_keeps _ _).bind fun _ => .get_bind fun _ => (writeLoc_keeps _ _ _).bind fun _ => modify_keeps

theorem updateLocFlagsFirst_keeps (loc : Loc) (sz : Size) (f : Update) :
    Keeps (State.Keeping Q) (updateLocFlagsFirst loc sz f) :=
  (readLoc_keeps _ _).bind fun _ => .get_bind fun _ => .bind modify_keeps fun _ => writeLoc_keeps _ _ _

theorem updateEA_keeps (ea : EA) (sz : Size) (f : Update) : Keeps (State.Keeping Q) (updateEA ea sz f) :=
  (resolveEA_keeps _ _).bind fun _ => updateLoc_keeps _ _ _

theorem updateImm_keeps (sz : Size) (v : Imm) (ea : EA) (f : Long → Update) :
    Keeps (State.Keeping Q) (updateImm sz v ea f) :=
  (readImm_keeps _ _).bind fun _ => updateEA_keeps _ _ _

theorem updateByD_keeps (sz : Size) (dn : RegNo) (ea : EA) (f : Long → Update) :
    Keeps (State.Keeping Q) (updateByD sz dn ea f) :=
  (resolveEA_keeps _ _).bind fun _ => (readLoc_keeps _ _).bind fun _ => .get_bind fun _ => .get_bind fun _ =>
    (writeLoc_keeps _ _ _).bind fun _ => modify_keeps

theorem updatePair_keeps (sz : Size) (dx dy : RegNo) (f : Long → Update) :
    Keeps (State.Keeping Q) (updatePair sz dx dy f) := modify_keeps

theorem updatePairMem_keeps (sz : Size) (ax ay : RegNo) (f : Long → Update) :
    Keeps (State.Keeping Q) (updatePairMem sz ax ay f) :=
  (readEA_keeps _ _).bind fun _ => updateEA_keeps _ _ _

theorem compareWith_keeps (sz : Size) (src d : Long) : Keeps (State.Keeping Q) (compareWith sz src d) := modify_keeps

/-! ## Integer arithmetic -/

theorem updateA_keeps (sz : Size) (an : RegNo) (ea : EA) (op : Long → Long → Long) :
    Keeps (State.Keeping Q) (updateA sz an ea op) :=
  (readEA_keeps _ _).bind fun _ => modify_keeps

theorem updateQuick_keeps (q : BitVec 3) (sz : Size) (ea : EA) (op : Long → Long → Long) (f : Long → Update) :
    Keeps (State.Keeping Q) (updateQuick q sz ea op f) := by
  cases ea with
  | areg n => exact modify_keeps
  | _ => exact updateEA_keeps _ _ _

theorem compareAddress_keeps (sz : Size) (an : RegNo) (ea : EA) :
    Keeps (State.Keeping Q) (compareAddress sz an ea) :=
  (readEA_keeps _ _).bind fun _ => .get_bind fun _ => compareWith_keeps _ _ _

theorem multiply_keeps (dn : RegNo) (ea : EA) (op : Word → Word → Long) :
    Keeps (State.Keeping Q) (multiply dn ea op) :=
  (readEA_keeps _ _).bind fun _ => modify_keeps

/-- The cases are those of R252: no divisor, a quotient that fits, overflow. -/
theorem divide_keeps (dn : RegNo) (ea : EA) (op : Long → Word → Option Quotient) :
    Keeps (State.Keeping Q) (divide dn ea op) := by
  refine (readEA_keeps _ _).bind fun src => .ite ?_ (.get_bind fun s => ?_)
  · exact drawFree_keeps.bind fun _ => .bind modify_keeps fun _ => .pure _ _
  · cases op (s.readD dn) (lowWord src) with
    | some u => exact .bind modify_keeps fun _ => .pure _ _
    | none => exact drawFree_keeps.bind fun _ => .bind modify_keeps fun _ => .pure _ _

theorem execExtW_settles (dn : RegNo) : Settles (execExtW dn) := .runPlain modify_keeps

theorem execExtL_settles (dn : RegNo) : Settles (execExtL dn) := .runPlain modify_keeps

theorem execClr_settles (sz : Size) (ea : EA) : Settles (execClr sz ea) :=
  .runPlain <| (resolveEA_keeps _ _).bind fun _ => (discardRead_keeps _ _).bind fun _ =>
    (writeLoc_keeps _ _ _).bind fun _ => modify_keeps

theorem execCmp_settles (sz : Size) (dn : RegNo) (ea : EA) : Settles (execCmp sz dn ea) :=
  .runPlain <| (readEA_keeps _ _).bind fun _ => .get_bind fun _ => compareWith_keeps _ _ _

theorem execCmpi_settles (sz : Size) (v : Imm) (ea : EA) : Settles (execCmpi sz v ea) :=
  .runPlain <| (readImm_keeps _ _).bind fun _ => (readEA_keeps _ _).bind fun _ => compareWith_keeps _ _ _

theorem execCmpm_settles (sz : Size) (ax ay : RegNo) : Settles (execCmpm sz ax ay) :=
  .runPlain <| (readEA_keeps _ _).bind fun _ => (readEA_keeps _ _).bind fun _ => compareWith_keeps _ _ _

theorem execTst_settles (sz : Size) (ea : EA) : Settles (execTst sz ea) :=
  .runPlain <| (readEA_keeps _ _).bind fun _ => modify_keeps

/-- In memory TAS makes its own two cycles (R79); elsewhere it is an ordinary update. -/
theorem execTas_settles (ea : EA) : Settles (execTas ea) :=
  .runPlain <| (resolveEA_keeps _ _).bind fun loc => by
    cases loc with
    | mem a fc lowFirst =>
      exact (busRead_keeps _ _ _ _).bind fun _ => .bind modify_keeps fun _ => busWrite_keeps _ _ _ _ _
    | _ => exact updateLocFlagsFirst_keeps _ _ _

/-! ## Decimal -/

theorem decimalWrite_keeps (loc : Loc) (op : Long → Long → Bool → DecimalSum) (src d : Long) :
    Keeps (State.Keeping Q) (decimalWrite loc op src d) :=
  drawFree_keeps.bind fun _ => .get_bind fun _ => (writeLoc_keeps _ _ _).bind fun _ => modify_keeps

theorem decimalReg_keeps (dx dy : RegNo) (op : Long → Long → Bool → DecimalSum) :
    Keeps (State.Keeping Q) (decimalReg dx dy op) :=
  (readLoc_keeps _ _).bind fun _ => (readLoc_keeps _ _).bind fun _ => decimalWrite_keeps _ _ _ _

theorem decimalMem_keeps (ax ay : RegNo) (op : Long → Long → Bool → DecimalSum) :
    Keeps (State.Keeping Q) (decimalMem ax ay op) :=
  (readEA_keeps _ _).bind fun _ => (resolveEA_keeps _ _).bind fun _ => (readLoc_keeps _ _).bind fun _ =>
    decimalWrite_keeps _ _ _ _

theorem execNbcd_settles (ea : EA) : Settles (execNbcd ea) :=
  .runPlain <| (resolveEA_keeps _ _).bind fun _ => (readLoc_keeps _ _).bind fun _ => decimalWrite_keeps _ _ _ _

/-! ## Bit manipulation -/

theorem dynamicBit_keeps (dn : RegNo) : Keeps (State.Keeping Q) (dynamicBit dn) := .get_bind fun _ => .pure _ _

theorem staticBit_keeps (b : Word) : Keeps (State.Keeping Q) (staticBit b) :=
  (fetchWords_keeps _).bind fun _ => .pure _ _

theorem bitTest_keeps {number : M Long} (hn : Keeps (State.Keeping Q) number) (ea : EA) :
    Keeps (State.Keeping Q) (bitTest number ea) :=
  hn.bind fun _ => (readEA_keeps _ _).bind fun _ => modify_keeps

theorem bitChange_keeps {number : M Long} (hn : Keeps (State.Keeping Q) number) (ea : EA)
    (op : Long → Long → Long) : Keeps (State.Keeping Q) (bitChange number ea op) :=
  hn.bind fun _ => (resolveEA_keeps _ _).bind fun _ => updateLocFlagsFirst_keeps _ _ _

/-! ## Data movement -/

theorem moveData_keeps (sz : Size) (src dst : EA) : Keeps (State.Keeping Q) (moveData sz src dst) :=
  (readEA_keeps _ _).bind fun _ => (resolveEA_keeps _ _).bind fun _ => .bind modify_keeps fun _ =>
    writeLoc_keeps _ _ _

theorem moveAddress_keeps (sz : Size) (an : RegNo) (src : EA) : Keeps (State.Keeping Q) (moveAddress sz an src) :=
  (readEA_keeps _ _).bind fun _ => modify_keeps

theorem execMoveq_settles (dn : RegNo) (v : Byte) : Settles (execMoveq dn v) := .runPlain modify_keeps

theorem execSwap_settles (dn : RegNo) : Settles (execSwap dn) := .runPlain modify_keeps

theorem execExgDD_settles (dx dy : RegNo) : Settles (execExgDD dx dy) := .runPlain modify_keeps

theorem execExgAA_settles (ax ay : RegNo) : Settles (execExgAA ax ay) := .runPlain modify_keeps

theorem execExgDA_settles (dx ay : RegNo) : Settles (execExgDA dx ay) := .runPlain modify_keeps

theorem execLea_settles (an : RegNo) (ea : EA) : Settles (execLea an ea) :=
  .runPlain <| (resolveEA_keeps _ _).bind fun _ => modify_keeps

theorem execPea_settles (ea : EA) : Settles (execPea ea) :=
  .runPlain <| (resolveEA_keeps _ _).bind fun _ => push32_keeps _

theorem execLink_settles (an : RegNo) (d : Word) : Settles (execLink an d) :=
  .runPlain <| (fetchWords_keeps _).bind fun _ => .bind modify_keeps fun _ => .get_bind fun _ =>
    (memWrite_keeps _ _ _ _ _).bind fun _ => .bind modify_keeps fun _ => modify_keeps

theorem execUnlk_settles (an : RegNo) : Settles (execUnlk an) :=
  .runPlain <| .bind modify_keeps fun _ => pop32_keeps.bind fun _ => modify_keeps

theorem storeDown_keeps (sz : Size) (ks : List (Fin 16)) (a : Long) : Keeps (State.Keeping Q) (storeDown sz ks a) := by
  induction ks generalizing a with
  | nil => exact .pure _ _
  | cons k ks ih => exact .get_bind fun _ => (memWrite_keeps _ _ _ _ _).bind fun _ => ih _

theorem storeUp_keeps (sz : Size) (ks : List (Fin 16)) (a : Long) : Keeps (State.Keeping Q) (storeUp sz ks a) := by
  induction ks generalizing a with
  | nil => exact .pure _ _
  | cons k ks ih => exact .get_bind fun _ => (memWrite_keeps _ _ _ _ _).bind fun _ => ih _

theorem loadUp_keeps (fc : FuncCode) (sz : Size) (ks : List (Fin 16)) (a : Long) :
    Keeps (State.Keeping Q) (loadUp fc sz ks a) := by
  induction ks generalizing a with
  | nil => exact .pure _ _
  | cons k ks ih =>
    exact (memRead_keeps _ _ _).bind fun _ => (Keeps.modify fun _ h => h.writeR _ _).bind fun _ => ih _

theorem execMovemToMem_settles (sz : SizeWL) (list : Word) (ea : EA) : Settles (execMovemToMem sz list ea) :=
  .runPlain <| (fetchWords_keeps _).bind fun _ => by
    cases ea with
    | preDec n => exact .get_bind fun _ => (storeDown_keeps _ _ _).bind fun _ => modify_keeps
    | _ => exact (resolveEA_keeps _ _).bind fun _ => storeUp_keeps _ _ _

/-- The base register is stepped in `(An)+` alone (R218). -/
theorem execMovemToRegs_settles (sz : SizeWL) (list : Word) (ea : EA) : Settles (execMovemToRegs sz list ea) :=
  .runPlain <| (fetchWords_keeps _).bind fun _ => .get_bind fun s => (fetchWords_keeps _).bind fun _ => by
    cases eaLoc ea sz.size s with
    | mem a fc lowFirst =>
      refine (loadUp_keeps _ _ _ _).bind fun _ => (memRead_keeps _ _ _).bind fun _ => ?_
      cases ea with
      | postInc n => exact modify_keeps
      | _ => exact .pure _ _
    | _ => exact .pure _ _

theorem peripheralLoad_keeps (k : Nat) (a acc : Long) : Keeps (State.Keeping Q) (peripheralLoad k a acc) := by
  induction k generalizing a acc with
  | zero => exact .pure _ _
  | succ k ih => exact .get_bind fun _ => (memRead_keeps _ _ _).bind fun _ => ih _ _

theorem peripheralStore_keeps (v : Long) (k : Nat) (a : Long) : Keeps (State.Keeping Q) (peripheralStore v k a) := by
  induction k generalizing a with
  | zero => exact .pure _ _
  | succ k ih => exact .get_bind fun _ => (memWrite_keeps _ _ _ _ _).bind fun _ => ih _

theorem peripheralAddress_keeps (ay : RegNo) (d : Word) : Keeps (State.Keeping Q) (peripheralAddress ay d) :=
  (fetchWords_keeps _).bind fun _ => .get_bind fun _ => .pure _ _

theorem execMovepWToReg_settles (dx ay : RegNo) (d : Word) : Settles (execMovepWToReg dx ay d) :=
  .runPlain <| (peripheralAddress_keeps _ _).bind fun _ => (peripheralLoad_keeps _ _ _).bind fun _ => modify_keeps

theorem execMovepLToReg_settles (dx ay : RegNo) (d : Word) : Settles (execMovepLToReg dx ay d) :=
  .runPlain <| (peripheralAddress_keeps _ _).bind fun _ => (peripheralLoad_keeps _ _ _).bind fun _ => modify_keeps

theorem execMovepWToMem_settles (dx ay : RegNo) (d : Word) : Settles (execMovepWToMem dx ay d) :=
  .runPlain <| (peripheralAddress_keeps _ _).bind fun _ => .get_bind fun _ => peripheralStore_keeps _ _ _

theorem execMovepLToMem_settles (dx ay : RegNo) (d : Word) : Settles (execMovepLToMem dx ay d) :=
  .runPlain <| (peripheralAddress_keeps _ _).bind fun _ => .get_bind fun _ => peripheralStore_keeps _ _ _

/-! ## Program control -/

theorem branchTarget_keeps (d : Disp) : Keeps (State.Keeping Q) (branchTarget d) :=
  .get_bind fun _ => by
    cases d with
    | short b => exact .pure _ _
    | word w => exact (fetchWords_keeps _).bind fun _ => .pure _ _

theorem execBcc_settles (cond : Cond) (d : Disp) : Settles (execBcc cond d) :=
  .runPlain <| (branchTarget_keeps _).bind fun _ => modify_keeps (by intro s; split <;> simp)

theorem execBra_settles (d : Disp) : Settles (execBra d) :=
  .runPlain <| (branchTarget_keeps _).bind fun _ => modify_keeps

theorem execBsr_settles (d : Disp) : Settles (execBsr d) :=
  .runPlain <| (branchTarget_keeps _).bind fun _ => .get_bind fun _ => (push32_keeps _).bind fun _ => modify_keeps

/-- The cases are those of R339: the condition holds, the counter has run out, or the branch is taken. -/
theorem execDbcc_settles (cond : Cond) (dn : RegNo) (d : Word) : Settles (execDbcc cond dn d) :=
  .runPlain <| .get_bind fun _ => (fetchWords_keeps _).bind fun _ => .modify fun s h => by
    split
    · exact h
    · dsimp only
      split
      · exact h.writeD _ _
      · exact h.congr rfl rfl rfl

theorem execScc_settles (cond : Cond) (ea : EA) : Settles (execScc cond ea) :=
  .runPlain <| (resolveEA_keeps _ _).bind fun _ => (discardRead_keeps _ _).bind fun _ => .get_bind fun _ =>
    writeLoc_keeps _ _ _

theorem execJmp_settles (ea : EA) : Settles (execJmp ea) :=
  .runPlain <| (resolveEA_keeps _ _).bind fun _ => modify_keeps

theorem execJsr_settles (ea : EA) : Settles (execJsr ea) :=
  .runPlain <| (resolveEA_keeps _ _).bind fun _ => .get_bind fun _ => (push32_keeps _).bind fun _ => modify_keeps

theorem execRts_settles : Settles execRts :=
  .runPlain <| pop32_keeps.bind fun _ => modify_keeps

theorem execRtr_settles : Settles execRtr :=
  .runPlain <| pop16_keeps.bind fun _ => .bind modify_keeps fun _ => pop32_keeps.bind fun _ => modify_keeps

theorem execNop_settles : Settles execNop := .runPlain (.pure _ _)

/-! ## Shifts and rotates -/

theorem shiftReg_keeps (op : ShiftOp) (c : ShiftCount) (sz : Size) (dy : RegNo) :
    Keeps (State.Keeping Q) (shiftReg op c sz dy) := modify_keeps

theorem shiftMem_keeps (op : ShiftOp) (ea : EA) : Keeps (State.Keeping Q) (shiftMem op ea) :=
  (resolveEA_keeps _ _).bind fun _ => updateLocFlagsFirst_keeps _ _ _

/-! ## System control -/

theorem updateCcr_keeps (v : Word) (op : Word → Word → Word) : Keeps (State.Keeping Q) (updateCcr v op) :=
  (fetchWords_keeps _).bind fun _ => modify_keeps

theorem updateSr_keeps (v : Word) (op : Word → Word → Word) : Keeps (State.Keeping Q) (updateSr v op) :=
  privileged_keeps <| (fetchWords_keeps _).bind fun _ => modify_keeps

theorem returnFromException_keeps : Keeps (State.Keeping Q) returnFromException :=
  .get_bind fun _ => (memRead_keeps _ _ _).bind fun _ => (memRead_keeps _ _ _).bind fun _ => modify_keeps

theorem execMoveToCcr_settles (ea : EA) : Settles (execMoveToCcr ea) :=
  .runPlain <| (readEA_keeps _ _).bind fun _ => modify_keeps

theorem execMoveToSr_settles (ea : EA) : Settles (execMoveToSr ea) :=
  .runInstr <| privileged_keeps <| (readEA_keeps _ _).bind fun _ => modify_keeps

theorem execMoveFromSr_settles (ea : EA) : Settles (execMoveFromSr ea) :=
  .runPlain <| (resolveEA_keeps _ _).bind fun _ => (discardRead_keeps _ _).bind fun _ => .get_bind fun _ =>
    writeLoc_keeps _ _ _

/-- STOP alone names a processing state, and that is not one of exception processing (R369). -/
theorem execStop_settles (v : Word) : Settles (execStop v) :=
  .runInstr <| privileged_keeps <| (fetchWords_keeps _).bind fun _ => .modify fun _ h => ⟨h.1, fun _ => nofun⟩

theorem execChk_settles (dn : RegNo) (ea : EA) : Settles (execChk dn ea) :=
  .runInstr <| (readEA_keeps _ _).bind fun _ => drawFree_keeps.bind fun _ => .get_bind fun _ =>
    .ite (.bind modify_keeps fun _ => .pure _ _) <|
    .ite (.bind modify_keeps fun _ => .pure _ _) (.bind modify_keeps fun _ => .pure _ _)

theorem execTrap_settles (v : BitVec 4) : Settles (execTrap v) := .runInstr (.pure _ _)

theorem execIllegalWord_settles : Settles execIllegalWord := .runInstr (.pure _ _)

theorem execLineA_settles (w : BitVec 12) : Settles (execLineA w) := .runInstr (.pure _ _)

theorem execLineF_settles (w : BitVec 12) : Settles (execLineF w) := .runInstr (.pure _ _)

theorem execTrapv_settles : Settles execTrapv :=
  .runInstr <| .get_bind fun _ => .ite (.pure _ _) (.pure _ _)

end

/-! ## Every instruction -/

/-- The instructions stand by the shape of their rule, in the order of the layers above. -/
theorem exec_settles (i : Instr) : Settles (exec i) := by
  cases i with
  | addToReg | subToReg | andToReg | orToReg => exact .runPlain (updateD_keeps _ _ _ _)
  | addToMem | subToMem | andToMem | orToMem | eor => exact .runPlain (updateByD_keeps _ _ _ _)
  | addi | subi | andi | ori | eori => exact .runPlain (updateImm_keeps _ _ _ _)
  | neg | negx | notOp => exact .runPlain (updateEA_keeps _ _ _)
  | addxReg | subxReg => exact .runPlain (updatePair_keeps _ _ _ _)
  | addxMem | subxMem => exact .runPlain (updatePairMem_keeps _ _ _ _)
  | addaW | addaL | subaW | subaL => exact .runPlain (updateA_keeps _ _ _ _)
  | addq | subq => exact .runPlain (updateQuick_keeps _ _ _ _ _)
  | cmpaW | cmpaL => exact .runPlain (compareAddress_keeps _ _ _)
  | mulu | muls => exact .runPlain (multiply_keeps _ _ _)
  | divu | divs => exact .runInstr (divide_keeps _ _ _)
  | clr => exact execClr_settles _ _
  | cmp => exact execCmp_settles _ _ _
  | cmpi => exact execCmpi_settles _ _ _
  | cmpm => exact execCmpm_settles _ _ _
  | tst => exact execTst_settles _ _
  | tas => exact execTas_settles _
  | abcdReg | sbcdReg => exact .runPlain (decimalReg_keeps _ _ _)
  | abcdMem | sbcdMem => exact .runPlain (decimalMem_keeps _ _ _)
  | nbcd => exact execNbcd_settles _
  | btstImm => exact .runPlain (bitTest_keeps (staticBit_keeps _) _)
  | btstReg => exact .runPlain (bitTest_keeps (dynamicBit_keeps _) _)
  | bchgImm | bclrImm | bsetImm => exact .runPlain (bitChange_keeps (staticBit_keeps _) _ _)
  | bchgReg | bclrReg | bsetReg => exact .runPlain (bitChange_keeps (dynamicBit_keeps _) _ _)
  | moveB | moveW | moveL => exact .runPlain (moveData_keeps _ _ _)
  | moveaW | moveaL => exact .runPlain (moveAddress_keeps _ _ _)
  | moveq => exact execMoveq_settles _ _
  | swap => exact execSwap_settles _
  | extW => exact execExtW_settles _
  | extL => exact execExtL_settles _
  | exgDD => exact execExgDD_settles _ _
  | exgAA => exact execExgAA_settles _ _
  | exgDA => exact execExgDA_settles _ _
  | lea => exact execLea_settles _ _
  | pea => exact execPea_settles _
  | link => exact execLink_settles _ _
  | unlk => exact execUnlk_settles _
  | movemToMem => exact execMovemToMem_settles _ _ _
  | movemToRegs => exact execMovemToRegs_settles _ _ _
  | movepWToReg => exact execMovepWToReg_settles _ _ _
  | movepLToReg => exact execMovepLToReg_settles _ _ _
  | movepWToMem => exact execMovepWToMem_settles _ _ _
  | movepLToMem => exact execMovepLToMem_settles _ _ _
  | bcc => exact execBcc_settles _ _
  | bra => exact execBra_settles _
  | bsr => exact execBsr_settles _
  | dbcc => exact execDbcc_settles _ _ _
  | scc => exact execScc_settles _ _
  | jmp => exact execJmp_settles _
  | jsr => exact execJsr_settles _
  | rts => exact execRts_settles
  | rtr => exact execRtr_settles
  | aslReg | asrReg | lslReg | lsrReg | roxlReg | roxrReg | rolReg | rorReg =>
    exact .runPlain (shiftReg_keeps _ _ _ _)
  | aslMem | asrMem | lslMem | lsrMem | roxlMem | roxrMem | rolMem | rorMem => exact .runPlain (shiftMem_keeps _ _)
  | andiToCcr | eoriToCcr | oriToCcr => exact .runPlain (updateCcr_keeps _ _)
  | andiToSr | eoriToSr | oriToSr => exact .runInstr (updateSr_keeps _ _)
  | moveToCcr => exact execMoveToCcr_settles _
  | moveToSr => exact execMoveToSr_settles _
  | moveFromSr => exact execMoveFromSr_settles _
  | moveToUsp | moveFromUsp | reset => exact .runInstr (privileged_keeps modify_keeps)
  | rte => exact .runInstr (privileged_keeps returnFromException_keeps)
  | stop => exact execStop_settles _
  | chk => exact execChk_settles _ _
  | trapv => exact execTrapv_settles
  | nop => exact execNop_settles
  | trap => exact execTrap_settles _
  | illegal4AFC | illegal4AFA | illegal4AFB => exact execIllegalWord_settles
  | lineA w => exact execLineA_settles w
  | lineF w => exact execLineF_settles w

/-! ## The step -/

theorem State.inv_iff {s : State} : s.Inv ↔ s.Settled ∧ s.tracePending = false :=
  ⟨fun ⟨hm, ht, hp⟩ => ⟨⟨hm, hp⟩, ht⟩, fun ⟨⟨hm, hp⟩, ht⟩ => ⟨hm, ht, hp⟩⟩

/-- Taking the input in changes memory by other masters' writes alone. -/
theorem State.sample_inv {s : State} (h : s.Inv) : s.sample.Inv :=
  ⟨Memory.writeAll_wf h.1 _, h.2⟩

theorem abandon_inv {pc0 : Long} {hasOpw : Bool} {e : BusStop} {s t : State} (h : Memory.wf s.mem)
    (ht : abandon pc0 hasOpw e s = .next t) : t.Inv :=
  State.inv_iff.mpr (abandon_settles h ht)

theorem finish_takeException_inv {pc0 : Long} {g : ExcGroup} {src : VectorSource} {pcs : Long} {s t : State}
    (h : Memory.wf s.mem) (hf : s.tracePending = false) (ht : finish pc0 true (takeException g src pcs s) = .next t) :
    t.Inv := by
  obtain ⟨hs, hk⟩ := finish_takeException_settles h ht
  exact State.inv_iff.mpr ⟨hs, hk hf⟩

theorem resetException_keeps : Keeps (State.Keeping fun _ b => b = false) resetException :=
  (Keeps.modify fun _ h => ⟨h.1, rfl⟩).bind fun _ => drawFree_keeps.bind fun _ => .bind modify_keeps fun _ =>
    (memRead_keeps _ _ _).bind fun _ => .bind modify_keeps fun _ => (memRead_keeps _ _ _).bind fun _ =>
    .modify fun _ h => ⟨h.1, h.2⟩

theorem resetException_ends : Ends (fun t => t.pstate = .normal) resetException :=
  .bind fun _ => .bind fun _ => .bind fun _ => .bind fun _ => .bind fun _ => .bind fun _ => .modify fun _ => rfl

theorem finish_resetException_inv {pc0 : Long} {s t : State} (h : s.Inv)
    (ht : finish pc0 false (resetException s) = .next t) : t.Inv := by
  obtain ⟨hm, hf, -⟩ := h
  cases hx : resetException s with
  | ok a u =>
    rw [hx] at ht
    cases ht
    obtain ⟨hm', hf'⟩ := resetException_keeps.ok ⟨hm, hf⟩ hx
    have hn := resetException_ends _ _ _ hx
    exact ⟨hm', hf', fun g hg => nomatch hn.symm.trans hg⟩
  | error e u =>
    rw [hx] at ht
    exact abandon_inv (resetException_keeps.error ⟨hm, hf⟩ hx).1 ht

/-- The fetch of the operation word samples the trace bit: of the pending trace nothing is kept. -/
theorem fetchOperationWord_keeps : Keeps State.Settled fetchOperationWord :=
  .get_bind fun _ => (memRead_keeps _ _ _).bind fun _ => .modify fun _ h => ⟨h.1, h.2⟩

theorem executeDecoded_settles : Settles executeDecoded := by
  intro s t h ht
  unfold executeDecoded at ht
  split at ht
  next i _ _ => exact exec_settles i s t h ht
  next => exact execIllegalWord_settles s t h ht

/-- A trace left pending is taken within the step (R437). -/
theorem traceAfter_inv {r : Out} (hr : ∀ u, r = .next u → u.Settled) {t : State} (ht : traceAfter r = .next t) :
    t.Inv := by
  cases r with
  | next u =>
    have hu : u.Settled := hr u rfl
    by_cases htr : u.tracePending = true
    · rw [traceAfter, if_pos htr] at ht
      exact finish_takeException_inv (s := { u with tracePending := false }) hu.1 rfl ht
    · rw [traceAfter, if_neg htr] at ht
      cases ht
      exact State.inv_iff.mpr ⟨hu, Bool.eq_false_of_not_eq_true htr⟩
  | _ => cases ht

theorem runInstruction_inv {s t : State} (h : s.Settled) (ht : runInstruction s = .next t) : t.Inv := by
  unfold runInstruction at ht
  cases hx : fetchOperationWord s with
  | ok a u =>
    rw [hx] at ht
    exact traceAfter_inv (fun v => executeDecoded_settles u v (fetchOperationWord_keeps.ok h hx)) ht
  | error e u =>
    rw [hx] at ht
    exact abandon_inv (fetchOperationWord_keeps.error h hx).1 ht

/-- The cases are those of R407 in their order: reset, HALT or halted, interrupt, stopped, instruction. -/
theorem runSampled_inv {i : Input} {s t : State} (h : s.Inv) (ht : runSampled i s = .next t) : t.Inv := by
  have ⟨hm, hf, _⟩ := h
  unfold runSampled at ht
  split at ht
  next => exact finish_resetException_inv h ht
  split at ht
  next => cases ht; exact h
  split at ht
  next => exact finish_takeException_inv hm hf ht
  split at ht
  next => cases ht; exact h
  next => exact runInstruction_inv (State.inv_iff.mp h).1 ht

/-- Settles O59: the input is taken in, then every case of the step leaves the invariant. -/
theorem stepKeepsInv : Obligations.StepKeepsInv :=
  fun _ _ h ht => runSampled_inv (State.sample_inv h) ht

/-- Settles O60: memory lists nothing, no trace is pending and the processing state is normal. -/
theorem resetHasInv : Obligations.ResetHasInv :=
  ⟨Memory.reset_wf, rfl, fun _ => nofun⟩

end Sys2Proof.Machine
end

section
/-! LAWS AND CERTIFICATE. Sized access to registers (R21, R23), and the register, stepping and immediate modes (R181 to
R192): what reading and writing a register location does to the state, said once for every size. -/

namespace Sys2Proof.Machine

/-! ## Register locations -/

@[simp] theorem readLoc_dreg_run (n : RegNo) (sz : Size) (s : State) :
    readLoc (.dreg n) sz s = .ok (sz.trunc (s.readD n)) s := rfl

@[simp] theorem writeLoc_dreg_run (n : RegNo) (sz : Size) (v : Long) (s : State) :
    writeLoc (.dreg n) sz v s = .ok () (s.writeD n (sz.merge (s.readD n) v)) := rfl

@[simp] theorem writeLoc_areg_run (n : RegNo) (sz : Size) (v : Long) (s : State) :
    writeLoc (.areg n) sz v s = .ok () (s.writeA n (sz.sext v)) := rfl

/-- A write to an address register reaches A0 to A6 and the two stack pointers alone. -/
theorem State.writeA_eq (s : State) (n : RegNo) (v : Long) :
    s.writeA n v = { s with a := (s.writeA n v).a, usp := (s.writeA n v).usp, ssp := (s.writeA n v).ssp } := by
  unfold State.writeA State.setSp
  split
  · rfl
  · split <;> rfl

/-- A write to a data register in a size: the merged value in that register, and nothing else changed. -/
theorem writeLoc_dreg (n : RegNo) (sz : Size) (v : Long) (s : State) :
    ∃ t, writeLoc (.dreg n) sz v s = .ok () t ∧ t = { s with d := t.d }
      ∧ t.readD n = sz.merge (s.readD n) v ∧ ∀ k, k ≠ n → t.readD k = s.readD k :=
  ⟨_, writeLoc_dreg_run n sz v s, rfl, s.readD_writeD_same n _, fun _ hk => s.readD_writeD_other _ hk.symm⟩

/-- A write to an address register in a size: the extended value in that register, and nothing else changed. -/
theorem writeLoc_areg (n : RegNo) (sz : Size) (v : Long) (s : State) :
    ∃ t, writeLoc (.areg n) sz v s = .ok () t ∧ t = { s with a := t.a, usp := t.usp, ssp := t.ssp }
      ∧ t.readA n = sz.sext v ∧ ∀ k, k ≠ n → t.readA k = s.readA k :=
  ⟨_, writeLoc_areg_run n sz v s, s.writeA_eq n _, s.readA_writeA_same n _,
    fun _ hk => s.readA_writeA_other _ hk.symm⟩

theorem readLoc_dreg_byte (n : RegNo) (s : State) :
    readLoc (.dreg n) .b s = .ok (((s.readD n).extractLsb' 0 8).setWidth 32) s := by
  rw [readLoc_dreg_run, ← ofByte_eq, ofByte, lowByte]

theorem readLoc_dreg_word (n : RegNo) (s : State) :
    readLoc (.dreg n) .w s = .ok (((s.readD n).extractLsb' 0 16).setWidth 32) s := by
  rw [readLoc_dreg_run, ← ofWord_eq, ofWord, lowWord]

/-! ## The stepping and immediate modes -/

/-- The step of `(An)+` and `-(An)` (R184): the stack pointer stays even. -/
theorem stepSize_eq (n : RegNo) (sz : Size) : stepSize n sz = match sz with
    | .b => if n = 7 then 2 else 1
    | .w => 2
    | .l => 4 := by
  cases sz <;> simp [stepSize, Size.bytes]

theorem lowByte_ofWord (w : Word) : lowByte (ofWord w) = w.extractLsb' 0 8 := by
  refine BitVec.eq_of_getLsbD_eq fun k hk => ?_
  have hk32 : k < 32 := by omega
  simp [lowByte, ofWord, hk, hk32]

/-- A byte immediate is the low byte of its word (R145). -/
theorem eaLoc_imm16_byte (w : Word) (s : State) :
    eaLoc (.imm16 w) .b s = .imm ((w.extractLsb' 0 8).setWidth 32) := by
  rw [eaLoc, ← ofByte_eq, lowByte_ofWord, ofByte]

theorem eaLoc_imm16_word (w : Word) (s : State) : eaLoc (.imm16 w) .w s = .imm (w.setWidth 32) := by
  rw [eaLoc, ← ofWord_eq, lowWord_ofWord, ofWord]

/-- Settles O10: data registers, address registers, A7 and the function codes, then the modes. -/
theorem registerWrites : Obligations.RegisterWrites := by
  intro s n v
  refine ⟨⟨readLoc_dreg_byte n s, readLoc_dreg_word n s, readLoc_dreg_run n .l s⟩,
    writeLoc_dreg n .b v s, writeLoc_dreg n .w v s, writeLoc_dreg n .l v s, writeLoc_areg n .w v s,
    rfl, rfl, rfl, rfl, rfl, rfl, rfl, rfl, rfl, ?modes,
    fun w => ⟨eaLoc_imm16_byte w s, eaLoc_imm16_word w s, rfl, rfl, rfl⟩⟩
  case modes =>
    intro sz k
    have hk : stepSize n sz = k := stepSize_eq n sz
    simp [eaLoc, eaStep, eaWords, hk]

end Sys2Proof.Machine
end

section
/-! LAWS AND CERTIFICATE. The 16-bit image of the status register (R28, D8): its bits are named once
(`StatusReg.getLsbD_toWord`), and what a write to SR or to CCR stores follows bit by bit. -/

namespace Sys2Proof.Machine

/-- The layout of the image: a bit that is no field reads 0. -/
theorem StatusReg.getLsbD_toWord (r : StatusReg) {k : Nat} (hk : k < 16) : r.toWord.getLsbD k =
    match k with
    | 15 => r.t
    | 13 => r.s
    | 10 => r.i.getLsbD 2
    | 9 => r.i.getLsbD 1
    | 8 => r.i.getLsbD 0
    | 4 => r.x
    | 3 => r.n
    | 2 => r.z
    | 1 => r.v
    | 0 => r.c
    | _ => false := by
  simp only [StatusReg.toWord, BitVec.getLsbD_append, BitVec.getLsbD_ofBool]
  interval_cases k <;> simp

theorem StatusReg.toWord_ofWord (w : Word) : (StatusReg.ofWord w).toWord = w &&& 0xA71F#16 := by
  refine BitVec.eq_of_getLsbD_eq fun k hk => ?_
  rw [StatusReg.getLsbD_toWord _ hk, BitVec.getLsbD_and]
  interval_cases k <;> simp [StatusReg.ofWord]

theorem StatusReg.extractLsb'_toWord (r : StatusReg) : r.toWord.extractLsb' 8 3 = r.i := by
  refine BitVec.eq_of_getLsbD_eq fun k hk => ?_
  rw [BitVec.getLsbD_extractLsb', decide_eq_true hk, Bool.true_and, StatusReg.getLsbD_toWord _ (by omega)]
  interval_cases k <;> rfl

theorem StatusReg.ofWord_toWord (r : StatusReg) : StatusReg.ofWord r.toWord = r := by
  simp only [StatusReg.ofWord, StatusReg.getLsbD_toWord, StatusReg.extractLsb'_toWord, Nat.reduceLT]

theorem StatusReg.toWord_setCcr (r : StatusReg) (w : Word) :
    (r.setCcr w).toWord = (r.toWord &&& 0xFF00#16) ||| (w &&& 0x001F#16) := by
  refine BitVec.eq_of_getLsbD_eq fun k hk => ?_
  rw [BitVec.getLsbD_or, BitVec.getLsbD_and, BitVec.getLsbD_and, StatusReg.getLsbD_toWord _ hk,
    StatusReg.getLsbD_toWord _ hk]
  interval_cases k <;> simp [StatusReg.setCcr]

/-- Settles O11: the image of a write to SR, its inverse, and the image of a write to CCR. -/
theorem statusImage : Obligations.StatusImage :=
  ⟨StatusReg.toWord_ofWord, StatusReg.ofWord_toWord, StatusReg.toWord_setCcr⟩

end Sys2Proof.Machine
end

section
/-! LAWS AND CERTIFICATE. Memory as a map of bytes and the accesses to it where the bus serves: the canonical form (log
entry 2), the byte order (R61), alignment (R65), a write read back (R62, R63), and the 24 address bits that reach the bus
(R66, D6). -/

namespace Sys2Proof.Machine

/-! ## The canonical form -/

theorem Memory.read_cons (c : Host.Cell) (m : Memory) (n : Nat) :
    Memory.read (c :: m) n = if c.1 = n then c.2 else Memory.read m n := rfl

theorem Memory.read_unlisted {m : Memory} {n : Nat} (h : ∀ c ∈ m, c.1 ≠ n) : Memory.read m n = Config.unwrittenByte := by
  induction m with
  | nil => rfl
  | cons c m ih =>
    rw [Memory.read_cons, if_neg (h c List.mem_cons_self), ih fun c' hc' => h c' (List.mem_cons_of_mem _ hc')]

theorem Memory.wf_cons {c : Host.Cell} {m : Memory} (h : Memory.wf (c :: m)) :
    (∀ c' ∈ m, c.1 < c'.1) ∧ c.2 ≠ Config.unwrittenByte ∧ Memory.wf m := by
  obtain ⟨hp, hb⟩ := h
  obtain ⟨hlt, hp'⟩ := List.pairwise_cons.mp hp
  exact ⟨hlt, hb c List.mem_cons_self, hp', fun c' hc' => hb c' (List.mem_cons_of_mem _ hc')⟩

/-- The first entry of a canonical memory is seen by a read. -/
theorem Memory.read_head {c : Host.Cell} {m : Memory} (h : Memory.wf (c :: m)) :
    Memory.read (c :: m) c.1 ≠ Config.unwrittenByte := by
  rw [Memory.read_cons, if_pos rfl]
  exact (Memory.wf_cons h).2.1

/-- A location before the first entry is unlisted. -/
theorem Memory.read_before {c : Host.Cell} {m : Memory} (h : Memory.wf (c :: m)) {n : Nat} (hn : n < c.1) :
    Memory.read (c :: m) n = Config.unwrittenByte :=
  Memory.read_unlisted <| List.forall_mem_cons.mpr
    ⟨hn.ne', fun c' hc' => (hn.trans ((Memory.wf_cons h).1 c' hc')).ne'⟩

/-- The location of the first entry is unlisted in the rest. -/
theorem Memory.read_tail_head {c : Host.Cell} {m : Memory} (h : Memory.wf (c :: m)) :
    Memory.read m c.1 = Config.unwrittenByte :=
  Memory.read_unlisted fun c' hc' => ((Memory.wf_cons h).1 c' hc').ne'

/-- Of two canonical memories that read alike, neither begins at a lower location than the other. -/
theorem Memory.head_le {c c' : Host.Cell} {m m' : Memory} (h : Memory.wf (c :: m)) (h' : Memory.wf (c' :: m'))
    (hr : ∀ n, Memory.read (c :: m) n = Memory.read (c' :: m') n) : c'.1 ≤ c.1 := by
  by_contra hlt
  exact Memory.read_head h ((hr c.1).trans (Memory.read_before h' (Nat.lt_of_not_le hlt)))

/-- Settles O4: the memories are compared entry by entry; the first entries stand at one location and hold one byte. -/
theorem memoryCanonical : Obligations.MemoryCanonical := by
  intro m
  induction m with
  | nil =>
    intro m' _ h' hr
    cases m' with
    | nil => rfl
    | cons c' m' => exact absurd (hr c'.1).symm (Memory.read_head h')
  | cons c m ih =>
    intro m' h h' hr
    cases m' with
    | nil => exact absurd (hr c.1) (Memory.read_head h)
    | cons c' m' =>
      have hloc : c.1 = c'.1 := Nat.le_antisymm (Memory.head_le h' h fun n => (hr n).symm) (Memory.head_le h h' hr)
      have hbyte : c.2 = c'.2 := by
        have := hr c.1
        rwa [Memory.read_cons, Memory.read_cons, if_pos rfl, if_pos hloc.symm] at this
      have htail (n : Nat) : Memory.read m n = Memory.read m' n := by
        by_cases hn : c.1 = n
        · rw [← hn, Memory.read_tail_head h, hloc, Memory.read_tail_head h']
        · have := hr n
          rwa [Memory.read_cons, Memory.read_cons, if_neg hn, if_neg (hloc ▸ hn)] at this
      rw [Prod.ext hloc hbyte, ih m' (Memory.wf_cons h).2.2 (Memory.wf_cons h').2.2 htail]

/-! ## The byte order -/

theorem State.peekLong_bytes (s : State) (fc : FuncCode) (a : Long) : s.peekLong fc a =
    (s.peekByte fc a ++ s.peekByte fc (a + 1)) ++ (s.peekByte fc (a + 2) ++ s.peekByte fc (a + 3)) := by
  have h : a + 2 + 1 = a + 3 := BitVec.add_assoc a 2 1
  rw [State.peekLong, State.peekWord, State.peekWord, h]

/-- Settles O5: what an access reads where the bus serves is the operand in memory, whose bytes are named. -/
theorem readsAreBigEndian : Obligations.ReadsAreBigEndian := by
  intro s fc a h
  refine ⟨(memRead_serves h (.inl rfl)).run, fun he => (memRead_serves h (.inr he)).run, fun he => ?_⟩
  have hl := (memRead_serves h (fc := fc) (sz := .l) (.inr he)).run
  rwa [State.peek, State.peekLong_bytes] at hl

/-! ## Alignment -/

theorem Aligned.even {sz : Size} {a : Long} (h : Aligned sz a) (hsz : sz ≠ .b) : EvenAddr a := h.resolve_left hsz

/-- A fetch at an odd address does nothing. -/
theorem fetchWord_odd {s : State} (h : ¬EvenAddr s.pc) :
    fetchWord s = .error (.addressError ⟨s.pc, .read, s.fcProg⟩) s := by
  rw [fetchWord, get_bind_run]
  exact bind_error (memRead_odd (sz := .w) (fun ha => h (ha.even nofun)) s)

/-- A byte read ends as its one cycle does. -/
theorem memRead_byte_ne_addressError (fc : FuncCode) (a : Long) (acc : Access) (s t : State) :
    memRead fc a .b s ≠ .error (.addressError acc) t := by
  rw [memRead, bind_ok (checkAligned_ok (.inl rfl) s)]
  obtain ⟨_, _, _, _, -, ⟨v, hv⟩ | ⟨e, he, hx⟩⟩ := busRead_changes .read fc a false s
  · rw [bind_ok hv]; nofun
  · rw [bind_error hx]; rcases he with rfl | rfl <;> nofun

/-- A byte write ends as its one cycle does. -/
theorem memWrite_byte_ne_addressError (fc : FuncCode) (a : Long) (lowFirst : Bool) (v : Long) (acc : Access)
    (s t : State) : memWrite fc a .b lowFirst v s ≠ .error (.addressError acc) t := by
  rw [memWrite, bind_ok (checkAligned_ok (.inl rfl) s)]
  obtain ⟨_, _, _, _, -, hv | ⟨e, he, hx⟩⟩ := busWrite_changes .write fc a false (lowWord (v &&& 0xFF#32)) s
  · rw [hv]; nofun
  · rw [hx]; rcases he with rfl | rfl <;> nofun

/-- Settles O6: the alignment check comes before any cycle, and no cycle ends in an address error. -/
theorem misalignedAccessStops : Obligations.MisalignedAccessStops := by
  intro s fc a lowFirst v
  refine ⟨fun sz hsz hodd => ?_, fetchWord_odd, fun acc t =>
    ⟨memRead_byte_ne_addressError fc a acc s t, memWrite_byte_ne_addressError fc a lowFirst v acc s t⟩⟩
  have ha : ¬Aligned sz a := fun h => hodd (h.even hsz)
  exact ⟨memRead_odd ha s, memWrite_odd ha lowFirst v s⟩

/-! ## A write read back -/

/-- Settles O8: the write stores the operand (`StoredAt`), in either order, and the read gives what is stored. -/
theorem writeThenRead : Obligations.WriteThenRead := by
  intro s fc a sz lowFirst v h ha
  obtain ⟨m, hw, hstored, hframe⟩ := memWrite_serves h (fc := fc) ha lowFirst v
  obtain ⟨log, hlog⟩ := hw.run
  have hserves : ({ s with mem := m, bus := log } : State).BusServes := h.congr rfl
  obtain ⟨log', hlog'⟩ := (memRead_serves hserves (fc := fc) ha).run
  refine ⟨m, log, log', hlog, ?_, hframe⟩
  rw [hlog', ← hstored]
  rfl

/-! ## The address bits that reach the bus -/

theorem busAddr_add {a b : Long} (h : busAddr a = busAddr b) (k : Long) : busAddr (a + k) = busAddr (b + k) := by
  have hn : a.toNat % 16777216 = b.toNat % 16777216 := by rw [← busAddr_toNat, h, busAddr_toNat]
  apply BitVec.eq_of_toNat_eq
  rw [busAddr_toNat, busAddr_toNat, BitVec.toNat_add, BitVec.toNat_add]
  omega

theorem getLsbD_zero_of_busAddr {a b : Long} (h : busAddr a = busAddr b) : a.getLsbD 0 = b.getLsbD 0 := by
  simpa [busAddr] using congrArg (BitVec.getLsbD · 0) h

theorem Aligned.of_busAddr {a b : Long} (h : busAddr a = busAddr b) {sz : Size} (ha : Aligned sz a) : Aligned sz b :=
  ha.imp_right (getLsbD_zero_of_busAddr h).symm.trans

section
variable {a b : Long} (h : busAddr a = busAddr b)
include h

theorem State.location_of_busAddr (s : State) (fc : FuncCode) : s.location fc a = s.location fc b := by
  rw [State.location, State.location, h]

theorem State.place_of_busAddr (s : State) (fc : FuncCode) : s.place fc a = s.place fc b := by
  rw [State.place, State.place, h]

theorem State.answer_of_busAddr (s : State) (fc : FuncCode) (dir : Direction) :
    s.answer fc dir a = s.answer fc dir b := by
  rw [State.answer, State.answer, h]

theorem State.peekByte_of_busAddr (s : State) (fc : FuncCode) : s.peekByte fc a = s.peekByte fc b := by
  rw [State.peekByte, State.peekByte, State.location_of_busAddr h]

theorem State.peekWord_of_busAddr (s : State) (fc : FuncCode) : s.peekWord fc a = s.peekWord fc b := by
  rw [State.peekWord, State.peekWord, State.peekByte_of_busAddr h, State.peekByte_of_busAddr (busAddr_add h 1)]

theorem State.pokeByte_of_busAddr (s : State) (fc : FuncCode) (v : Byte) : s.pokeByte fc a v = s.pokeByte fc b v := by
  rw [State.pokeByte, State.pokeByte, State.memAfter, State.memAfter, State.place_of_busAddr h,
    State.location_of_busAddr h]

theorem State.pokeCycle_of_busAddr (s : State) (fc : FuncCode) (isWord : Bool) (v : Word) :
    s.pokeCycle fc a isWord v = s.pokeCycle fc b isWord v := by
  rw [State.pokeCycle, State.pokeCycle, State.pokeWord, State.pokeWord, State.pokeByte_of_busAddr h,
    State.pokeByte_of_busAddr (busAddr_add h 1), State.pokeByte_of_busAddr h]

theorem State.logCycle_of_busAddr (s : State) (kind : CycleKind) (fc : FuncCode) (isWord : Bool) (data : Option Word)
    (ans : BusAnswer) : s.logCycle kind fc a isWord data ans = s.logCycle kind fc b isWord data ans := by
  have hlines : dataLines kind a isWord data = dataLines kind b isWord data := by
    cases data with
    | none => rfl
    | some v => rw [dataLines, dataLines, getLsbD_zero_of_busAddr h]
  rw [State.logCycle, State.logCycle, h, hlines]

end

/-- Two actions do the same wherever the bus serves, and the bus serves after them. -/
def AlikeServed {α : Type} (x y : M α) : Prop :=
  ∀ s, s.BusServes → x s = y s ∧ ∀ v t, x s = .ok v t → t.BusServes

theorem AlikeServed.refl_pure {α : Type} (v : α) : AlikeServed (pure v) (pure v) :=
  fun _ h => ⟨rfl, fun _ _ hv => by cases hv; exact h⟩

theorem AlikeServed.bind {α β : Type} {x y : M α} {f g : α → M β} (hx : AlikeServed x y)
    (hf : ∀ v, AlikeServed (f v) (g v)) : AlikeServed (x >>= f) (y >>= g) := by
  intro s h
  obtain ⟨hxy, hserves⟩ := hx s h
  rw [bind_run, bind_run, ← hxy]
  cases hr : x s with
  | ok v t => exact hf v t (hserves v t hr)
  | error e t => exact ⟨rfl, fun _ _ hv => by cases hv⟩

theorem busRead_alike {a b : Long} (h : busAddr a = busAddr b) (kind : CycleKind) (fc : FuncCode) (isWord : Bool) :
    AlikeServed (busRead kind fc a isWord) (busRead kind fc b isWord) := by
  intro s hs
  rw [busRead_run hs, busRead_run hs]
  refine ⟨?_, fun _ _ ht => by cases ht; exact hs.congr rfl⟩
  simp only [State.peekWord_of_busAddr h, State.peekByte_of_busAddr h, State.answer_of_busAddr h,
    State.logCycle_of_busAddr h]

theorem busWrite_alike {a b : Long} (h : busAddr a = busAddr b) (kind : CycleKind) (fc : FuncCode) (isWord : Bool)
    (v : Word) : AlikeServed (busWrite kind fc a isWord v) (busWrite kind fc b isWord v) := by
  intro s hs
  rw [busWrite_run hs, busWrite_run hs]
  refine ⟨?_, fun _ _ ht => by cases ht; rw [State.pokeCycle_eq]; exact hs.congr rfl⟩
  rw [State.pokeCycle_of_busAddr h, State.answer_of_busAddr h, State.logCycle_of_busAddr h]

theorem checkAligned_alike {a b : Long} (h : busAddr a = busAddr b) {sz : Size} (ha : Aligned sz a) (fc : FuncCode)
    (dir : Direction) : AlikeServed (checkAligned fc dir a sz) (checkAligned fc dir b sz) := by
  intro s hs
  rw [checkAligned_ok ha, checkAligned_ok (ha.of_busAddr h)]
  exact ⟨rfl, fun _ _ ht => by cases ht; exact hs⟩

theorem memRead_alike {a b : Long} (h : busAddr a = busAddr b) {sz : Size} (ha : Aligned sz a) (fc : FuncCode) :
    AlikeServed (memRead fc a sz) (memRead fc b sz) := by
  refine (checkAligned_alike h ha fc .read).bind fun _ => ?_
  cases sz with
  | b => exact (busRead_alike h _ _ _).bind fun _ => .refl_pure _
  | w => exact (busRead_alike h _ _ _).bind fun _ => .refl_pure _
  | l =>
    exact (busRead_alike h _ _ _).bind fun _ => (busRead_alike (busAddr_add h 2) _ _ _).bind fun _ => .refl_pure _

theorem memWrite_alike {a b : Long} (h : busAddr a = busAddr b) {sz : Size} (ha : Aligned sz a) (fc : FuncCode)
    (lowFirst : Bool) (v : Long) : AlikeServed (memWrite fc a sz lowFirst v) (memWrite fc b sz lowFirst v) := by
  have h2 : busAddr (a + 2) = busAddr (b + 2) := busAddr_add h 2
  refine (checkAligned_alike h ha fc .write).bind fun _ => ?_
  cases sz with
  | b => exact busWrite_alike h _ _ _ _
  | w => exact busWrite_alike h _ _ _ _
  | l =>
    cases lowFirst with
    | true => exact (busWrite_alike h2 _ _ _ _).bind fun _ => busWrite_alike h _ _ _ _
    | false => exact (busWrite_alike h _ _ _ _).bind fun _ => busWrite_alike h2 _ _ _ _

/-- Settles O9: every cycle of the one access is that of the other, for the bus is given the same 24 bits. -/
theorem addressTopIgnored : Obligations.AddressTopIgnored :=
  fun s fc _ _ _ lowFirst v hs ha h => ⟨(memRead_alike h ha fc s hs).1, (memWrite_alike h ha fc lowFirst v s hs).1⟩

end Sys2Proof.Machine
end

section
/-! LAWS AND CERTIFICATE. Accesses of which a cycle ends in a bus error (R62, R63, R69): in either half of a long word,
what the failed access has transferred and what it leaves. -/

namespace Sys2Proof.Machine

/-! ## A cycle after one that is answered -/

theorem busRead_answered {s : State} (ht : s.turns = []) (kind : CycleKind) {fc : FuncCode} {a : Long} (isWord : Bool)
    (h : s.Answers fc .read a) :
    ∃ w n log, busRead kind fc a isWord s = .ok w { s with freeCount := n, bus := log } := by
  have hd := readDone_ok kind fc a isWord ⟨s.answer fc .read a, none, s⟩
  unfold busRead
  rw [runCycle_nil _ _ _ _ _ h.ne_rerun ht]
  rcases h with ha | ha <;> (rw [ha] at hd ⊢; exact hd)

theorem busWrite_answered {s : State} (ht : s.turns = []) (kind : CycleKind) {fc : FuncCode} {a : Long} (isWord : Bool)
    (v : Word) (h : s.Answers fc .write a) :
    ∃ log, busWrite kind fc a isWord v s = .ok () { s.pokeCycle fc a isWord v with bus := log } := by
  unfold busWrite
  rw [runCycle_nil _ _ _ _ _ h.ne_rerun ht]
  rcases h with ha | ha <;> (rw [ha]; exact ⟨_, rfl⟩)

/-- The second half of a long read fails: nothing is transferred, though a device may have supplied the first half. -/
theorem memRead_second_failed {s : State} (ht : s.turns = []) {fc : FuncCode} {a : Long} (he : EvenAddr a)
    (h1 : s.Answers fc .read a) (h2 : s.answer fc .read (a + 2) = .busError) :
    ∃ log n, memRead fc a .l s = .error (.busError ⟨a + 2, .read, fc⟩) { s with bus := log, freeCount := n } := by
  obtain ⟨w, n, l, hfirst⟩ := busRead_answered ht .read true h1
  obtain ⟨log, hsecond⟩ :=
    busRead_failed (s := { s with freeCount := n, bus := l }) ht .read fc (a + 2) true h2
  refine ⟨log, n, ?_⟩
  rw [memRead, bind_ok (checkAligned_ok (.inr he) s), bind_ok hfirst, bind_error hsecond]

/-! ## What a write leaves of the other bytes, whatever the memory map says -/

theorem State.bytesAt_long (s : State) (fc : FuncCode) (a : Long) :
    s.bytesAt fc a .l = s.bytesAt fc a .w ++ s.bytesAt fc (a + 2) .w := by
  have h : a + 2 + 1 = a + 3 := BitVec.add_assoc a 2 1
  simp only [State.bytesAt, h, List.cons_append, List.nil_append]

theorem State.pokeByte_other (s : State) {fc : FuncCode} {a : Long} (b : Byte) {n : Nat} (hn : n ≠ s.location fc a) :
    Memory.read (s.pokeByte fc a b).mem n = Memory.read s.mem n := by
  simp only [State.pokeByte, State.memAfter]
  split
  · exact Memory.read_write_other _ hn
  · rfl

theorem State.pokeWord_other (s : State) {fc : FuncCode} {a : Long} (w : Word) {n : Nat} (hn : n ∉ s.bytesAt fc a .w) :
    Memory.read (s.pokeWord fc a w).mem n = Memory.read s.mem n := by
  simp only [State.bytesAt, List.mem_cons, List.not_mem_nil, or_false, not_or] at hn
  have h1 : n ≠ (s.pokeByte fc a (w.extractLsb' 8 8)).location fc (a + 1) := by
    rw [State.location_congr (State.pokeByte_platform s fc a _)]
    exact hn.2
  rw [State.pokeWord, State.pokeByte_other _ _ h1, State.pokeByte_other s _ hn.1]

theorem State.pokeFailed_platform (s : State) (fc : FuncCode) (a : Long) (isWord : Bool) (v : Word) :
    (s.pokeFailed fc a isWord v).platform = s.platform := by
  obtain ⟨m, n, h⟩ := s.pokeFailed_eq fc a isWord v
  rw [h]

/-- A word apart from the bytes of a failed write reads as before it. -/
theorem State.peekWord_pokeFailed (s : State) {fc : FuncCode} {a b : Long} (v : Word)
    (h : ∀ i ∈ s.bytesAt fc b .w, i ∉ s.bytesAt fc a .w) :
    (s.pokeFailed fc a true v).peekWord fc b = s.peekWord fc b := by
  have hbyte (c : Long) (hc : s.location fc c ∈ s.bytesAt fc b .w) :
      (s.pokeFailed fc a true v).peekByte fc c = s.peekByte fc c := by
    rw [State.peekByte, State.location_congr (s.pokeFailed_platform fc a true v)]
    exact s.pokeFailed_other fc a true v (h _ hc)
  rw [State.peekWord, hbyte b (by simp [State.bytesAt]), hbyte (b + 1) (by simp [State.bytesAt])]
  rfl

/-! ## Writes that fail -/

/-- The write stops at a cycle, changes no byte but those named, and leaves a state of which `also` holds. -/
def State.WriteStops (s : State) (fc : FuncCode) (a : Long) (sz : Size) (lowFirst : Bool) (v failing : Long)
    (bytes : List Nat) (also : State → Prop) : Prop :=
  ∃ t, memWrite fc a sz lowFirst v s = .error (.busError ⟨failing, .write, fc⟩) t
    ∧ t = { s with mem := t.mem, bus := t.bus, freeCount := t.freeCount }
    ∧ (∀ n, n ∉ bytes → Memory.read t.mem n = Memory.read s.mem n) ∧ also t

/-- The size of a write's first cycle. -/
def firstSize (sz : Size) : Size := if sz = .b then .b else .w

theorem firstSize_of_ne_long {sz : Size} (h : sz ≠ .l) : firstSize sz = sz := by
  cases sz with
  | l => exact absurd rfl h
  | _ => rfl

theorem firstWritten_of_ne_long {sz : Size} (h : sz ≠ .l) (lowFirst : Bool) (a : Long) : firstWritten sz lowFirst a = a :=
  if_neg fun hl => h hl.1

theorem firstWritten_long (lowFirst : Bool) (a : Long) :
    firstWritten .l lowFirst a = if lowFirst then a + 2 else a := by
  simp [firstWritten]

theorem ite_bne_byte (sz : Size) : (if (sz != .b) = true then Size.w else Size.b) = firstSize sz := by
  cases sz <;> rfl

/-- The first cycle of a write fails. -/
theorem memWrite_first_failed {s : State} (ht : s.turns = []) {fc : FuncCode} {a : Long} {sz : Size} (ha : Aligned sz a)
    (lowFirst : Bool) (v : Long) (h : s.answer fc .write (firstWritten sz lowFirst a) = .busError) :
    s.WriteStops fc a sz lowFirst v (firstWritten sz lowFirst a)
      (s.bytesAt fc (firstWritten sz lowFirst a) (firstSize sz)) fun _ => True := by
  obtain ⟨w, log, hw⟩ := memWrite_failed ht ha lowFirst v h
  obtain ⟨m, n, hf⟩ := s.pokeFailed_eq fc (firstWritten sz lowFirst a) (sz != .b) w
  refine ⟨_, hw, by rw [hf], fun k hk => ?_, trivial⟩
  rw [← ite_bne_byte] at hk
  exact s.pokeFailed_other fc _ _ w hk

theorem memWrite_short_failed {s : State} (ht : s.turns = []) {fc : FuncCode} {a : Long} {sz : Size} (hsz : sz ≠ .l)
    (ha : Aligned sz a) (lowFirst : Bool) (v : Long) (h : s.answer fc .write a = .busError) :
    s.WriteStops fc a sz lowFirst v a (s.bytesAt fc a sz) fun _ => True := by
  have hfirst : firstWritten sz lowFirst a = a := firstWritten_of_ne_long hsz lowFirst a
  have hstop := memWrite_first_failed ht ha lowFirst v (hfirst.symm ▸ h)
  rwa [hfirst, firstSize_of_ne_long hsz] at hstop

/-- The first half of a long write fails, in either order of the halves. -/
theorem memWrite_first_half_failed {s : State} (ht : s.turns = []) {fc : FuncCode} {a : Long} (he : EvenAddr a)
    (lowFirst : Bool) (v : Long) (h : s.answer fc .write (if lowFirst then a + 2 else a) = .busError) :
    s.WriteStops fc a .l lowFirst v (if lowFirst then a + 2 else a)
      (s.bytesAt fc (if lowFirst then a + 2 else a) .w) fun _ => True := by
  rw [← firstWritten_long] at h ⊢
  exact memWrite_first_failed ht (.inr he) lowFirst v h

/-- Of two word cycles the second fails: no byte outside the two words changes, and the word of the first stays written
where every place is memory and the words are apart. -/
theorem busWrites_second_failed {s : State} (ht : s.turns = []) {fc : FuncCode} {b c : Long} (x y : Word)
    (h1 : s.Answers fc .write b) (h2 : s.answer fc .write c = .busError) :
    ∃ t, (busWrite .write fc b true x >>= fun _ => busWrite .write fc c true y) s = .error (.busError ⟨c, .write, fc⟩) t
      ∧ t = { s with mem := t.mem, bus := t.bus, freeCount := t.freeCount }
      ∧ (∀ n, n ∉ s.bytesAt fc b .w → n ∉ s.bytesAt fc c .w → Memory.read t.mem n = Memory.read s.mem n)
      ∧ (s.platform.map = [] → (∀ i ∈ s.bytesAt fc b .w, i ∉ s.bytesAt fc c .w) → t.peekWord fc b = x) := by
  obtain ⟨l, hfirst⟩ := busWrite_answered ht .write true x h1
  obtain ⟨u, hu⟩ : ∃ u : State, u = { s.pokeWord fc b x with bus := l } := ⟨_, rfl⟩
  have hp : u.platform = s.platform := by rw [hu]; rfl
  have hturns : u.turns = [] := by rw [hu]; exact ht
  have hbytes (a : Long) : u.bytesAt fc a .w = s.bytesAt fc a .w := State.bytesAt_congr hp fc a .w
  obtain ⟨log, hsecond⟩ := busWrite_failed hturns .write fc c true y ((State.answer_congr hp fc .write c).trans h2)
  obtain ⟨m, k, hf⟩ := u.pokeFailed_eq fc c true y
  refine ⟨{ u.pokeFailed fc c true y with bus := log }, ?_, ?_, fun n hb hc => ?_, fun hmap hapart => ?_⟩
  · rw [bind_ok (hfirst.trans (congrArg _ hu.symm)), hsecond]
  · rw [hf, hu]; rfl
  · calc Memory.read (u.pokeFailed fc c true y).mem n
      _ = Memory.read u.mem n := u.pokeFailed_other fc c true y (by rw [if_pos rfl, hbytes]; exact hc)
      _ = Memory.read (s.pokeWord fc b x).mem n := by rw [hu]
      _ = Memory.read s.mem n := s.pokeWord_other x hb
  · calc (u.pokeFailed fc c true y).peekWord fc b
      _ = u.peekWord fc b := u.peekWord_pokeFailed y (by rw [hbytes, hbytes]; exact hapart)
      _ = (s.pokeWord fc b x).peekWord fc b := by rw [hu]; rfl
      _ = x := State.peekWord_pokeWord_same hmap fc b x

/-- The second half of a long write fails, in either order of the halves. -/
theorem memWrite_second_failed {s : State} (ht : s.turns = []) {fc : FuncCode} {a : Long} (he : EvenAddr a)
    (lowFirst : Bool) (v : Long) (h1 : s.Answers fc .write (if lowFirst then a + 2 else a))
    (h2 : s.answer fc .write (if lowFirst then a else a + 2) = .busError) :
    s.WriteStops fc a .l lowFirst v (if lowFirst then a else a + 2) (s.bytesAt fc a .l) fun t =>
      s.platform.map = [] →
        t.peekWord fc (if lowFirst then a + 2 else a) = if lowFirst then lowWord v else highWord v := by
  have hbytes (n : Nat) : n ∉ s.bytesAt fc a .l → n ∉ s.bytesAt fc a .w ∧ n ∉ s.bytesAt fc (a + 2) .w := by
    rw [State.bytesAt_long, List.mem_append, not_or]; exact id
  rw [State.WriteStops, memWrite, bind_ok (checkAligned_ok (.inr he) s)]
  cases lowFirst with
  | true =>
    obtain ⟨t, hx, heq, hframe, hkept⟩ := busWrites_second_failed ht (lowWord v) (highWord v) h1 h2
    exact ⟨t, hx, heq, fun n hn => hframe n (hbytes n hn).2 (hbytes n hn).1,
      fun hmap => hkept hmap (State.words_apart hmap fc a).2⟩
  | false =>
    obtain ⟨t, hx, heq, hframe, hkept⟩ := busWrites_second_failed ht (highWord v) (lowWord v) h1 h2
    exact ⟨t, hx, heq, fun n hn => hframe n (hbytes n hn).1 (hbytes n hn).2,
      fun hmap => hkept hmap (State.words_apart hmap fc a).1⟩

end Sys2Proof.Machine
end

section
/-! LAWS AND CERTIFICATE. `Stops` says how an action ends at its first access, as `Serves` says how one completes (R65,
R69): for the accesses themselves, for the operand of an effective address, and for the shapes of Machine/Updates.lean. -/

namespace Sys2Proof.Machine

/-! ## Actions that stop at their first access -/

/-- The states that are `t` but for the list of cycles. -/
def State.ButCycles (t : State) : State → Prop := fun u => ∃ log, u = { t with bus := log }

/-- The states that are `t` but for some bytes of memory, the list of cycles and the count of free values. -/
def State.ButBytes (t : State) (bytes : List Nat) : State → Prop := fun u => ∃ mem log free,
  (∀ k, k ∉ bytes → Memory.read mem k = Memory.read t.mem k) ∧ u = { t with mem := mem, bus := log, freeCount := free }

/-- The ways a read can end at its first cycle or before it (R65, R69): the stop, and what is left of `t`. -/
inductive ReadFault (s : State) (fc : FuncCode) (a : Long) (sz : Size) (t : State) : BusStop → (State → Prop) → Prop where
  | odd : ¬Aligned sz a → ReadFault s fc a sz t (.addressError ⟨a, .read, fc⟩) t.ButCycles
  | failed : Aligned sz a → s.answer fc .read a = .busError →
      ReadFault s fc a sz t (.busError ⟨a, .read, fc⟩) t.ButCycles

/-- The ways a write can end at its first cycle or before it (R63, R65). -/
inductive WriteFault (s : State) (fc : FuncCode) (a : Long) (sz : Size) (lowFirst : Bool) (t : State) :
    BusStop → (State → Prop) → Prop where
  | odd : ¬Aligned sz a → WriteFault s fc a sz lowFirst t (.addressError ⟨a, .write, fc⟩) t.ButCycles
  | failed : Aligned sz a → s.answer fc .write (firstWritten sz lowFirst a) = .busError →
      WriteFault s fc a sz lowFirst t (.busError ⟨firstWritten sz lowFirst a, .write, fc⟩)
        (t.ButBytes (s.bytesAt fc (firstWritten sz lowFirst a) (firstSize sz)))

/-- Whatever the list of cycles is, the action stops in every way of `F`. -/
def Stops {α : Type} (x : M α) (s : State) (F : BusStop → (State → Prop) → Prop) : Prop :=
  ∀ e P, F e P → ∀ l, ∃ t, P t ∧ x { s with bus := l } = .error e t

section
variable {α β : Type} {x : M α} {s t : State} {F : BusStop → (State → Prop) → Prop}

theorem Stops.bind (h : Stops x s F) (f : α → M β) : Stops (x >>= f) s F := fun e P hF l => by
  obtain ⟨t, hP, hx⟩ := h e P hF l
  exact ⟨t, hP, bind_error hx⟩

theorem Stops.after {f : α → M β} {v : α} (hx : Serves x s v t) (hf : Stops (f v) t F) : Stops (x >>= f) s F :=
  fun e P hF l => by
    obtain ⟨log, hl⟩ := hx l
    obtain ⟨u, hP, hu⟩ := hf e P hF log
    exact ⟨u, hP, (bind_ok hl).trans hu⟩

theorem Stops.get {f : State → M β} (h : Stops (f s) s F) (hf : ∀ l, f { s with bus := l } = f s := by intro; rfl) :
    Stops (MonadState.get >>= f) s F := fun e P hF l => by
  rw [get_bind_run, hf]
  exact h e P hF l

theorem Stops.privileged {body : M Unit} (hs : s.sr.s = true) (h : Stops body s F) : Stops (privileged body) s F := by
  refine .get ?_
  rw [if_pos hs]
  exact h.bind _

theorem Stops.mono {G : BusStop → (State → Prop) → Prop} (h : Stops x s F) (hG : ∀ e P, G e P → F e P) : Stops x s G :=
  fun e P hP => h e P (hG e P hP)

theorem Stops.read_congr {u v : State} {fc : FuncCode} {a : Long} {sz : Size} (h : Stops x s (ReadFault u fc a sz t))
    (hp : u.platform = v.platform) : Stops x s (ReadFault v fc a sz t) :=
  h.mono fun _ _ hF => by
    cases hF with
    | odd ho => exact .odd ho
    | failed ha hb => exact .failed ha ((State.answer_congr hp fc .read a).trans hb)

theorem Stops.write_congr {u v : State} {fc : FuncCode} {a : Long} {sz : Size} {lowFirst : Bool}
    (h : Stops x s (WriteFault u fc a sz lowFirst t)) (hp : u.platform = v.platform) :
    Stops x s (WriteFault v fc a sz lowFirst t) :=
  h.mono fun _ _ hF => by
    cases hF with
    | odd ho => exact .odd ho
    | failed ha hb =>
      rw [← State.bytesAt_congr hp]
      exact .failed ha ((State.answer_congr hp fc .write _).trans hb)

end

section
variable {s : State} (ht : s.turns = [])
include ht

theorem memRead_stops (fc : FuncCode) (a : Long) (sz : Size) : Stops (memRead fc a sz) s (ReadFault s fc a sz s) := by
  intro e P hF l
  cases hF with
  | odd ho => exact ⟨_, ⟨l, rfl⟩, memRead_odd ho _⟩
  | failed ha hb =>
    obtain ⟨log, hx⟩ := memRead_failed (s := { s with bus := l }) ht ha hb
    exact ⟨_, ⟨log, rfl⟩, hx⟩

/-- A byte cycle made without an alignment check, as by TAS (R79). -/
theorem busReadByte_stops (kind : CycleKind) (fc : FuncCode) (a : Long) :
    Stops (busRead kind fc a false) s (ReadFault s fc a .b s) := by
  intro e P hF l
  cases hF with
  | odd ho => exact absurd (.inl rfl) ho
  | failed ha hb =>
    obtain ⟨log, hx⟩ := busRead_failed (s := { s with bus := l }) ht kind fc a false hb
    exact ⟨_, ⟨log, rfl⟩, hx⟩

theorem memWrite_stops (fc : FuncCode) (a : Long) (sz : Size) (lowFirst : Bool) (v : Long) :
    Stops (memWrite fc a sz lowFirst v) s (WriteFault s fc a sz lowFirst s) := by
  intro e P hF l
  cases hF with
  | odd ho => exact ⟨_, ⟨l, rfl⟩, memWrite_odd ho lowFirst v _⟩
  | failed ha hb =>
    obtain ⟨t, hx, heq, hframe, -⟩ := memWrite_first_failed (s := { s with bus := l }) ht ha lowFirst v hb
    exact ⟨t, ⟨t.mem, t.bus, t.freeCount, hframe, heq⟩, hx⟩

theorem pop16_stops : Stops pop16 s (ReadFault s s.fcData s.sp .w s) := .get ((memRead_stops ht _ _ _).bind _)

theorem pop32_stops : Stops pop32 s (ReadFault s s.fcData s.sp .l s) := .get ((memRead_stops ht _ _ _).bind _)

/-- The write of a push: the stack pointer has been stepped before it (R9). -/
theorem slotWrite_stops (v : Long) : Stops (memWrite s.fcData (s.sp - 4) .l true v) (s.setSp (s.sp - 4))
    (WriteFault s s.fcData (s.sp - 4) .l true (s.setSp (s.sp - 4))) :=
  (memWrite_stops ((State.setSp_turns s _).trans ht) _ _ _ _ _).write_congr (State.setSp_platform s _)

theorem push32_stops (v : Long) :
    Stops (push32 v) s (WriteFault s s.fcData (s.sp - 4) .l true (s.setSp (s.sp - 4))) := by
  refine .after (.modify fun l => State.setSp_with_bus s l _) (.get ?_)
  rw [State.fcData_setSp, State.sp_setSp]
  exact slotWrite_stops ht v

/-- A push by an instruction whose words are fetched. -/
theorem push32_after_stops (k : Nat) (v : Long) : Stops (push32 v) ((s.after 1).after k)
    (WriteFault (s.after 1) s.fcData (s.sp - 4) .l true (((s.after 1).after k).setSp (s.sp - 4))) :=
  (push32_stops (s := (s.after 1).after k) ht v).write_congr rfl

end

/-! ## The words of the instruction -/

/-- The next words of the instruction stream are in memory, and the cycles that fetch them are answered at once. -/
structure State.Fetches (s : State) (k : Nat) : Prop where
  turns : s.turns = []
  map : s.platform.map = []
  even : EvenAddr s.pc
  answered : ∀ j < k, s.Answers s.fcProg .read (s.pc + 2 * BitVec.ofNat 32 j)

theorem State.Fetches.first {s : State} {j k : Nat} (h : s.Fetches (j + k)) : s.Fetches j :=
  { h with answered := fun i hi => h.answered i (by omega) }

theorem State.Fetches.rest {s : State} {j k : Nat} (h : s.Fetches (j + k)) : (s.after j).Fetches k where
  turns := h.turns
  map := h.map
  even := h.even.after j
  answered i hi := by
    have hpc : (s.after j).pc + 2 * BitVec.ofNat 32 i = s.pc + 2 * BitVec.ofNat 32 (j + i) := by
      rw [State.after_pc, BitVec.ofNat_add, BitVec.mul_add, BitVec.add_assoc]
    rw [hpc]
    exact h.answered (j + i) (by omega)

/-- The cycles that fetch some words after the operation word are answered at once. -/
def State.AnswersWords (s : State) (k : Nat) : Prop :=
  ∀ j < k, s.Answers s.fcProg .read (s.pc + BitVec.ofNat 32 (2 + 2 * j))

/-- Once the operation word is passed, the words after it are fetched. -/
theorem State.fetches_after_one {s : State} (ht : s.turns = []) (hm : s.platform.map = []) (he : EvenAddr s.pc) {k : Nat}
    (h : s.AnswersWords k) : (s.after 1).Fetches k where
  turns := ht
  map := hm
  even := he.after 1
  answered j hj := by
    have hpc : (s.after 1).pc + 2 * BitVec.ofNat 32 j = s.pc + BitVec.ofNat 32 (2 + 2 * j) := by
      rw [State.after_pc, BitVec.ofNat_add, BitVec.ofNat_mul, BitVec.add_assoc]
      rfl
    rw [hpc]
    exact h j hj

theorem State.Fetches.fetchWords_serves {s : State} {k : Nat} (h : s.Fetches k) :
    Serves (fetchWords k) s () (s.after k) :=
  fun l => fetchWords_answered (s := { s with bus := l }) h.turns h.map h.even k h.answered

theorem State.Fetches.resolveEA_serves {s : State} {ea : EA} (h : s.Fetches (eaWords ea)) (sz : Size) :
    Serves (resolveEA ea sz) s (eaLoc ea sz s) (eaStep ea sz (s.after (eaWords ea))) := by
  refine .get (h.fetchWords_serves.bind (Serves.bind (.modify ?_) (.pure _ _)))
  intro l
  exact eaStep_with_bus ea sz _ l

/-! ## Operands -/

/-- The action's first access, once `k` words and the words of the effective address are fetched, reads its operand. -/
def OperandFirst {α : Type} (x : M α) (s : State) (k : Nat) (ea : EA) (sz : Size) : Prop :=
  s.Fetches (k + eaWords ea) → ∀ addr fc lowFirst, eaLoc ea sz (s.after k) = .mem addr fc lowFirst →
    Stops x s (ReadFault s fc addr sz (eaStep ea sz (s.after (k + eaWords ea))))

/-- Given a location in memory, the action first reads there. -/
def LocationFirst {α : Type} (f : Loc → M α) (sz : Size) : Prop :=
  ∀ addr fc lowFirst s, s.turns = [] → Stops (f (.mem addr fc lowFirst)) s (ReadFault s fc addr sz s)

theorem readLoc_first (sz : Size) : LocationFirst (fun loc => readLoc loc sz) sz :=
  fun addr fc _ _ ht => memRead_stops ht fc addr sz

theorem discardRead_first (sz : Size) : LocationFirst (fun loc => discardRead loc sz) sz :=
  fun addr fc _ _ ht => (memRead_stops ht fc addr sz).bind _

theorem LocationFirst.bind {α β : Type} {f : Loc → M α} {sz : Size} (h : LocationFirst f sz) (g : Loc → α → M β) :
    LocationFirst (fun loc => f loc >>= g loc) sz :=
  fun addr fc lowFirst s ht => (h addr fc lowFirst s ht).bind _

theorem updateLoc_first (sz : Size) (f : Update) : LocationFirst (fun loc => updateLoc loc sz f) sz :=
  (readLoc_first sz).bind _

theorem updateLocFlagsFirst_first (sz : Size) (f : Update) : LocationFirst (fun loc => updateLocFlagsFirst loc sz f) sz :=
  (readLoc_first sz).bind _

section
variable {α β : Type} {s : State} {k : Nat} {ea : EA} {sz : Size}

theorem OperandFirst.bind {x : M α} (h : OperandFirst x s k ea sz) (f : α → M β) :
    OperandFirst (x >>= f) s k ea sz :=
  fun hs addr fc lowFirst hloc => (h hs addr fc lowFirst hloc).bind f

theorem OperandFirst.privileged {body : M Unit} (hs : s.sr.s = true) (h : OperandFirst body s k ea sz) :
    OperandFirst (privileged body) s k ea sz :=
  fun hf addr fc lowFirst hloc => (h hf addr fc lowFirst hloc).privileged hs

/-- The effective address is resolved, then the location is read. -/
theorem OperandFirst.resolve {f : Loc → M α} (h : LocationFirst f sz) :
    OperandFirst (resolveEA ea sz >>= f) s 0 ea sz := by
  intro hs addr fc lowFirst hloc
  rw [State.after_zero] at hloc
  rw [Nat.zero_add] at hs ⊢
  refine .after (hs.resolveEA_serves sz) ?_
  rw [hloc]
  exact (h addr fc lowFirst _ (by simpa using hs.turns)).read_congr (by simp)

theorem readEA_first : OperandFirst (readEA ea sz) s 0 ea sz := .resolve (readLoc_first sz)

/-- Words fetched before the effective address. -/
theorem OperandFirst.after {x : M α} {f : α → M β} {v : α} (hx : s.Fetches k → Serves x s v (s.after k))
    (h : OperandFirst (f v) (s.after k) 0 ea sz) : OperandFirst (x >>= f) s k ea sz := by
  intro hs addr fc lowFirst hloc
  have hrest := hs.rest
  rw [← Nat.zero_add (eaWords ea)] at hrest
  have hstop := h hrest addr fc lowFirst (by rw [State.after_zero]; exact hloc)
  rw [State.after_after, Nat.zero_add] at hstop
  exact .after (hx hs.first) (hstop.read_congr rfl)

theorem readImm_after (v : Imm) (hs : s.Fetches (immWordCount v)) :
    Serves (readImm v sz) s (immValue v sz) (s.after (immWordCount v)) := hs.fetchWords_serves.bind (.pure _ _)

theorem staticBit_after (w : Word) (hs : s.Fetches 1) :
    Serves (staticBit w) s (ofByte (w.extractLsb' 0 8)) (s.after 1) := hs.fetchWords_serves.bind (.pure _ _)

/-! ## The shapes of the rules -/

theorem updateD_first (dn : RegNo) (f : Long → Update) : OperandFirst (updateD sz dn ea f) s 0 ea sz :=
  readEA_first.bind _

theorem updateEA_first (f : Update) : OperandFirst (updateEA ea sz f) s 0 ea sz := .resolve (updateLoc_first sz f)

theorem updateImm_first (v : Imm) (f : Long → Update) : OperandFirst (updateImm sz v ea f) s (immWordCount v) ea sz :=
  .after (readImm_after v) (updateEA_first _)

theorem updateByD_first (dn : RegNo) (f : Long → Update) : OperandFirst (updateByD sz dn ea f) s 0 ea sz :=
  .resolve ((readLoc_first sz).bind _)

theorem updatePairMem_first (ax ay : RegNo) (f : Long → Update) :
    OperandFirst (updatePairMem sz ax ay f) s 0 (.preDec ay) sz := readEA_first.bind _

/-- An address register is no operand in memory (R244). -/
theorem updateQuick_first (q : BitVec 3) (op : Long → Long → Long) (f : Long → Update) :
    OperandFirst (updateQuick q sz ea op f) s 0 ea sz := by
  cases ea with
  | areg n => exact fun _ _ _ _ hloc => nomatch hloc
  | _ => exact updateEA_first _

/-- The bit instructions take a long word of a data register alone (R315). -/
theorem bitSize_of_mem {addr : Long} {fc : FuncCode} {lowFirst : Bool} (h : eaLoc ea sz s = .mem addr fc lowFirst) :
    bitSize ea = .b := by
  cases ea with
  | dreg n => exact nomatch h
  | _ => rfl

theorem bitTest_first {number : M Long} {b : Long} (hn : s.Fetches k → Serves number s b (s.after k)) :
    OperandFirst (bitTest number ea) s k ea .b := by
  intro hs addr fc lowFirst hloc
  rw [bitTest, bitSize_of_mem hloc]
  exact OperandFirst.after hn (readEA_first.bind _) hs addr fc lowFirst hloc

theorem bitChange_first {number : M Long} {b : Long} (hn : s.Fetches k → Serves number s b (s.after k))
    (op : Long → Long → Long) : OperandFirst (bitChange number ea op) s k ea .b := by
  intro hs addr fc lowFirst hloc
  rw [bitChange, bitSize_of_mem hloc]
  exact OperandFirst.after hn (.resolve (updateLocFlagsFirst_first .b _)) hs addr fc lowFirst hloc

theorem dynamicBit_after (dn : RegNo) : Serves (dynamicBit dn) s (s.readD dn) (s.after 0) := by
  rw [State.after_zero]
  exact .get (.pure _ _)

theorem decimalMem_first (ax ay : RegNo) (op : Long → Long → Bool → DecimalSum) :
    OperandFirst (decimalMem ax ay op) s 0 (.preDec ay) .b := readEA_first.bind _

theorem moveData_first (dst : EA) : OperandFirst (moveData sz ea dst) s 0 ea sz := readEA_first.bind _

theorem shiftMem_first (op : ShiftOp) : OperandFirst (shiftMem op ea) s 0 ea .w :=
  .resolve (updateLocFlagsFirst_first .w _)

theorem divide_first (dn : RegNo) (op : Long → Word → Option Quotient) : OperandFirst (divide dn ea op) s 0 ea .w :=
  readEA_first.bind _

end

end Sys2Proof.Machine
end

section
/-! LAWS AND CERTIFICATE. Instructions abandoned at their first access besides their own words (R442, D23), by the shape of
their rule: the operand of an effective address, the stack, the register lists and MOVEP; then the fetch of a step. -/

namespace Sys2Proof.Machine

/-! ## Instructions abandoned -/

/-- The instruction is abandoned where its first access, a read, is at an odd address or ends in a bus error at its first
cycle; it leaves `t` but for the list of cycles. -/
def AbandonsReading (s : State) (i : Instr) (sz : Size) (addr : Long) (fc : FuncCode) (t : State) : Prop :=
  (¬Aligned sz addr → ∃ log, exec i s = abandon s.pc true (.addressError ⟨addr, .read, fc⟩) { t with bus := log })
  ∧ (Aligned sz addr → s.answer fc .read addr = .busError →
    ∃ log, exec i s = abandon s.pc true (.busError ⟨addr, .read, fc⟩) { t with bus := log })

/-- The instruction is abandoned where its first access, a write, is at an odd address or ends in a bus error at its first
cycle; it leaves `t` but for the list of cycles, and of a failed cycle the bytes and the free values drawn. -/
def AbandonsWriting (s : State) (i : Instr) (sz : Size) (lowFirst : Bool) (addr : Long) (t : State) : Prop :=
  (¬Aligned sz addr →
    ∃ log, exec i s = abandon s.pc true (.addressError ⟨addr, .write, s.fcData⟩) { t with bus := log })
  ∧ (Aligned sz addr → s.answer s.fcData .write (firstWritten sz lowFirst addr) = .busError → ∃ mem log free,
    (∀ k, k ∉ s.bytesAt s.fcData (firstWritten sz lowFirst addr) (firstSize sz) →
      Memory.read mem k = Memory.read s.mem k)
    ∧ exec i s = abandon s.pc true (.busError ⟨firstWritten sz lowFirst addr, .write, s.fcData⟩)
      { t with mem := mem, bus := log, freeCount := free })

/-- The instruction's first access, once its words are fetched, reads the operand of an effective address. -/
def AbandonsOperand (s : State) (k : Nat) (ea : EA) (sz : Size) (i : Instr) : Prop :=
  s.AnswersWords (k + eaWords ea) → ∀ addr fc lowFirst, eaLoc ea sz (s.after (1 + k)) = .mem addr fc lowFirst →
    AbandonsReading s i sz addr fc (eaStep ea sz (s.after (1 + k + eaWords ea)))

/-- The instruction's first access, once its words are fetched, pushes a long word. -/
def AbandonsPush (s : State) (k : Nat) (i : Instr) : Prop :=
  s.AnswersWords k → AbandonsWriting s i .l true (s.sp - 4) ((s.after (1 + k)).setSp (s.sp - 4))

section
variable {s t : State} {i : Instr} {body : M Ending} {plain : M Unit}

theorem Stops.abandons {F : BusStop → (State → Prop) → Prop} (h : Stops body (s.after 1) F)
    (hi : exec i s = runInstr body s) {e : BusStop} {P : State → Prop} (hF : F e P) :
    ∃ u, P u ∧ exec i s = abandon s.pc true e u := by
  obtain ⟨u, hP, hu⟩ := h e P hF (s.after 1).bus
  exact ⟨u, hP, hi.trans (runInstr_error hu)⟩

theorem Stops.reading {fc : FuncCode} {addr : Long} {sz : Size}
    (h : Stops body (s.after 1) (ReadFault (s.after 1) fc addr sz t)) (hi : exec i s = runInstr body s := by rfl) :
    AbandonsReading s i sz addr fc t := by
  refine ⟨fun ho => ?_, fun ha hb => ?_⟩
  · obtain ⟨_, ⟨log, rfl⟩, hx⟩ := h.abandons hi (.odd ho)
    exact ⟨log, hx⟩
  · obtain ⟨_, ⟨log, rfl⟩, hx⟩ := h.abandons hi (.failed ha hb)
    exact ⟨log, hx⟩

theorem Stops.readingPlain {fc : FuncCode} {addr : Long} {sz : Size}
    (h : Stops plain (s.after 1) (ReadFault (s.after 1) fc addr sz t)) (hi : exec i s = runPlain plain s := by rfl) :
    AbandonsReading s i sz addr fc t := (h.bind fun _ => pure Ending.done).reading hi

theorem Stops.writingPlain {addr : Long} {sz : Size} {lowFirst : Bool}
    (h : Stops plain (s.after 1) (WriteFault (s.after 1) s.fcData addr sz lowFirst t)) (hm : t.mem = s.mem := by simp)
    (hi : exec i s = runPlain plain s := by rfl) : AbandonsWriting s i sz lowFirst addr t := by
  have hbody := h.bind fun _ => pure Ending.done
  refine ⟨fun ho => ?_, fun ha hb => ?_⟩
  · obtain ⟨_, ⟨log, rfl⟩, hx⟩ := hbody.abandons hi (.odd ho)
    exact ⟨log, hx⟩
  · obtain ⟨_, ⟨mem, log, free, hframe, rfl⟩, hx⟩ := hbody.abandons hi (.failed ha hb)
    rw [hm] at hframe
    exact ⟨mem, log, free, hframe, hx⟩

variable {k : Nat} {ea : EA} {sz : Size} (ht : s.turns = []) (hm : s.platform.map = []) (he : EvenAddr s.pc)
include ht hm he

theorem OperandFirst.abandons (h : OperandFirst body (s.after 1) k ea sz) (hi : exec i s = runInstr body s := by rfl) :
    AbandonsOperand s k ea sz i := by
  intro hk addr fc lowFirst hloc
  have hstop := h (State.fetches_after_one ht hm he hk) addr fc lowFirst (by rw [State.after_after]; exact hloc)
  rw [State.after_after, ← Nat.add_assoc] at hstop
  exact hstop.reading hi

theorem OperandFirst.abandonsPlain (h : OperandFirst plain (s.after 1) k ea sz)
    (hi : exec i s = runPlain plain s := by rfl) : AbandonsOperand s k ea sz i :=
  (h.bind fun _ => pure Ending.done).abandons ht hm he hi

end

/-! ## Operands first -/

/-- The instructions whose first access besides their own words reads the operand of an effective address: how many words
come before those of the effective address, the effective address, the size. The privileged ones, the stack and the list
instructions stand apart. -/
def firstOperand : Instr → Option (Nat × EA × Size)
  | .addToReg sz _ ea | .subToReg sz _ ea | .andToReg sz _ ea | .orToReg sz _ ea | .cmp sz _ ea
  | .addToMem sz _ ea | .subToMem sz _ ea | .andToMem sz _ ea | .orToMem sz _ ea | .eor sz _ ea
  | .neg sz ea | .negx sz ea | .notOp sz ea | .clr sz ea | .tst sz ea | .addq _ sz ea | .subq _ sz ea => some (0, ea, sz)
  | .moveB ea _ | .scc _ ea | .nbcd ea | .tas ea
  | .btstReg _ ea | .bchgReg _ ea | .bclrReg _ ea | .bsetReg _ ea => some (0, ea, .b)
  | .moveW ea _ | .moveaW _ ea | .addaW _ ea | .subaW _ ea | .cmpaW _ ea | .chk _ ea | .divu _ ea | .divs _ ea
  | .mulu _ ea | .muls _ ea | .moveToCcr ea | .moveFromSr ea
  | .aslMem ea | .asrMem ea | .lslMem ea | .lsrMem ea | .rolMem ea | .rorMem ea | .roxlMem ea | .roxrMem ea =>
    some (0, ea, .w)
  | .moveL ea _ | .moveaL _ ea | .addaL _ ea | .subaL _ ea | .cmpaL _ ea => some (0, ea, .l)
  | .addi sz v ea | .subi sz v ea | .andi sz v ea | .ori sz v ea | .eori sz v ea | .cmpi sz v ea =>
    some (immWordCount v, ea, sz)
  | .btstImm _ ea | .bchgImm _ ea | .bclrImm _ ea | .bsetImm _ ea => some (1, ea, .b)
  | .addxMem sz _ ay | .subxMem sz _ ay => some (0, .preDec ay, sz)
  | .abcdMem _ ay | .sbcdMem _ ay => some (0, .preDec ay, .b)
  | .cmpm sz _ ay => some (0, .postInc ay, sz)
  | _ => none

/-- The instructions stand by the shape of their rule. -/
theorem exec_abandonsOperand {i : Instr} {k : Nat} {ea : EA} {sz : Size} (h : firstOperand i = some (k, ea, sz))
    {s : State} (ht : s.turns = []) (hm : s.platform.map = []) (he : EvenAddr s.pc) : AbandonsOperand s k ea sz i := by
  cases i with
  | addToReg | subToReg | andToReg | orToReg => cases h; exact (updateD_first _ _).abandonsPlain ht hm he
  | addToMem | subToMem | andToMem | orToMem | eor => cases h; exact (updateByD_first _ _).abandonsPlain ht hm he
  | addi | subi | andi | ori | eori => cases h; exact (updateImm_first _ _).abandonsPlain ht hm he
  | neg | negx | notOp => cases h; exact (updateEA_first _).abandonsPlain ht hm he
  | addq | subq => cases h; exact (updateQuick_first _ _ _).abandonsPlain ht hm he
  | addxMem | subxMem => cases h; exact (updatePairMem_first _ _ _).abandonsPlain ht hm he
  | abcdMem | sbcdMem => cases h; exact (decimalMem_first _ _ _).abandonsPlain ht hm he
  | btstReg => cases h; exact (bitTest_first fun _ => dynamicBit_after _).abandonsPlain ht hm he
  | bchgReg | bclrReg | bsetReg => cases h; exact (bitChange_first (fun _ => dynamicBit_after _) _).abandonsPlain ht hm he
  | btstImm => cases h; exact (bitTest_first (staticBit_after _)).abandonsPlain ht hm he
  | bchgImm | bclrImm | bsetImm => cases h; exact (bitChange_first (staticBit_after _) _).abandonsPlain ht hm he
  | aslMem | asrMem | lslMem | lsrMem | rolMem | rorMem | roxlMem | roxrMem =>
    cases h; exact (shiftMem_first _).abandonsPlain ht hm he
  | moveB | moveW | moveL => cases h; exact (moveData_first _).abandonsPlain ht hm he
  | moveaW | moveaL | addaW | addaL | subaW | subaL | cmpaW | cmpaL | mulu | muls | cmp | cmpm | tst | moveToCcr =>
    cases h; exact (readEA_first.bind _).abandonsPlain ht hm he
  | cmpi => cases h; exact (OperandFirst.after (readImm_after _) (readEA_first.bind _)).abandonsPlain ht hm he
  | divu | divs => cases h; exact (divide_first _ _).abandons ht hm he
  | chk => cases h; exact (readEA_first.bind _).abandons ht hm he
  | clr | scc | moveFromSr => cases h; exact (OperandFirst.resolve ((discardRead_first _).bind _)).abandonsPlain ht hm he
  | nbcd => cases h; exact (OperandFirst.resolve ((readLoc_first _).bind _)).abandonsPlain ht hm he
  | tas =>
    cases h
    exact (OperandFirst.resolve fun _ _ _ _ ht => (busReadByte_stops ht _ _ _).bind _).abandonsPlain ht hm he
  | _ => cases h

/-! ## The stack -/

theorem execRts_abandons {s : State} (ht : s.turns = []) : AbandonsReading s .rts .l s.sp s.fcData (s.after 1) :=
  ((pop32_stops (s := s.after 1) ht).bind _).readingPlain

theorem execRtr_abandons {s : State} (ht : s.turns = []) : AbandonsReading s .rtr .w s.sp s.fcData (s.after 1) :=
  ((pop16_stops (s := s.after 1) ht).bind _).readingPlain

theorem execRte_abandons {s : State} (ht : s.turns = []) (hs : s.sr.s = true) :
    AbandonsReading s .rte .w s.ssp .superData (s.after 1) := by
  have hstop : Stops returnFromException (s.after 1) (ReadFault (s.after 1) .superData s.ssp .w (s.after 1)) :=
    .get ((memRead_stops (s := s.after 1) ht _ _ _).bind _)
  exact (Stops.privileged (s := s.after 1) hs hstop).reading

/-- UNLK has loaded the stack pointer before it pops (R222). -/
theorem execUnlk_abandons {s : State} (ht : s.turns = []) (n : RegNo) :
    AbandonsReading s (.unlk n) .l (s.readA n) s.fcData ((s.after 1).setSp (s.readA n)) := by
  have hpop := pop32_stops (s := (s.after 1).setSp (s.readA n)) ((State.setSp_turns _ _).trans ht)
  rw [State.sp_setSp, State.fcData_setSp] at hpop
  refine (Stops.after (.modify fun l => ?_) ((hpop.bind _).read_congr (State.setSp_platform _ _))).readingPlain
  rw [State.readA_with_bus, State.setSp_with_bus]

theorem eaStep_of_control {ea : EA} (h : ea.mode.isControl = true) (sz : Size) (t : State) : eaStep ea sz t = t := by
  cases ea with
  | postInc n | preDec n => cases h
  | _ => rfl

section
variable {s : State} (ht : s.turns = []) (hm : s.platform.map = []) (he : EvenAddr s.pc)
include ht hm he

theorem Stops.pushing {i : Instr} {k : Nat} {plain : M Unit} (hi : exec i s = runPlain plain s)
    (h : (s.after 1).Fetches k → Stops plain (s.after 1)
      (WriteFault (s.after 1) s.fcData (s.sp - 4) .l true (((s.after 1).after k).setSp (s.sp - 4)))) :
    AbandonsPush s k i := fun hk => by
  have hstop := h (State.fetches_after_one ht hm he hk)
  rw [State.after_after] at hstop
  exact hstop.writingPlain (State.setSp_mem _ _) hi

theorem execLink_abandons (n : RegNo) (w : Word) : AbandonsPush s 1 (.link n w) := by
  refine Stops.pushing ht hm he rfl fun hs =>
    .after hs.fetchWords_serves (.after (.modify fun l => State.setSp_with_bus _ l _) (.get ?_))
  rw [State.fcData_setSp, State.sp_setSp]
  exact ((slotWrite_stops (s := (s.after 1).after 1) ht _).write_congr (v := s.after 1) rfl).bind _

theorem execBsr_short_abandons (b : Byte) : AbandonsPush s 0 (.bsr (.short b)) := by
  refine Stops.pushing ht hm he rfl fun _ => ?_
  rw [State.after_zero]
  exact .after (.get (.pure _ _)) (.get ((push32_stops (s := s.after 1) ht _).bind _))

theorem execBsr_word_abandons (w : Word) : AbandonsPush s 1 (.bsr (.word w)) :=
  Stops.pushing ht hm he rfl fun hs =>
    .after (v := s.pc + 2 + sextWord w) (.get (hs.fetchWords_serves.bind (.pure _ _)))
      (.get ((push32_after_stops ht 1 _).bind _))

theorem execPea_abandons {ea : EA} (h : ea.isIn Mode.isControl .l = true) : AbandonsPush s (eaWords ea) (.pea ea) := by
  refine Stops.pushing ht hm he rfl fun hs => .after (hs.resolveEA_serves .l) ?_
  rw [eaStep_of_control (Bool.and_eq_true_iff.mp h).1]
  exact push32_after_stops ht (eaWords ea) _

theorem execJsr_abandons {ea : EA} (h : ea.isIn Mode.isControl .l = true) : AbandonsPush s (eaWords ea) (.jsr ea) := by
  refine Stops.pushing ht hm he rfl fun hs => .after (hs.resolveEA_serves .l) ?_
  rw [eaStep_of_control (Bool.and_eq_true_iff.mp h).1]
  exact .get ((push32_after_stops ht (eaWords ea) _).bind _)

end

/-! ## Register lists and MOVEP -/

theorem aligned_size_iff (size : SizeWL) (a : Long) : Aligned size.size a ↔ EvenAddr a := by
  cases size <;> simp [Aligned, SizeWL.size]

theorem stepSize_size (n : RegNo) (size : SizeWL) : stepSize n size.size = size.size.bytes := by
  cases size <;> simp [stepSize, SizeWL.size]

theorem mem_maskBits : ∀ k : Fin 16, k ∈ maskBits := by decide

/-- A list that names a register has a first one. -/
theorem movemOrder_eq_cons {list : Word} (h : list ≠ 0) (preDec : Bool) : ∃ k ks, movemOrder list preDec = k :: ks := by
  refine List.exists_cons_of_ne_nil fun hnil => h (BitVec.eq_of_getLsbD_eq fun j hj => ?_)
  rw [movemOrder, List.map_eq_nil_iff, List.filter_eq_nil_iff] at hnil
  simpa using hnil _ (mem_maskBits ⟨j, hj⟩)

section
variable {s : State} (ht : s.turns = [])
include ht

theorem storeDown_stops (sz : Size) (k : Fin 16) (ks : List (Fin 16)) (a : Long) :
    Stops (storeDown sz (k :: ks) a) s (WriteFault s s.fcData (a - sz.bytes) sz true s) :=
  .get ((memWrite_stops ht _ _ _ _ _).bind _)

theorem storeUp_stops (sz : Size) (k : Fin 16) (ks : List (Fin 16)) (a : Long) :
    Stops (storeUp sz (k :: ks) a) s (WriteFault s s.fcData a sz false s) :=
  .get ((memWrite_stops ht _ _ _ _ _).bind _)

/-- The word read after the list (R75) is the first access where the list is empty. -/
theorem loadUp_stops (fc : FuncCode) (size : SizeWL) (ks : List (Fin 16)) (a : Long) (f : Long → Long → M Unit) :
    Stops (loadUp fc size.size ks a >>= fun a' => memRead fc a' .w >>= f a') s (ReadFault s fc a size.size s) := by
  cases ks with
  | cons k ks => exact ((memRead_stops ht fc a size.size).bind _).bind _
  | nil =>
    refine .after (.pure a s) (((memRead_stops ht fc a .w).bind _).mono fun e P hF => ?_)
    cases hF with
    | odd ho => exact .odd fun hw => ho ((aligned_size_iff size a).mpr (hw.even nofun))
    | failed ha hb => exact .failed (.inr ((aligned_size_iff size a).mp ha)) hb

theorem peripheralLoad_stops (k : Nat) (a acc : Long) :
    Stops (peripheralLoad (k + 1) a acc) s (ReadFault s s.fcData a .b s) := .get ((memRead_stops ht _ _ _).bind _)

theorem peripheralStore_stops (v : Long) (k : Nat) (a : Long) :
    Stops (peripheralStore v (k + 1) a) s (WriteFault s s.fcData a .b false s) :=
  .get ((memWrite_stops ht _ _ _ _ _).bind _)

end

/-- The address of MOVEP (R223). -/
theorem peripheralAddress_after {s : State} (n : RegNo) (w : Word) (hs : s.Fetches 1) :
    Serves (peripheralAddress n w) s (s.readA n + w.signExtend 32) (s.after 1) :=
  hs.fetchWords_serves.bind (.get (.pure _ _))

theorem State.after_one_one (s : State) : (s.after 1).after 1 = s.after 2 := s.after_after 1 1

/-- Among the modes MOVEM stores through (R217), `-(An)` alone stores downwards. -/
theorem execMovemToMem_body {size : SizeWL} {ea : EA} (hea : ea.isIn Mode.isMovemStore size.size = true) :
    (∃ n, ea = .preDec n) ∨ (ea.mode.isControl = true ∧ (∀ (list : Word) (s : State), exec (.movemToMem size list ea) s =
      runPlain (do
        fetchWords 1
        let loc ← resolveEA ea size.size
        storeUp size.size (movemOrder list false) loc.address) s)
      ∧ ∀ s addr fc lowFirst, eaLoc ea size.size s = .mem addr fc lowFirst → fc = s.fcData ∧ lowFirst = false) := by
  cases ea with
  | preDec n => exact .inl ⟨n, rfl⟩
  | ind | disp | index | absW | absL =>
    exact .inr ⟨rfl, fun _ _ => rfl, fun _ _ _ _ h => by cases h; exact ⟨rfl, rfl⟩⟩
  | _ => cases size <;> cases hea

section
variable {s : State} (ht : s.turns = []) (hm : s.platform.map = []) (he : EvenAddr s.pc)
include ht hm he

theorem execMovemToRegs_abandons (size : SizeWL) (list : Word) {ea : EA} (hk : s.AnswersWords (1 + eaWords ea))
    {addr : Long} {fc : FuncCode} {lowFirst : Bool} (hloc : eaLoc ea size.size (s.after 2) = .mem addr fc lowFirst) :
    AbandonsReading s (.movemToRegs size list ea) size.size addr fc (s.after (2 + eaWords ea)) := by
  have hs := State.fetches_after_one ht hm he hk
  have hrest := hs.rest
  rw [State.after_one_one] at hrest
  refine Stops.readingPlain (.after hs.first.fetchWords_serves (.get ?_)) rfl
  rw [State.after_one_one, hloc]
  refine .after hrest.fetchWords_serves ?_
  rw [State.after_after]
  exact (loadUp_stops (s := s.after (2 + eaWords ea)) ht fc size _ addr _).read_congr rfl

theorem execMovemToMem_abandons (size : SizeWL) {list : Word} (hlist : list ≠ 0) {ea : EA}
    (hea : ea.isIn Mode.isMovemStore size.size = true) (hk : s.AnswersWords (1 + eaWords ea)) {addr : Long} {fc : FuncCode}
    {lowFirst : Bool} (hloc : eaLoc ea size.size (s.after 2) = .mem addr fc lowFirst) :
    AbandonsWriting s (.movemToMem size list ea) size.size lowFirst addr (s.after (2 + eaWords ea)) := by
  have hs := State.fetches_after_one ht hm he hk
  rcases execMovemToMem_body hea with ⟨n, rfl⟩ | ⟨hcontrol, hbody, hplace⟩
  · cases hloc
    obtain ⟨k, ks, hord⟩ := movemOrder_eq_cons hlist true
    refine Stops.writingPlain (.after hs.first.fetchWords_serves ?_) rfl
    rw [State.after_one_one, hord, stepSize_size]
    exact .get (((storeDown_stops (s := s.after 2) ht _ k ks _).bind _).write_congr rfl)
  · obtain ⟨rfl, rfl⟩ := hplace _ _ _ _ hloc
    obtain ⟨k, ks, hord⟩ := movemOrder_eq_cons hlist false
    have hrest := hs.rest
    rw [State.after_one_one] at hrest
    refine Stops.writingPlain (.after hs.first.fetchWords_serves ?_) rfl (hbody list s)
    rw [State.after_one_one]
    refine .after (hrest.resolveEA_serves size.size) ?_
    rw [eaStep_of_control hcontrol, hloc, hord, State.after_after]
    exact (storeUp_stops (s := s.after (2 + eaWords ea)) ht _ k ks addr).write_congr rfl

theorem execMovep_abandonsReading (n : RegNo) (w : Word) (hk : s.AnswersWords 1) {i : Instr} {k : Nat} {f : Long → M Unit}
    (hi : exec i s = runPlain (peripheralAddress n w >>= fun a => peripheralLoad (k + 1) a 0 >>= f) s) :
    AbandonsReading s i .b (s.readA n + w.signExtend 32) s.fcData (s.after 2) := by
  have hs := State.fetches_after_one ht hm he hk
  refine Stops.readingPlain (.after (peripheralAddress_after n w hs) ?_) hi
  rw [State.after_one_one]
  exact ((peripheralLoad_stops (s := s.after 2) ht _ _ _).bind _).read_congr rfl

theorem execMovep_abandonsWriting (m n : RegNo) (w : Word) (hk : s.AnswersWords 1) {i : Instr} {k : Nat}
    (hi : exec i s =
      runPlain (peripheralAddress n w >>= fun a => get >>= fun u => peripheralStore (u.readD m) (k + 1) a) s) :
    AbandonsWriting s i .b false (s.readA n + w.signExtend 32) (s.after 2) := by
  have hs := State.fetches_after_one ht hm he hk
  refine Stops.writingPlain (.after (peripheralAddress_after n w hs) (.get ?_)) rfl hi
  rw [State.after_one_one]
  exact (peripheralStore_stops (s := s.after 2) ht _ _ _).write_congr rfl

end

/-! ## The fetch of the operation word -/

/-- Where nothing takes precedence (R407), a step is the instruction at the program counter. -/
theorem step_instruction {s : State} (hr : s.input.resetRequest = false) (hh : s.input.haltPin = false)
    (hn : s.sample.pstate = .normal) (hi : s.sample.interruptLevel = none) : step s = runInstruction s.sample := by
  rw [step, runStep, runSampled, hr, hh, hn, hi]
  rfl

theorem runInstruction_fetch_error {s t : State} {e : BusStop} (h : memRead s.fcProg s.pc .w s = .error e t) :
    runInstruction s = abandon s.pc false e t := by
  have hx : fetchOperationWord s = .error e t := by
    rw [fetchOperationWord, get_bind_run]
    exact bind_error h
  rw [runInstruction, hx]

/-- Settles O7: the accesses, cycle by cycle; the instructions, by what their first access is; the fetch of a step. -/
theorem failedAccessStops : Obligations.FailedAccessStops := by
  refine ⟨?accesses, ?instructions, ?fetch⟩
  case accesses =>
    intro s fc a lowFirst v ht first second half stops
    exact ⟨fun sz ha h => memRead_failed ht ha h, fun he h1 h2 => memRead_second_failed ht he h1 h2,
      fun sz hsz ha h => memWrite_short_failed ht hsz ha lowFirst v h,
      fun he h => memWrite_first_half_failed ht he lowFirst v h,
      fun he h1 h2 => memWrite_second_failed ht he lowFirst v h1 h2⟩
  case instructions =>
    intro s sz ea dst m n q cond v w b size ht hm he answered reads writes operand pushes any sized
    have first (l : List Instr) {k : Nat} {ea : EA} {sz : Size}
        (h : l.map firstOperand = List.replicate l.length (some (k, ea, sz))) : ∀ i ∈ l, operand k ea sz i :=
      fun i hi => exec_abandonsOperand (List.map_eq_replicate_iff.mp h i hi) ht hm he
    have hsized : sized.map firstOperand = List.replicate sized.length (some (0, ea, sz)) := by cases sz <;> rfl
    refine ⟨List.forall_mem_append.mpr ⟨first any rfl, first sized hsized⟩, first _ rfl,
      first _ rfl, fun hs => ?moveToSr, first _ rfl,
      exec_abandonsOperand rfl ht hm he, first _ rfl,
      execRts_abandons ht, execRtr_abandons ht, execRte_abandons ht, execUnlk_abandons ht n,
      execLink_abandons ht hm he n w, execBsr_short_abandons ht hm he b, execBsr_word_abandons ht hm he w,
      fun hea => ⟨execPea_abandons ht hm he hea, execJsr_abandons ht hm he hea⟩, fun hk => ⟨?load, ?store⟩,
      fun hk addr fc lf hloc => ⟨execMovemToRegs_abandons ht hm he size w hk hloc,
        fun hw hea => execMovemToMem_abandons ht hm he size hw hea hk hloc⟩⟩
    case moveToSr => exact (OperandFirst.privileged (s := s.after 1) hs (readEA_first.bind _)).abandons ht hm he
    case load =>
      exact List.forall_mem_cons.mpr ⟨execMovep_abandonsReading ht hm he n w hk rfl,
        List.forall_mem_singleton.mpr (execMovep_abandonsReading ht hm he n w hk rfl)⟩
    case store =>
      exact List.forall_mem_cons.mpr ⟨execMovep_abandonsWriting ht hm he m n w hk rfl,
        List.forall_mem_singleton.mpr (execMovep_abandonsWriting ht hm he m n w hk rfl)⟩
  case fetch =>
    intro s u hr hh hn hi
    rw [step_instruction hr hh hn hi]
    refine ⟨fun hodd => ?_, fun ht he h => ?_⟩
    · exact runInstruction_fetch_error (memRead_odd (sz := .w) (fun ha => hodd (ha.even nofun)) u)
    · obtain ⟨log, hx⟩ := memRead_failed (sz := .w) ht (.inr he) h
      exact ⟨log, runInstruction_fetch_error hx⟩

end Sys2Proof.Machine
end

section
/-! LAWS AND CERTIFICATE. No instruction looks at the platform but through the cycles it makes (R70, R112; log entry 7):
every rule is built from the shared operations, so it is `Local` as they are. First the shapes of Machine/Updates.lean,
then the families, then every instruction. One declaration is elaborated at a time, as in the model's lemma files. -/

namespace Sys2Proof.Machine

set_option Elab.async false

@[simp] theorem State.writeD_on (s : State) (p : Platform) (n : RegNo) (v : Long) :
    (s.on p).writeD n v = (s.writeD n v).on p := rfl

/-- A rule changes the state in one of two ways: which one does not depend on the platform. -/
theorem modify_ite_local {c : State → Prop} [∀ s, Decidable (c s)] {f g : State → State}
    (hf : Local (modify f : M Unit)) (hg : Local (modify g : M Unit))
    (hc : ∀ s p, c (s.on p) ↔ c s := by intros; exact Iff.rfl) :
    Local (modify fun s => if c s then f s else g s : M Unit) := by
  intro s
  have hfs := hf s
  have hgs := hg s
  unfold LocalAt at *
  simp only [modify_run, hc] at *
  split
  · exact hfs
  · exact hgs

/-! ## The shared shapes -/

theorem updateD_local (sz : Size) (dn : RegNo) (ea : EA) (f : Long → Update) : Local (updateD sz dn ea f) :=
  (readEA_local _ _).bind fun _ => .modify

theorem updateLoc_local (loc : Loc) (sz : Size) (f : Update) : Local (updateLoc loc sz f) :=
  (readLoc_local _ _).bind fun _ => .get_bind fun _ => (writeLoc_local _ _ _).bind fun _ => .modify

theorem updateLocFlagsFirst_local (loc : Loc) (sz : Size) (f : Update) : Local (updateLocFlagsFirst loc sz f) :=
  (readLoc_local _ _).bind fun _ => .get_bind fun _ => Local.bind .modify fun _ => writeLoc_local _ _ _

theorem updateEA_local (ea : EA) (sz : Size) (f : Update) : Local (updateEA ea sz f) :=
  (resolveEA_local _ _).bind fun _ => updateLoc_local _ _ _

theorem updateImm_local (sz : Size) (v : Imm) (ea : EA) (f : Long → Update) : Local (updateImm sz v ea f) :=
  (readImm_local _ _).bind fun _ => updateEA_local _ _ _

theorem updateByD_local (sz : Size) (dn : RegNo) (ea : EA) (f : Long → Update) : Local (updateByD sz dn ea f) :=
  (resolveEA_local _ _).bind fun _ => (readLoc_local _ _).bind fun _ => .get_bind fun _ => .get_bind fun _ =>
    (writeLoc_local _ _ _).bind fun _ => .modify

theorem updatePair_local (sz : Size) (dx dy : RegNo) (f : Long → Update) : Local (updatePair sz dx dy f) := .modify

theorem updatePairMem_local (sz : Size) (ax ay : RegNo) (f : Long → Update) : Local (updatePairMem sz ax ay f) :=
  (readEA_local _ _).bind fun _ => updateEA_local _ _ _

theorem compareWith_local (sz : Size) (src d : Long) : Local (compareWith sz src d) := .modify

/-! ## Integer arithmetic -/

theorem updateA_local (sz : Size) (an : RegNo) (ea : EA) (op : Long → Long → Long) : Local (updateA sz an ea op) :=
  (readEA_local _ _).bind fun _ => .modify

theorem updateQuick_local (q : BitVec 3) (sz : Size) (ea : EA) (op : Long → Long → Long) (f : Long → Update) :
    Local (updateQuick q sz ea op f) := by
  cases ea with
  | areg n => exact .modify
  | _ => exact updateEA_local _ _ _

theorem compareAddress_local (sz : Size) (an : RegNo) (ea : EA) : Local (compareAddress sz an ea) :=
  (readEA_local _ _).bind fun _ => .get_bind fun _ => compareWith_local _ _ _

theorem multiply_local (dn : RegNo) (ea : EA) (op : Word → Word → Long) : Local (multiply dn ea op) :=
  (readEA_local _ _).bind fun _ => .modify

/-- The cases are those of R252: no divisor, a quotient that fits, overflow. -/
theorem divide_local (dn : RegNo) (ea : EA) (op : Long → Word → Option Quotient) : Local (divide dn ea op) := by
  refine (readEA_local _ _).bind fun src => .ite ?_ (.get_bind fun s => ?_)
  · exact drawFree_local.bind fun _ => Local.bind .modify fun _ => .pure _
  · cases op (s.readD dn) (lowWord src) with
    | some u => exact Local.bind .modify fun _ => .pure _
    | none => exact drawFree_local.bind fun _ => Local.bind .modify fun _ => .pure _

theorem execExtW_local (dn : RegNo) (s : State) : OutLocal (execExtW dn) s := runPlain_local .modify s

theorem execExtL_local (dn : RegNo) (s : State) : OutLocal (execExtL dn) s := runPlain_local .modify s

theorem execClr_local (sz : Size) (ea : EA) (s : State) : OutLocal (execClr sz ea) s :=
  runPlain_local ((resolveEA_local _ _).bind fun _ => (discardRead_local _ _).bind fun _ =>
    (writeLoc_local _ _ _).bind fun _ => .modify) s

theorem execCmp_local (sz : Size) (dn : RegNo) (ea : EA) (s : State) : OutLocal (execCmp sz dn ea) s :=
  runPlain_local ((readEA_local _ _).bind fun _ => .get_bind fun _ => compareWith_local _ _ _) s

theorem execCmpi_local (sz : Size) (v : Imm) (ea : EA) (s : State) : OutLocal (execCmpi sz v ea) s :=
  runPlain_local ((readImm_local _ _).bind fun _ => (readEA_local _ _).bind fun _ => compareWith_local _ _ _) s

theorem execCmpm_local (sz : Size) (ax ay : RegNo) (s : State) : OutLocal (execCmpm sz ax ay) s :=
  runPlain_local ((readEA_local _ _).bind fun _ => (readEA_local _ _).bind fun _ => compareWith_local _ _ _) s

theorem execTst_local (sz : Size) (ea : EA) (s : State) : OutLocal (execTst sz ea) s :=
  runPlain_local ((readEA_local _ _).bind fun _ => .modify) s

/-- In memory TAS makes its own two cycles (R79); elsewhere it is an ordinary update. -/
theorem execTas_local (ea : EA) (s : State) : OutLocal (execTas ea) s :=
  runPlain_local ((resolveEA_local _ _).bind fun loc => by
    cases loc with
    | mem a fc lowFirst =>
      exact (busRead_local rfl _ _ _).bind fun _ => Local.bind .modify fun _ => busWrite_local rfl _ _ _ _
    | _ => exact updateLocFlagsFirst_local _ _ _) s

/-! ## Decimal -/

theorem decimalWrite_local (loc : Loc) (op : Long → Long → Bool → DecimalSum) (src d : Long) :
    Local (decimalWrite loc op src d) :=
  drawFree_local.bind fun _ => .get_bind fun _ => (writeLoc_local _ _ _).bind fun _ => .modify

theorem decimalReg_local (dx dy : RegNo) (op : Long → Long → Bool → DecimalSum) : Local (decimalReg dx dy op) :=
  (readLoc_local _ _).bind fun _ => (readLoc_local _ _).bind fun _ => decimalWrite_local _ _ _ _

theorem decimalMem_local (ax ay : RegNo) (op : Long → Long → Bool → DecimalSum) : Local (decimalMem ax ay op) :=
  (readEA_local _ _).bind fun _ => (resolveEA_local _ _).bind fun _ => (readLoc_local _ _).bind fun _ =>
    decimalWrite_local _ _ _ _

theorem execNbcd_local (ea : EA) (s : State) : OutLocal (execNbcd ea) s :=
  runPlain_local ((resolveEA_local _ _).bind fun _ => (readLoc_local _ _).bind fun _ => decimalWrite_local _ _ _ _) s

/-! ## Bit manipulation -/

theorem dynamicBit_local (dn : RegNo) : Local (dynamicBit dn) := .get_bind fun _ => .pure _

theorem staticBit_local (b : Word) : Local (staticBit b) := (fetchWords_local _).bind fun _ => .pure _

theorem bitTest_local {number : M Long} (hn : Local number) (ea : EA) : Local (bitTest number ea) :=
  hn.bind fun _ => (readEA_local _ _).bind fun _ => .modify

theorem bitChange_local {number : M Long} (hn : Local number) (ea : EA) (op : Long → Long → Long) :
    Local (bitChange number ea op) :=
  hn.bind fun _ => (resolveEA_local _ _).bind fun _ => updateLocFlagsFirst_local _ _ _

/-! ## Data movement -/

theorem moveData_local (sz : Size) (src dst : EA) : Local (moveData sz src dst) :=
  (readEA_local _ _).bind fun _ => (resolveEA_local _ _).bind fun _ => Local.bind .modify fun _ => writeLoc_local _ _ _

theorem moveAddress_local (sz : Size) (an : RegNo) (src : EA) : Local (moveAddress sz an src) :=
  (readEA_local _ _).bind fun _ => .modify

theorem execMoveq_local (dn : RegNo) (v : Byte) (s : State) : OutLocal (execMoveq dn v) s := runPlain_local .modify s

theorem execSwap_local (dn : RegNo) (s : State) : OutLocal (execSwap dn) s := runPlain_local .modify s

theorem execExgDD_local (dx dy : RegNo) (s : State) : OutLocal (execExgDD dx dy) s := runPlain_local .modify s

theorem execExgAA_local (ax ay : RegNo) (s : State) : OutLocal (execExgAA ax ay) s := runPlain_local .modify s

theorem execExgDA_local (dx ay : RegNo) (s : State) : OutLocal (execExgDA dx ay) s := runPlain_local .modify s

theorem execLea_local (an : RegNo) (ea : EA) (s : State) : OutLocal (execLea an ea) s :=
  runPlain_local ((resolveEA_local _ _).bind fun _ => .modify) s

theorem execPea_local (ea : EA) (s : State) : OutLocal (execPea ea) s :=
  runPlain_local ((resolveEA_local _ _).bind fun _ => push32_local _) s

theorem execLink_local (an : RegNo) (d : Word) (s : State) : OutLocal (execLink an d) s :=
  runPlain_local ((fetchWords_local _).bind fun _ => Local.bind .modify fun _ => .get_bind fun _ =>
    (memWrite_local _ _ _ _ _).bind fun _ => Local.bind .modify fun _ => .modify) s

theorem execUnlk_local (an : RegNo) (s : State) : OutLocal (execUnlk an) s :=
  runPlain_local (Local.bind .modify fun _ => pop32_local.bind fun _ => .modify) s

theorem storeDown_local (sz : Size) (ks : List (Fin 16)) (a : Long) : Local (storeDown sz ks a) := by
  induction ks generalizing a with
  | nil => exact .pure _
  | cons k ks ih => exact .get_bind fun _ => (memWrite_local _ _ _ _ _).bind fun _ => ih _

theorem storeUp_local (sz : Size) (ks : List (Fin 16)) (a : Long) : Local (storeUp sz ks a) := by
  induction ks generalizing a with
  | nil => exact .pure _
  | cons k ks ih => exact .get_bind fun _ => (memWrite_local _ _ _ _ _).bind fun _ => ih _

theorem writeR_local (k : Fin 16) (v : Long) : Local (modify fun s => s.writeR k v) := by
  unfold State.writeR
  split <;> exact .modify

theorem loadUp_local (fc : FuncCode) (sz : Size) (ks : List (Fin 16)) (a : Long) : Local (loadUp fc sz ks a) := by
  induction ks generalizing a with
  | nil => exact .pure _
  | cons k ks ih => exact (memRead_local _ _ _).bind fun _ => (writeR_local _ _).bind fun _ => ih _

theorem execMovemToMem_local (sz : SizeWL) (list : Word) (ea : EA) (s : State) : OutLocal (execMovemToMem sz list ea) s :=
  runPlain_local ((fetchWords_local _).bind fun _ => by
    cases ea with
    | preDec n => exact .get_bind fun _ => (storeDown_local _ _ _).bind fun _ => .modify
    | _ => exact (resolveEA_local _ _).bind fun _ => storeUp_local _ _ _) s

/-- The base register is stepped in `(An)+` alone (R218). -/
theorem execMovemToRegs_local (sz : SizeWL) (list : Word) (ea : EA) (s : State) :
    OutLocal (execMovemToRegs sz list ea) s :=
  runPlain_local ((fetchWords_local _).bind fun _ => .get_bind fun u => (fetchWords_local _).bind fun _ => by
    cases eaLoc ea sz.size u with
    | mem a fc lowFirst =>
      refine (loadUp_local _ _ _ _).bind fun _ => (memRead_local _ _ _).bind fun _ => ?_
      cases ea with
      | postInc n => exact .modify
      | _ => exact .pure _
    | _ => exact .pure _) s

theorem peripheralLoad_local (k : Nat) (a acc : Long) : Local (peripheralLoad k a acc) := by
  induction k generalizing a acc with
  | zero => exact .pure _
  | succ k ih => exact .get_bind fun _ => (memRead_local _ _ _).bind fun _ => ih _ _

theorem peripheralStore_local (v : Long) (k : Nat) (a : Long) : Local (peripheralStore v k a) := by
  induction k generalizing a with
  | zero => exact .pure _
  | succ k ih => exact .get_bind fun _ => (memWrite_local _ _ _ _ _).bind fun _ => ih _

theorem peripheralAddress_local (ay : RegNo) (d : Word) : Local (peripheralAddress ay d) :=
  (fetchWords_local _).bind fun _ => .get_bind fun _ => .pure _

theorem execMovepWToReg_local (dx ay : RegNo) (d : Word) (s : State) : OutLocal (execMovepWToReg dx ay d) s :=
  runPlain_local ((peripheralAddress_local _ _).bind fun _ => (peripheralLoad_local _ _ _).bind fun _ => .modify) s

theorem execMovepLToReg_local (dx ay : RegNo) (d : Word) (s : State) : OutLocal (execMovepLToReg dx ay d) s :=
  runPlain_local ((peripheralAddress_local _ _).bind fun _ => (peripheralLoad_local _ _ _).bind fun _ => .modify) s

theorem execMovepWToMem_local (dx ay : RegNo) (d : Word) (s : State) : OutLocal (execMovepWToMem dx ay d) s :=
  runPlain_local ((peripheralAddress_local _ _).bind fun _ => .get_bind fun _ => peripheralStore_local _ _ _) s

theorem execMovepLToMem_local (dx ay : RegNo) (d : Word) (s : State) : OutLocal (execMovepLToMem dx ay d) s :=
  runPlain_local ((peripheralAddress_local _ _).bind fun _ => .get_bind fun _ => peripheralStore_local _ _ _) s

/-! ## Program control -/

theorem branchTarget_local (d : Disp) : Local (branchTarget d) :=
  .get_bind fun _ => by
    cases d with
    | short b => exact .pure _
    | word w => exact (fetchWords_local _).bind fun _ => .pure _

theorem execBcc_local (cond : Cond) (d : Disp) (s : State) : OutLocal (execBcc cond d) s :=
  runPlain_local ((branchTarget_local _).bind fun _ => modify_ite_local .modify .modify) s

theorem execBra_local (d : Disp) (s : State) : OutLocal (execBra d) s :=
  runPlain_local ((branchTarget_local _).bind fun _ => .modify) s

theorem execBsr_local (d : Disp) (s : State) : OutLocal (execBsr d) s :=
  runPlain_local ((branchTarget_local _).bind fun _ => .get_bind fun _ => (push32_local _).bind fun _ => .modify) s

/-- The cases are those of R339: the condition holds, the counter has run out, or the branch is taken. -/
theorem execDbcc_local (cond : Cond) (dn : RegNo) (d : Word) (s : State) : OutLocal (execDbcc cond dn d) s :=
  runPlain_local (.get_bind fun _ => (fetchWords_local _).bind fun _ =>
    modify_ite_local .modify (modify_ite_local .modify .modify)) s

theorem execScc_local (cond : Cond) (ea : EA) (s : State) : OutLocal (execScc cond ea) s :=
  runPlain_local ((resolveEA_local _ _).bind fun _ => (discardRead_local _ _).bind fun _ => .get_bind fun _ =>
    writeLoc_local _ _ _) s

theorem execJmp_local (ea : EA) (s : State) : OutLocal (execJmp ea) s :=
  runPlain_local ((resolveEA_local _ _).bind fun _ => .modify) s

theorem execJsr_local (ea : EA) (s : State) : OutLocal (execJsr ea) s :=
  runPlain_local ((resolveEA_local _ _).bind fun _ => .get_bind fun _ => (push32_local _).bind fun _ => .modify) s

theorem execRts_local (s : State) : OutLocal execRts s :=
  runPlain_local (pop32_local.bind fun _ => .modify) s

theorem execRtr_local (s : State) : OutLocal execRtr s :=
  runPlain_local (pop16_local.bind fun _ => Local.bind .modify fun _ => pop32_local.bind fun _ => .modify) s

theorem execNop_local (s : State) : OutLocal execNop s := runPlain_local (.pure _) s

/-! ## Shifts and rotates -/

theorem shiftReg_local (op : ShiftOp) (c : ShiftCount) (sz : Size) (dy : RegNo) : Local (shiftReg op c sz dy) := .modify

theorem shiftMem_local (op : ShiftOp) (ea : EA) : Local (shiftMem op ea) :=
  (resolveEA_local _ _).bind fun _ => updateLocFlagsFirst_local _ _ _

/-! ## System control -/

theorem updateCcr_local (v : Word) (op : Word → Word → Word) : Local (updateCcr v op) :=
  (fetchWords_local _).bind fun _ => .modify

theorem updateSr_local (v : Word) (op : Word → Word → Word) : Local (updateSr v op) :=
  privileged_local ((fetchWords_local _).bind fun _ => .modify)

theorem returnFromException_local : Local returnFromException :=
  .get_bind fun _ => (memRead_local _ _ _).bind fun _ => (memRead_local _ _ _).bind fun _ => .modify

theorem execMoveToCcr_local (ea : EA) (s : State) : OutLocal (execMoveToCcr ea) s :=
  runPlain_local ((readEA_local _ _).bind fun _ => .modify) s

theorem execMoveToSr_local (ea : EA) (s : State) : OutLocal (execMoveToSr ea) s :=
  runInstr_local (privileged_local ((readEA_local _ _).bind fun _ => .modify)) s

theorem execMoveFromSr_local (ea : EA) (s : State) : OutLocal (execMoveFromSr ea) s :=
  runPlain_local ((resolveEA_local _ _).bind fun _ => (discardRead_local _ _).bind fun _ => .get_bind fun _ =>
    writeLoc_local _ _ _) s

theorem execMoveFromUsp_local (an : RegNo) (s : State) : OutLocal (execMoveFromUsp an) s :=
  runInstr_local (privileged_local (.modify (h3 := fun s p => s.writeA_on p an s.usp))) s

theorem execStop_local (v : Word) (s : State) : OutLocal (execStop v) s :=
  runInstr_local (privileged_local ((fetchWords_local _).bind fun _ => .modify)) s

/-- The cases are those of R370: `Dn` negative, above the bound, or within it. -/
theorem execChk_local (dn : RegNo) (ea : EA) (s : State) : OutLocal (execChk dn ea) s :=
  runInstr_local ((readEA_local _ _).bind fun _ => drawFree_local.bind fun _ => .get_bind fun _ =>
    .ite (Local.bind .modify fun _ => .pure _) <|
    .ite (Local.bind .modify fun _ => .pure _) (Local.bind .modify fun _ => .pure _)) s

theorem execTrap_local (v : BitVec 4) (s : State) : OutLocal (execTrap v) s := runInstr_local (.pure _) s

theorem execIllegalWord_local (s : State) : OutLocal execIllegalWord s := runInstr_local (.pure _) s

theorem execLineA_local (w : BitVec 12) (s : State) : OutLocal (execLineA w) s := runInstr_local (.pure _) s

theorem execLineF_local (w : BitVec 12) (s : State) : OutLocal (execLineF w) s := runInstr_local (.pure _) s

theorem execTrapv_local (s : State) : OutLocal execTrapv s :=
  runInstr_local (.get_bind fun _ => .ite (.pure _) (.pure _)) s

/-! ## Every instruction -/

/-- The instructions stand by the shape of their rule, in the order of the layers above. -/
theorem exec_local (i : Instr) (s : State) : OutLocal (exec i) s := by
  cases i with
  | addToReg | subToReg | andToReg | orToReg => exact runPlain_local (updateD_local _ _ _ _) s
  | addToMem | subToMem | andToMem | orToMem | eor => exact runPlain_local (updateByD_local _ _ _ _) s
  | addi | subi | andi | ori | eori => exact runPlain_local (updateImm_local _ _ _ _) s
  | neg | negx | notOp => exact runPlain_local (updateEA_local _ _ _) s
  | addxReg | subxReg => exact runPlain_local (updatePair_local _ _ _ _) s
  | addxMem | subxMem => exact runPlain_local (updatePairMem_local _ _ _ _) s
  | addaW | addaL | subaW | subaL => exact runPlain_local (updateA_local _ _ _ _) s
  | addq | subq => exact runPlain_local (updateQuick_local _ _ _ _ _) s
  | cmpaW | cmpaL => exact runPlain_local (compareAddress_local _ _ _) s
  | mulu | muls => exact runPlain_local (multiply_local _ _ _) s
  | divu | divs => exact runInstr_local (divide_local _ _ _) s
  | clr => exact execClr_local _ _ s
  | cmp => exact execCmp_local _ _ _ s
  | cmpi => exact execCmpi_local _ _ _ s
  | cmpm => exact execCmpm_local _ _ _ s
  | tst => exact execTst_local _ _ s
  | tas => exact execTas_local _ s
  | abcdReg | sbcdReg => exact runPlain_local (decimalReg_local _ _ _) s
  | abcdMem | sbcdMem => exact runPlain_local (decimalMem_local _ _ _) s
  | nbcd => exact execNbcd_local _ s
  | btstImm => exact runPlain_local (bitTest_local (staticBit_local _) _) s
  | btstReg => exact runPlain_local (bitTest_local (dynamicBit_local _) _) s
  | bchgImm | bclrImm | bsetImm => exact runPlain_local (bitChange_local (staticBit_local _) _ _) s
  | bchgReg | bclrReg | bsetReg => exact runPlain_local (bitChange_local (dynamicBit_local _) _ _) s
  | moveB | moveW | moveL => exact runPlain_local (moveData_local _ _ _) s
  | moveaW | moveaL => exact runPlain_local (moveAddress_local _ _ _) s
  | moveq => exact execMoveq_local _ _ s
  | swap => exact execSwap_local _ s
  | extW => exact execExtW_local _ s
  | extL => exact execExtL_local _ s
  | exgDD => exact execExgDD_local _ _ s
  | exgAA => exact execExgAA_local _ _ s
  | exgDA => exact execExgDA_local _ _ s
  | lea => exact execLea_local _ _ s
  | pea => exact execPea_local _ s
  | link => exact execLink_local _ _ s
  | unlk => exact execUnlk_local _ s
  | movemToMem => exact execMovemToMem_local _ _ _ s
  | movemToRegs => exact execMovemToRegs_local _ _ _ s
  | movepWToReg => exact execMovepWToReg_local _ _ _ s
  | movepLToReg => exact execMovepLToReg_local _ _ _ s
  | movepWToMem => exact execMovepWToMem_local _ _ _ s
  | movepLToMem => exact execMovepLToMem_local _ _ _ s
  | bcc => exact execBcc_local _ _ s
  | bra => exact execBra_local _ s
  | bsr => exact execBsr_local _ s
  | dbcc => exact execDbcc_local _ _ _ s
  | scc => exact execScc_local _ _ s
  | jmp => exact execJmp_local _ s
  | jsr => exact execJsr_local _ s
  | rts => exact execRts_local s
  | rtr => exact execRtr_local s
  | aslReg | asrReg | lslReg | lsrReg | roxlReg | roxrReg | rolReg | rorReg =>
    exact runPlain_local (shiftReg_local _ _ _ _) s
  | aslMem | asrMem | lslMem | lsrMem | roxlMem | roxrMem | rolMem | rorMem =>
    exact runPlain_local (shiftMem_local _ _) s
  | andiToCcr | eoriToCcr | oriToCcr => exact runPlain_local (updateCcr_local _ _) s
  | andiToSr | eoriToSr | oriToSr => exact runInstr_local (updateSr_local _ _) s
  | moveToCcr => exact execMoveToCcr_local _ s
  | moveToSr => exact execMoveToSr_local _ s
  | moveFromSr => exact execMoveFromSr_local _ s
  | moveFromUsp => exact execMoveFromUsp_local _ s
  | moveToUsp | reset => exact runInstr_local (privileged_local .modify) s
  | rte => exact runInstr_local (privileged_local returnFromException_local) s
  | stop => exact execStop_local _ s
  | chk => exact execChk_local _ _ s
  | trapv => exact execTrapv_local s
  | nop => exact execNop_local s
  | trap => exact execTrap_local _ s
  | illegal4AFC | illegal4AFA | illegal4AFB => exact execIllegalWord_local s
  | lineA w => exact execLineA_local w s
  | lineF w => exact execLineF_local w s

end Sys2Proof.Machine
end

section
/-! LAWS AND CERTIFICATE. The environment's part of one bus cycle (R79, R83, R112, R113; log entries 8, 10): what one turn
makes of a cycle, what a read shows and a write drives on the data lines (R70, R105), and what the platform's rules
answer where no turn is left. -/

namespace Sys2Proof.Machine

/-! ## One turn of the environment -/

/-- The state at the start of the run of a cycle to which a turn belongs: the masters have written, unless the cycle is
the second half of a read-modify-write cycle (R79, R83). -/
def State.atRun (s : State) (kind : CycleKind) (turn : BusTurn) (ts : List BusTurn) : State :=
  { s with turns := ts, mem := if kind = .rmwWrite then s.mem else Memory.writeAll s.mem turn.dma }

theorem State.atRun_of_ne {kind : CycleKind} (hk : kind ≠ .rmwWrite) (s : State) (turn : BusTurn) (ts : List BusTurn) :
    s.atRun kind turn ts = { s with turns := ts, mem := Memory.writeAll s.mem turn.dma } := by
  rw [State.atRun, if_neg hk]

theorem State.atRun_rmwWrite (s : State) (turn : BusTurn) (ts : List BusTurn) :
    s.atRun .rmwWrite turn ts = { s with turns := ts } := rfl

/-- A run that the turn asks to be repeated: the cycle starts again after it, with the turns that are left. -/
theorem runCycle_rerun {kind : CycleKind} (hk : kind.isRmw = false) {turn : BusTurn} (h : turn.answer = some .rerun)
    (fc : FuncCode) (a : Long) (isWord : Bool) (data : Option Word) (ans : BusAnswer) (ts : List BusTurn) (s : State) :
    runCycle kind fc a isWord data ans (turn :: ts) s =
      runCycle kind fc a isWord data ans ts ((s.atRun kind turn ts).logCycle kind fc a isWord data .rerun) := by
  rw [runCycle, h, hk]
  rfl

/-- A run that ends the cycle: any answer but a re-run, and in a read-modify-write cycle that too (R79). -/
theorem runCycle_ends {kind : CycleKind} {turn : BusTurn} {ans now : BusAnswer} (h : turn.answer.getD ans = now)
    (hnow : now = .rerun → kind.isRmw = true) (fc : FuncCode) (a : Long) (isWord : Bool) (data : Option Word)
    (ts : List BusTurn) (s : State) :
    runCycle kind fc a isWord data ans (turn :: ts) s = ⟨now, turn.data, s.atRun kind turn ts⟩ := by
  have hstop : ¬ (now = .rerun && !kind.isRmw) = true := by simpa using hnow
  rw [runCycle]
  simp only [h]
  exact if_neg hstop

theorem CycleKind.ne_rmwWrite {kind : CycleKind} (hk : kind.isRmw = false) : kind ≠ .rmwWrite := by
  rintro rfl
  cases hk

section
variable {s : State} {kind : CycleKind} {fc : FuncCode} {a : Long} {turn : BusTurn}

/-! ## Re-runs (R113) -/

/-- A read re-run is the same read, made after the first run. -/
theorem busRead_rerun (hk : kind.isRmw = false) (h : turn.answer = some .rerun) (isWord : Bool) (ts : List BusTurn) :
    busRead kind fc a isWord { s with turns := turn :: ts } = busRead kind fc a isWord
      (State.logCycle { s with turns := ts, mem := Memory.writeAll s.mem turn.dma } kind fc a isWord none .rerun) := by
  unfold busRead
  simp only
  rw [runCycle_rerun hk h, State.atRun_of_ne (CycleKind.ne_rmwWrite hk)]
  rfl

/-- A write re-run is the same write, made after the first run. -/
theorem busWrite_rerun (hk : kind.isRmw = false) (h : turn.answer = some .rerun) (isWord : Bool) (v : Word)
    (ts : List BusTurn) :
    busWrite kind fc a isWord v { s with turns := turn :: ts } = busWrite kind fc a isWord v
      (State.logCycle { s with turns := ts, mem := Memory.writeAll s.mem turn.dma } kind fc a isWord (some v) .rerun) := by
  unfold busWrite
  simp only
  rw [runCycle_rerun hk h, State.atRun_of_ne (CycleKind.ne_rmwWrite hk)]
  rfl

/-- With no turn left, rules that ask for a re-run ask for it for ever (D4). -/
theorem runCycle_rerun_forever (hk : kind.isRmw = false) (fc : FuncCode) (a : Long) (isWord : Bool) (data : Option Word)
    {ts : List BusTurn} (hts : ts = []) (s : State) :
    runCycle kind fc a isWord data .rerun ts s = ⟨.never, none, s⟩ := by
  rw [hts, runCycle, hk]
  rfl

theorem busRead_rerun_forever (hk : kind.isRmw = false) (ht : s.turns = []) (h : s.answer fc .read a = .rerun)
    (isWord : Bool) : busRead kind fc a isWord s = .error .hang s := by
  rw [busRead, h, runCycle_rerun_forever hk _ _ _ _ ht]

theorem busWrite_rerun_forever (hk : kind.isRmw = false) (ht : s.turns = []) (h : s.answer fc .write a = .rerun)
    (isWord : Bool) (v : Word) : busWrite kind fc a isWord v s = .error .hang s := by
  rw [busWrite, h, runCycle_rerun_forever hk _ _ _ _ ht]

/-- The read of a read-modify-write cycle is not re-run: it is a bus error, in which nothing is transferred (R79). -/
theorem busRead_rmw_rerun (h : turn.answer = some .rerun) (isWord : Bool) (ts : List BusTurn) :
    busRead .rmwRead fc a isWord { s with turns := turn :: ts } = .error (.busError ⟨a, .read, fc⟩)
      (State.logCycle { s with turns := ts, mem := Memory.writeAll s.mem turn.dma } .rmwRead fc a isWord none .rerun) := by
  rw [busRead, runCycle_ends (now := .rerun) (by rw [h]; rfl) (fun _ => rfl)]
  rfl

/-- Nor is the write: it is a bus error, which changes no byte beyond the operand and lets no other master in (R79). -/
theorem busWrite_rmw_rerun (h : turn.answer = some .rerun) (isWord : Bool) (v : Word) (ts : List BusTurn) :
    ∃ t, busWrite .rmwWrite fc a isWord v { s with turns := turn :: ts } = .error (.busError ⟨a, .write, fc⟩) t
      ∧ t = { s with turns := ts, mem := t.mem, bus := t.bus, freeCount := t.freeCount }
      ∧ ∀ n, n ∉ s.bytesAt fc a .w → Memory.read t.mem n = Memory.read s.mem n := by
  obtain ⟨u, hu⟩ : ∃ u : State, u = { s with turns := ts } := ⟨_, rfl⟩
  obtain ⟨m, n, hfailed⟩ := u.pokeFailed_eq fc a isWord v
  refine ⟨(u.pokeFailed fc a isWord v).logCycle .rmwWrite fc a isWord (some v) .rerun, ?_, ?_, fun n hn => ?_⟩
  · rw [busWrite, runCycle_ends (now := .rerun) (by rw [h]; rfl) (fun _ => rfl), hu]
    rfl
  · rw [hfailed, hu]
    rfl
  · have hbytes : n ∉ u.bytesAt fc a (if isWord then .w else .b) := by
      rw [State.bytesAt_congr (s := s) (by rw [hu])]
      cases isWord with
      | true => exact hn
      | false => exact fun hmem => hn (List.mem_cons.mpr (.inl (List.mem_singleton.mp hmem)))
    rw [State.logCycle_mem, u.pokeFailed_other fc a isWord v hbytes, hu]

/-! ## Cycles that complete at their first run -/

/-- A read whose answer is left to the platform's rules completes, after what other masters have written. -/
theorem busRead_completes (ha : turn.answer = none) (hk : kind ≠ .rmwWrite) (h : s.Answers fc .read a) (isWord : Bool)
    (ts : List BusTurn) :
    busRead kind fc a isWord { s with turns := turn :: ts } = readDone kind fc a isWord
      ⟨s.answer fc .read a, turn.data, { s with turns := ts, mem := Memory.writeAll s.mem turn.dma }⟩ := by
  have hend := runCycle_ends (kind := kind) (turn := turn) (ans := s.answer fc .read a) (by rw [ha]; rfl)
    (fun e => absurd e h.ne_rerun) fc a isWord none ts { s with turns := turn :: ts }
  rw [State.atRun_of_ne hk] at hend
  have hs : State.answer { s with turns := turn :: ts } fc .read a = s.answer fc .read a := rfl
  unfold busRead
  simp only [hs, hend]
  rcases h with e | e <;> rw [e]

theorem State.pokeCycle_with_turns (s : State) (ts : List BusTurn) (fc : FuncCode) (a : Long) (isWord : Bool) (v : Word) :
    State.pokeCycle { s with turns := ts } fc a isWord v = { s.pokeCycle fc a isWord v with turns := ts } := by
  cases isWord <;> rfl

/-- A write whose answer is left to the platform's rules completes. -/
theorem busWrite_completes (ha : turn.answer = none) (h : s.Answers fc .write a) (isWord : Bool) (v : Word)
    (ts : List BusTurn) :
    busWrite kind fc a isWord v { s with turns := turn :: ts } =
      .ok () (((s.atRun kind turn ts).pokeCycle fc a isWord v).logCycle kind fc a isWord (some v)
        (s.answer fc .write a)) := by
  have hend := runCycle_ends (kind := kind) (turn := turn) (ans := s.answer fc .write a) (by rw [ha]; rfl)
    (fun e => absurd e h.ne_rerun) fc a isWord (some v) ts { s with turns := turn :: ts }
  have hs : State.answer { s with turns := turn :: ts } fc .write a = s.answer fc .write a := rfl
  unfold busWrite
  simp only [hs, hend]
  rcases h with e | e <;> (rw [e]; rfl)

/-! ## The data lines (R70, R105, Table 13) -/

theorem dataLines_word {kind : CycleKind} (hk : kind ≠ .iack) (a : Long) (v : Word) :
    dataLines kind a true (some v) = ⟨some (v.extractLsb' 8 8), some (v.extractLsb' 0 8)⟩ := by
  rw [dataLines, if_neg hk, if_pos rfl]

theorem dataLines_byteWritten {kind : CycleKind} (hk : kind.dir = .write) (a : Long) (v : Word) :
    dataLines kind a false (some v) = ⟨some (v.extractLsb' 0 8), some (v.extractLsb' 0 8)⟩ := by
  rw [dataLines, if_neg (by rintro rfl; cases hk), if_neg nofun, if_pos hk]

theorem dataLines_byteRead {kind : CycleKind} (hk : kind.dir = .read) (hi : kind ≠ .iack) (a : Long) (b : Byte) :
    dataLines kind a false (some (b.setWidth 16)) =
      if a.getLsbD 0 then ⟨none, some b⟩ else ⟨some b, none⟩ := by
  have hlow : (b.setWidth 16).extractLsb' 0 8 = b := by
    apply BitVec.eq_of_toNat_eq
    rw [BitVec.extractLsb'_toNat, BitVec.toNat_setWidth, Nat.shiftRight_zero]
    omega
  rw [dataLines, if_neg hi, if_neg nofun, if_neg (by rw [hk]; nofun), hlow]

/-- A byte read where no device stands is memory's, whatever the platform puts on the data lines. -/
theorem readDone_byte_of_ne_device {e : CycleEnd} (h : e.state.place fc a ≠ .device) (kind : CycleKind) :
    readDone kind fc a false e = .ok ((e.state.peekByte fc a).setWidth 16)
      (e.state.logCycle kind fc a false (some ((e.state.peekByte fc a).setWidth 16)) e.answer) := by
  have hfetched (w : Word) : e.state.fetched fc a false w = (e.state.peekByte fc a).setWidth 16 := by
    rw [State.fetched, if_neg nofun, State.fetchedByte, if_neg h]
  have hd : e.state.reachesDevice fc a false = false := by simpa [State.reachesDevice] using h
  unfold readDone
  simp only [hd, hfetched]
  cases e.supplied <;> rfl

/-- A byte read from a device is the half of the word that its address selects. -/
theorem readDone_byte_of_device {e : CycleEnd} {w : Word} (hw : e.supplied = some w)
    (h : e.state.place fc a = .device) (kind : CycleKind) :
    let byte : Byte := if a.getLsbD 0 then w.extractLsb' 0 8 else w.extractLsb' 8 8
    readDone kind fc a false e =
      .ok (byte.setWidth 16) (e.state.logCycle kind fc a false (some (byte.setWidth 16)) e.answer) := by
  intro byte
  have hfetched : e.state.fetched fc a false w = byte.setWidth 16 := by
    rw [State.fetched, if_neg nofun, State.fetchedByte, if_pos h, laneByte]
  unfold readDone
  simp only [hw, hfetched]

/-- A word read from a device is the whole word. -/
theorem readDone_word_of_device {e : CycleEnd} {w : Word} (hw : e.supplied = some w)
    (h : e.state.place fc a = .device) (h1 : e.state.place fc (a + 1) = .device) (kind : CycleKind) :
    readDone kind fc a true e = .ok w (e.state.logCycle kind fc a true (some w) e.answer) := by
  have hfetched : e.state.fetched fc a true w = w := by
    rw [State.fetched, if_pos rfl, State.fetchedByte, if_pos h, State.fetchedByte, if_pos h1, byte_append]
  unfold readDone
  simp only [hw, hfetched]

end

theorem CycleKind.dir_of_reads {kind : CycleKind} (hk : kind = .read ∨ kind = .rmwRead) :
    kind.dir = .read ∧ kind ≠ .rmwWrite ∧ kind ≠ .iack := by
  rcases hk with rfl | rfl <;> exact ⟨rfl, nofun, nofun⟩

theorem CycleKind.dir_of_writes {kind : CycleKind} (hk : kind = .write ∨ kind = .rmwWrite) : kind.dir = .write := by
  rcases hk with rfl | rfl <;> rfl

/-- An address is odd where its lowest bit is set. -/
theorem getLsbD_zero_iff (a : BitVec 24) : a.getLsbD 0 = true ↔ a.toNat % 2 = 1 := by
  rw [BitVec.getLsbD, Nat.testBit_zero, decide_eq_true_iff]

/-- The data strobes of a cycle (R70): both for a word, else the one of the half its address selects. -/
theorem BusCycle.strobes (c : BusCycle) :
    (c.uds = true ↔ c.isWord = true ∨ c.addr.toNat % 2 = 0)
      ∧ (c.lds = true ↔ c.isWord = true ∨ c.addr.toNat % 2 = 1) := by
  have hodd := getLsbD_zero_iff c.addr
  constructor
  · have heven : (!c.addr.getLsbD 0) = true ↔ c.addr.toNat % 2 = 0 := by
      rw [Bool.not_eq_true', ← Bool.not_eq_true, hodd]
      omega
    rw [BusCycle.uds, Bool.or_eq_true, heven]
  · rw [BusCycle.lds, Bool.or_eq_true, hodd]

/-! ## The obligation -/

/-- An instruction that completes does the same on every platform that treats alike the cycles it made. -/
theorem exec_on {i : Instr} {s t : State} {p : Platform} {cycles : List BusCycle} (h : exec i s = .next t)
    (hbus : t.bus = s.bus ++ cycles) (hp : ∀ c ∈ cycles, s.TreatsAlike p c) :
    exec i (s.on p) = .next (t.on p) := by
  obtain ⟨_, made, hmade, halike⟩ := exec_local i s t h
  obtain rfl : made = cycles := List.append_cancel_left (hmade.symm.trans hbus)
  exact halike p hp

/-- Settles O39: what a turn of the environment makes of one cycle, what stands on the data lines, and of every
instruction that it depends on the platform through its cycles alone. -/
theorem onlyItsCyclesMatter : Obligations.OnlyItsCyclesMatter := by
  refine ⟨fun s kind fc a isWord v turn ts => ⟨?rerun, ?forever, ?rmw, ?masters, ?read, ?write, BusCycle.strobes⟩,
    fun i s t p cycles h hbus hp => exec_on h hbus hp⟩
  case rerun => exact fun hk h => ⟨busRead_rerun hk h isWord ts, busWrite_rerun hk h isWord v ts⟩
  case forever =>
    exact fun hk h ht => ⟨fun hd => busRead_rerun_forever hk ht (hd ▸ h) isWord,
      fun hd => busWrite_rerun_forever hk ht (hd ▸ h) isWord v⟩
  case rmw => exact fun h => ⟨busRead_rmw_rerun h isWord ts, busWrite_rmw_rerun h isWord v ts⟩
  case masters =>
    intro ha hm
    refine ⟨fun h hk => ?_, fun h hk => ?_, fun h => ?_⟩
    · rw [busRead_completes ha hk h, readDone_of_map hm]
      exact ⟨_, rfl⟩
    · rw [busWrite_completes ha h, State.atRun_of_ne hk, State.logCycle]
      exact ⟨_, rfl⟩
    · rw [busWrite_completes ha h, State.atRun_rmwWrite, State.pokeCycle_with_turns, State.logCycle]
      exact ⟨_, rfl⟩
  case read =>
    intro ha hkind h shown logged
    obtain ⟨hd, hw, hi⟩ := CycleKind.dir_of_reads hkind
    refine ⟨fun w hdata hp => ⟨?_, fun hp1 => ?_⟩, fun hp => ?_⟩
    · rw [busRead_completes ha hw h, readDone_byte_of_device hdata hp, State.logCycle, dataLines_byteRead hd hi]
    · rw [busRead_completes ha hw h, readDone_word_of_device hdata hp hp1, State.logCycle, dataLines_word hi]
    · rw [busRead_completes ha hw h, readDone_byte_of_ne_device hp, State.logCycle, dataLines_byteRead hd hi]
  case write =>
    intro ha hkind h upper
    refine ⟨_, busWrite_completes ha h isWord v ts, ?_⟩
    have hlines : dataLines kind a isWord (some v) = ⟨some upper, some (v.extractLsb' 0 8)⟩ := by
      cases isWord with
      | true => exact dataLines_word (by rcases hkind with rfl | rfl <;> nofun) a v
      | false => exact dataLines_byteWritten (CycleKind.dir_of_writes hkind) a v
    rw [State.logCycle, hlines, State.pokeCycle_eq]
    rfl

end Sys2Proof.Machine
end

section
/-! LAWS AND CERTIFICATE. The fields of words (R142, R144 to R150): what `encode` puts into a word is what `decode`
reads from it, and a word is put together again from the fields read from it. -/

namespace Sys2Proof

/-! ## The five fields of an operation word -/

section
variable (line : BitVec 4) (x op mode reg : BitVec 3)

@[simp] theorem Word.line_opWord : (opWord line x op mode reg).line = line := by
  ext k hk
  simp only [Word.line, opWord, BitVec.getElem_extractLsb']
  grind

@[simp] theorem Word.regX_opWord : (opWord line x op mode reg).regX = x := by
  ext k hk
  simp only [Word.regX, opWord, BitVec.getElem_extractLsb']
  grind

@[simp] theorem Word.opmode_opWord : (opWord line x op mode reg).opmode = op := by
  ext k hk
  simp only [Word.opmode, opWord, BitVec.getElem_extractLsb']
  grind

@[simp] theorem Word.eaMode_opWord : (opWord line x op mode reg).eaMode = mode := by
  ext k hk
  simp only [Word.eaMode, opWord, BitVec.getElem_extractLsb']
  grind

@[simp] theorem Word.eaReg_opWord : (opWord line x op mode reg).eaReg = reg := by
  ext k hk
  simp only [Word.eaReg, opWord, BitVec.getElem_extractLsb']
  grind

end

/-- An operation word is made of its five fields. -/
theorem opWord_fields (w : Word) : opWord w.line w.regX w.opmode w.eaMode w.eaReg = w := by
  ext k hk
  simp only [opWord, Word.line, Word.regX, Word.opmode, Word.eaMode, Word.eaReg]
  grind

theorem decode_opWord (line : BitVec 4) (x op mode reg : BitVec 3) (ws : List Word) :
    decode (opWord line x op mode reg :: ws) = decodeFields line x op mode reg ws := by
  simp only [decode, Word.line_opWord, Word.regX_opWord, Word.opmode_opWord, Word.eaMode_opWord, Word.eaReg_opWord]

/-! ## Registers, sizes, conditions -/

theorem bits3_cases : ∀ x : BitVec 3, x = 0 ∨ x = 1 ∨ x = 2 ∨ x = 3 ∨ x = 4 ∨ x = 5 ∨ x = 6 ∨ x = 7 := by decide

theorem bits2_cases : ∀ ss : BitVec 2, ss = 0 ∨ ss = 1 ∨ ss = 2 ∨ ss = 3 := by decide

theorem eq_ofNat_of_toNat {n k : Nat} {b : BitVec n} (h : b.toNat = k) : b = BitVec.ofNat n k := by
  rw [← h, BitVec.ofNat_toNat, BitVec.setWidth_eq]

@[simp] theorem regBits_regOf (b : BitVec 3) : regBits (regOf b) = b := by simp [regBits, regOf]

@[simp] theorem regOf_regBits (r : RegNo) : regOf (regBits r) = r := by simp [regBits, regOf]

/-- A size field names a size or is 11 (R146). -/
theorem sizeField_cases (ss : BitVec 2) : ss = 3#2 ∨ ∃ sz, ss = sizeBits sz := by
  have h : ∀ b : BitVec 2, b = 3#2 ∨ b = sizeBits .b ∨ b = sizeBits .w ∨ b = sizeBits .l := by decide
  rcases h ss with h | h | h | h
  · exact .inl h
  all_goals exact .inr ⟨_, h⟩

theorem opBits_fields : ∀ op : BitVec 3, opBits (bit8 op) (ssOf op) = op := by decide

/-- Bits 8-6 are a direction bit and two more. -/
theorem exists_opBits (op : BitVec 3) : ∃ b ss, op = opBits b ss := ⟨_, _, (opBits_fields op).symm⟩

theorem bit8_opBits (b : Bool) (ss : BitVec 2) : bit8 (opBits b ss) = b := by revert b ss; decide

theorem ssOf_opBits (b : Bool) (ss : BitVec 2) : ssOf (opBits b ss) = ss := by revert b ss; decide

theorem sizeOf_sizeBits (sz : Size) : sizeOf (sizeBits sz) = some sz := by cases sz <;> rfl

/-- Bits 8-6 are a direction bit with a size, or with 11 in the place of the size. -/
theorem opmode_cases (op : BitVec 3) :
    op = opBits false 3 ∨ op = opBits true 3 ∨ ∃ b sz, op = opBits b (sizeBits sz) := by
  rcases sizeField_cases (ssOf op) with hss | ⟨sz, hss⟩ <;> rw [← opBits_fields op, hss]
  · cases bit8 op
    · exact .inl rfl
    · exact .inr (.inl rfl)
  · exact .inr (.inr ⟨_, _, rfl⟩)

/-- Opmodes 011 and 111 hold no size. -/
theorem opBits_sizeBits_ne (b : Bool) (sz : Size) :
    (opBits b (sizeBits sz)).toNat ≠ 3 ∧ (opBits b (sizeBits sz)).toNat ≠ 7 := by
  cases sz <;> revert b <;> decide

theorem condOf_condBits (c : Cond) : condOf (condBits c) = c := by cases c <;> rfl

theorem condBits_condOf : ∀ c : BitVec 4, condBits (condOf c) = c := by decide

/-- The condition field stands in bits 11-8 (R149). -/
theorem condField_halves (c : BitVec 4) (ss : BitVec 2) :
    condField (c.extractLsb' 1 3) (c.extractLsb' 0 1 ++ ss) = c := by revert c ss; decide

theorem condField_high : ∀ x op : BitVec 3, (condField x op).extractLsb' 1 3 = x := by decide

theorem condField_low : ∀ x op : BitVec 3, (condField x op).extractLsb' 0 1 ++ ssOf op = op := by decide

/-! ## Bytes and longer fields of the operation word -/

theorem low8_parts (v : Byte) (b : BitVec 1) :
    low8 (b ++ v.extractLsb' 6 2) (v.extractLsb' 3 3) (v.extractLsb' 0 3) = v := by
  ext k hk
  simp only [low8, ssOf]
  grind

theorem low12_parts (v : BitVec 12) :
    low12 (v.extractLsb' 9 3) (v.extractLsb' 6 3) (v.extractLsb' 3 3) (v.extractLsb' 0 3) = v := by
  ext k hk
  simp only [low12]
  grind

section
variable (x op mode reg : BitVec 3)

theorem low8_ss : (low8 op mode reg).extractLsb' 6 2 = ssOf op := by
  ext k hk
  simp only [low8, BitVec.getElem_extractLsb']
  grind

theorem low8_mode : (low8 op mode reg).extractLsb' 3 3 = mode := by
  ext k hk
  simp only [low8, BitVec.getElem_extractLsb']
  grind

theorem low8_reg : (low8 op mode reg).extractLsb' 0 3 = reg := by
  ext k hk
  simp only [low8, BitVec.getElem_extractLsb']
  grind

theorem opWord_low12 (line : BitVec 4) :
    opWord line ((low12 x op mode reg).extractLsb' 9 3) ((low12 x op mode reg).extractLsb' 6 3)
      ((low12 x op mode reg).extractLsb' 3 3) ((low12 x op mode reg).extractLsb' 0 3) = opWord line x op mode reg := by
  ext k hk
  simp only [low12, opWord]
  grind
end

/-! ## Extension words -/

theorem indexWordOf_indexWordBits (x : IndexWord) : indexWordOf (indexWordBits x) = x := by
  obtain ⟨isAddr, r, long, unused, d⟩ := x
  have hr : (indexWordBits ⟨isAddr, r, long, unused, d⟩).extractLsb' 12 3 = regBits r := by
    ext k hk
    simp only [indexWordBits, BitVec.getElem_extractLsb']
    grind
  have hu : (indexWordBits ⟨isAddr, r, long, unused, d⟩).extractLsb' 8 3 = unused := by
    ext k hk
    simp only [indexWordBits, BitVec.getElem_extractLsb']
    grind
  have hd : (indexWordBits ⟨isAddr, r, long, unused, d⟩).extractLsb' 0 8 = d := by
    ext k hk
    simp only [indexWordBits, BitVec.getElem_extractLsb']
    grind
  simp only [indexWordOf, hr, hu, hd, regOf_regBits]
  simp only [indexWordBits, IndexWord.mk.injEq, and_true, true_and]
  constructor <;> grind

theorem indexWordBits_indexWordOf (w : Word) : indexWordBits (indexWordOf w) = w := by
  ext k hk
  simp only [indexWordBits, indexWordOf, regBits_regOf]
  grind

theorem longWords_append (h l : Word) : longWords (h ++ l) = [h, l] :=
  congrArg₂ (fun a b => [a, b]) BitVec.extractLsb'_append_eq_left BitVec.extractLsb'_append_eq_right

theorem halves_append (v : Long) : v.extractLsb' 16 16 ++ v.extractLsb' 0 16 = v :=
  (BitVec.extractLsb'_append_extractLsb'_eq_extractLsb' rfl).trans BitVec.extractLsb'_eq_self

end Sys2Proof
end

section
/-! LAWS AND CERTIFICATE. Extension words and effective addresses (R143 to R145, R166): the decoder reads an effective
address exactly where the encoder writes it. -/

namespace Sys2Proof

/-! ## Decoding steps -/

theorem map_eq_ok {α β : Type} {d : Decoded α} {f : α × List Word → β × List Word} {b : β} {rest : List Word}
    (h : d.map f = .ok (b, rest)) : ∃ a r, d = .ok (a, r) ∧ f (a, r) = (b, rest) := by
  cases d with
  | error e => cases h
  | ok p => exact ⟨p.1, p.2, rfl, Except.ok.inj h⟩

theorem takeWord_eq_ok {w : Word} {ws rest : List Word} : takeWord ws = .ok (w, rest) ↔ ws = w :: rest := by
  cases ws with
  | nil => simp [takeWord]
  | cons v vs => simp [takeWord]

theorem takeLong_longWords (v : Long) (ws : List Word) : takeLong (longWords v ++ ws) = .ok (v, ws) :=
  congrArg (fun v => Except.ok (v, ws)) (halves_append v)

theorem takeLong_eq_ok {v : Long} {ws rest : List Word} : takeLong ws = .ok (v, rest) ↔ ws = longWords v ++ rest := by
  refine ⟨fun h => ?_, fun h => h ▸ takeLong_longWords v rest⟩
  match ws, h with
  | h :: l :: ws, rfl => rw [longWords_append]; rfl

/-- The immediate words are read as what they were written for (R145). -/
theorem takeImm_eq_ok {sz : Size} {v : Imm} {ws rest : List Word} :
    takeImm sz ws = .ok (v, rest) ↔ v.admits sz = true ∧ ws = immWords v ++ rest := by
  constructor
  · intro h
    cases sz with
    | l =>
      obtain ⟨w, _, hw, ⟨⟩⟩ := map_eq_ok h
      exact ⟨rfl, takeLong_eq_ok.mp hw⟩
    | b | w =>
      obtain ⟨w, _, hw, ⟨⟩⟩ := map_eq_ok h
      exact ⟨rfl, takeWord_eq_ok.mp hw⟩
  · rintro ⟨hv, rfl⟩
    cases v with
    | word w =>
      cases sz with
      | b | w => rfl
      | l => cases hv
    | long w =>
      obtain rfl : sz = .l := by simpa [Imm.admits] using hv
      rw [takeImm, immWords, takeLong_longWords]
      rfl

/-! ## Effective addresses -/

/-- The mode bits of a mode (R143). -/
def Mode.field : Mode → BitVec 3
  | .dreg => 0
  | .areg => 1
  | .ind => 2
  | .postInc => 3
  | .preDec => 4
  | .disp => 5
  | .index => 6
  | _ => 7

/-- The register bits of a mode: the mode's own number under mode bits 111, else the register's (R143). -/
def Mode.regField (m : Mode) (reg : BitVec 3) : BitVec 3 :=
  match m with
  | .absW => 0
  | .absL => 1
  | .pcDisp => 2
  | .pcIndex => 3
  | .imm => 4
  | _ => reg

theorem eaModeBits_eq (ea : EA) : eaModeBits ea = ea.mode.field := by cases ea <;> rfl

theorem modeOf_eaBits (ea : EA) : modeOf (eaModeBits ea) (eaRegBits ea) = some ea.mode := by cases ea <;> rfl

theorem fields_of_modeOf {mode reg : BitVec 3} {m : Mode} (h : modeOf mode reg = some m) :
    m.field = mode ∧ m.regField reg = reg := by
  revert mode reg
  cases m <;> decide

/-- The extension words of an effective address are read back. -/
theorem takeEA_extWords {ea : EA} {sz : Size} (h : ea.admits sz = true) (ws : List Word) :
    takeEA ea.mode (regOf (eaRegBits ea)) sz (ea.extWords ++ ws) = .ok (ea, ws) := by
  cases ea with
  | dreg | areg | ind | postInc | preDec | disp =>
    simp [takeEA, EA.mode, EA.extWords, eaRegBits, takeWord, Except.map]
  | index | pcIndex =>
    simp [takeEA, EA.mode, EA.extWords, eaRegBits, takeWord, Except.map, indexWordOf_indexWordBits]
  | absW | pcDisp => rfl
  | absL v =>
    rw [EA.mode, takeEA, EA.extWords, takeLong_longWords]
    rfl
  | imm16 =>
    cases sz with
    | b | w => rfl
    | l => cases h
  | imm32 v =>
    obtain rfl : sz = .l := by simpa [EA.admits] using h
    rw [EA.mode, takeEA, EA.extWords, takeLong_longWords]
    rfl

/-- What is read as an effective address are its words, and it has the mode and the register asked for. -/
theorem words_of_takeEA {m : Mode} {reg : BitVec 3} {sz : Size} {ws rest : List Word} {ea : EA}
    (h : takeEA m (regOf reg) sz ws = .ok (ea, rest)) :
    ea.mode = m ∧ eaRegBits ea = m.regField reg ∧ ea.admits sz = !(m == .areg && sz == .b)
      ∧ ws = ea.extWords ++ rest := by
  cases m with
  | dreg | ind | postInc | preDec =>
    cases h
    exact ⟨rfl, regBits_regOf reg, rfl, rfl⟩
  | areg =>
    cases h
    exact ⟨rfl, regBits_regOf reg, by cases sz <;> rfl, rfl⟩
  | disp =>
    obtain ⟨w, _, hw, ⟨⟩⟩ := map_eq_ok h
    exact ⟨rfl, regBits_regOf reg, rfl, takeWord_eq_ok.mp hw⟩
  | absW | pcDisp =>
    obtain ⟨w, _, hw, ⟨⟩⟩ := map_eq_ok h
    exact ⟨rfl, rfl, rfl, takeWord_eq_ok.mp hw⟩
  | index =>
    obtain ⟨w, _, hw, ⟨⟩⟩ := map_eq_ok h
    refine ⟨rfl, regBits_regOf reg, rfl, ?_⟩
    rw [takeWord_eq_ok.mp hw, EA.extWords, indexWordBits_indexWordOf, List.singleton_append]
  | pcIndex =>
    obtain ⟨w, _, hw, ⟨⟩⟩ := map_eq_ok h
    refine ⟨rfl, rfl, rfl, ?_⟩
    rw [takeWord_eq_ok.mp hw, EA.extWords, indexWordBits_indexWordOf, List.singleton_append]
  | absL =>
    obtain ⟨v, _, hv, ⟨⟩⟩ := map_eq_ok h
    exact ⟨rfl, rfl, rfl, takeLong_eq_ok.mp hv⟩
  | imm =>
    cases sz with
    | l =>
      obtain ⟨v, _, hv, ⟨⟩⟩ := map_eq_ok h
      exact ⟨rfl, rfl, rfl, takeLong_eq_ok.mp hv⟩
    | b | w =>
      obtain ⟨w, _, hw, ⟨⟩⟩ := map_eq_ok h
      exact ⟨rfl, rfl, rfl, takeWord_eq_ok.mp hw⟩

/-- An effective address is read exactly where it is one of the category and the size, its mode and register stand in
the operation word, and its extension words come first (R143, R166). -/
theorem decodeEA_eq_ok {category : Mode → Bool} {sz : Size} {mode reg : BitVec 3} {ws rest : List Word} {ea : EA} :
    decodeEA category sz mode reg ws = .ok (ea, rest) ↔
      ea.isIn category sz = true ∧ mode = eaModeBits ea ∧ reg = eaRegBits ea ∧ ws = ea.extWords ++ rest := by
  constructor
  · intro h
    unfold decodeEA at h
    split at h
    next => cases h
    next m hm =>
      split at h
      next hc =>
        obtain ⟨rfl, hreg, hadm, hws⟩ := words_of_takeEA h
        obtain ⟨hmode, hregf⟩ := fields_of_modeOf hm
        exact ⟨by rw [EA.isIn, hadm, hc], by rw [eaModeBits_eq, hmode], by rw [hreg, hregf], hws⟩
      next => cases h
  · rintro ⟨hin, rfl, rfl, rfl⟩
    obtain ⟨hc, hadm⟩ := Bool.and_eq_true_iff.mp hin
    have hbyte : (ea.mode == .areg && sz == .b) = false := by
      cases ea with
      | areg => simpa [EA.admits, EA.mode] using hadm
      | _ => rfl
    simp only [decodeEA, modeOf_eaBits, hc, hbyte, Bool.not_false, Bool.and_self, if_true]
    exact takeEA_extWords hadm rest

theorem decodeEA_extWords {category : Mode → Bool} {sz : Size} {ea : EA} (h : ea.isIn category sz = true)
    (ws : List Word) : decodeEA category sz (eaModeBits ea) (eaRegBits ea) (ea.extWords ++ ws) = .ok (ea, ws) :=
  decodeEA_eq_ok.mpr ⟨h, rfl, rfl, rfl⟩

end Sys2Proof
end

section
/-! LAWS AND CERTIFICATE. The rows of the decoder that share an operation-word pattern and are told apart by the mode
field, and what the tables of instructions (`immediateInstr` and its like) hold: used in both directions. -/

namespace Sys2Proof

/-! ## Operands that are no register -/

section
variable {mode : BitVec 3} (h0 : mode.toNat ≠ 0) (h1 : mode.toNat ≠ 1) (x reg : BitVec 3) (sz : Size) (ws : List Word)

include h0 h1

theorem decodeLine8_memory : decodeLine8 x (opBits true (sizeBits sz)) mode reg ws =
    decodeFixed (.orToMem sz) Mode.isMemoryAlterable sz x mode reg ws := by
  cases sz with
  | b =>
    unfold decodeLine8
    split
    case h_5 => rfl
    all_goals contradiction
  | w =>
    unfold decodeLine8
    split
    case h_6 => rfl
    all_goals contradiction
  | l =>
    unfold decodeLine8
    split
    case h_7 => rfl
    all_goals contradiction

theorem decodeLine9_memory : decodeLine9 x (opBits true (sizeBits sz)) mode reg ws =
    decodeFixed (.subToMem sz) Mode.isMemoryAlterable sz x mode reg ws := by
  obtain ⟨hw, hl⟩ := opBits_sizeBits_ne true sz
  rw [decodeLine9, if_neg hw, if_neg hl, bit8_opBits, if_pos rfl]
  split
  · contradiction
  · contradiction
  · rw [decodeDyadic, ssOf_opBits, sizeOf_sizeBits, decodeFixed]

theorem decodeLineD_memory : decodeLineD x (opBits true (sizeBits sz)) mode reg ws =
    decodeFixed (.addToMem sz) Mode.isMemoryAlterable sz x mode reg ws := by
  obtain ⟨hw, hl⟩ := opBits_sizeBits_ne true sz
  rw [decodeLineD, if_neg hw, if_neg hl, bit8_opBits, if_pos rfl]
  split
  · contradiction
  · contradiction
  · rw [decodeDyadic, ssOf_opBits, sizeOf_sizeBits, decodeFixed]

theorem decodeLineC_memory : decodeLineC x (opBits true (sizeBits sz)) mode reg ws =
    decodeFixed (.andToMem sz) Mode.isMemoryAlterable sz x mode reg ws := by
  cases sz with
  | b =>
    unfold decodeLineC
    split
    case h_8 => rfl
    all_goals contradiction
  | w =>
    unfold decodeLineC
    split
    case h_9 => rfl
    all_goals contradiction
  | l =>
    unfold decodeLineC
    split
    case h_10 => rfl
    all_goals contradiction

end

theorem decodeLineB_eor {mode : BitVec 3} (h1 : mode.toNat ≠ 1) (x reg : BitVec 3) (sz : Size) (ws : List Word) :
    decodeLineB x (opBits true (sizeBits sz)) mode reg ws =
      decodeFixed (.eor sz) Mode.isDataAlterable sz x mode reg ws := by
  obtain ⟨hw, hl⟩ := opBits_sizeBits_ne true sz
  rw [decodeLineB, if_neg hw, if_neg hl, bit8_opBits, if_pos rfl]
  split
  · contradiction
  · rw [decodeDyadic, ssOf_opBits, sizeOf_sizeBits, decodeFixed]

theorem decodeMisc_tas {mode reg : BitVec 3} (h : ¬(mode.toNat = 7 ∧ 2 ≤ reg.toNat ∧ reg.toNat ≤ 4)) (ws : List Word) :
    decodeMisc 5 3 mode reg ws =
      (decodeEA Mode.isDataAlterable .b mode reg ws).map fun p => (.tas p.1, p.2) := by
  change (match mode.toNat, reg.toNat with
    | 7, 2 => .ok (.illegal4AFA, ws)
    | 7, 3 => .ok (.illegal4AFB, ws)
    | 7, 4 => .ok (.illegal4AFC, ws)
    | _, _ => (decodeEA Mode.isDataAlterable .b mode reg ws).map fun p => (.tas p.1, p.2) : Decoded Instr) = _
  split
  next => omega
  next => omega
  next => omega
  next => rfl

/-! ## Line 0000 (R152) -/

theorem decodeLine0_dynamic (x : BitVec 3) (ss : BitVec 2) (mode reg : BitVec 3) (ws : List Word) :
    decodeLine0 x (opBits true ss) mode reg ws = decodeBitDynamic x ss mode reg ws := by
  unfold decodeLine0
  rw [bit8_opBits, if_pos rfl, ssOf_opBits]

theorem decodeLine0_static (ss : BitVec 2) (mode reg : BitVec 3) (ws : List Word) :
    decodeLine0 4 (opBits false ss) mode reg ws = decodeBitStatic ss mode reg ws := by
  unfold decodeLine0
  rw [bit8_opBits, if_neg Bool.false_ne_true, if_pos (by decide), ssOf_opBits]

theorem orIllegal_eq_ok {o : Option Instr} {ws rest : List Word} {i : Instr} :
    orIllegal o ws = .ok (i, rest) ↔ o = some i ∧ ws = rest := by
  cases o with
  | none => simp [orIllegal]
  | some j => simp [orIllegal]

/-- An immediate to CCR or SR: the effective-address field holds 111 100. -/
theorem decodeLine0_toStatus {x : BitVec 3} (hx : x.toNat ≠ 4) {ss : BitVec 2} {ws rest : List Word} {i : Instr}
    (h : decodeLine0 x (opBits false ss) 7 4 ws = .ok (i, rest)) :
    ∃ v, ws = v :: rest ∧ toStatusInstr x ss v = some i := by
  unfold decodeLine0 at h
  rw [bit8_opBits, if_neg Bool.false_ne_true, if_neg hx, ssOf_opBits, if_pos (by decide)] at h
  split at h
  next => cases h
  next =>
    split at h
    next => cases h
    next v ws =>
      obtain ⟨hi, rfl⟩ := orIllegal_eq_ok.mp h
      exact ⟨v, rfl, hi⟩

/-- The immediate instructions: the immediate is read first, then the effective address. -/
theorem decodeLine0_immediate {x mode reg : BitVec 3} (hx : x.toNat ≠ 4) (hea : ¬(mode.toNat = 7 ∧ reg.toNat = 4))
    {ss : BitVec 2} {ws rest : List Word} {i : Instr} :
    decodeLine0 x (opBits false ss) mode reg ws = .ok (i, rest) ↔
      ∃ sz v ea ws', ss = sizeBits sz ∧ takeImm sz ws = .ok (v, ws')
        ∧ decodeEA Mode.isDataAlterable sz mode reg ws' = .ok (ea, rest) ∧ immediateInstr x sz v ea = some i := by
  have hea' : ¬((decide (mode.toNat = 7) && decide (reg.toNat = 4)) = true) := by simpa using hea
  unfold decodeLine0
  rw [bit8_opBits, if_neg Bool.false_ne_true, if_neg hx, if_neg hea', ssOf_opBits]
  constructor
  · intro h
    rcases sizeField_cases ss with rfl | ⟨sz, rfl⟩
    · cases h
    rw [sizeOf_sizeBits] at h
    dsimp only at h
    split at h
    next => cases h
    next v ws' hv =>
      split at h
      next => cases h
      next ea r hd =>
        obtain ⟨hi, rfl⟩ := orIllegal_eq_ok.mp h
        exact ⟨sz, v, ea, ws', rfl, hv, hd, hi⟩
  · rintro ⟨sz, v, ea, ws', rfl, hv, hd, hi⟩
    simp only [sizeOf_sizeBits, hv, hd, hi, orIllegal]

/-! ## The tables of instructions -/

theorem immediateInstr_row {x : BitVec 3} {sz : Size} {v : Imm} {ea : EA} {i : Instr}
    (h : immediateInstr x sz v ea = some i) :
    x.toNat ≠ 4 ∧ i.wellFormed = (v.admits sz && ea.isIn Mode.isDataAlterable sz)
      ∧ encode i = encodeImmediate x sz v ea := by
  rcases bits3_cases x with rfl | rfl | rfl | rfl | rfl | rfl | rfl | rfl <;> cases h <;> exact ⟨by decide, rfl, rfl⟩

/-- The six words of R152 that name CCR or SR have mode 111 and register 100 in the effective-address field. -/
theorem toStatusInstr_row {x : BitVec 3} {ss : BitVec 2} {v : Word} {i : Instr} (h : toStatusInstr x ss v = some i) :
    i.wellFormed = true ∧ encode i = [opWord 0 x (opBits false ss) 7 4, v] := by
  unfold toStatusInstr at h
  split at h
  case h_7 => cases h
  all_goals
    next hx hss =>
      obtain rfl := eq_ofNat_of_toNat hx
      obtain rfl := eq_ofNat_of_toNat hss
      cases h
      exact ⟨rfl, rfl⟩

/-- The line of the MOVE of a size (R153). -/
def Size.moveLine : Size → BitVec 4
  | .b => 1
  | .l => 2
  | .w => 3

theorem decodeFields_moveLine (sz : Size) (x op mode reg : BitVec 3) (ws : List Word) :
    decodeFields sz.moveLine x op mode reg ws = decodeMove sz x op mode reg ws := by cases sz <;> rfl

/-- With byte size any mode but `An` exists, so the byte MOVE's sources are the data modes (R153, R182). -/
theorem isIn_isAny_byte (ea : EA) : ea.isIn Mode.isAny .b = ea.isIn Mode.isData .b := by cases ea <;> rfl

theorem moveInstr_row (sz : Size) (src dst : EA) :
    (moveInstr sz src dst).wellFormed = (src.isIn Mode.isAny sz && dst.isIn Mode.isDataAlterable sz)
      ∧ encode (moveInstr sz src dst) = encodeMove sz.moveLine src dst := by
  cases sz with
  | b => exact ⟨by rw [isIn_isAny_byte]; rfl, rfl⟩
  | w | l => exact ⟨rfl, rfl⟩

theorem moveaInstr_row {sz : Size} {an : RegNo} {src : EA} {i : Instr} (h : moveaInstr sz an src = some i) :
    i.wellFormed = src.isIn Mode.isAny sz ∧ encode i = encodeEA sz.moveLine (regBits an) 1 src := by
  cases sz with
  | b => cases h
  | w | l => cases h; exact ⟨rfl, rfl⟩

theorem shiftRegInstr_row (tt : BitVec 2) (left : Bool) (c : ShiftCount) (sz : Size) (dy : RegNo) :
    (shiftRegInstr tt left c sz dy).wellFormed = true
      ∧ encode (shiftRegInstr tt left c sz dy) = encodeShiftReg tt left c sz dy := by
  rcases bits2_cases tt with rfl | rfl | rfl | rfl <;> cases left <;> exact ⟨rfl, rfl⟩

theorem shiftMemInstr_row (tt : BitVec 2) (left : Bool) (ea : EA) :
    (shiftMemInstr tt left ea).wellFormed = ea.isIn Mode.isMemoryAlterable .w
      ∧ encode (shiftMemInstr tt left ea) = encodeShiftMem tt left ea := by
  rcases bits2_cases tt with rfl | rfl | rfl | rfl <;> cases left <;> exact ⟨rfl, rfl⟩

/-- The branch on a condition (R149, R156): BRA and BSR have the codes of the conditions T and F. -/
def branchInstr (cond : Cond) (d : Disp) : Instr :=
  match cond with
  | .t => .bra d
  | .f => .bsr d
  | cond => .bcc cond d

theorem branchInstr_row (cond : Cond) (d : Disp) :
    (branchInstr cond d).wellFormed = d.isEncodable ∧ encode (branchInstr cond d) = encodeBranch cond d := by
  cases cond <;> exact ⟨rfl, rfl⟩

theorem decodeLine6_eq (x op mode reg : BitVec 3) (ws : List Word) : decodeLine6 x op mode reg ws =
    (takeDisp (low8 op mode reg) ws).map fun p => (branchInstr (condOf (condField x op)) p.1, p.2) := rfl

end Sys2Proof
end

section
/-! LAWS AND CERTIFICATE. What the decoder accepts is well formed and is the encoding of what it is read as (R140 to
R166): one lemma for each shape of a row, then one for each line, with a case for each of its rows. -/

namespace Sys2Proof

/-- The words `w :: ws` are the encoding of a well-formed instruction and the words `rest` after it. -/
def Reads (w : Word) (ws : List Word) (i : Instr) (rest : List Word) : Prop :=
  i.wellFormed = true ∧ encode i ++ rest = w :: ws

/-! ## The shapes of the rows -/

section
variable {line : BitVec 4} {x op mode reg : BitVec 3} {ws rest : List Word} {i : Instr}

/-- The operation word may be given with a register number in bits 11-9. -/
theorem Reads.regX (h : Reads (opWord line (regBits (regOf x)) op mode reg) ws i rest) :
    Reads (opWord line x op mode reg) ws i rest := regBits_regOf x ▸ h

/-- The operation word may be given with a register number in bits 2-0. -/
theorem Reads.regY (h : Reads (opWord line x op mode (regBits (regOf reg))) ws i rest) :
    Reads (opWord line x op mode reg) ws i rest := regBits_regOf reg ▸ h

/-- The operation word alone. -/
theorem Reads.of_ok {j : Instr} (h : (.ok (j, ws) : Decoded Instr) = .ok (i, rest))
    (hj : j.wellFormed = true ∧ encode j = [opWord line x op mode reg]) :
    Reads (opWord line x op mode reg) ws i rest := by
  cases h
  exact ⟨hj.1, by rw [hj.2]; rfl⟩

/-- One word of data after the operation word. -/
theorem Reads.of_word {f : Word × List Word → Instr × List Word} (h : (takeWord ws).map f = .ok (i, rest))
    (hf : ∀ w r, (f (w, r)).2 = r ∧ (f (w, r)).1.wellFormed = true
      ∧ encode (f (w, r)).1 = [opWord line x op mode reg, w]) : Reads (opWord line x op mode reg) ws i rest := by
  obtain ⟨w, r, hw, hi⟩ := map_eq_ok h
  obtain ⟨hr, hwf, henc⟩ := hf w r
  rw [hi] at hr hwf henc
  exact ⟨hwf, by rw [henc, takeWord_eq_ok.mp hw, show rest = r from hr]; rfl⟩

/-- An effective address. -/
theorem Reads.of_ea {category : Mode → Bool} {sz : Size} {f : EA × List Word → Instr × List Word}
    (h : (decodeEA category sz mode reg ws).map f = .ok (i, rest))
    (hf : ∀ ea r, (f (ea, r)).2 = r ∧ (f (ea, r)).1.wellFormed = ea.isIn category sz
      ∧ encode (f (ea, r)).1 = encodeEA line x op ea) : Reads (opWord line x op mode reg) ws i rest := by
  obtain ⟨ea, r, hd, hi⟩ := map_eq_ok h
  obtain ⟨hr, hwf, henc⟩ := hf ea r
  rw [hi] at hr hwf henc
  obtain ⟨hin, rfl, rfl, rfl⟩ := decodeEA_eq_ok.mp hd
  exact ⟨hwf.trans hin, by rw [henc, show rest = r from hr]; rfl⟩

/-- A word of data, then an effective address. -/
theorem Reads.of_wordEA {category : Mode → Bool} {sz : Size} {w : Word} {f : EA × List Word → Instr × List Word}
    (h : (decodeEA category sz mode reg ws).map f = .ok (i, rest))
    (hf : ∀ ea r, (f (ea, r)).2 = r ∧ (f (ea, r)).1.wellFormed = ea.isIn category sz
      ∧ encode (f (ea, r)).1 = opWordEA line x op ea :: w :: ea.extWords) :
    Reads (opWord line x op mode reg) (w :: ws) i rest := by
  obtain ⟨ea, r, hd, hi⟩ := map_eq_ok h
  obtain ⟨hr, hwf, henc⟩ := hf ea r
  rw [hi] at hr hwf henc
  obtain ⟨hin, rfl, rfl, rfl⟩ := decodeEA_eq_ok.mp hd
  exact ⟨hwf.trans hin, by rw [henc, show rest = r from hr]; rfl⟩

/-- A register in bits 11-9 and an effective address. -/
theorem Reads.of_fixed {mk : RegNo → EA → Instr} {category : Mode → Bool} {sz : Size}
    (h : decodeFixed mk category sz x mode reg ws = .ok (i, rest))
    (hmk : ∀ n ea, (mk n ea).wellFormed = ea.isIn category sz ∧ encode (mk n ea) = encodeEA line (regBits n) op ea) :
    Reads (opWord line x op mode reg) ws i rest :=
  .regX (.of_ea h fun ea _ => ⟨rfl, hmk (regOf x) ea⟩)

/-- A register in bits 11-9, an effective address and a size. -/
theorem Reads.of_dyadic {mk : Size → RegNo → EA → Instr} {category : Mode → Bool} {b : Bool} {sz : Size}
    (h : decodeDyadic mk category x (opBits b (sizeBits sz)) mode reg ws = .ok (i, rest))
    (hmk : ∀ n ea, (mk sz n ea).wellFormed = ea.isIn category sz
      ∧ encode (mk sz n ea) = encodeEA line (regBits n) (opBits b (sizeBits sz)) ea) :
    Reads (opWord line x (opBits b (sizeBits sz)) mode reg) ws i rest := by
  rw [decodeDyadic, ssOf_opBits, sizeOf_sizeBits] at h
  exact .of_fixed h hmk

/-- Two registers. -/
theorem Reads.of_registers {mk : RegNo → RegNo → Instr}
    (h : (.ok (mk (regOf x) (regOf reg), ws) : Decoded Instr) = .ok (i, rest))
    (hmk : ∀ m n, (mk m n).wellFormed = true ∧ encode (mk m n) = [opWord line (regBits m) op mode (regBits n)]) :
    Reads (opWord line x op mode reg) ws i rest :=
  .regX (.regY (.of_ok h (hmk _ _)))

/-- Two registers and a size. -/
theorem Reads.of_pair {mk : Size → RegNo → RegNo → Instr} {b : Bool} {sz : Size}
    (h : decodePair mk x (opBits b (sizeBits sz)) reg ws = .ok (i, rest))
    (hmk : ∀ m n, (mk sz m n).wellFormed = true
      ∧ encode (mk sz m n) = [opWord line (regBits m) (opBits b (sizeBits sz)) mode (regBits n)]) :
    Reads (opWord line x (opBits b (sizeBits sz)) mode reg) ws i rest := by
  rw [decodePair, ssOf_opBits, sizeOf_sizeBits] at h
  exact .of_registers h hmk

/-- A size and an effective address, in the one-operand group of line 0100. -/
theorem Reads.of_sized {mk : Size → EA → Instr} {ss : BitVec 2} (h : decodeSized mk ss mode reg ws = .ok (i, rest))
    (hmk : ∀ sz ea, (mk sz ea).wellFormed = ea.isIn Mode.isDataAlterable sz
      ∧ encode (mk sz ea) = encodeEA line x (opBits false (sizeBits sz)) ea) :
    Reads (opWord line x (opBits false ss) mode reg) ws i rest := by
  rcases sizeField_cases ss with rfl | ⟨sz, rfl⟩
  · cases h
  · rw [decodeSized, sizeOf_sizeBits] at h
    exact .of_ea h fun ea _ => ⟨rfl, hmk sz ea⟩

/-- A register list and an effective address (MOVEM). -/
theorem Reads.of_movem {mk : Word → EA → Instr} {category : Mode → Bool} {sz : Size}
    (h : decodeMovem mk category sz mode reg ws = .ok (i, rest))
    (hmk : ∀ list ea, (mk list ea).wellFormed = ea.isIn category sz
      ∧ encode (mk list ea) = opWordEA line x op ea :: list :: ea.extWords) :
    Reads (opWord line x op mode reg) ws i rest := by
  cases ws with
  | nil => cases h
  | cons list ws => exact .of_wordEA h fun ea _ => ⟨rfl, hmk list ea⟩

end

section
variable {x op mode reg : BitVec 3} {ws rest : List Word} {i : Instr}

/-! ## Line 0000 -/

theorem decodeBitStatic_reads {ss : BitVec 2} (h : decodeBitStatic ss mode reg ws = .ok (i, rest)) :
    Reads (opWord 0 4 (opBits false ss) mode reg) ws i rest := by
  cases ws with
  | nil => cases h
  | cons b ws =>
    rcases bits2_cases ss with rfl | rfl | rfl | rfl <;> exact .of_wordEA h fun _ _ => ⟨rfl, rfl, rfl⟩

theorem decodeBitDynamic_reads {ss : BitVec 2} (h : decodeBitDynamic x ss mode reg ws = .ok (i, rest)) :
    Reads (opWord 0 x (opBits true ss) mode reg) ws i rest := by
  unfold decodeBitDynamic at h
  split at h
  next hm =>
    obtain rfl := eq_ofNat_of_toNat hm
    rcases bits2_cases ss with rfl | rfl | rfl | rfl <;> exact .regX (.regY (.of_word h fun _ _ => ⟨rfl, rfl, rfl⟩))
  next =>
    rcases bits2_cases ss with rfl | rfl | rfl | rfl <;> exact .regX (.of_ea h fun _ _ => ⟨rfl, rfl, rfl⟩)

theorem decodeLine0_reads (h : decodeLine0 x op mode reg ws = .ok (i, rest)) :
    Reads (opWord 0 x op mode reg) ws i rest := by
  obtain ⟨b, ss, rfl⟩ := exists_opBits op
  cases b with
  | true => exact decodeBitDynamic_reads (decodeLine0_dynamic x ss mode reg ws ▸ h)
  | false =>
    by_cases hx : x.toNat = 4
    · obtain rfl := eq_ofNat_of_toNat hx
      exact decodeBitStatic_reads (decodeLine0_static ss mode reg ws ▸ h)
    by_cases hea : mode.toNat = 7 ∧ reg.toNat = 4
    · obtain rfl := eq_ofNat_of_toNat hea.1
      obtain rfl := eq_ofNat_of_toNat hea.2
      obtain ⟨v, rfl, hi⟩ := decodeLine0_toStatus hx h
      obtain ⟨hwf, henc⟩ := toStatusInstr_row hi
      exact ⟨hwf, by rw [henc]; rfl⟩
    · obtain ⟨sz, v, ea, ws', rfl, hv, hd, hi⟩ := (decodeLine0_immediate hx hea).mp h
      obtain ⟨-, hwf, henc⟩ := immediateInstr_row hi
      obtain ⟨hadm, rfl⟩ := takeImm_eq_ok.mp hv
      obtain ⟨hin, rfl, rfl, rfl⟩ := decodeEA_eq_ok.mp hd
      exact ⟨by rw [hwf, hadm, hin]; rfl, by rw [henc, encodeImmediate, opWordEA, List.cons_append, List.append_assoc]⟩

/-! ## Lines 0001 to 0011 -/

theorem decodeMove_reads {sz : Size} (h : decodeMove sz x op mode reg ws = .ok (i, rest)) :
    Reads (opWord sz.moveLine x op mode reg) ws i rest := by
  unfold decodeMove at h
  split at h
  next hop =>
    obtain rfl := eq_ofNat_of_toNat hop
    split at h
    next => cases h
    next =>
      split at h
      next => cases h
      next src ws' hd =>
        obtain ⟨hi, rfl⟩ := orIllegal_eq_ok.mp h
        obtain ⟨hwf, henc⟩ := moveaInstr_row hi
        obtain ⟨hin, rfl, rfl, rfl⟩ := decodeEA_eq_ok.mp hd
        exact ⟨hwf.trans hin, by rw [henc, regBits_regOf]; rfl⟩
  next =>
    split at h
    next => cases h
    next src ws' hsrc =>
      split at h
      next => cases h
      next dst ws'' hdst =>
        cases h
        obtain ⟨hwf, henc⟩ := moveInstr_row sz src dst
        obtain ⟨hin, rfl, rfl, rfl⟩ := decodeEA_eq_ok.mp hsrc
        obtain ⟨hin', rfl, rfl, rfl⟩ := decodeEA_eq_ok.mp hdst
        exact ⟨by rw [hwf, hin, hin']; rfl, by rw [henc, encodeMove, List.cons_append, List.append_assoc]⟩

/-! ## Line 0100 -/

theorem encode_trap (b : BitVec 1) (reg : BitVec 3) : encode (.trap (b ++ reg)) = [opWord 4 7 1 (0#2 ++ b) reg] := by
  revert b reg
  decide

/-- By the mode field: TRAP, LINK, UNLK, MOVE USP, and under 110 the words without operands. -/
theorem decodeSystem_reads (h : decodeSystem mode reg ws = .ok (i, rest)) :
    Reads (opWord 4 7 1 mode reg) ws i rest := by
  rcases bits3_cases mode with rfl | rfl | rfl | rfl | rfl | rfl | rfl | rfl
  · exact .of_ok h ⟨rfl, encode_trap 0 reg⟩
  · exact .of_ok h ⟨rfl, encode_trap 1 reg⟩
  · exact .regY (.of_word h fun _ _ => ⟨rfl, rfl, rfl⟩)
  · exact .regY (.of_ok h ⟨rfl, rfl⟩)
  · exact .regY (.of_ok h ⟨rfl, rfl⟩)
  · exact .regY (.of_ok h ⟨rfl, rfl⟩)
  · rcases bits3_cases reg with rfl | rfl | rfl | rfl | rfl | rfl | rfl | rfl
    · exact .of_ok h ⟨rfl, rfl⟩
    · exact .of_ok h ⟨rfl, rfl⟩
    · exact .of_word h fun _ _ => ⟨rfl, rfl, rfl⟩
    · exact .of_ok h ⟨rfl, rfl⟩
    · cases h
    · exact .of_ok h ⟨rfl, rfl⟩
    · exact .of_ok h ⟨rfl, rfl⟩
    · exact .of_ok h ⟨rfl, rfl⟩
  · cases h

/-- Bits 11-9 = 100: with mode 000 an instruction on a data register, else NBCD, PEA and MOVEM. -/
theorem decodeMisc4_reads {ss : BitVec 2} (h : decodeMisc 4 ss mode reg ws = .ok (i, rest)) :
    Reads (opWord 4 4 (opBits false ss) mode reg) ws i rest := by
  rcases bits2_cases ss with rfl | rfl | rfl | rfl
  · exact .of_ea h fun _ _ => ⟨rfl, rfl, rfl⟩
  all_goals
    change ite (mode.toNat = 0) _ _ = _ at h
    split at h
    case isTrue hm =>
      obtain rfl := eq_ofNat_of_toNat hm
      exact .regY (.of_ok h ⟨rfl, rfl⟩)
  · exact .of_ea h fun _ _ => ⟨rfl, rfl, rfl⟩
  · exact .of_movem h fun _ _ => ⟨rfl, rfl⟩
  · exact .of_movem h fun _ _ => ⟨rfl, rfl⟩

/-- Bits 11-9 = 101: TST, TAS and, in the place of TAS of no alterable mode, the three illegal words. -/
theorem decodeMisc5_reads {ss : BitVec 2} (h : decodeMisc 5 ss mode reg ws = .ok (i, rest)) :
    Reads (opWord 4 5 (opBits false ss) mode reg) ws i rest := by
  rcases bits2_cases ss with rfl | rfl | rfl | rfl
  case inr.inr.inr =>
    by_cases hea : mode.toNat = 7 ∧ 2 ≤ reg.toNat ∧ reg.toNat ≤ 4
    · obtain ⟨hmode, hreg⟩ := hea
      obtain rfl := eq_ofNat_of_toNat hmode
      have hillegal : reg.toNat = 2 ∨ reg.toNat = 3 ∨ reg.toNat = 4 := by omega
      rcases hillegal with hr | hr | hr <;> obtain rfl := eq_ofNat_of_toNat hr <;> exact .of_ok h ⟨rfl, rfl⟩
    · rw [decodeMisc_tas hea] at h
      exact .of_ea h fun _ _ => ⟨rfl, rfl, rfl⟩
  all_goals exact .of_sized (mk := .tst) h fun _ _ => ⟨rfl, rfl⟩

/-- By bits 11-9, in the order of `decodeMisc`; 11 in the place of a size is another instruction or none. -/
theorem decodeMisc_reads {ss : BitVec 2} (h : decodeMisc x ss mode reg ws = .ok (i, rest)) :
    Reads (opWord 4 x (opBits false ss) mode reg) ws i rest := by
  rcases bits3_cases x with rfl | rfl | rfl | rfl | rfl | rfl | rfl | rfl
  · rcases bits2_cases ss with rfl | rfl | rfl | rfl
    case inr.inr.inr => exact .of_ea h fun _ _ => ⟨rfl, rfl, rfl⟩
    all_goals exact .of_sized (mk := .negx) h fun _ _ => ⟨rfl, rfl⟩
  · exact .of_sized (mk := .clr) h fun _ _ => ⟨rfl, rfl⟩
  · rcases bits2_cases ss with rfl | rfl | rfl | rfl
    case inr.inr.inr => exact .of_ea h fun _ _ => ⟨rfl, rfl, rfl⟩
    all_goals exact .of_sized (mk := .neg) h fun _ _ => ⟨rfl, rfl⟩
  · rcases bits2_cases ss with rfl | rfl | rfl | rfl
    case inr.inr.inr => exact .of_ea h fun _ _ => ⟨rfl, rfl, rfl⟩
    all_goals exact .of_sized (mk := .notOp) h fun _ _ => ⟨rfl, rfl⟩
  · exact decodeMisc4_reads h
  · exact decodeMisc5_reads h
  · rcases bits2_cases ss with rfl | rfl | rfl | rfl
    · cases h
    · cases h
    · exact .of_movem h fun _ _ => ⟨rfl, rfl⟩
    · exact .of_movem h fun _ _ => ⟨rfl, rfl⟩
  · rcases bits2_cases ss with rfl | rfl | rfl | rfl
    · cases h
    · exact decodeSystem_reads h
    · exact .of_ea h fun _ _ => ⟨rfl, rfl, rfl⟩
    · exact .of_ea h fun _ _ => ⟨rfl, rfl, rfl⟩

theorem decodeLine4_reads (h : decodeLine4 x op mode reg ws = .ok (i, rest)) :
    Reads (opWord 4 x op mode reg) ws i rest := by
  obtain ⟨b, ss, rfl⟩ := exists_opBits op
  cases b with
  | false =>
    have h' : decodeMisc x ss mode reg ws = .ok (i, rest) := by
      rcases bits2_cases ss with rfl | rfl | rfl | rfl <;> exact h
    exact decodeMisc_reads h'
  | true =>
    rcases bits2_cases ss with rfl | rfl | rfl | rfl
    case inl | inr.inl => cases h
    · exact .of_fixed (mk := .chk) h fun _ _ => ⟨rfl, rfl⟩
    · exact .of_fixed (mk := .lea) h fun _ _ => ⟨rfl, rfl⟩

/-! ## Lines 0101 to 0111 -/

theorem decodeLine5_reads (h : decodeLine5 x op mode reg ws = .ok (i, rest)) :
    Reads (opWord 5 x op mode reg) ws i rest := by
  obtain ⟨b, ss, rfl⟩ := exists_opBits op
  unfold decodeLine5 at h
  rw [ssOf_opBits] at h
  rcases sizeField_cases ss with rfl | ⟨sz, rfl⟩
  · have hx := condField_high x (opBits b 3#2)
    have hop := condField_low x (opBits b 3#2)
    rw [ssOf_opBits] at hop
    change ite (mode.toNat = 1) _ _ = _ at h
    split at h
    next hm =>
      obtain rfl := eq_ofNat_of_toNat hm
      exact .regY (.of_word h fun _ _ => ⟨rfl, rfl, by simp only [encode, condBits_condOf, hx, hop]; rfl⟩)
    next => exact .of_ea h fun _ _ => ⟨rfl, rfl, by simp only [encode, condBits_condOf, hx, hop]⟩
  · rw [sizeOf_sizeBits, bit8_opBits] at h
    cases b <;> exact .of_ea h fun _ _ => ⟨rfl, rfl, rfl⟩

theorem decodeLine6_reads (h : decodeLine6 x op mode reg ws = .ok (i, rest)) :
    Reads (opWord 6 x op mode reg) ws i rest := by
  rw [decodeLine6_eq] at h
  obtain ⟨d, r, hd, hi⟩ := map_eq_ok h
  cases hi
  obtain ⟨hwf, henc⟩ := branchInstr_row (condOf (condField x op)) d
  unfold takeDisp at hd
  split at hd
  next hzero =>
    obtain ⟨w, _, hw, ⟨⟩⟩ := map_eq_ok hd
    refine ⟨hwf, ?_⟩
    rw [henc, encodeBranch, takeWord_eq_ok.mp hw, ← hzero]
    simp only [condBits_condOf, low8_ss, low8_mode, low8_reg, condField_high, condField_low]
    rfl
  next hne =>
    cases hd
    refine ⟨hwf.trans (by simpa [Disp.isEncodable] using hne), ?_⟩
    rw [henc, encodeBranch]
    simp only [condBits_condOf, low8_ss, low8_mode, low8_reg, condField_high, condField_low]
    rfl

theorem decodeLine7_reads (h : decodeLine7 x op mode reg ws = .ok (i, rest)) :
    Reads (opWord 7 x op mode reg) ws i rest := by
  obtain ⟨b, ss, rfl⟩ := exists_opBits op
  rw [decodeLine7, bit8_opBits] at h
  cases b with
  | true => cases h
  | false =>
    have hop : (0#1 ++ ss : BitVec 3) = opBits false ss := rfl
    exact .regX (.of_ok h ⟨rfl, by rw [encode, low8_ss, low8_mode, low8_reg, ssOf_opBits, hop]⟩)

/-! ## Lines 1000 to 1101 -/

/-- Mode bits 000 and 001 are those of the registers. -/
theorem modeField_cases (mode : BitVec 3) : mode = 0 ∨ mode = 1 ∨ mode.toNat ≠ 0 ∧ mode.toNat ≠ 1 := by
  by_cases h0 : mode.toNat = 0
  · exact .inl (eq_ofNat_of_toNat h0)
  by_cases h1 : mode.toNat = 1
  · exact .inr (.inl (eq_ofNat_of_toNat h1))
  · exact .inr (.inr ⟨h0, h1⟩)

theorem decodeLine8_reads (h : decodeLine8 x op mode reg ws = .ok (i, rest)) :
    Reads (opWord 8 x op mode reg) ws i rest := by
  rcases opmode_cases op with rfl | rfl | ⟨b, sz, rfl⟩
  · exact .of_fixed (mk := .divu) h fun _ _ => ⟨rfl, rfl⟩
  · exact .of_fixed (mk := .divs) h fun _ _ => ⟨rfl, rfl⟩
  cases b with
  | false => cases sz <;> exact .of_dyadic (mk := .orToReg) h fun _ _ => ⟨rfl, rfl⟩
  | true =>
    rcases modeField_cases mode with rfl | rfl | ⟨h0, h1⟩
    · cases sz with
      | b => exact .of_registers (mk := .sbcdReg) h fun _ _ => ⟨rfl, rfl⟩
      | w | l => exact .of_dyadic (mk := .orToMem) (category := Mode.isMemoryAlterable) h fun _ _ => ⟨rfl, rfl⟩
    · cases sz with
      | b => exact .of_registers (mk := .sbcdMem) h fun _ _ => ⟨rfl, rfl⟩
      | w | l => exact .of_dyadic (mk := .orToMem) (category := Mode.isMemoryAlterable) h fun _ _ => ⟨rfl, rfl⟩
    · rw [decodeLine8_memory h0 h1] at h
      exact .of_fixed h fun _ _ => ⟨rfl, rfl⟩

theorem decodeLine9_reads (h : decodeLine9 x op mode reg ws = .ok (i, rest)) :
    Reads (opWord 9 x op mode reg) ws i rest := by
  rcases opmode_cases op with rfl | rfl | ⟨b, sz, rfl⟩
  · exact .of_fixed (mk := .subaW) h fun _ _ => ⟨rfl, rfl⟩
  · exact .of_fixed (mk := .subaL) h fun _ _ => ⟨rfl, rfl⟩
  cases b with
  | false => cases sz <;> exact .of_dyadic (mk := .subToReg) h fun _ _ => ⟨rfl, rfl⟩
  | true =>
    rcases modeField_cases mode with rfl | rfl | ⟨h0, h1⟩
    · cases sz <;> exact .of_pair (mk := .subxReg) h fun _ _ => ⟨rfl, rfl⟩
    · cases sz <;> exact .of_pair (mk := .subxMem) h fun _ _ => ⟨rfl, rfl⟩
    · rw [decodeLine9_memory h0 h1] at h
      exact .of_fixed h fun _ _ => ⟨rfl, rfl⟩

theorem decodeLineD_reads (h : decodeLineD x op mode reg ws = .ok (i, rest)) :
    Reads (opWord 13 x op mode reg) ws i rest := by
  rcases opmode_cases op with rfl | rfl | ⟨b, sz, rfl⟩
  · exact .of_fixed (mk := .addaW) h fun _ _ => ⟨rfl, rfl⟩
  · exact .of_fixed (mk := .addaL) h fun _ _ => ⟨rfl, rfl⟩
  cases b with
  | false => cases sz <;> exact .of_dyadic (mk := .addToReg) h fun _ _ => ⟨rfl, rfl⟩
  | true =>
    rcases modeField_cases mode with rfl | rfl | ⟨h0, h1⟩
    · cases sz <;> exact .of_pair (mk := .addxReg) h fun _ _ => ⟨rfl, rfl⟩
    · cases sz <;> exact .of_pair (mk := .addxMem) h fun _ _ => ⟨rfl, rfl⟩
    · rw [decodeLineD_memory h0 h1] at h
      exact .of_fixed h fun _ _ => ⟨rfl, rfl⟩

theorem decodeLineB_reads (h : decodeLineB x op mode reg ws = .ok (i, rest)) :
    Reads (opWord 11 x op mode reg) ws i rest := by
  rcases opmode_cases op with rfl | rfl | ⟨b, sz, rfl⟩
  · exact .of_fixed (mk := .cmpaW) h fun _ _ => ⟨rfl, rfl⟩
  · exact .of_fixed (mk := .cmpaL) h fun _ _ => ⟨rfl, rfl⟩
  cases b with
  | false => cases sz <;> exact .of_dyadic (mk := .cmp) h fun _ _ => ⟨rfl, rfl⟩
  | true =>
    by_cases h1 : mode.toNat = 1
    · obtain rfl := eq_ofNat_of_toNat h1
      cases sz <;> exact .of_pair (mk := .cmpm) h fun _ _ => ⟨rfl, rfl⟩
    · rw [decodeLineB_eor h1] at h
      exact .of_fixed h fun _ _ => ⟨rfl, rfl⟩

theorem decodeLineC_reads (h : decodeLineC x op mode reg ws = .ok (i, rest)) :
    Reads (opWord 12 x op mode reg) ws i rest := by
  rcases opmode_cases op with rfl | rfl | ⟨b, sz, rfl⟩
  · exact .of_fixed (mk := .mulu) h fun _ _ => ⟨rfl, rfl⟩
  · exact .of_fixed (mk := .muls) h fun _ _ => ⟨rfl, rfl⟩
  cases b with
  | false => cases sz <;> exact .of_dyadic (mk := .andToReg) h fun _ _ => ⟨rfl, rfl⟩
  | true =>
    rcases modeField_cases mode with rfl | rfl | ⟨h0, h1⟩
    · cases sz with
      | b => exact .of_registers (mk := .abcdReg) h fun _ _ => ⟨rfl, rfl⟩
      | w => exact .of_registers (mk := .exgDD) h fun _ _ => ⟨rfl, rfl⟩
      | l => exact .of_dyadic (mk := .andToMem) (category := Mode.isMemoryAlterable) h fun _ _ => ⟨rfl, rfl⟩
    · cases sz with
      | b => exact .of_registers (mk := .abcdMem) h fun _ _ => ⟨rfl, rfl⟩
      | w => exact .of_registers (mk := .exgAA) h fun _ _ => ⟨rfl, rfl⟩
      | l => exact .of_registers (mk := .exgDA) h fun _ _ => ⟨rfl, rfl⟩
    · rw [decodeLineC_memory h0 h1] at h
      exact .of_fixed h fun _ _ => ⟨rfl, rfl⟩

/-! ## Line 1110 -/

theorem decodeLineE_reads (h : decodeLineE x op mode reg ws = .ok (i, rest)) :
    Reads (opWord 14 x op mode reg) ws i rest := by
  obtain ⟨b, ss, rfl⟩ := exists_opBits op
  unfold decodeLineE at h
  rw [ssOf_opBits, bit8_opBits] at h
  rcases sizeField_cases ss with rfl | ⟨sz, rfl⟩
  · change ite (x.getLsbD 2 = true) _ _ = _ at h
    split at h
    next => cases h
    next hx =>
      have hparts : ∀ x : BitVec 3, ¬ x.getLsbD 2 = true → 0#1 ++ x.extractLsb' 0 2 = x := by decide
      refine .of_ea h fun ea _ => ⟨rfl, (shiftMemInstr_row _ b ea).imp id fun henc => henc.trans ?_⟩
      exact congrArg (encodeEA 14 · (opBits b 3) ea) (hparts x hx)
  · rw [sizeOf_sizeBits] at h
    refine .regY (.of_ok h ((shiftRegInstr_row _ b _ sz (regOf reg)).imp id fun henc => henc.trans ?_))
    have hparts : ∀ mode : BitVec 3, BitVec.ofBool (mode.getLsbD 2) ++ mode.extractLsb' 0 2 = mode := by decide
    have hmode := hparts mode
    cases hreg : mode.getLsbD 2 <;> rw [hreg] at hmode
    · exact congrArg (fun m => [opWord 14 x (opBits b (sizeBits sz)) m (regBits (regOf reg))]) hmode
    · rw [if_pos rfl, encodeShiftReg, regBits_regOf]
      exact congrArg (fun m => [opWord 14 x (opBits b (sizeBits sz)) m (regBits (regOf reg))]) hmode

/-! ## Every line -/

theorem decodeFields_reads {line : BitVec 4} (h : decodeFields line x op mode reg ws = .ok (i, rest)) :
    Reads (opWord line x op mode reg) ws i rest := by
  unfold decodeFields at h
  have hl : ∀ line : BitVec 4, line = 0 ∨ line = 1 ∨ line = 2 ∨ line = 3 ∨ line = 4 ∨ line = 5 ∨ line = 6 ∨ line = 7
    ∨ line = 8 ∨ line = 9 ∨ line = 10 ∨ line = 11 ∨ line = 12 ∨ line = 13 ∨ line = 14 ∨ line = 15 := by decide
  rcases hl line with rfl | rfl | rfl | rfl | rfl | rfl | rfl | rfl | rfl | rfl | rfl | rfl | rfl | rfl | rfl | rfl
  · exact decodeLine0_reads h
  · exact decodeMove_reads (sz := .b) h
  · exact decodeMove_reads (sz := .l) h
  · exact decodeMove_reads (sz := .w) h
  · exact decodeLine4_reads h
  · exact decodeLine5_reads h
  · exact decodeLine6_reads h
  · exact decodeLine7_reads h
  · exact decodeLine8_reads h
  · exact decodeLine9_reads h
  · exact .of_ok h ⟨rfl, by rw [encode, opWord_low12]⟩
  · exact decodeLineB_reads h
  · exact decodeLineC_reads h
  · exact decodeLineD_reads h
  · exact decodeLineE_reads h
  · exact .of_ok h ⟨rfl, by rw [encode, opWord_low12]⟩

/-- Settles O2, line by line of the decoder. -/
theorem encodeDecode : Obligations.EncodeDecode := by
  intro ws rest i h
  cases ws with
  | nil => cases h
  | cons w ws =>
    have hreads := decodeFields_reads (line := w.line) h
    rw [opWord_fields] at hreads
    exact hreads
end
end Sys2Proof
end

section
/-! LAWS AND CERTIFICATE. The decoder reads the encoding of every well-formed instruction as that instruction (R140 to
R166): one lemma for each shape of a row, then a case for each instruction, grouped by shape. -/

namespace Sys2Proof

/-! ## What an effective address's category says of its bits -/

section
variable {ea : EA} {category : Mode → Bool} {sz : Size}

theorem mode_of_isIn (h : ea.isIn category sz = true) : category ea.mode = true := (Bool.and_eq_true_iff.mp h).1

theorem eaModeBits_ne_dreg (h : ea.isIn category sz = true) (hc : category .dreg = false) :
    (eaModeBits ea).toNat ≠ 0 := by
  have hm := mode_of_isIn h
  cases ea with
  | dreg => exact absurd (hm.symm.trans hc) (by decide)
  | _ => exact fun h => nomatch h

theorem eaModeBits_ne_areg (h : ea.isIn category sz = true) (hc : category .areg = false) :
    (eaModeBits ea).toNat ≠ 1 := by
  have hm := mode_of_isIn h
  cases ea with
  | areg => exact absurd (hm.symm.trans hc) (by decide)
  | _ => exact fun h => nomatch h

/-- Under mode bits 111 only the absolute modes, 000 and 001, are alterable. -/
theorem eaBits_alterable (h : ea.isIn Mode.isDataAlterable sz = true) :
    ¬((eaModeBits ea).toNat = 7 ∧ 2 ≤ (eaRegBits ea).toNat) := by
  have hm := mode_of_isIn h
  cases ea with
  | pcDisp | pcIndex | imm16 | imm32 => cases hm
  | absW | absL => exact fun h => absurd h.2 (by simp [eaRegBits])
  | _ => exact fun h => nomatch h.1

end

/-! ## The shapes of the rows -/

section
variable {line : BitVec 4} {x op : BitVec 3} {ea : EA} {category : Mode → Bool} {sz : Size} {ws : List Word}

theorem decode_encodeEA_append (line : BitVec 4) (x op : BitVec 3) (ea : EA) (ws : List Word) :
    decode (encodeEA line x op ea ++ ws)
      = decodeFields line x op (eaModeBits ea) (eaRegBits ea) (ea.extWords ++ ws) := decode_opWord ..

/-- An effective address. -/
theorem decode_ea {mk : EA → Instr} (hin : ea.isIn category sz = true)
    (hd : decodeFields line x op (eaModeBits ea) (eaRegBits ea) (ea.extWords ++ ws)
      = (decodeEA category sz (eaModeBits ea) (eaRegBits ea) (ea.extWords ++ ws)).map fun p => (mk p.1, p.2)) :
    decode (encodeEA line x op ea ++ ws) = .ok (mk ea, ws) := by
  rw [decode_encodeEA_append, hd, decodeEA_extWords hin]
  rfl

/-- A register in bits 11-9 and an effective address. -/
theorem decode_fixed {mk : RegNo → EA → Instr} {n : RegNo} (hin : ea.isIn category sz = true)
    (hd : decodeFields line (regBits n) op (eaModeBits ea) (eaRegBits ea) (ea.extWords ++ ws)
      = decodeFixed mk category sz (regBits n) (eaModeBits ea) (eaRegBits ea) (ea.extWords ++ ws)) :
    decode (encodeEA line (regBits n) op ea ++ ws) = .ok (mk n ea, ws) := by
  rw [decode_encodeEA_append, hd, decodeFixed, decodeEA_extWords hin, regOf_regBits]
  rfl

/-- A word of data, then an effective address. -/
theorem decode_wordEA {mk : Word → EA → Instr} {w : Word} (hin : ea.isIn category sz = true)
    (hd : decodeFields line x op (eaModeBits ea) (eaRegBits ea) (w :: (ea.extWords ++ ws))
      = (decodeEA category sz (eaModeBits ea) (eaRegBits ea) (ea.extWords ++ ws)).map fun p => (mk w p.1, p.2)) :
    decode (opWordEA line x op ea :: w :: ea.extWords ++ ws) = .ok (mk w ea, ws) := by
  rw [List.cons_append, List.cons_append, opWordEA, decode_opWord, hd, decodeEA_extWords hin]
  rfl

/-- A register in bits 2-0. -/
theorem decode_regY {mode : BitVec 3} {mk : RegNo → Instr} {n : RegNo}
    (hd : decodeFields line x op mode (regBits n) ws = .ok (mk (regOf (regBits n)), ws)) :
    decode ([opWord line x op mode (regBits n)] ++ ws) = .ok (mk n, ws) := by
  rw [List.singleton_append, decode_opWord, hd, regOf_regBits]

/-- Two registers. -/
theorem decode_registers {mode : BitVec 3} {mk : RegNo → RegNo → Instr} {m n : RegNo}
    (hd : decodeFields line (regBits m) op mode (regBits n) ws
      = .ok (mk (regOf (regBits m)) (regOf (regBits n)), ws)) :
    decode ([opWord line (regBits m) op mode (regBits n)] ++ ws) = .ok (mk m n, ws) := by
  rw [List.singleton_append, decode_opWord, hd, regOf_regBits, regOf_regBits]

/-- Two registers and a word of data. -/
theorem decode_registersWord {mode : BitVec 3} {mk : RegNo → RegNo → Word → Instr} {m n : RegNo} {d : Word}
    (hd : decodeFields line (regBits m) op mode (regBits n) (d :: ws)
      = .ok (mk (regOf (regBits m)) (regOf (regBits n)) d, ws)) :
    decode ([opWord line (regBits m) op mode (regBits n), d] ++ ws) = .ok (mk m n d, ws) := by
  rw [List.cons_append, List.singleton_append, decode_opWord, hd, regOf_regBits, regOf_regBits]

/-! ## Rows with tables and fields of their own -/

theorem decode_immediate {v : Imm} {i : Instr} (hi : immediateInstr x sz v ea = some i) (h : i.wellFormed = true) :
    decode (encodeImmediate x sz v ea ++ ws) = .ok (i, ws) := by
  obtain ⟨hx, hwf, -⟩ := immediateInstr_row hi
  obtain ⟨hv, hin⟩ := Bool.and_eq_true_iff.mp (hwf.symm.trans h)
  have hea : ¬((eaModeBits ea).toNat = 7 ∧ (eaRegBits ea).toNat = 4) :=
    fun he => eaBits_alterable hin ⟨he.1, by omega⟩
  rw [encodeImmediate, opWordEA, List.cons_append, List.append_assoc, decode_opWord]
  exact (decodeLine0_immediate hx hea).mpr
    ⟨sz, v, ea, _, rfl, takeImm_eq_ok.mpr ⟨hv, rfl⟩, decodeEA_extWords hin ws, hi⟩

theorem decode_move {src dst : EA} (h : (moveInstr sz src dst).wellFormed = true) :
    decode (encodeMove sz.moveLine src dst ++ ws) = .ok (moveInstr sz src dst, ws) := by
  rw [(moveInstr_row sz src dst).1] at h
  obtain ⟨hsrc, hdst⟩ := Bool.and_eq_true_iff.mp h
  rw [encodeMove, List.cons_append, List.append_assoc, decode_opWord, decodeFields_moveLine, decodeMove,
    if_neg (eaModeBits_ne_areg hdst rfl), decodeEA_extWords hsrc]
  dsimp only
  rw [decodeEA_extWords hdst]

theorem decode_movea {an : RegNo} {src : EA} {i : Instr} (hi : moveaInstr sz an src = some i)
    (h : i.wellFormed = true) : decode (encodeEA sz.moveLine (regBits an) 1 src ++ ws) = .ok (i, ws) := by
  rw [(moveaInstr_row hi).1] at h
  cases sz with
  | b => cases hi
  | w | l =>
    cases hi
    rw [decode_encodeEA_append, decodeFields_moveLine, decodeMove, if_pos (by rfl), decodeEA_extWords h, regOf_regBits]
    rfl

theorem decode_trap (v : BitVec 4) (ws : List Word) : decode (encode (.trap v) ++ ws) = .ok (.trap v, ws) := by
  obtain ⟨b, reg, rfl⟩ : ∃ (b : BitVec 1) (reg : BitVec 3), v = b ++ reg :=
    ⟨v.extractLsb' 3 1, v.extractLsb' 0 3, by revert v; decide⟩
  have hb : ∀ b : BitVec 1, b = 0 ∨ b = 1 := by decide
  rw [encode_trap, List.singleton_append, decode_opWord]
  rcases hb b with rfl | rfl <;> rfl

theorem decode_link (an : RegNo) (d : Word) : decode (encode (.link an d) ++ ws) = .ok (.link an d, ws) := by
  rw [encode, List.cons_append, List.singleton_append, decode_opWord]
  change Except.ok (Instr.link (regOf (regBits an)) d, ws) = _
  rw [regOf_regBits]

theorem decode_scc {cond : Cond} (h : ea.isIn Mode.isDataAlterable .b = true) :
    decode (encode (.scc cond ea) ++ ws) = .ok (.scc cond ea, ws) := by
  have hss : ∀ b : BitVec 1, ssOf (b ++ 3#2) = 3#2 := by decide
  rw [encode, decode_encodeEA_append]
  change decodeLine5 _ _ _ _ _ = _
  rw [decodeLine5, hss]
  change ite ((eaModeBits ea).toNat = 1) _ _ = _
  rw [if_neg (eaModeBits_ne_areg h rfl), decodeEA_extWords h, condField_halves, condOf_condBits]
  rfl

theorem decode_dbcc (cond : Cond) (dn : RegNo) (d : Word) :
    decode (encode (.dbcc cond dn d) ++ ws) = .ok (.dbcc cond dn d, ws) := by
  have hss : ∀ b : BitVec 1, ssOf (b ++ 3#2) = 3#2 := by decide
  rw [encode, List.cons_append, List.singleton_append, decode_opWord]
  change decodeLine5 _ _ _ _ _ = _
  rw [decodeLine5, hss]
  change Except.ok (Instr.dbcc (condOf _) (regOf (regBits dn)) d, ws) = _
  rw [condField_halves, condOf_condBits, regOf_regBits]

theorem branchInstr_of_isBranchCond {cond : Cond} (h : cond.isBranchCond = true) (d : Disp) :
    branchInstr cond d = .bcc cond d := by
  cases cond with
  | t | f => cases h
  | _ => rfl

theorem decode_branch (cond : Cond) {d : Disp} (h : d.isEncodable = true) :
    decode (encodeBranch cond d ++ ws) = .ok (branchInstr cond d, ws) := by
  cases d with
  | short b =>
    have hb : b ≠ 0 := by simpa [Disp.isEncodable] using h
    rw [encodeBranch, List.singleton_append, decode_opWord]
    change decodeLine6 _ _ _ _ _ = _
    rw [decodeLine6_eq, condField_halves, condOf_condBits, low8_parts, takeDisp, if_neg hb]
    rfl
  | word w =>
    rw [encodeBranch, List.cons_append, List.singleton_append, decode_opWord]
    change decodeLine6 _ _ _ _ _ = _
    rw [decodeLine6_eq, condField_halves, condOf_condBits, low8_parts, takeDisp, if_pos rfl]
    rfl

theorem decode_moveq (dn : RegNo) (v : Byte) : decode (encode (.moveq dn v) ++ ws) = .ok (.moveq dn v, ws) := by
  have hbit : ∀ ss : BitVec 2, bit8 (0#1 ++ ss) = false := by decide
  rw [encode, List.singleton_append, decode_opWord]
  change decodeLine7 _ _ _ _ _ = _
  rw [decodeLine7, hbit, if_neg Bool.false_ne_true, low8_parts, regOf_regBits]

theorem decode_shiftReg (tt : BitVec 2) (left : Bool) (c : ShiftCount) (sz : Size) (dy : RegNo) :
    decode (encodeShiftReg tt left c sz dy ++ ws) = .ok (shiftRegInstr tt left c sz dy, ws) := by
  have htt : ∀ (b : BitVec 1) (tt : BitVec 2), (b ++ tt).extractLsb' 0 2 = tt := by decide
  have himm : ∀ tt : BitVec 2, (0#1 ++ tt).getLsbD 2 = false := by decide
  have hreg : ∀ tt : BitVec 2, (1#1 ++ tt).getLsbD 2 = true := by decide
  cases c with
  | imm n =>
    rw [encodeShiftReg, List.singleton_append, decode_opWord]
    change decodeLineE _ _ _ _ _ = _
    rw [decodeLineE, ssOf_opBits, sizeOf_sizeBits, bit8_opBits, htt, himm, regOf_regBits]
    rfl
  | reg n =>
    rw [encodeShiftReg, List.singleton_append, decode_opWord]
    change decodeLineE _ _ _ _ _ = _
    rw [decodeLineE, ssOf_opBits, sizeOf_sizeBits, bit8_opBits, htt, hreg, regOf_regBits, regOf_regBits]
    rfl

theorem decode_shiftMem (tt : BitVec 2) (left : Bool) (h : (shiftMemInstr tt left ea).wellFormed = true) :
    decode (encodeShiftMem tt left ea ++ ws) = .ok (shiftMemInstr tt left ea, ws) := by
  rw [(shiftMemInstr_row tt left ea).1] at h
  have htt : ∀ tt : BitVec 2, (0#1 ++ tt).extractLsb' 0 2 = tt := by decide
  have hx : ∀ tt : BitVec 2, (0#1 ++ tt).getLsbD 2 = false := by decide
  rw [encodeShiftMem, decode_encodeEA_append]
  change decodeLineE _ _ _ _ _ = _
  rw [decodeLineE, ssOf_opBits, bit8_opBits]
  change ite ((0#1 ++ tt).getLsbD 2 = true) _ _ = _
  rw [hx, if_neg Bool.false_ne_true, decodeEA_extWords h, htt]
  rfl

theorem decode_lineA (w : BitVec 12) : decode (encode (.lineA w) ++ ws) = .ok (.lineA w, ws) := by
  rw [encode, List.singleton_append, decode_opWord]
  change Except.ok (Instr.lineA _, ws) = _
  rw [low12_parts]

theorem decode_lineF (w : BitVec 12) : decode (encode (.lineF w) ++ ws) = .ok (.lineF w, ws) := by
  rw [encode, List.singleton_append, decode_opWord]
  change Except.ok (Instr.lineF _, ws) = _
  rw [low12_parts]

end

/-! ## The obligation -/

/-- Settles O1, by the shape of the instruction's row. -/
theorem decodeEncode : Obligations.DecodeEncode := by
  intro i ws h
  cases i with
  -- the words of one value
  | oriToCcr | oriToSr | andiToCcr | andiToSr | eoriToCcr | eoriToSr | illegal4AFC | illegal4AFA | illegal4AFB | reset
  | nop | stop | rte | rts | trapv | rtr => rfl
  -- fields and tables of their own
  | ori | andi | subi | addi | eori | cmpi => exact decode_immediate rfl h
  | moveB => exact decode_move (sz := .b) h
  | moveL => exact decode_move (sz := .l) h
  | moveW => exact decode_move (sz := .w) h
  | moveaL => exact decode_movea (sz := .l) rfl h
  | moveaW => exact decode_movea (sz := .w) rfl h
  | trap v => exact decode_trap v ws
  | link an d => exact decode_link an d
  | scc => exact decode_scc h
  | dbcc cond dn d => exact decode_dbcc cond dn d
  | bra => exact decode_branch .t h
  | bsr => exact decode_branch .f h
  | bcc cond d =>
    obtain ⟨hcond, hd⟩ := Bool.and_eq_true_iff.mp h
    rw [← branchInstr_of_isBranchCond hcond d, (branchInstr_row cond d).2]
    exact decode_branch cond hd
  | moveq dn v => exact decode_moveq dn v
  | lineA w => exact decode_lineA w
  | lineF w => exact decode_lineF w
  | aslReg c sz dy => exact decode_shiftReg 0 true c sz dy
  | asrReg c sz dy => exact decode_shiftReg 0 false c sz dy
  | lslReg c sz dy => exact decode_shiftReg 1 true c sz dy
  | lsrReg c sz dy => exact decode_shiftReg 1 false c sz dy
  | roxlReg c sz dy => exact decode_shiftReg 2 true c sz dy
  | roxrReg c sz dy => exact decode_shiftReg 2 false c sz dy
  | rolReg c sz dy => exact decode_shiftReg 3 true c sz dy
  | rorReg c sz dy => exact decode_shiftReg 3 false c sz dy
  | aslMem => exact decode_shiftMem 0 true h
  | asrMem => exact decode_shiftMem 0 false h
  | lslMem => exact decode_shiftMem 1 true h
  | lsrMem => exact decode_shiftMem 1 false h
  | roxlMem => exact decode_shiftMem 2 true h
  | roxrMem => exact decode_shiftMem 2 false h
  | rolMem => exact decode_shiftMem 3 true h
  | rorMem => exact decode_shiftMem 3 false h
  -- registers alone
  | swap | extW | extL | unlk | moveToUsp | moveFromUsp => exact decode_regY rfl
  | sbcdReg | sbcdMem | abcdReg | abcdMem | exgDD | exgAA | exgDA => exact decode_registers rfl
  | subxReg sz | subxMem sz | addxReg sz | addxMem sz | cmpm sz => cases sz <;> exact decode_registers rfl
  | movepWToReg | movepLToReg | movepWToMem | movepLToMem => exact decode_registersWord rfl
  -- an effective address
  | moveFromSr | moveToCcr | moveToSr | nbcd | jsr | jmp => exact decode_ea h rfl
  | negx sz | clr sz | neg sz | notOp sz | tst sz => cases sz <;> exact decode_ea h rfl
  | addq q sz | subq q sz => cases sz <;> exact decode_ea h rfl
  | pea => exact decode_ea h (if_neg (eaModeBits_ne_dreg h rfl))
  | tas => exact decode_ea h (decodeMisc_tas (fun he => eaBits_alterable h ⟨he.1, he.2.1⟩) _)
  -- a word of data and an effective address
  | btstImm | bchgImm | bclrImm | bsetImm => exact decode_wordEA h rfl
  | movemToMem sz => cases sz <;> exact decode_wordEA h (if_neg (eaModeBits_ne_dreg h rfl))
  | movemToRegs sz => cases sz <;> exact decode_wordEA h rfl
  -- a register and an effective address
  | chk | lea | divu | divs | mulu | muls | subaW | subaL | addaW | addaL | cmpaW | cmpaL => exact decode_fixed h rfl
  | orToReg sz | andToReg sz | subToReg sz | addToReg sz | cmp sz => cases sz <;> exact decode_fixed h rfl
  | btstReg | bchgReg | bclrReg | bsetReg => exact decode_fixed h (if_neg (eaModeBits_ne_areg h rfl))
  | orToMem =>
    exact decode_fixed h (decodeLine8_memory (eaModeBits_ne_dreg h rfl) (eaModeBits_ne_areg h rfl) ..)
  | subToMem =>
    exact decode_fixed h (decodeLine9_memory (eaModeBits_ne_dreg h rfl) (eaModeBits_ne_areg h rfl) ..)
  | addToMem =>
    exact decode_fixed h (decodeLineD_memory (eaModeBits_ne_dreg h rfl) (eaModeBits_ne_areg h rfl) ..)
  | andToMem =>
    exact decode_fixed h (decodeLineC_memory (eaModeBits_ne_dreg h rfl) (eaModeBits_ne_areg h rfl) ..)
  | eor => exact decode_fixed h (decodeLineB_eor (eaModeBits_ne_areg h rfl) ..)

end Sys2Proof
end

section
/-! LAWS AND CERTIFICATE. A step where nothing precedes the instruction (R407): the fetch of the operation word where
the bus serves, the words the decoder is given (log entry 33), and the illegal instruction exception (R166, R433). -/

namespace Sys2Proof.Machine

/-- The state once the operation word has been fetched (R141): the double-fault window has ended, T is sampled. -/
def State.afterFetch (u : State) : State :=
  { u with ir := u.peekWord u.fcProg u.pc, g0Active := false, tracePending := u.sr.t }

theorem fetchOperationWord_serves {u : State} (h : u.Ready) : Serves fetchOperationWord u () u.afterFetch := by
  have hread : Serves (memRead u.fcProg u.pc .w) u (u.peek u.fcProg u.pc .w) u := memRead_serves h.1 (.inr h.2)
  have hir : lowWord (u.peek u.fcProg u.pc .w) = u.peekWord u.fcProg u.pc := lowWord_ofWord _
  refine .get (hread.bind (Serves.to .modify ?_))
  rw [hir]
  rfl

/-- What stands at the program counter is what the decoder is given. -/
theorem fetchedWords_afterFetch {u : State} (h : u.Ready) (log : List BusCycle) :
    ({ u.afterFetch with bus := log } : State).fetchedWords = u.instructionWords := by
  have hready : ({ u.afterFetch with bus := log } : State).Ready := ⟨h.1.congr rfl rfl, h.2⟩
  rw [State.fetchedWords_serves hready]
  exact congrArg (u.peekWord u.fcProg u.pc :: ·) (State.streamWords_congr rfl rfl rfl ..)

/-- An instruction that the bus serves: the words at the program counter are decoded and run, and a trace follows. -/
theorem runInstruction_serves {u : State} (h : u.Ready) : ∃ log,
    runInstruction u = traceAfter (executeDecoded { u.afterFetch with bus := log }) := by
  obtain ⟨log, hlog⟩ := (fetchOperationWord_serves h).run
  exact ⟨log, by rw [runInstruction, hlog]⟩

/-- An illegal word is not executed: vector 4 with the word's own address, and no trace pending (R433, R437). -/
theorem execIllegalWord_took {s : State} (h : s.BusServes) (he : EvenAddr s.ssp) :
    ∃ t, execIllegalWord s = .next t ∧ TookException { s with tracePending := false } t 4 s.pc false := by
  have hbus : ({ s.after 1 with tracePending := false } : State).BusServes := h.congr rfl rfl
  obtain ⟨t, htake, htook⟩ := takeException_internal hbus he .group1 4 s.pc
  refine ⟨t, ?_, htook⟩
  rw [execIllegalWord, runInstr_notExecuted (body := pure (.notExecuted 4)) (t := s.after 1) rfl, htake]
  rfl

theorem traceAfter_untraced {t : State} (h : t.tracePending = false) : traceAfter (.next t) = .next t := by
  rw [traceAfter, h]
  rfl

/-- Settles O53: the words are those the decoder is given, and it rejects them. -/
theorem stepTrapsUndecodable : Obligations.StepTrapsUndecodable := by
  intro s e u hreset hhalt hnormal hlevel hready hssp hdec
  obtain ⟨log, hrun⟩ := runInstruction_serves hready
  obtain ⟨t, ht, htook⟩ := execIllegalWord_took (s := { u.afterFetch with bus := log }) (hready.1.congr rfl rfl) hssp
  have hpending : t.tracePending = false := congrArg State.tracePending htook.2
  refine ⟨t, ?_, htook⟩
  rw [step_instruction hreset hhalt hnormal hlevel, hrun, executeDecoded, fetchedWords_afterFetch hready, hdec]
  exact (congrArg traceAfter ht).trans (traceAfter_untraced hpending)

end Sys2Proof.Machine
end

section
/-! LAWS AND CERTIFICATE. The rules that move one operand (R214, R215, R242, R259): MOVE from location to location, and
the three that write an address register whole. -/

namespace Sys2Proof.Machine

theorem writeA_serves (n : RegNo) (v : Long) (s : State) :
    Serves (modify fun u => u.writeA n v) s ⟨⟩ (s.writeA n v) := .modify fun l => State.writeA_with_bus s l n v

section
variable {s : State} (h : s.Ready)
include h

/-- The source of a rule whose effective address follows the operation word. -/
theorem readSource_serves {ea : EA} {sz : Size} (ha : (eaLoc ea sz (s.after 1)).Accessible sz) :
    let t := eaStep ea sz (s.after (1 + eaWords ea))
    Serves (readEA ea sz) (s.after 1) (t.operand (eaLoc ea sz (s.after 1)) sz) t := by
  have hread := readEA_serves (h.after 1) ha
  rwa [State.after_after] at hread

/-- MOVE where the bus serves: the flags are set before the write, which does not look at them. -/
theorem moveData_serves {sz : Size} {src dst : EA} (hsrc : (eaLoc src sz (s.after 1)).Accessible sz) :
    let t1 := eaStep src sz (s.after (1 + eaWords src))
    let v := t1.operand (eaLoc src sz (s.after 1)) sz
    let loc := eaLoc dst sz t1
    let t := eaStep dst sz (t1.after (eaWords dst))
    loc.Accessible sz →
      ServesStoring (moveData sz src dst) (s.after 1) () { t.putReg loc sz v with sr := s.sr.logic sz v } loc sz v := by
  intro t1 v loc t hdst
  have ht1 : t1.Ready := (h.after _).eaStep src sz
  have ht : t.Ready := (ht1.after _).eaStep dst sz
  have hsr : t.sr = s.sr := (eaStep_sr ..).trans (eaStep_sr ..)
  have hwrite := (writeLoc_serves (s := { t with sr := t.sr.logic sz v }) (ht.1.congr rfl) hdst v).to
    (State.putReg_with_sr t (r := t.sr.logic sz v) rfl loc sz v)
  refine ServesStoring.to (.before (readSource_serves h hsrc)
    (.before (resolveEA_serves ht1 dst sz) (.before .modify hwrite))) ?_
  rw [hsr]

/-- MOVEA where the bus serves. -/
theorem moveAddress_serves {ea : EA} {sz : Size} (ha : (eaLoc ea sz (s.after 1)).Accessible sz) (an : RegNo) :
    let t := eaStep ea sz (s.after (1 + eaWords ea))
    let v := sz.sext (t.operand (eaLoc ea sz (s.after 1)) sz)
    Serves (moveAddress sz an ea) (s.after 1) () (t.writeA an v) :=
  (readSource_serves h ha).bind (writeA_serves an _ _)

/-- ADDA and SUBA where the bus serves. -/
theorem updateA_serves {ea : EA} {sz : Size} (ha : (eaLoc ea sz (s.after 1)).Accessible sz) (an : RegNo)
    (op : Long → Long → Long) :
    let t := eaStep ea sz (s.after (1 + eaWords ea))
    let v := sz.sext (t.operand (eaLoc ea sz (s.after 1)) sz)
    Serves (updateA sz an ea op) (s.after 1) () (t.writeA an (op (t.readA an) v)) :=
  (readSource_serves h ha).bind (.modify fun l => State.writeA_with_bus _ l an _)

end

/-- Settles O12: each size is one case of `moveData_serves`. -/
theorem moveResult : Obligations.MoveResult := by
  intro s sz src dst h t1 v loc t i hsrc hdst
  have hmove := (moveData_serves h hsrc hdst).runPlain
  cases sz with
  | b => exact hmove
  | w => exact hmove
  | l => exact hmove

/-- Settles O13: a word source reaches the register sign-extended (`Size.sext`), a long one as it is. -/
theorem addressResults : Obligations.AddressResults := by
  intro s an ea h
  refine ⟨fun ha => ?word, fun ha => ?long⟩
  case word =>
    exact ⟨(moveAddress_serves h ha an).runPlain, (updateA_serves h ha an (· + ·)).runPlain,
      (updateA_serves h ha an (· - ·)).runPlain⟩
  case long =>
    exact ⟨(moveAddress_serves h ha an).runPlain, (updateA_serves h ha an (· + ·)).runPlain,
      (updateA_serves h ha an (· - ·)).runPlain⟩

end Sys2Proof.Machine
end

section
/-! LAWS AND CERTIFICATE. The moves between registers (R211, R219, R221, R253), which read no memory and hold in every
state, and the words that stand for them (R154, R157, R162). -/

namespace Sys2Proof.Machine

/-- A rule that is one update of the state, in every state. -/
theorem runPlain_modify (f : State → State) (s : State) : runPlain (modify f) s = .next (f (s.after 1)) :=
  runPlain_ok (modify_run f _)

/-- The flags of a word result. -/
theorem logic_ofWord (sr : StatusReg) (w : Word) :
    sr.logic .w (ofWord w) = { sr with n := w.msb, z := w == 0, v := false, c := false } := by
  have hn : (ofWord w).getLsbD 15 = w.msb := by simp [ofWord, BitVec.msb_eq_getLsbD_last]
  have hz : (Size.w.trunc (ofWord w) == 0) = (w == 0) := by
    rw [← ofWord_eq, lowWord_ofWord, Bool.eq_iff_iff, beq_iff_eq, beq_iff_eq]
    exact ⟨fun h0 => by rw [← lowWord_ofWord w, h0]; rfl, fun h0 => by rw [h0]; rfl⟩
  rw [StatusReg.logic, StatusReg.setNZ, hz, Size.msb, hn]

theorem lowWord_sextByte (b : Byte) : lowWord (sextByte b) = b.signExtend 16 := by
  ext k hk
  simp only [lowWord, sextByte, BitVec.getElem_extractLsb']
  grind

theorem execExtW_run (dn : RegNo) (s : State) :
    let b : Word := (lowByte (s.readD dn)).signExtend 16
    execExtW dn s = .next { (s.after 1).writeD dn (highWord (s.readD dn) ++ b) with
      sr := { s.sr with n := b.msb, z := b == 0, v := false, c := false } } := by
  intro b
  have hr : Size.w.trunc (sextByte (lowByte (s.readD dn))) = ofWord b := by rw [← ofWord_eq, lowWord_sextByte]
  rw [execExtW, runPlain_modify]
  simp only [State.readD_after, State.after_sr, hr, logic_ofWord, Size.merge, lowWord_ofWord]

theorem encode_moveq (dn : RegNo) (v : Byte) :
    encode (.moveq dn v) = [0b0111#4 ++ BitVec.ofNat 3 dn.val ++ 0#1 ++ v] := by
  rw [encode, List.cons.injEq]
  refine ⟨?_, rfl⟩
  ext k hk
  simp only [opWord, regBits]
  grind

/-- The fields 8-6 and 5-3 of an EXG word are one field of six bits (R162). -/
theorem opWord_exchange (line : BitVec 4) (x op mode reg : BitVec 3) :
    opWord line x op mode reg = line ++ x ++ (op ++ mode) ++ reg := by
  ext k hk
  simp only [opWord]
  grind

/-- Settles O14: each rule is one update of the state, and but for EXT.W it is written as the statement writes it; the
words are their fields. -/
theorem registerMoves : Obligations.RegisterMoves := by
  intro s x y v t flags q w b l rx ry
  exact ⟨rfl, rfl, execExtW_run x s, rfl, rfl, rfl, rfl, encode_moveq x v, rfl, rfl, rfl,
    congrArg (fun w => [w]) (opWord_exchange 12 rx 5 0 ry), congrArg (fun w => [w]) (opWord_exchange 12 rx 5 1 ry),
    congrArg (fun w => [w]) (opWord_exchange 12 rx 6 1 ry)⟩

end Sys2Proof.Machine
end

section
/-! LAWS AND CERTIFICATE. Printed words and the instructions they stand for, by way of the round trip. -/

namespace Sys2Proof

/-- Words that encode a well-formed instruction decode to it. -/
theorem decode_of_encode {i : Instr} {ws : List Word} (he : encode i = ws) (hwf : i.wellFormed = true) :
    decode ws = .ok (i, []) := by
  have h := decodeEncode i [] hwf
  rwa [List.append_nil, he] at h

/-- Settles O3: each printed word sequence is the encoding of its instruction. -/
theorem knownWordsDecode : Obligations.KnownWordsDecode := by
  refine ⟨?_, ?_, ?_, ?_, ?_, ?_, ?_, ?_, ?_, ?_⟩ <;> exact decode_of_encode (by decide) rfl

end Sys2Proof
end

section
/-! LAWS AND CERTIFICATE. Addresses loaded and pushed (R212, R220) and stack frames (R213, R222). LEA is followed cycle
by cycle, since its statement names the cycles it makes. -/

namespace Sys2Proof.Machine

/-! ## The cycles that read words -/

/-- The cycle that reads a word of memory where the bus serves. -/
def State.wordRead (s : State) (fc : FuncCode) (a : Long) : BusCycle :=
  ⟨.read, fc, busAddr a, true, ⟨some (s.peekByte fc a), some (s.peekByte fc (a + 1))⟩, s.answer fc .read a⟩

theorem State.fetchCycles_succ (s : State) (k : Nat) (a : Long) :
    s.fetchCycles (k + 1) a = s.wordRead s.fcProg a :: s.fetchCycles k (a + 2) := rfl

theorem State.fetchCycles_with_pc_bus (s : State) (pc : Long) (l : List BusCycle) (k : Nat) (a : Long) :
    ({ s with pc := pc, bus := l } : State).fetchCycles k a = s.fetchCycles k a := by
  induction k generalizing a with
  | zero => rfl
  | succ k ih => rw [State.fetchCycles_succ, State.fetchCycles_succ, ih]; rfl

/-- A word read where the bus serves makes that one cycle. -/
theorem memReadWord_run {s : State} (h : s.BusServes) (fc : FuncCode) {a : Long} (he : EvenAddr a) :
    memRead fc a .w s = .ok (ofWord (s.peekWord fc a)) { s with bus := s.bus ++ [s.wordRead fc a] } := by
  have hlines : dataLines .read a true (some (s.peekWord fc a)) =
      ⟨some (s.peekByte fc a), some (s.peekByte fc (a + 1))⟩ := by
    rw [dataLines_word (kind := .read) nofun, State.peekWord, BitVec.extractLsb'_append_eq_left,
      BitVec.extractLsb'_append_eq_right]
  rw [memRead, bind_ok (checkAligned_ok (.inr he) s), bind_ok (busRead_run h .read fc a true)]
  simp only [State.logCycle, if_true, hlines]
  rfl

theorem fetchWord_run {s : State} (h : s.Ready) :
    fetchWord s = .ok (s.peekWord s.fcProg s.pc) { s.after 1 with bus := s.bus ++ [s.wordRead s.fcProg s.pc] } := by
  rw [fetchWord, get_bind_run, bind_ok (memReadWord_run h.1 s.fcProg h.2), modify_bind_run, lowWord_ofWord]
  rfl

/-- The words of an instruction are fetched by `State.fetchCycles`. -/
theorem fetchWords_run {s : State} (h : s.Ready) (k : Nat) :
    fetchWords k s = .ok () { s.after k with bus := s.bus ++ s.fetchCycles k s.pc } := by
  induction k generalizing s with
  | zero => rw [State.after_zero, State.fetchCycles, List.append_nil]; rfl
  | succ k ih =>
    let u : State := { s.after 1 with bus := s.bus ++ [s.wordRead s.fcProg s.pc] }
    have hu : u.Ready := (h.after 1).congr rfl rfl
    have hbus : u.bus ++ u.fetchCycles k u.pc = s.bus ++ s.fetchCycles (k + 1) s.pc := by
      rw [State.fetchCycles_succ, List.append_cons]
      exact congrArg (u.bus ++ ·) (State.fetchCycles_with_pc_bus s _ _ k _)
    calc fetchWords (k + 1) s
      _ = fetchWords k u := bind_ok (fetchWord_run h)
      _ = .ok () { u.after k with bus := u.bus ++ u.fetchCycles k u.pc } := ih hu
      _ = .ok () { (s.after 1).after k with bus := s.bus ++ s.fetchCycles (k + 1) s.pc } := by rw [hbus]; rfl
      _ = .ok () { s.after (k + 1) with bus := s.bus ++ s.fetchCycles (k + 1) s.pc } := by
        rw [State.after_after, Nat.add_comm]

/-! ## LEA and PEA -/

section
variable {s : State} (h : s.Ready) {ea : EA} (hc : ea.mode.isControl = true)
include h hc

/-- LEA makes no cycle but those that fetch its extension words. -/
theorem execLea_run (an : RegNo) : execLea an ea s = .next
    { (s.after (1 + eaWords ea)).writeA an (eaLoc ea .l (s.after 1)).address with
      bus := s.bus ++ s.fetchCycles (eaWords ea) (s.pc + 2) } := by
  have hresolve : resolveEA ea .l (s.after 1) = .ok (eaLoc ea .l (s.after 1))
      { s.after (1 + eaWords ea) with bus := s.bus ++ s.fetchCycles (eaWords ea) (s.pc + 2) } := by
    rw [resolveEA, get_bind_run, bind_ok (fetchWords_run (h.after 1) _), modify_bind_run, eaStep_of_control hc,
      State.after_after]
    exact congrArg (fun l => EStateM.Result.ok _ { s.after (1 + eaWords ea) with bus := s.bus ++ l })
      (State.fetchCycles_with_pc_bus s _ _ _ _)
  refine runPlain_ok ?_
  rw [bind_ok hresolve, modify_run, State.writeA_with_bus]

/-- PEA pushes the address it found before the stack pointer moved. -/
theorem execPea_yields (he : EvenAddr s.sp) : YieldsStoring (execPea ea s) ((s.after (1 + eaWords ea)).setSp (s.sp - 4))
    (.mem (s.sp - 4) s.fcData true) .l (eaLoc ea .l (s.after 1)).address := by
  have hresolve := resolveEA_serves (h.after 1) ea .l
  rw [eaStep_of_control hc, State.after_after] at hresolve
  exact (ServesStoring.before hresolve (push32_serves (h.after _).1 he _)).runPlain

end

/-- Settles O15: the address of each control mode is read off `eaLoc`; what LEA and PEA do with it is one argument. -/
theorem leaPea : Obligations.LeaPea := by
  intro s an ea h hea index addr fc words t
  have hc : ea.mode.isControl = true := mode_of_isIn hea
  have hlea := execLea_run h hc an
  have hpea := execPea_yields h hc
  cases ea with
  | ind | disp | index | absW | absL | pcDisp | pcIndex => exact ⟨fun u sz => ⟨rfl, rfl⟩, rfl, hlea, hpea⟩
  | _ => cases hc

/-! ## LINK and UNLK -/

section
variable {s : State} (h : s.Ready) (an : RegNo)
include h

theorem execLink_yields (d : Word) (he : EvenAddr s.sp) :
    let t := (s.after 2).setSp (s.sp - 4)
    let u := t.writeA an (s.sp - 4)
    YieldsStoring (execLink an d s) (u.setSp (u.sp + d.signExtend 32)) (.mem (s.sp - 4) s.fcData true) .l
      (t.readA an) := by
  intro t u
  have ht : t.BusServes := (h.after 2).1.setSp _
  have hsp : t.sp = s.sp - 4 := State.sp_setSp ..
  have hfc : t.fcData = s.fcData := State.fcData_setSp ..
  obtain ⟨m, hw, hstored⟩ := memWrite_serves ht (fc := s.fcData) (.inr (he.sub (k := 4) rfl)) true (t.readA an)
  refine ServesStoring.runPlain ⟨m, ?run, ?stored⟩
  case run =>
    refine (fetchWords_serves (h.after 1) 1).bind (Serves.bind (.modify fun l => State.setSp_with_bus _ l _) (.get ?_))
    rw [State.after_after]
    show Serves (memWrite t.fcData t.sp .l true (t.readA an) >>= _) t _ _
    rw [hsp, hfc]
    refine hw.bind (Serves.bind (.modify fun l => State.writeA_with_bus _ l an _)
      (.to (.modify fun l => State.setSp_with_bus _ l _) ?_))
    simp only [State.writeA_with_mem, State.setSp_with_mem, State.sp_with_mem, hsp]
    rfl
  case stored =>
    exact Stored.congr (loc := .mem (s.sp - 4) s.fcData true) hstored (by simp [u]) (by simp [u]) rfl (by simp [u])

theorem execUnlk_yields (he : EvenAddr (s.readA an)) : Yields (execUnlk an s)
    (((s.after 1).setSp (s.readA an + 4)).writeA an (s.peekLong s.fcData (s.readA an))) := by
  have hpop := pop32_serves (s := (s.after 1).setSp (s.readA an)) ((h.after 1).1.setSp _) (by rwa [State.sp_setSp])
  rw [State.sp_setSp, State.fcData_setSp, State.setSp_setSp,
    State.peekLong_congr (s := s) (t := (s.after 1).setSp (s.readA an)) (State.setSp_mem ..)
      (State.setSp_platform ..)] at hpop
  exact Serves.runPlain ((Serves.modify fun l => State.setSp_with_bus _ l _).bind
    (hpop.bind (writeA_serves an _ _)))

end

/-- Settles O16: LINK reads the register it pushes, and UNLK writes the one it pops, after the stack pointer has moved. -/
theorem linkUnlk : Obligations.LinkUnlk :=
  fun _ an h => ⟨fun d he => execLink_yields h an d he, fun he => execUnlk_yields h an he⟩

end Sys2Proof.Machine
end

section
/-! LAWS AND CERTIFICATE. Operands stored one after the other (R216, R217, R224): what a run of writes to slots that do
not meet leaves in memory, said once for MOVEM in both directions and for MOVEP. -/

namespace Sys2Proof.Machine

/-! ## Bytes apart -/

theorem State.mem_bytesAt_iff (s : State) (fc : FuncCode) (a : Long) (sz : Size) (n : Nat) :
    n ∈ s.bytesAt fc a sz ↔ ∃ i < sz.bits / 8, n = s.location fc (a + BitVec.ofNat 32 i) := by
  have hbytes : s.bytesAt fc a sz = (List.range (sz.bits / 8)).map fun i => s.location fc (a + BitVec.ofNat 32 i) := by
    cases sz <;> simp [State.bytesAt, Size.bits, List.range_succ]
  simp only [hbytes, List.mem_map, List.mem_range, eq_comm]

/-- Two operands whose addresses differ by at least the size of the first, and by less than the address space, have no
byte in common. -/
theorem State.bytesAt_disjoint {s : State} (hm : s.platform.map = []) (fc : FuncCode) (a : Long) (sz : Size) {d : Nat}
    (h : sz.bits / 8 ≤ d) (hd : d + 4 ≤ Config.spaceSize) :
    List.Disjoint (s.bytesAt fc a sz) (s.bytesAt fc (a + BitVec.ofNat 32 d) sz) := by
  have hsz : sz.bits / 8 ≤ 4 := by cases sz <;> decide
  have hspace : Config.spaceSize = 16777216 := rfl
  intro n hn hn'
  obtain ⟨i, hi, rfl⟩ := (s.mem_bytesAt_iff fc a sz n).mp hn
  obtain ⟨j, hj, he⟩ := (s.mem_bytesAt_iff fc _ sz _).mp hn'
  rw [BitVec.add_assoc, ← BitVec.ofNat_add] at he
  exact State.location_add_ne hm fc a (by omega) (by omega) (by omega) he

/-- An operand is its bytes: what does not change them does not change it. -/
theorem State.peek_of_bytes {s : State} {m m' : Memory} {fc : FuncCode} {a : Long} {sz : Size}
    (h : ∀ n ∈ s.bytesAt fc a sz, Memory.read m n = Memory.read m' n) :
    ({ s with mem := m } : State).peek fc a sz = ({ s with mem := m' } : State).peek fc a sz := by
  have e3 : a + 2 + 1 = a + 3 := BitVec.add_assoc a 2 1
  have hbyte (b : Long) (x : Memory) : ({ s with mem := x } : State).peekByte fc b = Memory.read x (s.location fc b) :=
    rfl
  cases sz <;> simp only [State.bytesAt, List.forall_mem_cons] at h
    <;> simp only [State.peek, State.peekLong, State.peekWord, hbyte, e3, h]

/-! ## Slots -/

/-- Memory `m` is memory of `s` but for `count` operands, the `j`th of which reads as `val j` at `slot j`. -/
def StoredSlots (s : State) (m : Memory) (fc : FuncCode) (sz : Size) (count : Nat) (slot val : Nat → Long) : Prop :=
  (∀ j < count, ({ s with mem := m } : State).peek fc (slot j) sz = sz.trunc (val j))
    ∧ ∀ n, (∀ j < count, n ∉ s.bytesAt fc (slot j) sz) → Memory.read m n = Memory.read s.mem n

theorem StoredSlots.zero (s : State) (fc : FuncCode) (sz : Size) (slot val : Nat → Long) :
    StoredSlots s s.mem fc sz 0 slot val := ⟨fun _ => nofun, fun _ _ => rfl⟩

/-- The first operand stored, then the others, none of which meets it. -/
theorem StoredSlots.succ {s : State} {m₁ m : Memory} {fc : FuncCode} {sz : Size} {count : Nat} {slot val : Nat → Long}
    (h₁ : StoredAt s { s with mem := m₁ } fc (slot 0) sz (val 0))
    (h : StoredSlots { s with mem := m₁ } m fc sz count (fun j => slot (j + 1)) fun j => val (j + 1))
    (hd : ∀ j < count, List.Disjoint (s.bytesAt fc (slot 0) sz) (s.bytesAt fc (slot (j + 1)) sz)) :
    StoredSlots s m fc sz (count + 1) slot val := by
  obtain ⟨hvals, hframe⟩ := h
  refine ⟨fun j hj => ?_, fun n hn => ?_⟩
  · cases j with
    | zero =>
      exact (State.peek_of_bytes fun n hn => hframe n fun j hj hn' => hd j hj hn hn').trans h₁.1
    | succ j => exact hvals j (by omega)
  · exact (hframe n fun j hj => hn (j + 1) (by omega)).trans (h₁.2 n (hn 0 (by omega)))

/-! ## Slots side by side -/

theorem Size.bytes_mul (sz : Size) (j : Nat) : sz.bytes * BitVec.ofNat 32 j = BitVec.ofNat 32 (sz.bits / 8 * j) := by
  have hbytes : sz.bytes = BitVec.ofNat 32 (sz.bits / 8) := by cases sz <;> rfl
  rw [hbytes, BitVec.ofNat_mul]

/-- Operands side by side, no more than a register list has, do not meet. -/
theorem State.adjacent_disjoint {s : State} (hm : s.platform.map = []) (fc : FuncCode) (a : Long) (sz : Size) {j : Nat}
    (hj : j < 16) : List.Disjoint (s.bytesAt fc a sz) (s.bytesAt fc (a + sz.bytes * BitVec.ofNat 32 (j + 1)) sz) := by
  have hsz : sz.bits / 8 ≤ 4 := by cases sz <;> decide
  rw [Size.bytes_mul]
  refine State.bytesAt_disjoint hm fc a sz (Nat.le_mul_of_pos_right _ j.succ_pos) ?_
  have hmul : sz.bits / 8 * (j + 1) ≤ 4 * 16 := Nat.mul_le_mul hsz hj
  have hspace : Config.spaceSize = 16777216 := rfl
  omega

theorem EvenAddr.add_bytes {a : Long} (h : EvenAddr a) (size : SizeWL) : EvenAddr (a + size.size.bytes) := by
  cases size with
  | w => exact h.add (k := 2) rfl
  | l => exact h.add (k := 4) rfl

theorem EvenAddr.sub_bytes {a : Long} (h : EvenAddr a) (size : SizeWL) : EvenAddr (a - size.size.bytes) := by
  cases size with
  | w => exact h.sub (k := 2) rfl
  | l => exact h.sub (k := 4) rfl

theorem slot_up_succ (a c : Long) (j : Nat) : a + c + c * BitVec.ofNat 32 j = a + c * BitVec.ofNat 32 (j + 1) := by
  rw [BitVec.ofNat_add, BitVec.mul_add, BitVec.mul_one]; ring

theorem slot_down_succ (a c : Long) (j : Nat) :
    a - c - c * BitVec.ofNat 32 j = a - c * BitVec.ofNat 32 (j + 1) := by
  rw [BitVec.ofNat_add, BitVec.mul_add, BitVec.mul_one]; ring

/-! ## Register lists -/

/-- Where the `j`th of the registers stored at ascending addresses stands (R217). -/
def slotUp (a : Long) (sz : Size) (j : Nat) : Long := a + sz.bytes * BitVec.ofNat 32 j

/-- Where the `j`th of the registers stored at descending addresses stands (R217). -/
def slotDown (a : Long) (sz : Size) (j : Nat) : Long := a - sz.bytes * BitVec.ofNat 32 (j + 1)

/-- The value stored for the `j`th of a list of registers. -/
def State.listed (s : State) (ks : List (Fin 16)) (j : Nat) : Long := s.readR (ks.getD j 0)

theorem storeUp_serves {s : State} (h : s.BusServes) (size : SizeWL) {ks : List (Fin 16)} (hk : ks.length ≤ 16)
    {a : Long} (ha : ks = [] ∨ EvenAddr a) :
    ∃ m, Serves (storeUp size.size ks a) s () { s with mem := m }
      ∧ StoredSlots s m s.fcData size.size ks.length (slotUp a size.size) (s.listed ks) := by
  induction ks generalizing s a with
  | nil => exact ⟨s.mem, .pure _ _, .zero ..⟩
  | cons k ks ih =>
    have he : EvenAddr a := ha.resolve_left nofun
    have hzero : slotUp a size.size 0 = a := by simp [slotUp]
    have hsucc : (fun j => slotUp a size.size (j + 1)) = slotUp (a + size.size.bytes) size.size :=
      funext fun j => (slot_up_succ a _ j).symm
    obtain ⟨m₁, hw, hstored⟩ := memWrite_serves h (fc := s.fcData) (.inr he) false (s.readR k)
    obtain ⟨m, hrest, hslots⟩ := ih (s := { s with mem := m₁ }) (h.congr rfl) (Nat.le_of_succ_le hk)
      (.inr (he.add_bytes size))
    refine ⟨m, .get (hw.bind hrest), .succ (hzero.symm ▸ hstored) (hsucc ▸ hslots) fun j hj => ?_⟩
    rw [hzero]
    exact State.adjacent_disjoint h.map _ a _ (by simp at hk; omega)

theorem storeDown_serves {s : State} (h : s.BusServes) (size : SizeWL) {ks : List (Fin 16)} (hk : ks.length ≤ 16)
    {a : Long} (ha : ks = [] ∨ EvenAddr a) :
    ∃ m, Serves (storeDown size.size ks a) s (a - size.size.bytes * BitVec.ofNat 32 ks.length) { s with mem := m }
      ∧ StoredSlots s m s.fcData size.size ks.length (slotDown a size.size) (s.listed ks) := by
  induction ks generalizing s a with
  | nil =>
    have hend : a - size.size.bytes * BitVec.ofNat 32 0 = a := by simp
    exact ⟨s.mem, by rw [List.length_nil, hend]; exact .pure a s, .zero ..⟩
  | cons k ks ih =>
    have he : EvenAddr (a - size.size.bytes) := (ha.resolve_left nofun).sub_bytes size
    have hzero : slotDown a size.size 0 = a - size.size.bytes := by simp [slotDown]
    have hsucc : (fun j => slotDown a size.size (j + 1)) = slotDown (a - size.size.bytes) size.size :=
      funext fun j => (slot_down_succ a _ (j + 1)).symm
    have hback (j : Nat) : slotDown a size.size 0 =
        slotDown a size.size (j + 1) + size.size.bytes * BitVec.ofNat 32 (j + 1) := by
      rw [hzero, slotDown, ← slot_down_succ, BitVec.sub_add_cancel]
    obtain ⟨m₁, hw, hstored⟩ := memWrite_serves h (fc := s.fcData) (.inr he) true (s.readR k)
    obtain ⟨m, hrest, hslots⟩ := ih (s := { s with mem := m₁ }) (h.congr rfl) (Nat.le_of_succ_le hk) (.inr he)
    rw [slot_down_succ] at hrest
    refine ⟨m, .get (hw.bind hrest), .succ (hzero.symm ▸ hstored) (hsucc ▸ hslots) fun j hj => ?_⟩
    rw [hback j]
    exact (State.adjacent_disjoint h.map _ _ _ (by simp at hk; omega)).symm

theorem movemOrder_length_le (list : Word) (preDec : Bool) : (movemOrder list preDec).length ≤ 16 := by
  rw [movemOrder, List.length_map]
  exact List.length_filter_le ..

/-- What MOVEM stored, register by register of its list. -/
theorem StoredSlots.registers {s : State} {k : Nat} {m : Memory} {fc : FuncCode} {sz : Size} {ks : List (Fin 16)}
    {slot : Nat → Long} (h : StoredSlots (s.after k) m fc sz ks.length slot ((s.after k).listed ks)) :
    (∀ j (hj : j < ks.length), ({ s with mem := m } : State).peek fc (slot j) sz = sz.trunc (s.readR ks[j]))
      ∧ ∀ n, (∀ j < ks.length, n ∉ s.bytesAt fc (slot j) sz) → Memory.read m n = Memory.read s.mem n := by
  refine ⟨fun j hj => (h.1 j hj).trans ?_, h.2⟩
  rw [State.listed, List.getD_eq_getElem ks 0 hj, State.readR_after]

section
variable {s : State} (h : s.Ready) (size : SizeWL) (list : Word)
include h

/-- MOVEM to `-(An)`: the base register keeps its value until the list is stored (R217). -/
theorem execMovemToMem_down (n : RegNo) (ha : movemOrder list true = [] ∨ EvenAddr (s.readA n)) :
    ∃ m log, execMovemToMem size list (.preDec n) s = .next
        { (s.after 2).writeA n (s.readA n - size.size.bytes * BitVec.ofNat 32 (movemOrder list true).length) with
          mem := m, bus := log }
      ∧ StoredSlots (s.after 2) m s.fcData size.size (movemOrder list true).length (slotDown (s.readA n) size.size)
          ((s.after 2).listed (movemOrder list true)) := by
  obtain ⟨m, hstore, hslots⟩ := storeDown_serves (h.after 2).1 size (movemOrder_length_le list true) ha
  have hfetch := fetchWords_serves (h.after 1) 1
  rw [State.after_one_one] at hfetch
  have hbase := writeA_serves n (s.readA n - size.size.bytes * BitVec.ofNat 32 (movemOrder list true).length)
    { s.after 2 with mem := m }
  rw [State.writeA_with_mem] at hbase
  have hyields : Yields (execMovemToMem size list (.preDec n) s) _ :=
    Serves.runPlain (hfetch.bind (.get (hstore.bind hbase)))
  obtain ⟨log, hrun⟩ := hyields
  exact ⟨m, log, hrun, hslots⟩

/-- MOVEM to a control mode: the address is found first (R217). -/
theorem execMovemToMem_up {ea : EA} (hc : ea.mode.isControl = true)
    (hbody : execMovemToMem size list ea s = runPlain (do
        fetchWords 1
        let loc ← resolveEA ea size.size
        storeUp size.size (movemOrder list false) loc.address) s)
    (ha : movemOrder list false = [] ∨ EvenAddr (eaLoc ea size.size (s.after 2)).address) :
    ∃ m log, execMovemToMem size list ea s = .next { s.after (2 + eaWords ea) with mem := m, bus := log }
      ∧ StoredSlots (s.after (2 + eaWords ea)) m s.fcData size.size (movemOrder list false).length
          (slotUp (eaLoc ea size.size (s.after 2)).address size.size)
          ((s.after (2 + eaWords ea)).listed (movemOrder list false)) := by
  obtain ⟨m, hstore, hslots⟩ := storeUp_serves (h.after (2 + eaWords ea)).1 size (movemOrder_length_le list false) ha
  have hfetch := fetchWords_serves (h.after 1) 1
  have hresolve := resolveEA_serves (h.after 2) ea size.size
  rw [State.after_one_one] at hfetch
  rw [eaStep_of_control hc, State.after_after] at hresolve
  have hserves : Serves (fetchWords 1 >>= fun _ => resolveEA ea size.size >>= fun loc =>
      storeUp size.size (movemOrder list false) loc.address) (s.after 1) ()
      { s.after (2 + eaWords ea) with mem := m } := hfetch.bind (hresolve.bind hstore)
  obtain ⟨log, hrun⟩ := hserves.runPlain
  exact ⟨m, log, hbody.trans hrun, hslots⟩

end

/-- Settles O17: `-(An)` stores downwards (`execMovemToMem_down`), every other mode upwards (`execMovemToMem_up`). -/
theorem movemStore : Obligations.MovemStore := by
  intro s size list ea h hea sz down order t
  have hup := execMovemToMem_up h size list (ea := ea)
  cases ea with
  | preDec n =>
    refine ⟨s.readA n, rfl, fun ha => ?_⟩
    obtain ⟨m, log, hrun, hslots⟩ := execMovemToMem_down h size list n ha
    exact ⟨m, log, hrun, hslots.registers⟩
  | ind | disp | index | absW | absL =>
    refine ⟨_, rfl, fun ha => ?_⟩
    obtain ⟨m, log, hrun, hslots⟩ := hup rfl rfl ha
    exact ⟨m, log, hrun, hslots.registers⟩
  | _ => cases size <;> cases hea

end Sys2Proof.Machine
end

section
/-! LAWS AND CERTIFICATE. MOVEM memory to registers (R216, R218) and the word it reads after the list (R75). -/

namespace Sys2Proof.Machine

/-! ## States that differ in registers alone -/

/-- `t` is `s` but for data and address registers, and of the two stack pointers for the active one alone (R24). -/
structure State.RegistersFrom (s t : State) : Prop where
  frame : t = { s with d := t.d, a := t.a, usp := t.usp, ssp := t.ssp }
  otherSp : if s.sr.s then t.usp = s.usp else t.ssp = s.ssp

section
variable {s t : State} (h : s.RegistersFrom t)
include h

theorem State.RegistersFrom.with_bus (l : List BusCycle) :
    { t with bus := l } = { s with d := t.d, a := t.a, usp := t.usp, ssp := t.ssp, bus := l } :=
  congrArg (fun u : State => { u with bus := l }) h.frame

theorem State.RegistersFrom.sr : t.sr = s.sr := (congrArg State.sr h.frame).trans rfl

theorem State.RegistersFrom.mem : t.mem = s.mem := (congrArg State.mem h.frame).trans rfl

theorem State.RegistersFrom.busServes (hs : s.BusServes) : t.BusServes :=
  hs.congr ((congrArg State.platform h.frame).trans rfl) ((congrArg State.turns h.frame).trans rfl)

theorem State.RegistersFrom.peek (fc : FuncCode) (a : Long) (sz : Size) : t.peek fc a sz = s.peek fc a sz :=
  State.peek_congr h.mem ((congrArg State.platform h.frame).trans rfl) fc a sz

theorem State.RegistersFrom.wordRead (fc : FuncCode) (a : Long) : t.wordRead fc a = s.wordRead fc a := by
  rw [h.frame]; rfl

theorem State.RegistersFrom.trans {u : State} (h' : t.RegistersFrom u) : s.RegistersFrom u := by
  refine ⟨h'.frame.trans (by rw [h.frame]), ?_⟩
  have hsp := h.otherSp
  have hsp' := h'.otherSp
  rw [h.sr] at hsp'
  split
  next hs => rw [if_pos hs] at hsp hsp'; exact hsp'.trans hsp
  next hs => rw [if_neg hs] at hsp hsp'; exact hsp'.trans hsp

end

theorem State.RegistersFrom.refl (s : State) : s.RegistersFrom s := ⟨rfl, by split <;> rfl⟩

theorem State.writeA_registersFrom (s : State) (n : RegNo) (v : Long) : s.RegistersFrom (s.writeA n v) := by
  refine ⟨(s.writeA_eq n v).trans (by rw [State.writeA_d]), ?_⟩
  unfold State.writeA State.setSp
  split
  · split <;> rfl
  · split <;> rfl

theorem State.writeR_registersFrom (s : State) (k : Fin 16) (v : Long) : s.RegistersFrom (s.writeR k v) := by
  unfold State.writeR
  split
  · exact ⟨rfl, by split <;> rfl⟩
  · exact s.writeA_registersFrom _ v

/-! ## The sixteen registers of a list -/

theorem State.readR_writeR_same (s : State) (k : Fin 16) (v : Long) : (s.writeR k v).readR k = v := by
  unfold State.readR State.writeR
  split <;> simp

theorem State.readR_writeR_other (s : State) {k k' : Fin 16} (v : Long) (h : k' ≠ k) :
    (s.writeR k v).readR k' = s.readR k' := by
  have hval : k'.val ≠ k.val := fun e => h (Fin.ext e)
  unfold State.readR State.writeR
  split <;> split
  · exact s.readD_writeD_other v fun e => hval (Fin.mk.inj e).symm
  · exact State.readD_writeA ..
  · exact State.readA_writeD ..
  · exact s.readA_writeA_other v fun e => by have := Fin.mk.inj e; omega

theorem State.readR_writeA_other (s : State) {k : Fin 16} {n : RegNo} (v : Long) (h : k.val ≠ 8 + n.val) :
    (s.writeA n v).readR k = s.readR k := by
  unfold State.readR
  split
  · exact State.readD_writeA ..
  · exact s.readA_writeA_other v fun e => by have := congrArg Fin.val e; simp at this; omega

theorem State.writeR_with_bus (s : State) (l : List BusCycle) (k : Fin 16) (v : Long) :
    ({ s with bus := l } : State).writeR k v = { s.writeR k v with bus := l } := by
  unfold State.writeR
  split
  · rfl
  · exact State.writeA_with_bus ..

theorem movemOrder_nodup (list : Word) (preDec : Bool) : (movemOrder list preDec).Nodup := by
  have hbits : maskBits.Nodup := by decide
  refine (hbits.filter _).map fun i j hij => ?_
  cases preDec with
  | false => exact hij
  | true => exact Fin.rev_injective hij

/-! ## The list loaded -/

theorem EvenAddr.add_bytes_mul {a : Long} (h : EvenAddr a) (size : SizeWL) (n : Nat) :
    EvenAddr (a + size.size.bytes * BitVec.ofNat 32 n) := by
  have heven : 2 ∣ size.size.bits / 8 := by cases size <;> decide
  rw [Size.bytes_mul]
  exact h.add (Nat.mod_eq_zero_of_dvd (heven.mul_right n))

/-- `t` is `s` with the listed registers loaded: the `j`th of them with `val j`. -/
structure State.Loaded (s t : State) (ks : List (Fin 16)) (val : Nat → Long) : Prop where
  frame : s.RegistersFrom t
  listed : ∀ j (hj : j < ks.length), t.readR ks[j] = val j
  others : ∀ k, k ∉ ks → t.readR k = s.readR k

theorem loadUp_serves {s : State} (h : s.BusServes) (fc : FuncCode) (size : SizeWL) {ks : List (Fin 16)}
    (hks : ks.Nodup) {a : Long} (he : EvenAddr a) :
    ∃ t, Serves (loadUp fc size.size ks a) s (a + size.size.bytes * BitVec.ofNat 32 ks.length) t
      ∧ s.Loaded t ks fun j => size.size.sext (s.peek fc (slotUp a size.size j) size.size) := by
  induction ks generalizing s a with
  | nil =>
    have hend : a + size.size.bytes * BitVec.ofNat 32 0 = a := by simp
    exact ⟨s, by rw [List.length_nil, hend]; exact .pure a s, .refl s, fun _ => nofun, fun _ _ => rfl⟩
  | cons k ks ih =>
    obtain ⟨hk, hks⟩ := List.nodup_cons.mp hks
    have hzero : slotUp a size.size 0 = a := by simp [slotUp]
    let v := size.size.sext (s.peek fc a size.size)
    have hframe := s.writeR_registersFrom k v
    obtain ⟨t, hrest, hload⟩ := ih (hframe.busServes h) hks (he.add_bytes size)
    rw [slot_up_succ] at hrest
    refine ⟨t, (memRead_serves h (.inr he)).bind (Serves.bind (.modify fun l => State.writeR_with_bus s l k v) hrest),
      hframe.trans hload.frame, fun j hj => ?listed, fun k' hk' => ?others⟩
    case listed =>
      cases j with
      | zero => rw [hzero]; exact (hload.others k hk).trans (s.readR_writeR_same k v)
      | succ j =>
        refine (hload.listed j (Nat.lt_of_succ_lt_succ hj)).trans ?_
        rw [hframe.peek, slotUp, slot_up_succ, slotUp]
    case others =>
      rw [List.mem_cons, not_or] at hk'
      exact (hload.others k' hk'.2).trans (s.readR_writeR_other v hk'.1)

/-! ## The end of the list -/

/-- The state after the list: `(An)+` leaves its register at the address after the last operand, listed or not
(R218). -/
def afterList (ea : EA) (e : Long) (u : State) : State :=
  match ea with
  | .postInc n => u.writeA n e
  | _ => u

theorem afterList_registersFrom (ea : EA) (e : Long) (u : State) : u.RegistersFrom (afterList ea e u) := by
  cases ea with
  | postInc n => exact u.writeA_registersFrom n e
  | _ => exact .refl u

theorem readA_afterList {ea : EA} {n : RegNo} (h : ea = .postInc n) (e : Long) (u : State) :
    (afterList ea e u).readA n = e := by
  subst h
  exact State.readA_writeA_same u n e

theorem readR_afterList {ea : EA} {k : Fin 16} (h : ∀ n, ea = .postInc n → k.val ≠ 8 + n.val) (e : Long) (u : State) :
    (afterList ea e u).readR k = u.readR k := by
  cases ea with
  | postInc n => exact u.readR_writeA_other e (h n rfl)
  | _ => rfl

/-- MOVEM memory to registers: the list, the word after it, the base register of `(An)+`. -/
theorem execMovemToRegs_run {s : State} (h : s.Ready) (size : SizeWL) (list : Word) {ea : EA} {base : Long}
    {fc : FuncCode} {lowFirst : Bool} (hloc : eaLoc ea size.size (s.after 2) = .mem base fc lowFirst)
    (he : EvenAddr base) :
    let order := movemOrder list false
    let e := base + size.size.bytes * BitVec.ofNat 32 order.length
    ∃ u log, execMovemToRegs size list ea s = .next { afterList ea e u with bus := log ++ [s.wordRead fc e] }
      ∧ (s.after (2 + eaWords ea)).Loaded u order fun j =>
          size.size.sext (s.peek fc (slotUp base size.size j) size.size) := by
  intro order e
  have ht : (s.after (2 + eaWords ea)).Ready := h.after _
  obtain ⟨u, hload, hloaded⟩ := loadUp_serves ht.1 fc size (movemOrder_nodup list false) he
  have hu : u.BusServes := hloaded.frame.busServes ht.1
  have hee : EvenAddr e := he.add_bytes_mul size _
  obtain ⟨l₁, hmask⟩ := (fetchWords_serves (h.after 1) 1).run
  rw [State.after_one_one] at hmask
  obtain ⟨l₂, hwords⟩ := fetchWords_serves (h.after 2) (eaWords ea) l₁
  rw [State.after_after] at hwords
  obtain ⟨l₃, hlist⟩ := hload l₂
  have hlast := memReadWord_run (s := { u with bus := l₃ }) (hu.congr rfl) fc hee
  refine ⟨u, l₃, runPlain_ok ?_, hloaded⟩
  rw [bind_ok hmask, get_bind_run, eaLoc_with_bus, bind_ok hwords, hloc]
  show (loadUp fc size.size order base >>= _) _ = _
  rw [bind_ok hlist, bind_ok hlast]
  have hcycle : State.wordRead { u with bus := l₃ } fc e = s.wordRead fc e := hloaded.frame.wordRead fc e
  rw [hcycle]
  cases ea with
  | postInc n => exact congrArg (EStateM.Result.ok ()) (State.writeA_with_bus u _ n e)
  | _ => rfl

/-- Settles O18: the registers loaded (`State.Loaded`) are those of the end but for the base of `(An)+`. -/
theorem movemLoad : Obligations.MovemLoad := by
  intro s size list ea h hea sz order
  obtain ⟨base, fc, hloc⟩ : ∃ base fc, eaLoc ea sz (s.after 2) = .mem base fc false := by
    cases ea with
    | ind | postInc | disp | index | absW | absL | pcDisp | pcIndex => exact ⟨_, _, rfl⟩
    | _ => cases size <;> cases hea
  refine ⟨base, fc, hloc, fun he => ?_⟩
  obtain ⟨u, log, hrun, hloaded⟩ := execMovemToRegs_run h size list hloc he
  have hframe := hloaded.frame.trans (afterList_registersFrom ea (base + sz.bytes * BitVec.ofNat 32 order.length) u)
  refine ⟨_, hrun, ?frame, hframe.otherSp, fun j hj hbase => ?listed, fun n hn => readA_afterList hn _ u,
    fun k hk hbase => ?others, List.getLast?_concat⟩
  case frame => exact hframe.with_bus _
  case listed => exact (readR_afterList hbase _ u).trans (hloaded.listed j hj)
  case others => exact (readR_afterList hbase _ u).trans (hloaded.others k hk)

end Sys2Proof.Machine
end

section
/-! LAWS AND CERTIFICATE. MOVEP (R223, R224): bytes at every second address, the high-order byte first. -/

namespace Sys2Proof.Machine

/-! ## Bytes put together -/

theorem ofByte_append_word (b₀ b₁ : Byte) :
    lowWord (((0 : Long) <<< 8 ||| ofByte b₀) <<< 8 ||| ofByte b₁) = b₀ ++ b₁ := by
  ext k hk
  simp only [lowWord, ofByte, BitVec.getElem_extractLsb']
  grind

theorem ofByte_append_long (b₀ b₁ b₂ b₃ : Byte) :
    ((((0 : Long) <<< 8 ||| ofByte b₀) <<< 8 ||| ofByte b₁) <<< 8 ||| ofByte b₂) <<< 8 ||| ofByte b₃
      = (b₀ ++ b₁) ++ (b₂ ++ b₃) := by
  ext k hk
  simp only [ofByte]
  grind

theorem lowByte_ofByte (b : Byte) : lowByte (ofByte b) = b := by
  ext k hk
  simp only [lowByte, ofByte, BitVec.getElem_extractLsb']
  grind

/-! ## Loading -/

/-- One byte loaded, then the others. -/
theorem peripheralLoad_succ_serves {s : State} (h : s.BusServes) {k : Nat} {a acc v : Long}
    (hrest : Serves (peripheralLoad k (a + 2) (acc <<< 8 ||| ofByte (s.peekByte s.fcData a))) s v s) :
    Serves (peripheralLoad (k + 1) a acc) s v s :=
  .get ((memRead_serves h (.inl rfl)).bind hrest)

/-- Where byte `k` of an operand of MOVEP stands (R223). -/
def peripheralSlot (a : Long) (k : Nat) : Long := a + BitVec.ofNat 32 (2 * k)

/-- Byte `k` of an operand of MOVEP in memory. -/
def State.peripheralByte (s : State) (a : Long) (k : Nat) : Byte := s.peekByte s.fcData (peripheralSlot a k)

section
variable {s : State} (h : s.BusServes) (a : Long)
include h

theorem peripheralLoad_word_serves : ∃ v, Serves (peripheralLoad 2 a 0) s v s
    ∧ lowWord v = s.peripheralByte a 0 ++ s.peripheralByte a 1 := by
  refine ⟨_, peripheralLoad_succ_serves h (peripheralLoad_succ_serves h (.pure _ s)), ?_⟩
  have h0 : s.peripheralByte a 0 = s.peekByte s.fcData a := congrArg (s.peekByte s.fcData) (BitVec.add_zero a)
  rw [ofByte_append_word, h0]
  rfl

theorem peripheralLoad_long_serves : Serves (peripheralLoad 4 a 0) s ((s.peripheralByte a 0 ++ s.peripheralByte a 1)
    ++ (s.peripheralByte a 2 ++ s.peripheralByte a 3)) s := by
  have h0 : s.peripheralByte a 0 = s.peekByte s.fcData a := congrArg (s.peekByte s.fcData) (BitVec.add_zero a)
  have h1 : s.peripheralByte a 1 = s.peekByte s.fcData (a + 2) := rfl
  have h2 : s.peripheralByte a 2 = s.peekByte s.fcData (a + 2 + 2) :=
    congrArg (s.peekByte s.fcData) (BitVec.add_assoc a 2 2).symm
  have h3 : s.peripheralByte a 3 = s.peekByte s.fcData (a + 2 + 2 + 2) := by
    rw [BitVec.add_assoc, BitVec.add_assoc]; rfl
  rw [h0, h1, h2, h3, ← ofByte_append_long]
  exact peripheralLoad_succ_serves h (peripheralLoad_succ_serves h (peripheralLoad_succ_serves h
    (peripheralLoad_succ_serves h (.pure _ s))))

end

/-! ## Storing -/

/-- Byte `k` of the `count` low-order bytes of a value, the high-order one first, with what stands above it. -/
def byteFromTop (v : Long) (count k : Nat) : Long := v >>> (8 * (count - 1 - k))

theorem peripheralSlot_zero (a : Long) : peripheralSlot a 0 = a := BitVec.add_zero a

theorem peripheralSlot_succ (a : Long) (k : Nat) : peripheralSlot a (k + 1) = peripheralSlot (a + 2) k := by
  rw [peripheralSlot, peripheralSlot, Nat.mul_succ, Nat.add_comm, BitVec.ofNat_add, BitVec.add_assoc]
  rfl

theorem byteFromTop_succ (v : Long) (count k : Nat) : byteFromTop v (count + 1) (k + 1) = byteFromTop v count k := by
  rw [byteFromTop, byteFromTop, Nat.add_sub_cancel, Nat.add_comm k, Nat.sub_add_eq]

theorem peripheralStore_serves {s : State} (h : s.BusServes) (v : Long) {count : Nat} (hc : count ≤ 4) (a : Long) :
    ∃ m, Serves (peripheralStore v count a) s () { s with mem := m }
      ∧ StoredSlots s m s.fcData .b count (peripheralSlot a) (byteFromTop v count) := by
  induction count generalizing s a with
  | zero => exact ⟨s.mem, .pure _ _, .zero ..⟩
  | succ count ih =>
    obtain ⟨m₁, hw, hstored⟩ := memWrite_serves h (fc := s.fcData) (a := a) (sz := .b) (.inl rfl) false
      (v >>> (8 * count))
    obtain ⟨m, hrest, hslots⟩ := ih (s := { s with mem := m₁ }) (h.congr rfl) (Nat.le_of_succ_le hc) (a + 2)
    refine ⟨m, .get (hw.bind hrest), .succ (m₁ := m₁) ?first ?rest fun k hk => ?apart⟩
    case first => rwa [peripheralSlot_zero]
    case rest => simp only [peripheralSlot_succ, byteFromTop_succ]; exact hslots
    case apart =>
      have hsize : Size.b.bits / 8 = 1 := rfl
      have hspace : Config.spaceSize = 16777216 := rfl
      rw [peripheralSlot_zero]
      exact State.bytesAt_disjoint h.map _ a .b (by omega) (by omega)

/-- What MOVEP stored, byte by byte. -/
theorem StoredSlots.bytes {s : State} {m : Memory} {fc : FuncCode} {count : Nat} {slot val : Nat → Long}
    (h : StoredSlots s m fc .b count slot val) :
    (∀ k < count, Memory.read m (s.location fc (slot k)) = (val k).setWidth 8)
      ∧ ∀ n, (∀ k < count, n ≠ s.location fc (slot k)) → Memory.read m n = Memory.read s.mem n := by
  obtain ⟨hvals, hframe⟩ := h
  refine ⟨fun k hk => ?_, fun n hn => hframe n fun k hk hmem => hn k hk (List.mem_singleton.mp hmem)⟩
  have hbyte : ofByte (Memory.read m (s.location fc (slot k))) = Size.b.trunc (val k) := hvals k hk
  rw [← lowByte_ofByte (Memory.read m _), hbyte, ← ofByte_eq, lowByte_ofByte]
  exact BitVec.eq_of_toNat_eq (by simp [lowByte])

/-! ## The four forms -/

section
variable {s : State} (h : s.Ready) (dx ay : RegNo) (d : Word)
include h

theorem peripheralAddress_serves :
    Serves (peripheralAddress ay d) (s.after 1) (s.readA ay + d.signExtend 32) (s.after 2) := by
  have hfetch := fetchWords_serves (h.after 1) 1
  rw [State.after_one_one] at hfetch
  exact hfetch.bind (.get (.pure _ _))

theorem execMovepWToReg_yields : Yields (execMovepWToReg dx ay d s) ((s.after 2).writeD dx (highWord (s.readD dx)
    ++ (s.peripheralByte (s.readA ay + d.signExtend 32) 0 ++ s.peripheralByte (s.readA ay + d.signExtend 32) 1))) := by
  obtain ⟨v, hload, hv⟩ := peripheralLoad_word_serves (h.after 2).1 (s.readA ay + d.signExtend 32)
  refine Serves.runPlain ((peripheralAddress_serves h ay d).bind (hload.bind (.to .modify ?_)))
  rw [Size.merge, hv]
  rfl

theorem execMovepLToReg_yields : Yields (execMovepLToReg dx ay d s) ((s.after 2).writeD dx
    ((s.peripheralByte (s.readA ay + d.signExtend 32) 0 ++ s.peripheralByte (s.readA ay + d.signExtend 32) 1)
      ++ (s.peripheralByte (s.readA ay + d.signExtend 32) 2 ++ s.peripheralByte (s.readA ay + d.signExtend 32) 3))) :=
  Serves.runPlain ((peripheralAddress_serves h ay d).bind
    ((peripheralLoad_long_serves (h.after 2).1 (s.readA ay + d.signExtend 32)).bind .modify))

/-- MOVEP from a register, of two bytes or of four. -/
theorem movepToMem_run {count : Nat} (hc : count ≤ 4) : ∃ m log,
    runPlain (peripheralAddress ay d >>= fun a => get >>= fun u => peripheralStore (u.readD dx) count a) s =
        .next { s.after 2 with mem := m, bus := log }
      ∧ StoredSlots (s.after 2) m s.fcData .b count (peripheralSlot (s.readA ay + d.signExtend 32))
          (byteFromTop (s.readD dx) count) := by
  obtain ⟨m, hstore, hslots⟩ := peripheralStore_serves (h.after 2).1 (s.readD dx) hc (s.readA ay + d.signExtend 32)
  have hyields : Yields (runPlain (peripheralAddress ay d >>= fun a => get >>= fun u =>
      peripheralStore (u.readD dx) count a) s) { s.after 2 with mem := m } :=
    Serves.runPlain ((peripheralAddress_serves h ay d).bind (.get hstore))
  obtain ⟨log, hrun⟩ := hyields
  exact ⟨m, log, hrun, hslots⟩

end

/-- Settles O19: the two loads, and the store of two bytes and of four. -/
theorem movepResult : Obligations.MovepResult := by
  intro s dx ay d h t a byte stored
  refine ⟨execMovepWToReg_yields h dx ay d, execMovepLToReg_yields h dx ay d, ?word, ?long⟩
  case word =>
    obtain ⟨m, log, hrun, hslots⟩ := movepToMem_run h dx ay d (count := 2) (by decide)
    exact ⟨m, log, hrun, hslots.bytes⟩
  case long =>
    obtain ⟨m, log, hrun, hslots⟩ := movepToMem_run h dx ay d (count := 4) (by decide)
    exact ⟨m, log, hrun, hslots.bytes⟩

end Sys2Proof.Machine
end

section
/-! LAWS AND CERTIFICATE. The rules that combine two operands, and the compares (R241 to R250, R256 to R262, R276, R280 to
R287). What an operation makes of its operands is one equation for each `Update`; where the result goes is one lemma for
each shape of Machine/Updates.lean, as the instruction's rule. An obligation puts the two together. -/

namespace Sys2Proof

theorem Size.trunc_of_lt {sz : Size} {v : Long} (h : v.toNat < 2 ^ sz.bits) : sz.trunc v = v :=
  BitVec.eq_of_toNat_eq ((sz.toNat_trunc v).trans (Nat.mod_eq_of_lt h))

theorem Size.trunc_trunc (sz : Size) (v : Long) : sz.trunc (sz.trunc v) = sz.trunc v :=
  Size.trunc_of_lt (sz.toNat_trunc v ▸ Nat.mod_lt _ (Nat.two_pow_pos _))

end Sys2Proof

namespace Sys2Proof.Machine

/-! ## What the operations make of two operands -/

/-- The flags of a result that fits its size: Z looks at the result itself. -/
theorem StatusReg.arith_of_lt {sz : Size} {u : Sum} (h : u.r.toNat < 2 ^ sz.bits) (sr : StatusReg) :
    sr.arith sz u = { sr with x := u.c, n := sz.msb u.r, z := u.r == 0, v := u.v, c := u.c } := by
  rw [StatusReg.arith, StatusReg.setNZ, Size.trunc_of_lt h]

theorem StatusReg.compare_of_lt {sz : Size} {u : Sum} (h : u.r.toNat < 2 ^ sz.bits) (sr : StatusReg) :
    sr.compare sz u = { sr with n := sz.msb u.r, z := u.r == 0, v := u.v, c := u.c } := by
  rw [StatusReg.compare, StatusReg.setNZ, Size.trunc_of_lt h]

/-- The sticky Z (R245): what it was, and the result is zero. -/
theorem StatusReg.arithX_of_lt {sz : Size} {u : Sum} (h : u.r.toNat < 2 ^ sz.bits) (sr : StatusReg) :
    sr.arithX sz u = { sr with x := u.c, n := sz.msb u.r, z := sr.z && u.r == 0, v := u.v, c := u.c } := by
  have hz : (if (u.r == 0) = true then sr.z else false) = (sr.z && u.r == 0) := by
    cases u.r == 0 <;> simp
  rw [StatusReg.arithX, Size.trunc_of_lt h, hz]

theorem addUpdate_eq (sz : Size) (src dst : Long) (sr : StatusReg) :
    let u := addc sz src dst false
    addUpdate sz src dst sr = (u.r, { sr with x := u.c, n := sz.msb u.r, z := u.r == 0, v := u.v, c := u.c }) :=
  Prod.ext rfl (StatusReg.arith_of_lt addc_r_lt sr)

theorem subUpdate_eq (sz : Size) (src dst : Long) (sr : StatusReg) :
    let u := subc sz src dst false
    subUpdate sz src dst sr = (u.r, { sr with x := u.c, n := sz.msb u.r, z := u.r == 0, v := u.v, c := u.c }) :=
  Prod.ext rfl (StatusReg.arith_of_lt subc_r_lt sr)

theorem addxUpdate_eq (sz : Size) (src dst : Long) (sr : StatusReg) :
    let u := addc sz src dst sr.x
    addxUpdate sz src dst sr = (u.r, { sr with x := u.c, n := sz.msb u.r, z := sr.z && u.r == 0, v := u.v, c := u.c }) :=
  Prod.ext rfl (StatusReg.arithX_of_lt addc_r_lt sr)

theorem subxUpdate_eq (sz : Size) (src dst : Long) (sr : StatusReg) :
    let u := subc sz src dst sr.x
    subxUpdate sz src dst sr = (u.r, { sr with x := u.c, n := sz.msb u.r, z := sr.z && u.r == 0, v := u.v, c := u.c }) :=
  Prod.ext rfl (StatusReg.arithX_of_lt subc_r_lt sr)

theorem logicUpdate_eq (sz : Size) (op : Long → Long → Long) (src dst : Long) (sr : StatusReg) :
    let r := op src dst
    logicUpdate sz op src dst sr = (r, { sr with n := sz.msb r, z := sz.trunc r == 0, v := false, c := false }) := rfl

/-- The complement as an update: it is cut to its size before the flags are taken. -/
def notUpdate (sz : Size) : Update := fun d sr => (sz.trunc (~~~d), sr.logic sz (sz.trunc (~~~d)))

theorem notUpdate_eq (sz : Size) (d : Long) (sr : StatusReg) :
    let c := sz.trunc (~~~d)
    notUpdate sz d sr = (c, { sr with n := sz.msb c, z := c == 0, v := false, c := false }) := by
  intro c
  rw [notUpdate, StatusReg.logic, StatusReg.setNZ, Size.trunc_trunc]

/-! ## Where the result goes -/

/-- Two data registers as an instruction's rule, in every state. -/
theorem updatePair_run {s : State} {sz : Size} {dx dy : RegNo} {f : Long → Update} {u : Long × StatusReg}
    (hu : f (sz.trunc (s.readD dy)) (sz.trunc (s.readD dx)) s.sr = u) :
    runPlain (updatePair sz dx dy f) s =
      .next { (s.after 1).writeD dx (sz.merge (s.readD dx) u.1) with sr := u.2 } := by
  subst hu
  rfl

/-- `-(An)` names the address its register is stepped to. -/
theorem eaLoc_preDec (n : RegNo) (sz : Size) (s : State) :
    eaLoc (.preDec n) sz s = .mem ((eaStep (.preDec n) sz s).readA n) s.fcData true := by
  rw [eaStep, State.readA_writeA_same, eaLoc]

section
variable {s : State} (h : s.Ready)
include h

/-- `op <ea>,Dn` as an instruction's rule. -/
theorem updateD_yields {sz : Size} {ea : EA} (ha : (eaLoc ea sz (s.after 1)).Accessible sz) (dn : RegNo)
    {f : Long → Update} {u : Long × StatusReg} :
    let t := eaStep ea sz (s.after (1 + eaWords ea))
    f (t.operand (eaLoc ea sz (s.after 1)) sz) (sz.trunc (s.readD dn)) s.sr = u →
      Yields (runPlain (updateD sz dn ea f) s) { t.writeD dn (sz.merge (s.readD dn) u.1) with sr := u.2 } := by
  intro t hu
  have hserves := updateD_serves (h.after 1) ha dn f
  rw [State.after_after, State.readD_after, State.after_sr] at hserves
  subst hu
  exact hserves.runPlain

/-- `op Dn,<ea>` as an instruction's rule. -/
theorem updateByD_yields {sz : Size} {ea : EA} (ha : (eaLoc ea sz (s.after 1)).Accessible sz) (dn : RegNo)
    {f : Long → Update} {u : Long × StatusReg} :
    let loc := eaLoc ea sz (s.after 1)
    let t := eaStep ea sz (s.after (1 + eaWords ea))
    f (sz.trunc (s.readD dn)) (t.operand loc sz) s.sr = u →
      YieldsStoring (runPlain (updateByD sz dn ea f) s) { t.putReg loc sz u.1 with sr := u.2 } loc sz u.1 := by
  intro loc t hu
  have hserves := updateByD_serves (h.after 1) ha dn f
  rw [State.after_after, State.readD_after, State.after_sr] at hserves
  subst hu
  exact hserves.runPlain

/-- `op <ea>` as an instruction's rule. -/
theorem updateEA_yields {sz : Size} {ea : EA} (ha : (eaLoc ea sz (s.after 1)).Accessible sz) {f : Update}
    {u : Long × StatusReg} :
    let loc := eaLoc ea sz (s.after 1)
    let t := eaStep ea sz (s.after (1 + eaWords ea))
    f (t.operand loc sz) s.sr = u →
      YieldsStoring (runPlain (updateEA ea sz f) s) { t.putReg loc sz u.1 with sr := u.2 } loc sz u.1 := by
  intro loc t hu
  have hserves := updateEA_serves (h.after 1) ha f
  rw [State.after_after, State.after_sr] at hserves
  subst hu
  exact hserves.runPlain

/-- ADDQ and SUBQ but on an address register are `op <ea>`. -/
theorem updateQuick_yields {q : BitVec 3} {sz : Size} {ea : EA} (hea : ∀ n, ea ≠ .areg n)
    (ha : (eaLoc ea sz (s.after 1)).Accessible sz) (op : Long → Long → Long) {f : Long → Update}
    {u : Long × StatusReg} :
    let loc := eaLoc ea sz (s.after 1)
    let t := eaStep ea sz (s.after (1 + eaWords ea))
    f (quickValue q) (t.operand loc sz) s.sr = u →
      YieldsStoring (runPlain (updateQuick q sz ea op f) s) { t.putReg loc sz u.1 with sr := u.2 } loc sz u.1 := by
  intro loc t hu
  have hquick : updateQuick q sz ea op f = updateEA ea sz (f (quickValue q)) := by
    cases ea with
    | areg n => exact absurd rfl (hea n)
    | _ => rfl
  rw [hquick]
  exact updateEA_yields h ha hu

/-- `op #imm,<ea>` as an instruction's rule. -/
theorem updateImm_yields {sz : Size} {v : Imm} {ea : EA}
    (ha : (eaLoc ea sz (s.after (1 + immWordCount v))).Accessible sz) {f : Long → Update} {u : Long × StatusReg} :
    let loc := eaLoc ea sz (s.after (1 + immWordCount v))
    let t := eaStep ea sz (s.after (1 + immWordCount v + eaWords ea))
    f (immValue v sz) (t.operand loc sz) s.sr = u →
      YieldsStoring (runPlain (updateImm sz v ea f) s) { t.putReg loc sz u.1 with sr := u.2 } loc sz u.1 := by
  intro loc t hu
  have ha' : (eaLoc ea sz ((s.after 1).after (immWordCount v))).Accessible sz := by rwa [State.after_after]
  have hserves := updateImm_serves (h.after 1) v ha' f
  rw [State.after_after, State.after_after, ← Nat.add_assoc, State.after_sr] at hserves
  subst hu
  exact hserves.runPlain

/-- `op -(Ay),-(Ax)` as an instruction's rule. -/
theorem updatePairMem_yields {sz : Size} {ax ay : RegNo} {f : Long → Update} {u : Long × StatusReg} :
    let t1 := eaStep (.preDec ay) sz (s.after 1)
    let t := eaStep (.preDec ax) sz t1
    Aligned sz (t1.readA ay) → Aligned sz (t.readA ax) →
    f (s.peek s.fcData (t1.readA ay) sz) (s.peek s.fcData (t.readA ax) sz) s.sr = u →
      YieldsStoring (runPlain (updatePairMem sz ax ay f) s) { t with sr := u.2 } (.mem (t.readA ax) s.fcData true) sz
        u.1 := by
  intro t1 t hy hx hu
  have hsrc : eaLoc (.preDec ay) sz (s.after 1) = .mem (t1.readA ay) s.fcData true := eaLoc_preDec ..
  have hdst : eaLoc (.preDec ax) sz t1 = .mem (t.readA ax) s.fcData true := by
    rw [eaLoc_preDec, State.fcData_eaStep, State.fcData_after]
  have hserves := updatePairMem_serves (h.after 1) (by rwa [hsrc]) (by rwa [hdst]) f
  have hvalues : f (t1.operand (eaLoc (.preDec ay) sz (s.after 1)) sz) (t.operand (eaLoc (.preDec ax) sz t1) sz) s.sr
      = u := by
    rw [← hu, hsrc, hdst, State.operand, State.operand, State.peek_eaStep, State.peek_eaStep, State.peek_eaStep,
      State.peek_after, State.peek_after]
  rw [← hdst]
  subst hvalues
  exact hserves.runPlain

end

/-! ## The compares -/

section
variable {s : State} (h : s.Ready)
include h

theorem execCmp_yields {sz : Size} {ea : EA} (ha : (eaLoc ea sz (s.after 1)).Accessible sz) (n : RegNo) :
    let t := eaStep ea sz (s.after (1 + eaWords ea))
    Yields (execCmp sz n ea s) { t with
      sr := s.sr.compare sz (subc sz (t.operand (eaLoc ea sz (s.after 1)) sz) (sz.trunc (s.readD n)) false) } := by
  intro t
  have hsr : t.sr = s.sr := eaStep_sr ..
  have hd : t.readD n = s.readD n := State.readD_eaStep ..
  rw [← hsr, ← hd]
  exact Serves.runPlain ((readSource_serves h ha).bind (.get .modify))

theorem execTst_yields {sz : Size} {ea : EA} (ha : (eaLoc ea sz (s.after 1)).Accessible sz) :
    let t := eaStep ea sz (s.after (1 + eaWords ea))
    Yields (execTst sz ea s) { t with sr := s.sr.logic sz (t.operand (eaLoc ea sz (s.after 1)) sz) } := by
  intro t
  have hsr : t.sr = s.sr := eaStep_sr ..
  rw [← hsr]
  exact Serves.runPlain ((readSource_serves h ha).bind .modify)

/-- CMPA in both sizes: the register is read after the source's own step. -/
theorem compareAddress_yields {sz : Size} {ea : EA} (ha : (eaLoc ea sz (s.after 1)).Accessible sz) (n : RegNo) :
    let t := eaStep ea sz (s.after (1 + eaWords ea))
    Yields (runPlain (compareAddress sz n ea) s) { t with
      sr := s.sr.compare .l (subc .l (sz.sext (t.operand (eaLoc ea sz (s.after 1)) sz)) (t.readA n) false) } := by
  intro t
  have hsr : t.sr = s.sr := eaStep_sr ..
  rw [← hsr]
  exact Serves.runPlain ((readSource_serves h ha).bind (.get .modify))

theorem execCmpi_yields {sz : Size} {v : Imm} {ea : EA}
    (ha : (eaLoc ea sz (s.after (1 + immWordCount v))).Accessible sz) :
    let loc := eaLoc ea sz (s.after (1 + immWordCount v))
    let t := eaStep ea sz (s.after (1 + immWordCount v + eaWords ea))
    Yields (execCmpi sz v ea s)
      { t with sr := s.sr.compare sz (subc sz (immValue v sz) (t.operand loc sz) false) } := by
  intro loc t
  have hsr : t.sr = s.sr := eaStep_sr ..
  have himm := readImm_serves (h.after 1) v sz
  have hread := readEA_serves (h.after (1 + immWordCount v)) ha
  rw [State.after_after] at himm hread
  rw [← hsr]
  exact Serves.runPlain (himm.bind (hread.bind .modify))

/-- `(An)+` read: the operand at the register as it was. -/
theorem readPostInc_serves {sz : Size} {n : RegNo} (ha : Aligned sz (s.readA n)) :
    Serves (readEA (.postInc n) sz) s (s.peek s.fcData (s.readA n) sz) (eaStep (.postInc n) sz s) := by
  have hread := readEA_serves h (ea := .postInc n) (sz := sz) ha
  have hv : (eaStep (.postInc n) sz s).operand (eaLoc (.postInc n) sz s) sz = s.peek s.fcData (s.readA n) sz :=
    State.peek_eaStep ..
  rwa [eaWords, State.after_zero, hv] at hread

/-- CMPM: the second address is the one that the first step leaves where both registers are the same. -/
theorem execCmpm_yields {sz : Size} {ax ay : RegNo} :
    let t1 := eaStep (.postInc ay) sz (s.after 1)
    let t := eaStep (.postInc ax) sz t1
    let u := subc sz (s.peek s.fcData (s.readA ay) sz) (s.peek s.fcData (t1.readA ax) sz) false
    Aligned sz (s.readA ay) → Aligned sz (t1.readA ax) →
      Yields (execCmpm sz ax ay s) { t with sr := s.sr.compare sz u } := by
  intro t1 t u hy hx
  have hsr : t.sr = s.sr := (eaStep_sr ..).trans (eaStep_sr ..)
  have hsrc := readPostInc_serves (h.after 1) hy
  have hdst := readPostInc_serves ((h.after 1).eaStep (.postInc ay) sz) hx
  rw [State.peek_eaStep, State.fcData_eaStep] at hdst
  rw [← hsr]
  exact Serves.runPlain (hsrc.bind (hdst.bind .modify))

end

/-! ## The obligations -/

/-- Settles O21: each operation is one `Update`. -/
theorem toRegister : Obligations.ToRegister := by
  intro s sz dn ea h loc t src dst put five logic ha
  have hadd := updateD_yields h ha dn (addUpdate_eq sz src dst s.sr)
  have hsub := updateD_yields h ha dn (subUpdate_eq sz src dst s.sr)
  have hand := updateD_yields h ha dn (logicUpdate_eq sz (· &&& ·) src dst s.sr)
  have hor := updateD_yields h ha dn (logicUpdate_eq sz (· ||| ·) src dst s.sr)
  simp only [BitVec.and_comm src, BitVec.or_comm src] at hand hor
  exact ⟨hadd, hsub, hand, hor⟩

/-- Settles O22: each operation is one `Update`. -/
theorem toDestination : Obligations.ToDestination := by
  intro s sz dn ea h loc t src dst yields five logic ha
  have hadd := updateByD_yields h ha dn (addUpdate_eq sz src dst s.sr)
  have hsub := updateByD_yields h ha dn (subUpdate_eq sz src dst s.sr)
  have hlogic (op : Long → Long → Long) := updateByD_yields h ha dn (logicUpdate_eq sz op src dst s.sr)
  exact ⟨hadd, hsub, hlogic (· &&& ·), hlogic (· ||| ·), hlogic (· ^^^ ·)⟩

/-- Settles O23: each operation is one `Update`; the statement writes `immValue` and `immWordCount` out. -/
theorem immediateResults : Obligations.ImmediateResults := by
  intro s sz v ea h _ src words loc t dst yields five logic ha
  have hwords : words = immWordCount v := by cases v <;> rfl
  have ha' : (eaLoc ea sz (s.after (1 + immWordCount v))).Accessible sz := by rwa [← hwords]
  have hadd := updateImm_yields h ha' (addUpdate_eq sz _ _ s.sr)
  have hsub := updateImm_yields h ha' (subUpdate_eq sz _ _ s.sr)
  have hlogic (op : Long → Long → Long) := updateImm_yields h ha' (logicUpdate_eq sz op _ _ s.sr)
  cases v with
  | word w => exact ⟨hadd, hsub, hlogic (· &&& ·), hlogic (· ||| ·), hlogic (· ^^^ ·)⟩
  | long l => exact ⟨hadd, hsub, hlogic (· &&& ·), hlogic (· ||| ·), hlogic (· ^^^ ·)⟩

/-- Settles O24: the destination is an address register, or the rule is that of `op <ea>`. -/
theorem quickResults : Obligations.QuickResults := by
  intro s q sz ea h k loc t dst five
  refine ⟨?address, fun hea ha => ?other⟩
  case address =>
    rintro n rfl
    exact ⟨rfl, rfl⟩
  case other =>
    have hadd := updateQuick_yields h hea ha (· + ·) (addUpdate_eq sz k dst s.sr)
    have hsub := updateQuick_yields h hea ha (· - ·) (subUpdate_eq sz k dst s.sr)
    exact ⟨hadd, hsub⟩

/-- Settles O25: the rule is one update of the state. -/
theorem extendedRegister : Obligations.ExtendedRegister := by
  intro s sz dx dy src dst put
  have hadd := updatePair_run (dx := dx) (dy := dy) (addxUpdate_eq sz src dst s.sr)
  have hsub := updatePair_run (dx := dx) (dy := dy) (subxUpdate_eq sz src dst s.sr)
  exact ⟨hadd, hsub⟩

/-- Settles O26: the two addresses are the registers' as they are stepped. -/
theorem extendedMemory : Obligations.ExtendedMemory := by
  intro s sz ax ay h t1 t src dst loc flags hy hx
  have hadd := updatePairMem_yields h hy hx (addxUpdate_eq sz src dst s.sr)
  have hsub := updatePairMem_yields h hy hx (subxUpdate_eq sz src dst s.sr)
  exact ⟨hadd, hsub⟩

/-- Settles O27: NEG and NEGX are a difference from 0, NOT is cut to its size. -/
theorem negateResults : Obligations.NegateResults := by
  intro s sz ea h loc t d yields u ux c ha
  have hneg := updateEA_yields h ha (f := (subUpdate sz · 0)) (subUpdate_eq sz d 0 s.sr)
  have hnegx := updateEA_yields h ha (f := (subxUpdate sz · 0)) (subxUpdate_eq sz d 0 s.sr)
  have hnot := updateEA_yields h ha (f := notUpdate sz) (notUpdate_eq sz d s.sr)
  exact ⟨hneg, hnegx, hnot⟩

/-- Settles O29, the compares one after the other. -/
theorem compareFlags : Obligations.CompareFlags := by
  intro s sz n ea h flags t loc src
  have hflags (z : Size) (a b : Long) : flags z (subc z a b false) = s.sr.compare z (subc z a b false) :=
    (StatusReg.compare_of_lt subc_r_lt _).symm
  simp only [hflags]
  exact ⟨fun ha => ⟨execCmp_yields h ha n, execTst_yields h ha⟩, fun ha => compareAddress_yields h ha n,
    fun ha => compareAddress_yields h ha n, fun _ ha => execCmpi_yields h ha,
    fun _ _ hy hx => execCmpm_yields h hy hx⟩

end Sys2Proof.Machine
end

section
/-! LAWS AND CERTIFICATE. The rules whose statements name the bus cycles they make: CLR, Scc and MOVE from SR, which read
the place they store to (R74), and TAS, a read and a write of one read-modify-write cycle (R79). -/

namespace Sys2Proof.Machine

/-! ## The cycles of an effective address -/

theorem State.kind_of_mem_fetchCycles {s : State} {k : Nat} {a : Long} {c : BusCycle} (hc : c ∈ s.fetchCycles k a) :
    c.kind = .read := by
  induction k generalizing a with
  | zero => cases hc
  | succ k ih =>
    rw [State.fetchCycles_succ, List.mem_cons] at hc
    obtain rfl | hc := hc
    · rfl
    · exact ih hc

/-- `ResolveEA` makes no cycle but those that fetch its extension words. -/
theorem resolveEA_run {s : State} (h : s.Ready) (ea : EA) (sz : Size) :
    resolveEA ea sz s = .ok (eaLoc ea sz s)
      { eaStep ea sz (s.after (eaWords ea)) with bus := s.bus ++ s.fetchCycles (eaWords ea) s.pc } := by
  rw [resolveEA, get_bind_run, bind_ok (fetchWords_run h _), modify_bind_run, eaStep_with_bus]
  rfl

/-! ## A read, then a store -/

/-- An operand in memory is read by a cycle at its own address, its first. -/
theorem memRead_run_first {s : State} (h : s.BusServes) (fc : FuncCode) {a : Long} {sz : Size} (ha : Aligned sz a) :
    ∃ v log, memRead fc a sz s = .ok v { s with bus := log }
      ∧ ∃ c rest, log = s.bus ++ c :: rest ∧ c.kind = .read ∧ c.fc = fc ∧ c.addr = busAddr a := by
  unfold memRead
  rw [bind_ok (checkAligned_ok ha s)]
  cases sz with
  | b => exact ⟨_, _, bind_ok (busRead_run h .read fc a false), _, _, rfl, rfl, rfl, rfl⟩
  | w => exact ⟨_, _, bind_ok (busRead_run h .read fc a true), _, _, rfl, rfl, rfl, rfl⟩
  | l =>
    have hhigh := busRead_run h .read fc a true
    have hlow := busRead_run (s := s.logCycle .read fc a true (some (s.peekWord fc a)) (s.answer fc .read a))
      (h.congr rfl) .read fc (a + 2) true
    exact ⟨_, _, (bind_ok hhigh).trans (bind_ok hlow), _, _, List.append_assoc .., rfl, rfl, rfl⟩

/-- The list of cycles holds a read of the location, and before it only what `s` held and other reads. -/
def ReadsBefore (s : State) (log : List BusCycle) (loc : Loc) : Prop :=
  ∀ a fc lf, loc = .mem a fc lf →
    ∃ before after c, log = before ++ c :: after ∧ c.kind = .read ∧ c.fc = fc ∧ c.addr = busAddr a
      ∧ ∀ b ∈ before, b ∈ s.bus ∨ b.kind = .read

/-- What a rule does after the read does not undo it. -/
theorem ReadsBefore.append {s : State} {log : List BusCycle} {loc : Loc} (h : ReadsBefore s log loc)
    (cycles : List BusCycle) : ReadsBefore s (log ++ cycles) loc := by
  intro a fc lf hloc
  obtain ⟨before, after, c, rfl, hc⟩ := h a fc lf hloc
  exact ⟨before, after ++ cycles, c, List.append_assoc .., hc⟩

theorem discardRead_run {s t : State} (h : t.BusServes) {loc : Loc} {sz : Size} (ha : loc.Accessible sz)
    (hbus : ∀ c ∈ t.bus, c ∈ s.bus ∨ c.kind = .read) :
    ∃ log, discardRead loc sz t = .ok () { t with bus := log } ∧ ReadsBefore s log loc := by
  cases loc with
  | mem a fc lf =>
    obtain ⟨v, log, hread, c, rest, hlog, hkind, hfc, haddr⟩ := memRead_run_first h fc ha
    refine ⟨log, bind_ok hread, ?_⟩
    rintro _ _ _ ⟨⟩
    exact ⟨t.bus, rest, c, hlog, hkind, hfc, haddr, hbus⟩
  | _ => exact ⟨t.bus, rfl, nofun⟩

/-- The cycles an action makes stand behind those that were there. -/
theorem Local.bus_eq_append {α : Type} {x : M α} (hx : Local x) {s t : State} {a : α} (hrun : x s = .ok a t) :
    ∃ cycles, t.bus = s.bus ++ cycles := by
  have hlocal := hx s
  rw [LocalAt, hrun] at hlocal
  obtain ⟨_, cycles, hbus, _⟩ := hlocal
  exact ⟨cycles, hbus⟩

/-- The rules that store a value after a read of the place: `x` is the store, with what follows it. -/
theorem storeAfterRead_run {s u : State} (h : s.Ready) {ea : EA} {sz : Size} {v : Long} (x : Loc → M Unit) :
    let loc := eaLoc ea sz (s.after 1)
    let t := eaStep ea sz (s.after (1 + eaWords ea))
    loc.Accessible sz → Local (x loc) → ServesStoring (x loc) t () u loc sz v → u.mem = s.mem →
    u.platform = s.platform →
      ∃ m log, runPlain (resolveEA ea sz >>= fun loc => discardRead loc sz >>= fun _ => x loc) s =
          .next { u with mem := m, bus := log }
        ∧ Stored s { u with mem := m, bus := log } loc sz v ∧ ReadsBefore s log loc := by
  intro loc t ha hlocal hstore hmem hplatform
  have hresolve := resolveEA_run (h.after 1) ea sz
  rw [State.after_after] at hresolve
  obtain ⟨log₁, hdiscard, hreads⟩ := discardRead_run (s := s)
    (t := { t with bus := (s.after 1).bus ++ (s.after 1).fetchCycles (eaWords ea) (s.after 1).pc })
    (((h.after _).eaStep ea sz).1.congr rfl) ha
    fun c hc => (List.mem_append.mp hc).imp id State.kind_of_mem_fetchCycles
  obtain ⟨m, hserves, hstored⟩ := hstore
  obtain ⟨log, hrun⟩ := hserves log₁
  obtain ⟨cycles, hcycles⟩ := hlocal.bus_eq_append hrun
  refine ⟨m, log, runPlain_ok ?run, hstored.congr hmem.symm hplatform.symm rfl rfl, ?reads⟩
  case run => rw [bind_ok hresolve, bind_ok hdiscard]; exact hrun
  case reads =>
    have hlog : log = log₁ ++ cycles := hcycles
    exact hlog ▸ hreads.append cycles

/-- The store of a value taken from the status register. -/
def storeOfSr (sz : Size) (v : StatusReg → Long) (loc : Loc) : M Unit := get >>= fun t => writeLoc loc sz (v t.sr)

theorem storeOfSr_local (sz : Size) (v : StatusReg → Long) (loc : Loc) : Local (storeOfSr sz v loc) :=
  .get_bind fun t => writeLoc_local loc sz (v t.sr)

theorem storeOfSr_serves {s : State} (h : s.BusServes) {loc : Loc} {sz : Size} (ha : loc.Accessible sz)
    (v : StatusReg → Long) : ServesStoring (storeOfSr sz v loc) s () (s.putReg loc sz (v s.sr)) loc sz (v s.sr) := by
  obtain ⟨m, hwrite, hstored⟩ := writeLoc_serves h ha (v s.sr)
  exact ⟨m, .get hwrite, hstored⟩

/-- Scc and MOVE from SR: no flag changes. -/
theorem storeOfSr_run {s : State} (h : s.Ready) {ea : EA} {sz : Size} (v : StatusReg → Long) :
    let loc := eaLoc ea sz (s.after 1)
    let t := (eaStep ea sz (s.after (1 + eaWords ea))).putReg loc sz (v s.sr)
    loc.Accessible sz →
      ∃ m log, runPlain (resolveEA ea sz >>= fun loc => discardRead loc sz >>= fun _ => storeOfSr sz v loc) s =
          .next { t with sr := s.sr, mem := m, bus := log }
        ∧ Stored s { t with sr := s.sr, mem := m, bus := log } loc sz (v s.sr) ∧ ReadsBefore s log loc := by
  intro loc t ha
  have hsr : t.sr = s.sr := by simp [t]
  have hstore := storeOfSr_serves ((h.after (1 + eaWords ea)).eaStep ea sz).1 ha v
  rw [eaStep_sr, State.after_sr] at hstore
  have hkept : t = { t with sr := s.sr } := by rw [← hsr]
  exact storeAfterRead_run h (storeOfSr sz v) ha (storeOfSr_local sz v _) (hstore.to hkept) (by simp [t])
    (by simp [t])

/-- CLR: the flags are set after the store. -/
theorem execClr_run {s : State} (h : s.Ready) {ea : EA} {sz : Size} :
    let loc := eaLoc ea sz (s.after 1)
    let t : State := { (eaStep ea sz (s.after (1 + eaWords ea))).putReg loc sz 0 with
      sr := { s.sr with n := false, z := true, v := false, c := false } }
    loc.Accessible sz →
      ∃ m log, execClr sz ea s = .next { t with mem := m, bus := log }
        ∧ Stored s { t with mem := m, bus := log } loc sz 0 ∧ ReadsBefore s log loc := by
  intro loc t ha
  have hstore := (writeLoc_serves ((h.after (1 + eaWords ea)).eaStep ea sz).1 ha 0).setSr
    fun sr => { sr with n := false, z := true, v := false, c := false }
  rw [State.putReg_sr, eaStep_sr, State.after_sr] at hstore
  exact storeAfterRead_run h _ ha (.bind (writeLoc_local _ sz 0) fun _ => .modify) hstore (by simp [t]) (by simp [t])

/-- Settles O28: CLR sets flags after its store, the other two store a value of the status register. -/
theorem storeOnly : Obligations.StoreOnly := by
  intro s ea h yields
  have hscc (cond : Cond) := storeOfSr_run h (ea := ea) (sz := .b) fun sr => if condHolds cond sr then 0xFF else 0
  have hmove := storeOfSr_run h (ea := ea) (sz := .w) fun sr => ofWord sr.toWord
  exact ⟨fun sz => execClr_run h, hscc, hmove⟩

/-! ## TAS -/

/-- The byte that TAS writes is the low byte of the operand with bit 7 set. -/
theorem lowByte_tas (b : Byte) :
    ((b.setWidth 16 : Word) ||| 0x80#16).extractLsb' 0 8 = lowByte (ofByte b ||| 0x80#32) := by
  have hword : (b.setWidth 16 : Word).extractLsb' 0 8 = b := by
    ext k hk
    simp only [BitVec.getElem_extractLsb']
    grind
  have hlong : (ofByte b).extractLsb' 0 8 = b := lowByte_ofByte b
  rw [lowByte, BitVec.extractLsb'_or, BitVec.extractLsb'_or, hword, hlong]
  rfl

theorem storedAt_pokeByte {s : State} (h : s.BusServes) (fc : FuncCode) (a v : Long) :
    StoredAt s (s.pokeByte fc a (lowByte v)) fc a .b v := by
  have hbyte : (lowWord (v &&& 0xFF#32)).extractLsb' 0 8 = lowByte v := by
    ext k hk
    have hbit : BitVec.getLsbD 0xFF#32 k = true := by interval_cases k <;> rfl
    simp [lowByte, lowWord, hbit]
  have hstored := StoredAt_byte h.map fc a v
  rwa [State.pokeCycle, if_neg nofun, hbyte] at hstored

/-- The read of the read-modify-write cycle of TAS (R104). -/
def State.tasRead (s : State) (fc : FuncCode) (a : Long) : BusCycle :=
  ⟨.rmwRead, fc, busAddr a, false, dataLines .rmwRead a false (some ((s.peekByte fc a).setWidth 16)),
    s.answer fc .read a⟩

theorem busRead_tas {s : State} (h : s.BusServes) (fc : FuncCode) (a : Long) :
    busRead .rmwRead fc a false s =
      .ok ((s.peekByte fc a).setWidth 16) { s with bus := s.bus ++ [s.tasRead fc a] } :=
  busRead_run h .rmwRead fc a false

/-- The write of the read-modify-write cycle of TAS (R104): the byte with bit 7 set. -/
def State.tasWrite (s : State) (fc : FuncCode) (a : Long) : BusCycle :=
  ⟨.rmwWrite, fc, busAddr a, false, dataLines .rmwWrite a false (some ((s.peekByte fc a).setWidth 16 ||| 0x80#16)),
    s.answer fc .write a⟩

theorem busWrite_tas {s : State} (h : s.BusServes) (fc : FuncCode) (a : Long) :
    busWrite .rmwWrite fc a false ((s.peekByte fc a).setWidth 16 ||| 0x80#16) s = .ok () { s with
      mem := (s.pokeByte fc a (lowByte (s.peek fc a .b ||| 0x80#32))).mem
      bus := s.bus ++ [s.tasWrite fc a] } := by
  rw [State.peek, ← lowByte_tas]
  exact busWrite_run h .rmwWrite fc a false _

/-- TAS on a byte of memory. -/
theorem execTas_run_mem {s : State} (h : s.Ready) {ea : EA} {a : Long} {fc : FuncCode} {lf : Bool}
    (hloc : eaLoc ea .b (s.after 1) = .mem a fc lf) :
    let t := eaStep ea .b (s.after (1 + eaWords ea))
    let v := t.peek fc a .b
    ∃ before, execTas ea s = .next { t with
      sr := s.sr.logic .b v
      mem := (t.pokeByte fc a (lowByte (v ||| 0x80#32))).mem
      bus := before ++ [t.tasRead fc a, t.tasWrite fc a] } := by
  intro t v
  have ht : t.BusServes := ((h.after _).eaStep ea .b).1
  have hv : ofWord ((t.peekByte fc a).setWidth 16) = v := by simp [v, State.peek, ofByte, ofWord]
  have hsr : t.sr = s.sr := eaStep_sr ..
  obtain ⟨log, hresolve⟩ := (resolveEA_serves (h.after 1) ea .b).run
  rw [State.after_after, hloc] at hresolve
  have hread := busRead_tas (s := { t with bus := log }) (ht.congr rfl) fc a
  let u : State := { t with sr := t.sr.logic .b v, bus := log ++ [t.tasRead fc a] }
  have hwrite := busWrite_tas (s := u) (ht.congr rfl) fc a
  have hlog : u.bus ++ [u.tasWrite fc a] = log ++ [t.tasRead fc a, t.tasWrite fc a] := List.append_assoc ..
  rw [hlog] at hwrite
  refine ⟨log, runPlain_ok ((bind_ok hresolve).trans ((bind_ok hread).trans ?_))⟩
  show busWrite .rmwWrite fc a false ((t.peekByte fc a).setWidth 16 ||| 0x80#16) { t with
    sr := t.sr.logic .b (ofWord ((t.peekByte fc a).setWidth 16)), bus := log ++ [t.tasRead fc a] } = _
  rw [hv, ← hsr]
  exact hwrite

theorem Loc.isMem_iff {loc : Loc} : loc.isMem = true ↔ ∃ a fc lf, loc = .mem a fc lf := by
  cases loc with
  | mem a fc lf => exact ⟨fun _ => ⟨a, fc, lf, rfl⟩, fun _ => rfl⟩
  | _ => exact ⟨nofun, fun ⟨_, _, _, e⟩ => nomatch e⟩

/-- TAS where the operand is no byte of memory. -/
theorem execTas_yields_of_not_mem {s : State} (h : s.Ready) {ea : EA} {loc : Loc}
    (hloc : eaLoc ea .b (s.after 1) = loc) (hmem : loc.isMem = false) :
    let t := eaStep ea .b (s.after (1 + eaWords ea))
    let v := t.operand loc .b
    YieldsStoring (execTas ea s) { t.putReg loc .b (v ||| 0x80#32) with sr := s.sr.logic .b v } loc .b
      (v ||| 0x80#32) := by
  intro t v
  have ht : t.BusServes := ((h.after _).eaStep ea .b).1
  have hsr : t.sr = s.sr := eaStep_sr ..
  have hresolve := resolveEA_serves (h.after 1) ea .b
  rw [State.after_after, hloc] at hresolve
  have hupdate (ha : loc.Accessible .b) :=
    updateLocFlagsFirst_serves ht ha (fun d sr => (d ||| 0x80#32, sr.logic .b d)) rfl
  rw [← hsr]
  cases loc with
  | mem => cases hmem
  | dreg | areg | imm => exact ServesStoring.runPlain (.before hresolve (hupdate trivial))

/-- Settles O30: a byte of memory, for which the cycles are named, or a register. -/
theorem tasResult : Obligations.TasResult := by
  intro s ea h loc t v
  by_cases hmem : loc.isMem
  case pos =>
    obtain ⟨a, fc, lf, hloc⟩ : ∃ a fc lf, loc = .mem a fc lf := Loc.isMem_iff.mp hmem
    obtain ⟨before, hrun⟩ := execTas_run_mem h hloc
    have hstored := storedAt_pokeByte ((h.after (1 + eaWords ea)).eaStep ea .b).1 fc a (v ||| 0x80#32)
    have hv : v = t.peek fc a .b := congrArg (t.operand · .b) hloc
    rw [← hv] at hrun
    rw [hloc]
    refine ⟨_, _, hrun, ?stored, ?cycles⟩
    case stored => exact (hstored.congr rfl rfl).congr_left (by simp) (by simp)
    case cycles =>
      rintro _ _ _ ⟨⟩
      exact ⟨before, t.tasRead fc a, t.tasWrite fc a, rfl, rfl, rfl, rfl, rfl, rfl, rfl, rfl, rfl⟩
  case neg =>
    obtain ⟨m, log, hrun, hstored⟩ := execTas_yields_of_not_mem h (loc := loc) rfl (eq_false_of_ne_true hmem)
    refine ⟨m, log, hrun, hstored.congr (by simp) (by simp) rfl rfl, fun a fc lf hloc => ?_⟩
    exact absurd (Loc.isMem_iff.mpr ⟨a, fc, lf, hloc⟩) hmem

end Sys2Proof.Machine
end

section
/-! LAWS AND CERTIFICATE. Products and quotients (R251, R252, R254, R255): the arithmetic helpers of the model against the
integers, then the rules around them. -/

namespace Sys2Proof.Machine

/-! ## Products -/

theorem mulUnsigned_toNat (a b : Word) : (mulUnsigned a b).toNat = a.toNat * b.toNat := by
  have hlt : a.toNat * b.toNat < 2 ^ 16 * 2 ^ 16 := Nat.mul_lt_mul'' a.isLt b.isLt
  exact Nat.mod_eq_of_lt hlt

theorem abs_toInt_le (w : Word) : |w.toInt| ≤ 2 ^ 15 := abs_le.mpr ⟨w.le_toInt, w.toInt_lt.le⟩

/-- Two signed words have a product that a long word holds: the bounds are those of the factors' magnitudes. -/
theorem mulSigned_toInt (a b : Word) : (mulSigned a b).toInt = a.toInt * b.toInt := by
  have hprod : |a.toInt * b.toInt| ≤ 2 ^ 15 * 2 ^ 15 := by
    rw [abs_mul]
    exact mul_le_mul (abs_toInt_le a) (abs_toInt_le b) (abs_nonneg _) (by norm_num)
  obtain ⟨hlo, hhi⟩ := abs_le.mp hprod
  exact BitVec.toInt_ofInt_eq_self (by decide) (by omega) (by omega)

/-- The flags of a long result. -/
theorem logic_long (sr : StatusReg) (r : Long) :
    sr.logic .l r = { sr with n := r.msb, z := r == 0, v := false, c := false } := by
  rw [BitVec.msb_eq_getLsbD_last]
  rfl

/-! ## Quotients -/

/-- DIVU: there is a quotient when it fits a word, and then it and the remainder divide the dividend. -/
theorem divUnsigned_some {d : Long} {m : Word} (hm : m ≠ 0) (hq : d.toNat / m.toNat ≤ 65535) :
    ∃ q rem : Word, divUnsigned d m = some ⟨q, rem⟩ ∧ q.toNat * m.toNat + rem.toNat = d.toNat
      ∧ rem.toNat < m.toNat := by
  have hpos : 0 < m.toNat := Nat.pos_of_ne_zero fun e => hm (BitVec.eq_of_toNat_eq e)
  have hrem : d.toNat % m.toNat < m.toNat := Nat.mod_lt _ hpos
  have hqn : (BitVec.ofNat 16 (d.toNat / m.toNat)).toNat = d.toNat / m.toNat := Nat.mod_eq_of_lt (by omega)
  have hrn : (BitVec.ofNat 16 (d.toNat % m.toNat)).toNat = d.toNat % m.toNat :=
    Nat.mod_eq_of_lt (hrem.trans m.isLt)
  refine ⟨_, _, if_neg (Nat.not_lt.mpr hq), ?_, hrn.trans_lt hrem⟩
  rw [hqn, hrn, Nat.mul_comm, Nat.div_add_mod]

theorem divUnsigned_none {d : Long} {m : Word} (hq : ¬ d.toNat / m.toNat ≤ 65535) : divUnsigned d m = none :=
  if_pos (Nat.lt_of_not_le hq)

/-- The remainder of a truncated division is smaller than the divisor. -/
theorem abs_tmod_lt (d : Int) {m : Int} (hm : m ≠ 0) : |d.tmod m| < |m| := by
  rw [Int.abs_eq_natAbs, Int.abs_eq_natAbs, Int.natAbs_tmod]
  exact_mod_cast Nat.mod_lt _ (Int.natAbs_pos.mpr hm)

/-- It has the sign of the dividend, or is 0. -/
theorem tmod_eq_zero_or_neg_iff (d m : Int) : d.tmod m = 0 ∨ (d.tmod m < 0 ↔ d < 0) := by
  have hsign := Int.sign_tmod d m
  split at hsign
  · exact .inl (Int.sign_eq_zero_iff_zero.mp hsign)
  · exact .inr (by rw [← Int.sign_eq_neg_one_iff_neg, hsign, Int.sign_eq_neg_one_iff_neg])

/-- DIVS: the quotient is truncated toward zero, so the remainder has the sign of the dividend. -/
theorem divSigned_some {d : Long} {m : Word} (hm : m ≠ 0)
    (hq : -32768 ≤ d.toInt.tdiv m.toInt ∧ d.toInt.tdiv m.toInt ≤ 32767) :
    ∃ q rem : Word, divSigned d m = some ⟨q, rem⟩ ∧ q.toInt * m.toInt + rem.toInt = d.toInt
      ∧ |rem.toInt| < |m.toInt| ∧ (rem.toInt = 0 ∨ (rem.toInt < 0 ↔ d.toInt < 0)) := by
  have hmod : d.toInt - d.toInt.tdiv m.toInt * m.toInt = d.toInt.tmod m.toInt := by
    rw [Int.tmod_def, Int.mul_comm]
  have hsmall := abs_tmod_lt d.toInt fun e => hm (BitVec.eq_of_toInt_eq e)
  obtain ⟨hlo, hhi⟩ := abs_lt.mp (hsmall.trans_le (abs_toInt_le m))
  have hqi : (BitVec.ofInt 16 (d.toInt.tdiv m.toInt)).toInt = d.toInt.tdiv m.toInt :=
    BitVec.toInt_ofInt_eq_self (by decide) (by omega) (by omega)
  have hri : (BitVec.ofInt 16 (d.toInt.tmod m.toInt)).toInt = d.toInt.tmod m.toInt :=
    BitVec.toInt_ofInt_eq_self (by decide) (by omega) (by omega)
  refine ⟨BitVec.ofInt 16 (d.toInt.tdiv m.toInt), BitVec.ofInt 16 (d.toInt.tmod m.toInt), ?some, ?_⟩
  case some =>
    have hfits : (d.toInt.tdiv m.toInt < -32768 || 32767 < d.toInt.tdiv m.toInt) = false := by
      simp only [Bool.or_eq_false_iff, decide_eq_false_iff_not]
      omega
    simp [divSigned, hfits, hmod]
  rw [hqi, hri]
  exact ⟨Int.tdiv_mul_add_tmod .., hsmall, tmod_eq_zero_or_neg_iff ..⟩

theorem divSigned_none {d : Long} {m : Word}
    (hq : ¬ (-32768 ≤ d.toInt.tdiv m.toInt ∧ d.toInt.tdiv m.toInt ≤ 32767)) : divSigned d m = none := by
  refine if_pos ?_
  simp only [Bool.or_eq_true, decide_eq_true_eq]
  omega

/-! ## The rules -/

section
variable {s : State} (h : s.Ready) {ea : EA} (ha : (eaLoc ea .w (s.after 1)).Accessible .w) (dn : RegNo)
include h ha

theorem multiply_yields (op : Word → Word → Long) :
    let t := eaStep ea .w (s.after (1 + eaWords ea))
    let r := op (lowWord (s.readD dn)) (lowWord (t.operand (eaLoc ea .w (s.after 1)) .w))
    Yields (runPlain (multiply dn ea op) s) { t.writeD dn r with sr := s.sr.logic .l r } := by
  intro t r
  have hsr : t.sr = s.sr := eaStep_sr ..
  have hd : t.readD dn = s.readD dn := State.readD_eaStep ..
  refine Serves.runPlain ((readSource_serves h ha).bind (.to .modify ?_))
  simp only [t, r, hsr, hd]

/-- A division whose quotient fits. -/
theorem divide_yields {op : Long → Word → Option Quotient} {q rem : Word} :
    let t := eaStep ea .w (s.after (1 + eaWords ea))
    let m := lowWord (t.operand (eaLoc ea .w (s.after 1)) .w)
    m ≠ 0 → op (s.readD dn) m = some ⟨q, rem⟩ →
      Yields (runInstr (divide dn ea op) s) { t.writeD dn (rem ++ q) with sr := s.sr.quotient q } := by
  intro t m hm hop
  have hsr : t.sr = s.sr := eaStep_sr ..
  have hd : t.readD dn = s.readD dn := State.readD_eaStep ..
  refine Serves.runInstr ((readSource_serves h ha).bind ?_)
  rw [if_neg hm]
  refine .get ?_
  rw [hd, hop, ← hsr]
  exact Serves.bind .modify (.pure _ _)

/-- A division whose quotient does not fit: N and Z are two bits of one free value. -/
theorem divide_overflows {op : Long → Word → Option Quotient} :
    let t := eaStep ea .w (s.after (1 + eaWords ea))
    let m := lowWord (t.operand (eaLoc ea .w (s.after 1)) .w)
    m ≠ 0 → op (s.readD dn) m = none →
      ∃ n z : Bool, Yields (runInstr (divide dn ea op) s)
        { t with sr := { s.sr with n := n, z := z, v := true, c := false }, freeCount := s.freeCount + 1 } := by
  intro t m hm hop
  have hsr : t.sr = s.sr := eaStep_sr ..
  have hfree : t.freeCount = s.freeCount := eaStep_freeCount ..
  have hd : t.readD dn = s.readD dn := State.readD_eaStep ..
  have hbody : Serves (divide dn ea op) (s.after 1) .done
      { t with sr := s.sr.divOverflow (Config.freeLong s.freeCount), freeCount := s.freeCount + 1 } := by
    refine (readSource_serves h ha).bind ?_
    rw [if_neg hm]
    refine .get ?_
    rw [hd, hop, ← hsr, ← hfree]
    exact (Serves.draw t).bind (Serves.bind .modify (.pure _ _))
  exact ⟨_, _, hbody.runInstr⟩

/-- A division by zero: N, Z and V are three bits of one free value, and the trap is taken from the state that the
source's read leaves. -/
theorem divide_traps (op : Long → Word → Option Quotient) :
    let t := eaStep ea .w (s.after (1 + eaWords ea))
    lowWord (t.operand (eaLoc ea .w (s.after 1)) .w) = 0 → EvenAddr t.ssp →
      ∃ (n z v : Bool) (u : State), runInstr (divide dn ea op) s = .next u
        ∧ TookException { t with sr := { s.sr with n := n, z := z, v := v, c := false }, freeCount := s.freeCount + 1 } u
          5 t.pc s.tracePending := by
  intro t hm hssp
  have hsr : t.sr = s.sr := eaStep_sr ..
  have hfree : t.freeCount = s.freeCount := eaStep_freeCount ..
  have htrace : t.tracePending = s.tracePending := eaStep_tracePending ..
  have hbody : Serves (divide dn ea op) (s.after 1) (.trap 5)
      { t with sr := s.sr.divByZero (Config.freeLong s.freeCount), freeCount := s.freeCount + 1 } := by
    refine (readSource_serves h ha).bind ?_
    rw [if_pos hm, ← hsr, ← hfree]
    exact (Serves.draw t).bind (Serves.bind .modify (.pure _ _))
  obtain ⟨log, hrun⟩ := hbody.run
  let u : State := { t with
    sr := s.sr.divByZero (Config.freeLong s.freeCount), freeCount := s.freeCount + 1, bus := log }
  have hbus : u.BusServes := ((h.after _).eaStep ea .w).1.congr rfl
  obtain ⟨v, htake, htook⟩ := takeException_internal hbus hssp .group2 5 t.pc
  rw [← htrace]
  refine ⟨_, _, _, v, (runInstr_trap hrun).trans ?_, htook⟩
  exact congrArg (finish s.pc true) htake

end

/-! ## The obligations -/

/-- Settles O31: the products are those of `mulUnsigned` and `mulSigned`. -/
theorem multiplyResults : Obligations.MultiplyResults := by
  intro s dn ea h loc t src d put ha
  have hmulu := multiply_yields h ha dn mulUnsigned
  have hmuls := multiply_yields h ha dn mulSigned
  simp only [logic_long] at hmulu hmuls
  exact ⟨⟨_, mulUnsigned_toNat d src, hmulu⟩, ⟨_, mulSigned_toInt d src, hmuls⟩⟩

/-- Settles O32: a quotient that fits, or overflow, for each of the two. -/
theorem divideResults : Obligations.DivideResults := by
  intro s dn ea h loc t m d put overflows ha hm
  refine ⟨?unsigned, ?signed⟩
  case unsigned =>
    split
    next hq =>
      obtain ⟨q, rem, hdiv, hexact⟩ := divUnsigned_some hm hq
      exact ⟨q, rem, hexact.1, hexact.2, divide_yields h ha dn hm hdiv⟩
    next hq => exact divide_overflows h ha dn hm (divUnsigned_none hq)
  case signed =>
    split
    next hq =>
      obtain ⟨q, rem, hdiv, hexact, hsmall, hsign⟩ := divSigned_some hm hq
      exact ⟨q, rem, hexact, hsmall, hsign, divide_yields h ha dn hm hdiv⟩
    next hq => exact divide_overflows h ha dn hm (divSigned_none hq)

/-- Settles O33: the trap does not depend on which division it is. -/
theorem zeroDivideTraps : Obligations.ZeroDivideTraps := by
  intro s dn ea h loc t ha hm hssp i hi
  obtain rfl | rfl := List.mem_pair.mp hi
  · exact divide_traps h ha dn divUnsigned hm hssp
  · exact divide_traps h ha dn divSigned hm hssp

end Sys2Proof.Machine
end

section
/-! LAWS AND CERTIFICATE. The iterated shifts (R296 to R304) as whole shifts and rotations. The value of every operation
is found by induction on the count, one step after the others; C, X and V of a further step are then read off the value
before it. The rotates are rotations of a ring of bits: the operand's own, or these with X above them. -/

namespace Sys2Proof

/-! ## Bits of operands -/

theorem Size.bits_bounds (sz : Size) : 8 ≤ sz.bits ∧ sz.bits ≤ 32 := by cases sz <;> decide

theorem Size.getLsbD_trunc (sz : Size) (v : Long) (i : Nat) :
    (sz.trunc v).getLsbD i = (decide (i < sz.bits) && v.getLsbD i) := by
  rw [BitVec.getLsbD, sz.toNat_trunc, Nat.testBit_mod_two_pow, BitVec.getLsbD]

theorem Size.toNat_trunc_lt (sz : Size) (v : Long) : (sz.trunc v).toNat < 2 ^ sz.bits :=
  sz.toNat_trunc v ▸ Nat.mod_lt _ (Nat.two_pow_pos _)

theorem Size.getLsbD_of_le {sz : Size} {v : Long} (hv : v.toNat < 2 ^ sz.bits) {i : Nat} (hi : sz.bits ≤ i) :
    v.getLsbD i = false :=
  Nat.testBit_lt_two_pow (hv.trans_le (Nat.pow_le_pow_right (by decide) hi))

/-- Sign extension repeats the sign bit. -/
theorem Size.getLsbD_sext (sz : Size) (v : Long) {i : Nat} (hi : i < 32) :
    (sz.sext v).getLsbD i = v.getLsbD (min i (sz.bits - 1)) := by
  cases sz with
  | l => rw [Nat.min_eq_left (by simp only [Size.bits]; omega)]; rfl
  | _ =>
    simp only [Size.sext, sextByte, sextWord, BitVec.getLsbD_signExtend, BitVec.msb_eq_getLsbD_last, lowByte, lowWord,
      BitVec.getLsbD_extractLsb', Size.bits]
    grind

/-! ## Rotations of bit vectors -/

theorem rotateLeft_succ {w : Nat} (x : BitVec w) (n : Nat) :
    x.rotateLeft (n + 1) = (x.rotateLeft n).rotateLeft 1 := by
  refine BitVec.eq_of_getMsbD_eq fun i hi => ?_
  have hlt : (1 + i) % w < w := Nat.mod_lt _ (by omega)
  simp only [BitVec.getMsbD_rotateLeft, hi, hlt, decide_true, Bool.true_and, Nat.add_mod_mod, Nat.add_assoc]

theorem rotateLeft_zero {w : Nat} (x : BitVec w) : x.rotateLeft 0 = x := by
  refine BitVec.eq_of_getMsbD_eq fun i hi => ?_
  simp [BitVec.getMsbD_rotateLeft, hi, Nat.mod_eq_of_lt]

theorem getLsbD_rotateLeft_one {w : Nat} {x : BitVec w} (hw : 1 < w) {i : Nat} (hi : i < w) :
    (x.rotateLeft 1).getLsbD i = if i = 0 then x.getLsbD (w - 1) else x.getLsbD (i - 1) := by
  rw [BitVec.getLsbD_rotateLeft_of_le hw]
  cases i with
  | zero => rfl
  | succ i => simp [hi]

theorem rotateLeft_width {w : Nat} (x : BitVec w) : x.rotateLeft w = x := by
  rw [← BitVec.rotateLeft_mod_eq_rotateLeft, Nat.mod_self, rotateLeft_zero]

theorem rotateRight_rotateLeft {w : Nat} (x : BitVec w) (n : Nat) : (x.rotateLeft n).rotateRight n = x := by
  refine BitVec.eq_of_getMsbD_eq fun i hi => ?_
  have hn : n % w < w := Nat.mod_lt _ (by omega)
  rw [← BitVec.rotateLeft_mod_eq_rotateLeft, BitVec.getMsbD_rotateRight]
  generalize n % w = m at hn
  have hwrap : (w + i - m) % w < w := Nat.mod_lt _ (by omega)
  have hback : (m + (w + i - m)) % w = i := by
    rw [Nat.add_sub_cancel' (by omega), Nat.add_mod_left, Nat.mod_eq_of_lt hi]
  simp only [BitVec.getMsbD_rotateLeft, hi, hwrap, decide_true, Bool.true_and, Nat.add_mod_mod, hback]
  split
  next hlt => rfl
  next hge => rw [decide_eq_true (by omega), Nat.add_sub_cancel' (by omega), Nat.mod_eq_of_lt hi, Bool.true_and]

/-- The two parts of a number rotated left have no bit in common. -/
theorem toNat_rotateLeft_eq_add {w : Nat} (x : BitVec w) (n : Nat) (hw : 0 < w) :
    (x.rotateLeft n).toNat = x.toNat * 2 ^ (n % w) % 2 ^ w + x.toNat / 2 ^ (w - n % w) := by
  have hn : n % w < w := Nat.mod_lt _ hw
  rw [BitVec.toNat_rotateLeft, Nat.shiftLeft_eq, Nat.shiftRight_eq_div_pow]
  generalize n % w = m at hn
  have hpow : 2 ^ w = 2 ^ (w - m) * 2 ^ m := by rw [← Nat.pow_add, Nat.sub_add_cancel hn.le]
  have hlow : x.toNat / 2 ^ (w - m) < 2 ^ m := Nat.div_lt_of_lt_mul (hpow ▸ x.isLt)
  rw [hpow, Nat.mul_mod_mul_right, Nat.mul_comm _ (2 ^ m), Nat.two_pow_add_eq_or_of_lt hlow]

/-- The two parts of a number rotated right have no bit in common. -/
theorem toNat_rotateRight_eq_add {w : Nat} (x : BitVec w) (n : Nat) (hw : 0 < w) :
    (x.rotateRight n).toNat = x.toNat / 2 ^ (n % w) + x.toNat % 2 ^ (n % w) * 2 ^ (w - n % w) := by
  have hn : n % w < w := Nat.mod_lt _ hw
  rw [BitVec.toNat_rotateRight, Nat.shiftLeft_eq, Nat.shiftRight_eq_div_pow]
  generalize n % w = m at hn
  have hpow : 2 ^ w = 2 ^ m * 2 ^ (w - m) := by rw [← Nat.pow_add, Nat.add_sub_cancel' hn.le]
  have hlow : x.toNat / 2 ^ m < 2 ^ (w - m) := Nat.div_lt_of_lt_mul (hpow ▸ x.isLt)
  rw [hpow, Nat.mul_mod_mul_right, Nat.add_comm, Nat.mul_comm _ (2 ^ (w - m)), Nat.two_pow_add_eq_or_of_lt hlow,
    Nat.lor_comm]

end Sys2Proof

namespace Sys2Proof.Machine

theorem bitNat_eq_toNat (b : Bool) : bitNat b = b.toNat := by cases b <;> rfl

variable {sz : Size} {v : Long} {n : Nat} {x : Bool}

/-! ## The one-bit shifts -/

theorem getLsbD_bitNat (b : Bool) (i : Nat) : (BitVec.ofNat 32 (bitNat b)).getLsbD i = (decide (i = 0) && b) := by
  cases b with
  | false => simp [bitNat]
  | true => simp [bitNat, BitVec.getLsbD_one]

theorem getLsbD_shiftLeft1 (v : Long) (b : Bool) {i : Nat} (hi : i < sz.bits) :
    (shiftLeft1 sz v b).getLsbD i = if i = 0 then b else v.getLsbD (i - 1) := by
  have hbits := sz.bits_bounds
  rw [shiftLeft1, sz.getLsbD_trunc, BitVec.getLsbD_or, BitVec.getLsbD_shiftLeft, getLsbD_bitNat]
  grind

theorem getLsbD_shiftRight1 (hv : v.toNat < 2 ^ sz.bits) (b : Bool) (i : Nat) :
    (shiftRight1 sz v b).getLsbD i = if i = sz.bits - 1 then b else v.getLsbD (i + 1) := by
  have hbits := sz.bits_bounds
  have htop : v.getLsbD sz.bits = false := Size.getLsbD_of_le hv le_rfl
  rw [shiftRight1, BitVec.getLsbD_or, BitVec.getLsbD_ushiftRight, BitVec.getLsbD_shiftLeft, getLsbD_bitNat]
  grind

theorem shiftLeft1_lt (sz : Size) (v : Long) (b : Bool) : (shiftLeft1 sz v b).toNat < 2 ^ sz.bits :=
  sz.toNat_trunc_lt _

theorem shiftRight1_false (sz : Size) (v : Long) : shiftRight1 sz v false = v >>> 1 := by
  simp [shiftRight1, bitNat]

theorem shiftRight1_lt (hv : v.toNat < 2 ^ sz.bits) (b : Bool) : (shiftRight1 sz v b).toNat < 2 ^ sz.bits := by
  refine Nat.lt_pow_two_of_testBit _ fun i hi => ?_
  have hbits := sz.bits_bounds
  have hbit := getLsbD_shiftRight1 hv b i
  rw [if_neg (by omega), Size.getLsbD_of_le hv (by omega)] at hbit
  exact hbit

/-! ## A further step -/

theorem shiftIterate_succ (op : ShiftOp) (sz : Size) (n : Nat) (t : ShiftState) :
    shiftIterate op sz (n + 1) t = shiftStep op sz (shiftIterate op sz n t) := by
  induction n generalizing t with
  | zero => rfl
  | succ n ih => exact ih _

theorem shiftResult_succ (op : ShiftOp) (sz : Size) (n : Nat) (v : Long) (x : Bool) :
    shiftResult op sz (n + 1) v x = shiftStep op sz (shiftResult op sz n v x) :=
  shiftIterate_succ op sz n _

theorem shiftStep_lt (op : ShiftOp) {t : ShiftState} (ht : t.v.toNat < 2 ^ sz.bits) :
    (shiftStep op sz t).v.toNat < 2 ^ sz.bits := by
  cases op with
  | asl | lsl | rol | roxl => exact shiftLeft1_lt sz _ _
  | asr | lsr | ror | roxr => exact shiftRight1_lt ht _

theorem shiftResult_lt (hv : v.toNat < 2 ^ sz.bits) (op : ShiftOp) (n : Nat) (x : Bool) :
    (shiftResult op sz n v x).v.toNat < 2 ^ sz.bits := by
  induction n with
  | zero => exact hv
  | succ n ih => exact shiftResult_succ .. ▸ shiftStep_lt op ih

theorem shiftResult_ov {op : ShiftOp} (hop : op ≠ .asl) (sz : Size) (n : Nat) (v : Long) (x : Bool) :
    (shiftResult op sz n v x).ov = false := by
  induction n with
  | zero => rfl
  | succ n ih =>
    rw [shiftResult_succ, ← ih]
    cases op with
    | asl => exact absurd rfl hop
    | _ => rfl

/-- The shifts set X and C alike. -/
theorem shiftResult_x_of_shift {op : ShiftOp} (hop : op ∈ [ShiftOp.asl, .asr, .lsl, .lsr]) (sz : Size) (n : Nat)
    (v : Long) (x : Bool) :
    (shiftResult op sz n v x).x = if n = 0 then x else (shiftResult op sz n v x).c := by
  cases n with
  | zero => rfl
  | succ n =>
    rw [if_neg n.succ_ne_zero, shiftResult_succ]
    fin_cases hop <;> rfl

/-- The rotates leave X alone. -/
theorem shiftResult_x_of_rotate {op : ShiftOp} (hop : op = .rol ∨ op = .ror) (sz : Size) (n : Nat) (v : Long)
    (x : Bool) : (shiftResult op sz n v x).x = x := by
  induction n with
  | zero => rfl
  | succ n ih =>
    rw [shiftResult_succ]
    obtain rfl | rfl := hop <;> exact ih

/-- The rotates through extend begin with C equal to X and set them alike. -/
theorem shiftResult_c_of_extend {op : ShiftOp} (hop : op = .roxl ∨ op = .roxr) (sz : Size) (n : Nat) (v : Long)
    (x : Bool) : (shiftResult op sz n v x).c = (shiftResult op sz n v x).x := by
  cases n with
  | zero => obtain rfl | rfl := hop <;> rfl
  | succ n =>
    rw [shiftResult_succ]
    obtain rfl | rfl := hop <;> rfl

/-! ## Shifts to the left -/

/-- The bit that the sign position holds after `k` steps to the left. -/
def signAfter (sz : Size) (v : Long) (k : Nat) : Bool := decide (k < sz.bits) && v.getLsbD (sz.bits - 1 - k)

theorem shiftLeft1_trunc (sz : Size) (v : Long) (n : Nat) :
    shiftLeft1 sz (sz.trunc (v <<< n)) false = sz.trunc (v <<< (n + 1)) := by
  have hbits := sz.bits_bounds
  refine BitVec.eq_of_getLsbD_eq fun i hi => ?_
  by_cases hlt : i < sz.bits
  · rw [getLsbD_shiftLeft1 _ _ hlt, sz.getLsbD_trunc, sz.getLsbD_trunc, BitVec.getLsbD_shiftLeft,
      BitVec.getLsbD_shiftLeft]
    grind
  · rw [Size.getLsbD_of_le (shiftLeft1_lt ..) (by omega), Size.getLsbD_of_le (sz.toNat_trunc_lt _) (by omega)]

theorem shiftResult_left_v {op : ShiftOp} (hop : op = .asl ∨ op = .lsl) (hv : v.toNat < 2 ^ sz.bits) (n : Nat)
    (x : Bool) : (shiftResult op sz n v x).v = sz.trunc (v <<< n) := by
  induction n with
  | zero => rw [BitVec.shiftLeft_zero, Size.trunc_of_lt hv]; rfl
  | succ n ih =>
    rw [shiftResult_succ, ← shiftLeft1_trunc, ← ih]
    obtain rfl | rfl := hop <;> rfl

theorem shiftResult_asl_v (hv : v.toNat < 2 ^ sz.bits) (n : Nat) (x : Bool) :
    (shiftResult .asl sz n v x).v = sz.trunc (v <<< n) :=
  shiftResult_left_v (.inl rfl) hv n x

theorem shiftResult_lsl_v (hv : v.toNat < 2 ^ sz.bits) (n : Nat) (x : Bool) :
    (shiftResult .lsl sz n v x).v = sz.trunc (v <<< n) :=
  shiftResult_left_v (.inr rfl) hv n x

theorem msb_trunc_shiftLeft (sz : Size) (v : Long) (n : Nat) : sz.msb (sz.trunc (v <<< n)) = signAfter sz v n := by
  have hbits := sz.bits_bounds
  rw [sz.msb_eq_getLsbD, sz.getLsbD_trunc, BitVec.getLsbD_shiftLeft, signAfter]
  grind

theorem shiftResult_lsl_c (hv : v.toNat < 2 ^ sz.bits) (n : Nat) (x : Bool) :
    (shiftResult .lsl sz n v x).c = (decide (0 < n ∧ n ≤ sz.bits) && v.getLsbD (sz.bits - n)) := by
  cases n with
  | zero => rfl
  | succ n =>
    have hc : (shiftStep .lsl sz (shiftResult .lsl sz n v x)).c = sz.msb (shiftResult .lsl sz n v x).v := rfl
    rw [shiftResult_succ, hc, shiftResult_lsl_v hv, msb_trunc_shiftLeft, signAfter]
    grind

theorem shiftResult_asl_c (hv : v.toNat < 2 ^ sz.bits) (n : Nat) (x : Bool) :
    (shiftResult .asl sz n v x).c = (shiftResult .lsl sz n v x).c := by
  cases n with
  | zero => rfl
  | succ n =>
    have hc : sz.msb (shiftResult .asl sz n v x).v = sz.msb (shiftResult .lsl sz n v x).v := by
      rw [shiftResult_asl_v hv, shiftResult_lsl_v hv]
    rw [shiftResult_succ, shiftResult_succ]
    exact hc

/-- V of ASL: the sign has differed from the first one on the way. -/
theorem shiftResult_asl_ov_iff (hv : v.toNat < 2 ^ sz.bits) (n : Nat) (x : Bool) :
    (shiftResult .asl sz n v x).ov = true ↔ ∃ k ≤ n, signAfter sz v k ≠ signAfter sz v 0 := by
  induction n with
  | zero => simp [shiftResult, shiftIterate]
  | succ n ih =>
    have hov : (shiftResult .asl sz (n + 1) v x).ov
        = ((shiftResult .asl sz n v x).ov || signAfter sz v (n + 1) != signAfter sz v n) := by
      rw [← msb_trunc_shiftLeft, ← msb_trunc_shiftLeft, ← shiftResult_asl_v hv _ x, ← shiftResult_asl_v hv _ x,
        shiftResult_succ]
      rfl
    rw [hov, Bool.or_eq_true, ih, bne_iff_ne]
    constructor
    · rintro (⟨k, hk, hne⟩ | hne)
      · exact ⟨k, by omega, hne⟩
      · by_cases hn : signAfter sz v n = signAfter sz v 0
        · exact ⟨n + 1, le_rfl, hn ▸ hne⟩
        · exact ⟨n, by omega, hn⟩
    · rintro ⟨k, hk, hne⟩
      by_cases hn : signAfter sz v n = signAfter sz v 0
      · obtain rfl | hle : k = n + 1 ∨ k ≤ n := by omega
        · exact .inr (hn ▸ hne)
        · exact .inl ⟨k, hle, hne⟩
      · exact .inl ⟨n, le_rfl, hn⟩

theorem shiftResult_asl_ov_iff_of_lt (hv : v.toNat < 2 ^ sz.bits) (hn : n < sz.bits) (x : Bool) :
    (shiftResult .asl sz n v x).ov = true ↔
      ∃ k ≤ n, v.getLsbD (sz.bits - 1 - k) ≠ v.getLsbD (sz.bits - 1) := by
  have hsign {k : Nat} (hk : k ≤ n) : signAfter sz v k = v.getLsbD (sz.bits - 1 - k) := by
    rw [signAfter, decide_eq_true (by omega), Bool.true_and]
  rw [shiftResult_asl_ov_iff hv]
  exact exists_congr fun k => and_congr_right fun hk => by rw [hsign hk, hsign n.zero_le, Nat.sub_zero]

/-- Every bit has passed the sign position, and a 0 after them. -/
theorem shiftResult_asl_ov_iff_of_le (hv : v.toNat < 2 ^ sz.bits) (hn : sz.bits ≤ n) (x : Bool) :
    (shiftResult .asl sz n v x).ov = true ↔ v ≠ 0 := by
  rw [shiftResult_asl_ov_iff hv]
  constructor
  · rintro ⟨k, -, hne⟩ rfl
    simp [signAfter] at hne
  · intro hne
    obtain ⟨i, hi, hbit⟩ : ∃ i < sz.bits, v.getLsbD i = true := by
      by_contra! hall
      refine hne (BitVec.eq_of_getLsbD_eq fun i _ => ?_)
      by_cases hi : i < sz.bits
      · simpa using hall i hi
      · simpa using Size.getLsbD_of_le hv (Nat.le_of_not_lt hi)
    have hset : signAfter sz v (sz.bits - 1 - i) = true := by
      rw [signAfter, decide_eq_true (by omega), Nat.sub_sub_self (by omega), hbit, Bool.true_and]
    have hclear : signAfter sz v sz.bits = false := by simp [signAfter]
    cases hfirst : signAfter sz v 0 with
    | true => exact ⟨sz.bits, hn, by simp [hclear]⟩
    | false => exact ⟨sz.bits - 1 - i, by omega, by simp [hset]⟩

/-! ## Shifts to the right -/

theorem shiftResult_lsr_v (sz : Size) (n : Nat) (v : Long) (x : Bool) : (shiftResult .lsr sz n v x).v = v >>> n := by
  induction n with
  | zero => rfl
  | succ n ih =>
    rw [shiftResult_succ, BitVec.shiftRight_add, ← ih]
    exact shiftRight1_false ..

theorem shiftResult_lsr_c (sz : Size) (n : Nat) (v : Long) (x : Bool) :
    (shiftResult .lsr sz n v x).c = (decide (0 < n) && v.getLsbD (n - 1)) := by
  cases n with
  | zero => rfl
  | succ n =>
    have hc : (shiftStep .lsr sz (shiftResult .lsr sz n v x)).c = (shiftResult .lsr sz n v x).v.getLsbD 0 := rfl
    rw [shiftResult_succ, hc, shiftResult_lsr_v, BitVec.getLsbD_ushiftRight]
    simp

/-- The sign bit is repeated into the places left free. -/
theorem getLsbD_shiftResult_asr (hv : v.toNat < 2 ^ sz.bits) (n : Nat) (x : Bool) {i : Nat} (hi : i < sz.bits) :
    (shiftResult .asr sz n v x).v.getLsbD i = v.getLsbD (min (n + i) (sz.bits - 1)) := by
  induction n generalizing i with
  | zero => rw [Nat.zero_add, Nat.min_eq_left (by omega)]; rfl
  | succ n ih =>
    let t := shiftResult .asr sz n v x
    have hstep : (shiftStep .asr sz t).v = shiftRight1 sz t.v (t.v.getLsbD (sz.bits - 1)) :=
      congrArg (shiftRight1 sz t.v) (sz.msb_eq_getLsbD t.v)
    rw [shiftResult_succ, hstep, getLsbD_shiftRight1 (shiftResult_lt hv ..)]
    split
    next htop => rw [ih (by omega)]; congr 1; omega
    next hlow => rw [ih (by omega)]; congr 1; omega

theorem shiftResult_asr_v (hv : v.toNat < 2 ^ sz.bits) (n : Nat) (x : Bool) :
    (shiftResult .asr sz n v x).v = sz.trunc ((sz.sext v).sshiftRight n) := by
  have hbits := sz.bits_bounds
  refine BitVec.eq_of_getLsbD_eq fun i hi => ?_
  by_cases hlt : i < sz.bits
  · rw [getLsbD_shiftResult_asr hv n x hlt, sz.getLsbD_trunc, BitVec.getLsbD_sshiftRight,
      BitVec.msb_eq_getLsbD_last, sz.getLsbD_sext v (i := 32 - 1) (by decide), decide_eq_true hlt,
      decide_eq_false (Nat.not_le.mpr hi), Bool.true_and, Bool.not_false, Bool.true_and]
    split
    next hin => rw [sz.getLsbD_sext v hin]
    next hout => congr 1; omega
  · rw [Size.getLsbD_of_le (shiftResult_lt hv ..) (by omega), Size.getLsbD_of_le (sz.toNat_trunc_lt _) (by omega)]

theorem shiftResult_asr_c (hv : v.toNat < 2 ^ sz.bits) (n : Nat) (x : Bool) :
    (shiftResult .asr sz n v x).c = (decide (0 < n) && v.getLsbD (min n sz.bits - 1)) := by
  have hbits := sz.bits_bounds
  cases n with
  | zero => rfl
  | succ n =>
    have hc : (shiftStep .asr sz (shiftResult .asr sz n v x)).c = (shiftResult .asr sz n v x).v.getLsbD 0 := rfl
    rw [shiftResult_succ, hc, getLsbD_shiftResult_asr hv n x (by omega), decide_eq_true n.succ_pos, Bool.true_and]
    congr 1
    omega

/-! ## Rotations -/

/-- The bits that ROL and ROR rotate. -/
def ShiftState.ring (t : ShiftState) (sz : Size) : BitVec sz.bits := t.v.setWidth sz.bits

/-- The bits that ROXL and ROXR rotate: X above the operand. -/
def ShiftState.ringX (t : ShiftState) (sz : Size) : BitVec (sz.bits + 1) := .cons t.x (t.ring sz)

theorem ShiftState.toNat_ring {t : ShiftState} (ht : t.v.toNat < 2 ^ sz.bits) : (t.ring sz).toNat = t.v.toNat :=
  (BitVec.toNat_setWidth ..).trans (Nat.mod_eq_of_lt ht)

theorem ShiftState.toNat_ringX {t : ShiftState} (ht : t.v.toNat < 2 ^ sz.bits) :
    (t.ringX sz).toNat = bitNat t.x * 2 ^ sz.bits + t.v.toNat := by
  rw [ringX, BitVec.toNat_cons', toNat_ring ht, Nat.shiftLeft_eq, bitNat_eq_toNat]

theorem ShiftState.getLsbD_ring (t : ShiftState) {i : Nat} (hi : i < sz.bits) :
    (t.ring sz).getLsbD i = t.v.getLsbD i := by
  rw [ring, BitVec.getLsbD_setWidth, decide_eq_true hi, Bool.true_and]

theorem ShiftState.getLsbD_ringX (t : ShiftState) {i : Nat} (hi : i < sz.bits + 1) :
    (t.ringX sz).getLsbD i = if i = sz.bits then t.x else t.v.getLsbD i := by
  rw [ringX, BitVec.getLsbD_cons]
  split
  next => rfl
  next hne => rw [t.getLsbD_ring (by omega)]

theorem ShiftState.v_eq_of_ring {t u : ShiftState} (ht : t.v.toNat < 2 ^ sz.bits) (hu : u.v.toNat < 2 ^ sz.bits)
    (h : t.ring sz = u.ring sz) : t.v = u.v :=
  BitVec.eq_of_toNat_eq (by rw [← toNat_ring ht, h, toNat_ring hu])

theorem ShiftState.eq_of_ringX {t u : ShiftState} (ht : t.v.toNat < 2 ^ sz.bits) (hu : u.v.toNat < 2 ^ sz.bits)
    (h : t.ringX sz = u.ringX sz) : t.v = u.v ∧ t.x = u.x := by
  have hx : (t.ringX sz).msb = (u.ringX sz).msb := by rw [h]
  have hv : (t.ringX sz).setWidth sz.bits = (u.ringX sz).setWidth sz.bits := by rw [h]
  simp only [ringX, BitVec.msb_cons, BitVec.setWidth_cons] at hx hv
  exact ⟨v_eq_of_ring ht hu hv, hx⟩

theorem ring_shiftStep_rol (sz : Size) (t : ShiftState) :
    (shiftStep .rol sz t).ring sz = (t.ring sz).rotateLeft 1 := by
  have hbits := sz.bits_bounds
  refine BitVec.eq_of_getLsbD_eq fun i hi => ?_
  have hstep : (shiftStep .rol sz t).v = shiftLeft1 sz t.v (t.v.getLsbD (sz.bits - 1)) :=
    congrArg (shiftLeft1 sz t.v) (sz.msb_eq_getLsbD t.v)
  rw [getLsbD_rotateLeft_one (by omega) hi, ShiftState.getLsbD_ring _ hi, ShiftState.getLsbD_ring _ (by omega),
    ShiftState.getLsbD_ring _ (by omega), hstep, getLsbD_shiftLeft1 _ _ hi]

/-- A step of ROR is undone by a rotation to the left. -/
theorem ring_shiftStep_ror {t : ShiftState} (ht : t.v.toNat < 2 ^ sz.bits) :
    t.ring sz = ((shiftStep .ror sz t).ring sz).rotateLeft 1 := by
  have hbits := sz.bits_bounds
  refine BitVec.eq_of_getLsbD_eq fun i hi => ?_
  have hstep : (shiftStep .ror sz t).v = shiftRight1 sz t.v (t.v.getLsbD 0) := rfl
  rw [getLsbD_rotateLeft_one (by omega) hi, ShiftState.getLsbD_ring _ hi, ShiftState.getLsbD_ring _ (by omega),
    ShiftState.getLsbD_ring _ (by omega), hstep, getLsbD_shiftRight1 ht, getLsbD_shiftRight1 ht]
  grind

theorem ringX_shiftStep_roxl (sz : Size) (t : ShiftState) :
    (shiftStep .roxl sz t).ringX sz = (t.ringX sz).rotateLeft 1 := by
  have hbits := sz.bits_bounds
  refine BitVec.eq_of_getLsbD_eq fun i hi => ?_
  have hx : (shiftStep .roxl sz t).x = t.v.getLsbD (sz.bits - 1) := sz.msb_eq_getLsbD t.v
  have hstep : (shiftStep .roxl sz t).v = shiftLeft1 sz t.v t.x := rfl
  rw [getLsbD_rotateLeft_one (by omega) hi, ShiftState.getLsbD_ringX _ hi, ShiftState.getLsbD_ringX _ (by omega),
    ShiftState.getLsbD_ringX _ (by omega), hx, hstep]
  split
  next htop => grind
  next hlow => rw [getLsbD_shiftLeft1 _ _ (by omega)]; grind

/-- A step of ROXR is undone by a rotation to the left. -/
theorem ringX_shiftStep_roxr {t : ShiftState} (ht : t.v.toNat < 2 ^ sz.bits) :
    t.ringX sz = ((shiftStep .roxr sz t).ringX sz).rotateLeft 1 := by
  have hbits := sz.bits_bounds
  refine BitVec.eq_of_getLsbD_eq fun i hi => ?_
  have hx : (shiftStep .roxr sz t).x = t.v.getLsbD 0 := rfl
  have hstep : (shiftStep .roxr sz t).v = shiftRight1 sz t.v t.x := rfl
  rw [getLsbD_rotateLeft_one (by omega) hi, ShiftState.getLsbD_ringX _ hi, ShiftState.getLsbD_ringX _ (by omega),
    ShiftState.getLsbD_ringX _ (by omega), hx, hstep, getLsbD_shiftRight1 ht, getLsbD_shiftRight1 ht]
  grind

section
variable {op : ShiftOp} {w : Nat} {ring : ShiftState → BitVec w}

/-- Steps that each rotate a ring of bits to the left rotate it by their number. -/
theorem shiftIterate_rotateLeft (hstep : ∀ t, ring (shiftStep op sz t) = (ring t).rotateLeft 1) (n : Nat)
    (t : ShiftState) : ring (shiftIterate op sz n t) = (ring t).rotateLeft n := by
  induction n with
  | zero => exact (rotateLeft_zero _).symm
  | succ n ih => rw [shiftIterate_succ, hstep, ih, ← rotateLeft_succ]

/-- Steps that are each undone by a rotation to the left rotate to the right by their number. -/
theorem shiftIterate_rotateRight
    (hstep : ∀ t, t.v.toNat < 2 ^ sz.bits → ring t = (ring (shiftStep op sz t)).rotateLeft 1) (n : Nat)
    {t : ShiftState} (ht : t.v.toNat < 2 ^ sz.bits) :
    ring (shiftIterate op sz n t) = (ring t).rotateRight n := by
  have hback : ring t = (ring (shiftIterate op sz n t)).rotateLeft n := by
    induction n generalizing t with
    | zero => exact (rotateLeft_zero _).symm
    | succ n ih => rw [hstep t ht, ih (shiftStep_lt op ht), ← rotateLeft_succ]; rfl
  rw [hback, rotateRight_rotateLeft]

end

theorem ring_shiftResult_rol (sz : Size) (n : Nat) (v : Long) (x : Bool) :
    (shiftResult .rol sz n v x).ring sz = (v.setWidth sz.bits).rotateLeft n :=
  shiftIterate_rotateLeft (ring := (·.ring sz)) (ring_shiftStep_rol sz) n _

theorem ring_shiftResult_ror (hv : v.toNat < 2 ^ sz.bits) (n : Nat) (x : Bool) :
    (shiftResult .ror sz n v x).ring sz = (v.setWidth sz.bits).rotateRight n :=
  shiftIterate_rotateRight (ring := (·.ring sz)) (fun _ => ring_shiftStep_ror) n hv

theorem ringX_shiftResult_roxl (sz : Size) (n : Nat) (v : Long) (x : Bool) :
    (shiftResult .roxl sz n v x).ringX sz = (BitVec.cons x (v.setWidth sz.bits)).rotateLeft n :=
  shiftIterate_rotateLeft (ring := (·.ringX sz)) (ringX_shiftStep_roxl sz) n _

theorem ringX_shiftResult_roxr (hv : v.toNat < 2 ^ sz.bits) (n : Nat) (x : Bool) :
    (shiftResult .roxr sz n v x).ringX sz = (BitVec.cons x (v.setWidth sz.bits)).rotateRight n :=
  shiftIterate_rotateRight (ring := (·.ringX sz)) (fun _ => ringX_shiftStep_roxr) n hv

theorem toNat_trunc_shiftLeft (sz : Size) (v : Long) (n : Nat) :
    (sz.trunc (v <<< n)).toNat = v.toNat <<< n % 2 ^ sz.bits := by
  rw [sz.toNat_trunc, BitVec.toNat_shiftLeft, Nat.mod_mod_of_dvd _ (Nat.pow_dvd_pow 2 sz.bits_bounds.2)]

theorem shiftResult_rol_v (hv : v.toNat < 2 ^ sz.bits) (n : Nat) (x : Bool) :
    (shiftResult .rol sz n v x).v = sz.trunc (v <<< (n % sz.bits)) ||| v >>> (sz.bits - n % sz.bits) := by
  refine BitVec.eq_of_toNat_eq ?_
  rw [← ShiftState.toNat_ring (shiftResult_lt hv ..), ring_shiftResult_rol, BitVec.toNat_rotateLeft, BitVec.toNat_or,
    toNat_trunc_shiftLeft, BitVec.toNat_ushiftRight, BitVec.toNat_setWidth, Nat.mod_eq_of_lt hv]

theorem shiftResult_ror_v (hv : v.toNat < 2 ^ sz.bits) (n : Nat) (x : Bool) :
    (shiftResult .ror sz n v x).v = v >>> (n % sz.bits) ||| sz.trunc (v <<< (sz.bits - n % sz.bits)) := by
  refine BitVec.eq_of_toNat_eq ?_
  rw [← ShiftState.toNat_ring (shiftResult_lt hv ..), ring_shiftResult_ror hv, BitVec.toNat_rotateRight,
    BitVec.toNat_or, toNat_trunc_shiftLeft, BitVec.toNat_ushiftRight, BitVec.toNat_setWidth, Nat.mod_eq_of_lt hv]

/-- A full turn. -/
theorem shiftResult_rol_width (hv : v.toNat < 2 ^ sz.bits) (x : Bool) : (shiftResult .rol sz sz.bits v x).v = v :=
  ShiftState.v_eq_of_ring (u := shiftResult .rol sz 0 v x) (shiftResult_lt hv ..) hv
    ((ring_shiftResult_rol ..).trans (rotateLeft_width _))

/-- A full turn of the operand with X. -/
theorem shiftResult_roxl_width (hv : v.toNat < 2 ^ sz.bits) (x : Bool) :
    (shiftResult .roxl sz (sz.bits + 1) v x).v = v ∧ (shiftResult .roxl sz (sz.bits + 1) v x).x = x :=
  ShiftState.eq_of_ringX (u := shiftResult .roxl sz 0 v x) (shiftResult_lt hv ..) hv
    ((ringX_shiftResult_roxl ..).trans (rotateLeft_width _))

theorem shiftResult_ror_rol (hv : v.toNat < 2 ^ sz.bits) (n : Nat) (x : Bool) :
    (shiftResult .ror sz n (shiftResult .rol sz n v x).v x).v = v := by
  have hrol := shiftResult_lt hv .rol n x
  refine ShiftState.v_eq_of_ring (u := shiftResult .rol sz 0 v x) (shiftResult_lt hrol ..) hv ?_
  rw [ring_shiftResult_ror hrol]
  exact (congrArg (·.rotateRight n) (ring_shiftResult_rol sz n v x)).trans (rotateRight_rotateLeft _ n)

/-- C of ROL is the bit that went round last. -/
theorem shiftResult_rol_c (sz : Size) (n : Nat) (v : Long) (x : Bool) :
    (shiftResult .rol sz n v x).c = (decide (0 < n) && (shiftResult .rol sz n v x).v.getLsbD 0) := by
  have hbits := sz.bits_bounds
  cases n with
  | zero => rfl
  | succ n =>
    let t := shiftResult .rol sz n v x
    have hstep : (shiftLeft1 sz t.v (sz.msb t.v)).getLsbD 0 = sz.msb t.v := getLsbD_shiftLeft1 _ _ (by omega)
    rw [shiftResult_succ, decide_eq_true n.succ_pos, Bool.true_and]
    exact hstep.symm

/-- C of ROR is the bit that went round last. -/
theorem shiftResult_ror_c (hv : v.toNat < 2 ^ sz.bits) (n : Nat) (x : Bool) :
    (shiftResult .ror sz n v x).c = (decide (0 < n) && sz.msb (shiftResult .ror sz n v x).v) := by
  cases n with
  | zero => rfl
  | succ n =>
    let t := shiftResult .ror sz n v x
    have hstep : sz.msb (shiftRight1 sz t.v (t.v.getLsbD 0)) = t.v.getLsbD 0 := by
      rw [sz.msb_eq_getLsbD, getLsbD_shiftRight1 (shiftResult_lt hv ..), if_pos rfl]
    rw [shiftResult_succ, decide_eq_true n.succ_pos, Bool.true_and]
    exact hstep.symm

/-- X and the operand as one number. -/
theorem toNat_cons_setWidth (hv : v.toNat < 2 ^ sz.bits) (x : Bool) :
    (BitVec.cons x (v.setWidth sz.bits)).toNat = bitNat x * 2 ^ sz.bits + v.toNat :=
  ShiftState.toNat_ringX (t := shiftResult .roxl sz 0 v x) hv

theorem shiftResult_roxl_joined (hv : v.toNat < 2 ^ sz.bits) (n : Nat) (x : Bool) :
    let t := shiftResult .roxl sz n v x
    let both := bitNat x * 2 ^ sz.bits + v.toNat
    let k := n % (sz.bits + 1)
    bitNat t.x * 2 ^ sz.bits + t.v.toNat
      = both * 2 ^ k % 2 ^ (sz.bits + 1) + both / 2 ^ (sz.bits + 1 - k) := by
  intro t both k
  rw [← ShiftState.toNat_ringX (shiftResult_lt hv ..), ringX_shiftResult_roxl, toNat_rotateLeft_eq_add _ _ (by omega),
    toNat_cons_setWidth hv]

theorem shiftResult_roxr_joined (hv : v.toNat < 2 ^ sz.bits) (n : Nat) (x : Bool) :
    let t := shiftResult .roxr sz n v x
    let both := bitNat x * 2 ^ sz.bits + v.toNat
    let k := n % (sz.bits + 1)
    bitNat t.x * 2 ^ sz.bits + t.v.toNat = both / 2 ^ k + both % 2 ^ k * 2 ^ (sz.bits + 1 - k) := by
  intro t both k
  rw [← ShiftState.toNat_ringX (shiftResult_lt hv ..), ringX_shiftResult_roxr hv,
    toNat_rotateRight_eq_add _ _ (by omega), toNat_cons_setWidth hv]

/-- Settles O36: the shifts by their bits, the rotates as rotations of their rings. -/
theorem shiftClosedForms : Obligations.ShiftClosedForms := by
  intro sz n v x hv
  have hrolc : (shiftResult .rol sz sz.bits v x).c = v.getLsbD 0 := by
    have hbits := sz.bits_bounds
    rw [shiftResult_rol_c, shiftResult_rol_width hv, decide_eq_true (by omega), Bool.true_and]
  have hov : ∀ op ∈ [ShiftOp.asr, .lsl, .lsr, .rol, .ror, .roxl, .roxr], (shiftResult op sz n v x).ov = false := by
    intro op hop
    exact shiftResult_ov (by rintro rfl; simp at hop) ..
  refine ⟨⟨shiftResult_lsl_v hv n x, shiftResult_lsl_c hv n x, shiftResult_asl_v hv n x⟩,
    ⟨shiftResult_lsr_v .., shiftResult_lsr_c ..⟩, fun _ hn => shiftResult_asl_ov_iff_of_lt hv hn x,
    ⟨shiftResult_rol_width hv x, hrolc⟩, shiftResult_roxl_width hv x, shiftResult_ror_rol hv n x, ?_⟩
  intro after w m k both joined
  refine ⟨⟨shiftResult_asr_v hv n x, shiftResult_asr_c hv n x⟩, shiftResult_asl_c hv n x, ?_,
    fun hn => shiftResult_asl_ov_iff_of_le hv hn x, fun op hop => shiftResult_x_of_shift hop ..,
    ⟨shiftResult_rol_v hv n x, shiftResult_x_of_rotate (.inl rfl) .., shiftResult_rol_c ..⟩,
    ⟨shiftResult_ror_v hv n x, shiftResult_x_of_rotate (.inr rfl) .., shiftResult_ror_c hv n x⟩,
    ⟨shiftResult_roxl_joined hv n x, shiftResult_c_of_extend (.inl rfl) ..⟩,
    ⟨shiftResult_roxr_joined hv n x, shiftResult_c_of_extend (.inr rfl) ..⟩, hov⟩
  rintro rfl
  rfl

end Sys2Proof.Machine
end

section
/-! LAWS AND CERTIFICATE. The rules of the shifts and rotates (R295 to R305): a data register in every state, a word of
memory where the bus serves. A memory shift is one step on a word, written out here on the word itself. -/

namespace Sys2Proof.Machine

/-! ## Registers -/

theorem shiftReg_run (op : ShiftOp) (c : ShiftCount) (sz : Size) (dy : RegNo) (s : State) :
    let u := shiftResult op sz (shiftCount c s) (sz.trunc (s.readD dy)) s.sr.x
    runPlain (shiftReg op c sz dy) s = .next
      { (s.after 1).writeD dy (sz.merge (s.readD dy) u.v) with sr := s.sr.shift sz u } := by
  intro u
  have hcount : shiftCount c (s.after 1) = shiftCount c s := by cases c <;> rfl
  rw [shiftReg, runPlain_modify]
  simp only [hcount, State.readD_after, State.after_sr, u]

/-- Settles O34: the eight rules are `shiftReg`; the statement writes `shiftCount` and the flags out. -/
theorem shiftRegisterResults : Obligations.ShiftRegisterResults := by
  intro s c sz dy n yields
  have hcount : shiftCount c s = n := by cases c <;> rfl
  have hrun (op : ShiftOp) := shiftReg_run op c sz dy s
  rw [hcount] at hrun
  exact ⟨hrun .asl, hrun .asr, hrun .lsl, hrun .lsr, hrun .rol, hrun .ror, hrun .roxl, hrun .roxr⟩

/-! ## One step on a word -/

theorem getLsbD_ofWord (v : Word) (i : Nat) : (ofWord v).getLsbD i = v.getLsbD i := by
  rw [ofWord, BitVec.getLsbD_setWidth]
  grind

theorem toNat_ofWord_lt (v : Word) : (ofWord v).toNat < 2 ^ Size.w.bits :=
  (BitVec.toNat_setWidth_of_le (by decide)).trans_lt v.isLt

theorem shiftLeft1_ofWord (v : Word) (b : Bool) :
    shiftLeft1 .w (ofWord v) b = ofWord (v.extractLsb' 0 15 ++ BitVec.ofBool b) := by
  refine BitVec.eq_of_getLsbD_eq fun i _ => ?_
  by_cases hi : i < Size.w.bits
  · rw [getLsbD_shiftLeft1 _ _ hi, getLsbD_ofWord, getLsbD_ofWord, BitVec.getLsbD_append, BitVec.getLsbD_extractLsb',
      BitVec.getLsbD_ofBool]
    simp only [Size.bits] at hi
    grind
  · rw [Size.getLsbD_of_le (shiftLeft1_lt ..) (by omega), Size.getLsbD_of_le (toNat_ofWord_lt _) (by omega)]

theorem shiftRight1_ofWord (v : Word) (b : Bool) :
    shiftRight1 .w (ofWord v) b = ofWord (BitVec.ofBool b ++ v.extractLsb' 1 15) := by
  refine BitVec.eq_of_getLsbD_eq fun i _ => ?_
  rw [getLsbD_shiftRight1 (toNat_ofWord_lt v), getLsbD_ofWord, getLsbD_ofWord, BitVec.getLsbD_append,
    BitVec.getLsbD_extractLsb', BitVec.getLsbD_ofBool, Size.bits]
  split
  next htop => simp [htop]
  next hlow => grind

/-- The flags of a word result. -/
theorem shift_ofWord (sr : StatusReg) (r : Word) (c x ov : Bool) :
    sr.shift .w ⟨ofWord r, c, x, ov⟩ = { sr with x := x, n := r.msb, z := r == 0, v := ov, c := c } := by
  have hlogic : sr.shift .w ⟨ofWord r, c, x, ov⟩ = { sr.logic .w (ofWord r) with x := x, v := ov, c := c } := rfl
  rw [hlogic, logic_ofWord]

/-! ## Memory -/

/-- The memory form as an update of a word (R305): one step. -/
def shiftUpdate (op : ShiftOp) : Update := fun d sr =>
  let t := shiftStep op .w ⟨d, op.carryIn sr.x, sr.x, false⟩
  (t.v, sr.shift .w t)

theorem shiftMem_eq (op : ShiftOp) (ea : EA) :
    shiftMem op ea = resolveEA ea .w >>= fun loc => updateLocFlagsFirst loc .w (shiftUpdate op) := rfl

/-- A word in memory is its low word. -/
theorem operand_of_isMem {s : State} {loc : Loc} (hmem : loc.isMem = true) :
    s.operand loc .w = ofWord (lowWord (s.operand loc .w)) := by
  obtain ⟨a, fc, lf, rfl⟩ := Loc.isMem_iff.mp hmem
  have hword : s.operand (.mem a fc lf) .w = ofWord (s.peekWord fc a) := rfl
  rw [hword, lowWord_ofWord]

/-- A memory shift as an instruction's rule, given what its step makes of the word. -/
theorem shiftMem_yields {s : State} (h : s.Ready) {ea : EA} {op : ShiftOp} {r : Word} {c x ov : Bool} :
    let loc := eaLoc ea .w (s.after 1)
    let t := eaStep ea .w (s.after (1 + eaWords ea))
    loc.Accessible .w → loc.isMem = true →
    shiftStep op .w ⟨ofWord (lowWord (t.operand loc .w)), op.carryIn s.sr.x, s.sr.x, false⟩
      = ⟨ofWord r, c, x, ov⟩ →
      YieldsStoring (runPlain (shiftMem op ea) s)
        { t.putReg loc .w (ofWord r) with sr := { s.sr with x := x, n := r.msb, z := r == 0, v := ov, c := c } }
        loc .w (ofWord r) := by
  intro loc t ha hmem hstep
  have hsr : t.sr = s.sr := eaStep_sr ..
  have hu : shiftUpdate op (t.operand loc .w) t.sr
      = (ofWord r, { s.sr with x := x, n := r.msb, z := r == 0, v := ov, c := c }) := by
    rw [operand_of_isMem hmem, hsr, shiftUpdate, hstep, shift_ofWord]
  have hresolve := resolveEA_serves (h.after 1) ea .w
  rw [State.after_after] at hresolve
  have hupdate := updateLocFlagsFirst_serves ((h.after (1 + eaWords ea)).eaStep ea .w).1 ha (shiftUpdate op)
    (by rw [hu, hsr])
  rw [hu] at hupdate
  rw [shiftMem_eq]
  exact (ServesStoring.before hresolve hupdate).runPlain

/-- Settles O35: what each of the eight steps makes of a word. -/
theorem shiftMemoryResults : Obligations.ShiftMemoryResults := by
  intro s ea h loc t v left right hi lo yields ha hmem
  have htop : Size.w.msb (ofWord v) = hi := getLsbD_ofWord v 15
  have hbottom : (ofWord v).getLsbD 0 = lo := getLsbD_ofWord v 0
  have hleft (b : Bool) : shiftLeft1 .w (ofWord v) b = ofWord (left b) := shiftLeft1_ofWord v b
  have hright (b : Bool) : shiftRight1 .w (ofWord v) b = ofWord (right b) := shiftRight1_ofWord v b
  have hsign : (Size.w.msb (ofWord (left false)) != hi) = (v.getLsbD 15 != v.getLsbD 14) := by
    have hnext : Size.w.msb (ofWord (left false)) = v.getLsbD 14 := by
      rw [← hleft, Size.msb_eq_getLsbD, getLsbD_shiftLeft1 _ _ (by decide)]
      exact getLsbD_ofWord v 14
    rw [hnext, bne_comm]
  have hrule {op : ShiftOp} {r : Word} {c x ov : Bool}
      (hstep : shiftStep op .w ⟨ofWord v, op.carryIn s.sr.x, s.sr.x, false⟩ = ⟨ofWord r, c, x, ov⟩) :=
    shiftMem_yields h ha hmem hstep
  refine ⟨hrule ?asl, hrule ?asr, hrule ?lsl, hrule ?lsr, hrule ?rol, hrule ?ror, hrule ?roxl, hrule ?roxr⟩
  case asl => simp only [shiftStep, htop, hleft, hsign, Bool.false_or]
  all_goals simp only [shiftStep, htop, hbottom, hleft, hright]

end Sys2Proof.Machine
end

section
/-! LAWS AND CERTIFICATE. The rules of the bit instructions (R315 to R319): where the bit number comes from, then the
test and the change of an operand, for any source of the number. -/

namespace Sys2Proof.Machine

/-! ## The operand and the bit number -/

theorem bitSize_eq (ea : EA) : bitSize ea = if ea.mode = .dreg then .l else .b := by cases ea <;> rfl

/-- What the bit instructions take from memory is a byte, which stands at any address. -/
theorem accessible_of_bitSize {ea : EA} {sz : Size} (hsz : bitSize ea = sz) (s : State) :
    (eaLoc ea sz s).Accessible sz := by
  cases hloc : eaLoc ea sz s with
  | mem a fc lf => exact .inl (hsz.symm.trans (bitSize_of_mem hloc))
  | dreg | areg | imm => trivial

theorem staticBit_serves {s : State} (h : s.Ready) (w : Word) :
    Serves (staticBit w) s (ofByte (w.extractLsb' 0 8)) (s.after 1) := (fetchWords_serves h 1).bind (.pure _ _)

/-- The high byte of the word is ignored (R315 (c)). -/
theorem bitIndex_static (sz : Size) (w : Word) :
    bitIndex sz (ofByte (w.extractLsb' 0 8)) = w.toNat % 256 % sz.bits := by
  have hbyte : (ofByte (w.extractLsb' 0 8)).toNat = w.toNat % 256 := by
    rw [ofByte, BitVec.toNat_setWidth_of_le (by decide), BitVec.extractLsb'_toNat, Nat.shiftRight_zero]
  rw [bitIndex, hbyte]

/-! ## The rules -/

section
variable {s : State} (h : s.Ready) {ea : EA} {sz : Size} (hsz : bitSize ea = sz) {number : M Long} {words k : Nat}
  {b : Long} (hnumber : Serves number (s.after 1) b ((s.after 1).after words)) (hk : bitIndex sz b = k)
include h hsz hnumber hk

theorem bitTest_yields :
    let t := eaStep ea sz (s.after (1 + words + eaWords ea))
    Yields (runPlain (bitTest number ea) s)
      { t with sr := s.sr.bitTest (t.operand (eaLoc ea sz (s.after (1 + words))) sz) k } := by
  intro t
  have hsr : t.sr = s.sr := eaStep_sr ..
  have hread := readEA_serves (h.after (1 + words)) (accessible_of_bitSize hsz _)
  rw [State.after_after] at hnumber hread
  subst hsz hk
  rw [← hsr]
  exact Serves.runPlain (hnumber.bind (hread.bind .modify))

theorem bitChange_yields (op : Long → Long → Long) :
    let loc := eaLoc ea sz (s.after (1 + words))
    let t := eaStep ea sz (s.after (1 + words + eaWords ea))
    let v := t.operand loc sz
    YieldsStoring (runPlain (bitChange number ea op) s)
      { t.putReg loc sz (op v (bitMask k)) with sr := s.sr.bitTest v k } loc sz (op v (bitMask k)) := by
  intro loc t v
  have hsr : t.sr = s.sr := eaStep_sr ..
  have hresolve := resolveEA_serves (h.after (1 + words)) ea sz
  have hupdate := updateLocFlagsFirst_serves ((h.after (1 + words + eaWords ea)).eaStep ea sz).1
    (accessible_of_bitSize hsz (s.after (1 + words))) (bitUpdate k op) rfl
  rw [State.after_after] at hnumber hresolve
  subst hsz hk
  rw [← hsr]
  exact ServesStoring.runPlain (.before hnumber (.before hresolve hupdate))

end

/-- Settles O37: the four operations, each with a number from a register and from a word. -/
theorem bitResults : Obligations.BitResults := by
  intro s ea dn w h sz loc t v flags changes kd ki
  have hsz : bitSize ea = sz := bitSize_eq ea
  have hdynamic : Serves (dynamicBit dn) (s.after 1) (s.readD dn) ((s.after 1).after 0) := dynamicBit_after dn
  have hstatic := staticBit_serves (h.after 1) w
  have hkd : bitIndex sz (s.readD dn) = kd := rfl
  have hki : bitIndex sz (ofByte (w.extractLsb' 0 8)) = ki := bitIndex_static sz w
  have hreg := bitChange_yields h hsz hdynamic hkd
  have himm := bitChange_yields h hsz hstatic hki
  exact ⟨bitTest_yields h hsz hdynamic hkd, bitTest_yields h hsz hstatic hki, hreg (· ^^^ ·), himm (· ^^^ ·),
    hreg (fun v m => v &&& ~~~m), himm (fun v m => v &&& ~~~m), hreg (· ||| ·), himm (· ||| ·)⟩

end Sys2Proof.Machine
end

section
/-! LAWS AND CERTIFICATE. The decimal rules (R325 to R328): the decimal sum and difference of two bytes against
`DecimalOutcome`, then the write that ends all three instructions, and the operands of each form. -/

namespace Sys2Proof.Machine

/-! ## Decimal bytes -/

theorem toNat_ofByte_lt (b : Byte) : (ofByte b).toNat < 256 :=
  (BitVec.toNat_setWidth_of_le (by decide)).trans_lt b.isLt

/-- A byte is packed decimal where both its digits are in 0..9. -/
theorem isBcd_iff {b : Long} (hb : b.toNat < 256) : isBcd b = true ↔ b.toNat / 16 ≤ 9 ∧ b.toNat % 16 ≤ 9 := by
  rw [isBcd, Bool.and_eq_true, decide_eq_true_iff, decide_eq_true_iff, Nat.mod_eq_of_lt (by omega : b.toNat / 16 < 16)]

theorem bcdToNat_eq {b : Long} (hb : b.toNat < 256) : bcdToNat b = 10 * (b.toNat / 16) + b.toNat % 16 := by
  rw [bcdToNat, Nat.mod_eq_of_lt (by omega : b.toNat / 16 < 16)]

/-- `dec(b)` as `DecimalOutcome` writes it. -/
theorem bcdToNat_cast {b : Long} (hb : b.toNat < 256) :
    (bcdToNat b : Int) = 10 * (b.toNat / 16) + b.toNat % 16 := by
  rw [bcdToNat_eq hb]
  push_cast
  rfl

theorem bcdToNat_lt {b : Long} (h : isBcd b = true) : bcdToNat b < 100 := by
  rw [isBcd, Bool.and_eq_true, decide_eq_true_iff, decide_eq_true_iff] at h
  rw [bcdToNat]
  omega

section
variable {n : Nat} (hn : n < 100)
include hn

theorem toNat_natToBcd : (natToBcd n).toNat = n / 10 * 16 + n % 10 := by
  rw [natToBcd, BitVec.toNat_ofNat, Nat.mod_eq_of_lt (by omega)]

theorem toNat_natToBcd_lt : (natToBcd n).toNat < 256 := by
  rw [toNat_natToBcd hn]
  omega

theorem isBcd_natToBcd : isBcd (natToBcd n) = true := by
  rw [isBcd_iff (toNat_natToBcd_lt hn), toNat_natToBcd hn]
  omega

theorem bcdToNat_natToBcd : bcdToNat (natToBcd n) = n := by
  rw [bcdToNat_eq (toNat_natToBcd_lt hn), toNat_natToBcd hn]
  omega

end

/-! ## The sum and the difference -/

/-- The operation of ABCD, or of SBCD and NBCD. -/
def decimalOp (subtract : Bool) : Long → Long → Bool → DecimalSum := if subtract then bcdSub else bcdAdd

/-- The integer a decimal operation computes (R326, R327). -/
def decimalTotal (subtract : Bool) (src d : Long) (x : Bool) : Int :=
  if subtract then bcdToNat d - bcdToNat src - bitNat x else bcdToNat d + bcdToNat src + bitNat x

/-- A decimal result that shows an integer: its two low decimal digits, the carry or borrow that leaves them, nothing
free. -/
structure DecimalSum.Shows (u : DecimalSum) (t : Int) : Prop where
  digits : ∃ n : Nat, n < 100 ∧ u.r = natToBcd n ∧ (n : Int) = t % 100
  carry : u.c = true ↔ t < 0 ∨ 99 < t
  fixedX : u.freeX = none
  fixedZ : u.freeZ = none

theorem bcdAdd_shows (src d : Long) (x : Bool) : (bcdAdd src d x).Shows (decimalTotal false src d x) where
  digits := ⟨(bcdToNat d + bcdToNat src + bitNat x) % 100, Nat.mod_lt _ (by decide), rfl, rfl⟩
  carry := by
    have htotal : decimalTotal false src d x = (bcdToNat d + bcdToNat src + bitNat x : Nat) := rfl
    rw [htotal, bcdAdd, decide_eq_true_iff]
    omega
  fixedX := rfl
  fixedZ := rfl

/-- Of two bytes in decimal the difference is at least -100 and at most 99: one addition of 100 is enough. -/
theorem bcdSub_shows {src d : Long} (hs : isBcd src = true) (hd : isBcd d = true) (x : Bool) :
    (bcdSub src d x).Shows (decimalTotal true src d x) := by
  have hx := bitNat_le_one x
  have hsrc := bcdToNat_lt hs
  have hdst := bcdToNat_lt hd
  have htotal : decimalTotal true src d x = bcdToNat d - bcdToNat src - bitNat x := rfl
  refine ⟨⟨_, ?below, rfl, ?value⟩, ?carry, rfl, rfl⟩
  case carry =>
    rw [htotal, bcdSub, decide_eq_true_iff]
    omega
  case below => split <;> omega
  case value =>
    rw [htotal]
    split <;> omega

theorem decimalOp_shows (subtract : Bool) {src d : Long} (hs : isBcd src = true) (hd : isBcd d = true) (x : Bool) :
    (decimalOp subtract src d x).Shows (decimalTotal subtract src d x) := by
  cases subtract with
  | false => exact bcdAdd_shows src d x
  | true => exact bcdSub_shows hs hd x

/-! ## The result and the flags -/

theorem StatusReg.decimal_x {u : DecimalSum} (h : u.freeX = none) (sr : StatusReg) (free : Long) :
    (sr.decimal u free).x = u.c := by
  rw [StatusReg.decimal, h, Option.getD_none]

/-- The sticky Z (R325 (d)): what it was, and the result is zero. -/
theorem StatusReg.decimal_z {u : DecimalSum} (h : u.freeZ = none) (sr : StatusReg) (free : Long) :
    (sr.decimal u free).z = (sr.z && u.r == 0) := by
  rw [StatusReg.decimal, h]
  cases u.r == 0 <;> simp

section
variable (subtract : Bool) {src d : Long}

theorem decimalSum_of_isBcd (op : Long → Long → Bool → DecimalSum) (hs : isBcd src = true) (hd : isBcd d = true)
    (x : Bool) (free : Long) : decimalSum op src d x free = op src d x := by
  rw [decimalSum, hs, hd]
  rfl

/-- The result is a byte, whether it is decimal or free. -/
theorem decimalSum_lt (src d : Long) (x : Bool) (free : Long) :
    (decimalSum (decimalOp subtract) src d x free).r.toNat < 256 := by
  rw [decimalSum]
  split
  next hdigits =>
    obtain ⟨hs, hd⟩ := Bool.and_eq_true_iff.mp hdigits
    obtain ⟨n, hn, hr, -⟩ := (decimalOp_shows subtract hs hd x).digits
    rw [hr]
    exact toNat_natToBcd_lt hn
  next => exact toNat_ofByte_lt _

/-- The decimal rule (R325) holds of what the model computes, whatever the free values. -/
theorem decimalOutcome_decimalSum (hs : src.toNat < 256) (hd : d.toNat < 256) (sr : StatusReg) (free : Long) :
    let u := decimalSum (decimalOp subtract) src d sr.x free
    DecimalOutcome subtract src d sr u.r (sr.decimal u free) := by
  intro u
  refine ⟨rfl, decimalSum_lt subtract src d sr.x free, fun ⟨hsrc, hdst⟩ => ?_⟩
  have hsbcd := (isBcd_iff hs).mpr hsrc
  have hdbcd := (isBcd_iff hd).mpr hdst
  have hu : u = decimalOp subtract src d sr.x := decimalSum_of_isBcd _ hsbcd hdbcd ..
  obtain ⟨⟨n, hn, hr, hvalue⟩, hcarry, hx, hz⟩ := decimalOp_shows subtract hsbcd hdbcd sr.x
  rw [← hu] at hr hcarry hx hz
  have hlt : u.r.toNat < 256 := hr ▸ toNat_natToBcd_lt hn
  have hdec : (10 * (u.r.toNat / 16) + u.r.toNat % 16 : Int) = n := by
    rw [← bcdToNat_cast hlt, hr, bcdToNat_natToBcd hn]
  rw [decimalTotal, bcdToNat_cast hs, bcdToNat_cast hd] at hvalue hcarry
  exact ⟨(isBcd_iff hlt).mp (hr ▸ isBcd_natToBcd hn), hdec.trans hvalue, hcarry, StatusReg.decimal_x hx sr free,
    StatusReg.decimal_z hz sr free⟩

end

/-! ## The rules -/

theorem Loc.accessible_byte (loc : Loc) : loc.Accessible .b := by
  cases loc with
  | mem => exact .inl rfl
  | dreg | areg | imm => trivial

/-- A data alterable byte operand is a byte: no address register, no immediate. -/
theorem operand_byte_lt {ea : EA} (hea : ea.isIn Mode.isDataAlterable .b = true) (s t : State) :
    (t.operand (eaLoc ea .b s) .b).toNat < 256 := by
  cases ea with
  | dreg n => exact (Size.toNat_trunc .b _).trans_lt (Nat.mod_lt _ (by decide))
  | ind | postInc | preDec | disp | index | absW | absL => exact toNat_ofByte_lt _
  | areg | pcDisp | pcIndex | imm16 | imm32 => cases hea

/-- Two data registers, in every state. -/
theorem decimalReg_next (s : State) (dx dy : RegNo) (subtract : Bool) :
    ∃ (r : Long) (sr : StatusReg),
      DecimalOutcome subtract (ofByte (lowByte (s.readD dy))) (ofByte (lowByte (s.readD dx))) s.sr r sr
      ∧ runPlain (decimalReg dx dy (decimalOp subtract)) s = .next
          { (s.after 1).writeD dx ((s.readD dx).extractLsb' 8 24 ++ lowByte r) with
            sr := sr, freeCount := s.freeCount + 1 } := by
  refine ⟨_, _, decimalOutcome_decimalSum subtract (toNat_ofByte_lt _) (toNat_ofByte_lt _) s.sr
    (Config.freeLong s.freeCount), ?_⟩
  rw [ofByte_eq, ofByte_eq]
  exact runPlain_ok rfl

/-- The write and the flags that end every decimal instruction, from the state its operands leave. -/
theorem decimalWrite_serves {s : State} (h : s.BusServes) (subtract : Bool) (loc : Loc) {src d : Long}
    (hs : src.toNat < 256) (hd : d.toNat < 256) :
    ∃ (r : Long) (sr : StatusReg), DecimalOutcome subtract src d s.sr r sr
      ∧ ServesStoring (decimalWrite loc (decimalOp subtract) src d) s ()
          { s.putReg loc .b r with sr := sr, freeCount := s.freeCount + 1 } loc .b r := by
  let free := Config.freeLong s.freeCount
  let u := decimalSum (decimalOp subtract) src d s.sr.x free
  have hdrawn : State.BusServes { s with freeCount := s.freeCount + 1 } := h.congr rfl
  have hwrite := (writeLoc_serves hdrawn loc.accessible_byte u.r).setSr fun sr => sr.decimal u free
  rw [State.putReg_with_freeCount, State.putReg_sr] at hwrite
  obtain ⟨m, hrun, hstored⟩ := hwrite
  exact ⟨u.r, s.sr.decimal u free, decimalOutcome_decimalSum subtract hs hd s.sr free, m,
    (Serves.draw s).bind (.get hrun), hstored.congr rfl rfl rfl rfl⟩

section
variable {s : State} (h : s.Ready) (subtract : Bool)
include h

/-- `-(An)` resolved: the location named by the register as it is left. -/
theorem resolvePreDec_serves (n : RegNo) (sz : Size) :
    let t := eaStep (.preDec n) sz s
    Serves (resolveEA (.preDec n) sz) s (.mem (t.readA n) s.fcData true) t := by
  intro t
  have hresolve := resolveEA_serves h (.preDec n) sz
  rwa [eaWords, State.after_zero, eaLoc_preDec] at hresolve

/-- `-(An)` read as a byte: the operand at the register as it is left. -/
theorem readPreDec_byte_serves (n : RegNo) :
    let t := eaStep (.preDec n) .b s
    Serves (readEA (.preDec n) .b) s (s.peek s.fcData (t.readA n) .b) t := by
  intro t
  have hoperand : t.operand (.mem (t.readA n) s.fcData true) .b = s.peek s.fcData (t.readA n) .b := by
    rw [State.operand, State.peek_eaStep]
  exact (resolvePreDec_serves h n .b).bind
    (hoperand ▸ readLoc_serves (h.eaStep (.preDec n) .b).1 (Loc.accessible_byte (.mem (t.readA n) s.fcData true)))

/-- `-(Ay),-(Ax)`: the destination's register is stepped from the state the source leaves. -/
theorem decimalMem_yields (ax ay : RegNo) :
    let t1 := eaStep (.preDec ay) .b (s.after 1)
    let t := eaStep (.preDec ax) .b t1
    ∃ (r : Long) (sr : StatusReg), DecimalOutcome subtract (s.peek s.fcData (t1.readA ay) .b)
        (s.peek s.fcData (t.readA ax) .b) s.sr r sr
      ∧ YieldsStoring (runPlain (decimalMem ax ay (decimalOp subtract)) s)
          { t with sr := sr, freeCount := s.freeCount + 1 } (.mem (t.readA ax) s.fcData true) .b r := by
  intro t1 t
  let loc : Loc := .mem (t.readA ax) s.fcData true
  have ht1 : t1.Ready := (h.after 1).eaStep ..
  have ht : t.Ready := ht1.eaStep ..
  have hsrc : Serves (readEA (.preDec ay) .b) (s.after 1) (s.peek s.fcData (t1.readA ay) .b) t1 :=
    readPreDec_byte_serves (h.after 1) ay
  have hdst : Serves (resolveEA (.preDec ax) .b) t1 loc t := by
    have hresolve := resolvePreDec_serves ht1 ax .b
    rwa [State.fcData_eaStep] at hresolve
  have hread : Serves (readLoc loc .b) t (s.peek s.fcData (t.readA ax) .b) t := by
    have hvalue : t.operand loc .b = s.peek s.fcData (t.readA ax) .b := by
      rw [State.operand, State.peek_eaStep, State.peek_eaStep, State.peek_after]
    exact hvalue ▸ readLoc_serves ht.1 loc.accessible_byte
  obtain ⟨r, sr, hout, hwrite⟩ := decimalWrite_serves ht.1 subtract loc (src := s.peek s.fcData (t1.readA ay) .b)
    (d := s.peek s.fcData (t.readA ax) .b) (toNat_ofByte_lt _) (toNat_ofByte_lt _)
  have hsr : t.sr = s.sr := (eaStep_sr ..).trans (eaStep_sr ..)
  have hfree : t.freeCount = s.freeCount := (eaStep_freeCount ..).trans (eaStep_freeCount ..)
  rw [hsr] at hout
  rw [hfree] at hwrite
  exact ⟨r, sr, hout, (ServesStoring.before hsrc (.before hdst (.before hread hwrite))).runPlain⟩

/-- NBCD: the operand is the source, and the destination is zero (R328). -/
theorem execNbcd_yields {ea : EA} (hea : ea.isIn Mode.isDataAlterable .b = true) :
    let loc := eaLoc ea .b (s.after 1)
    let t := eaStep ea .b (s.after (1 + eaWords ea))
    ∃ (r : Long) (sr : StatusReg), DecimalOutcome true (t.operand loc .b) 0 s.sr r sr
      ∧ YieldsStoring (execNbcd ea s) { t.putReg loc .b r with sr := sr, freeCount := s.freeCount + 1 } loc .b r := by
  intro loc t
  have ht : t.Ready := (h.after _).eaStep ..
  have hresolve := resolveEA_serves (h.after 1) ea .b
  rw [State.after_after] at hresolve
  obtain ⟨r, sr, hout, hwrite⟩ := decimalWrite_serves ht.1 true loc (d := 0) (operand_byte_lt hea (s.after 1) t)
    (by decide)
  have hsr : t.sr = s.sr := eaStep_sr ..
  have hfree : t.freeCount = s.freeCount := eaStep_freeCount ..
  rw [hsr] at hout
  rw [hfree] at hwrite
  exact ⟨r, sr, hout, (ServesStoring.before hresolve
    (.before (readLoc_serves ht.1 loc.accessible_byte) hwrite)).runPlain⟩

end

/-- Settles O38: ABCD is `decimalOp false`, SBCD and NBCD are `decimalOp true`. -/
theorem decimalResults : Obligations.DecimalResults :=
  ⟨fun s dx dy => ⟨decimalReg_next s dx dy false, decimalReg_next s dx dy true⟩,
    fun _ h => ⟨fun ax ay => ⟨decimalMem_yields h false ax ay, decimalMem_yields h true ax ay⟩,
      fun _ hea => execNbcd_yields h hea⟩⟩

end Sys2Proof.Machine
end

section
/-! LAWS AND CERTIFICATE. The sixteen conditions (R335), and what they say after a comparison. The flags of `d - s` are
read once: C is the unsigned order, Z is equality, N differing from V is the signed order. Each of the ten conditions is
one of the three or its negation, or joins one of them with Z. -/

namespace Sys2Proof

/-- Operands of a size are equal where their signed values are. -/
theorem Size.toInt_sext_inj (sz : Size) {a b : Long} (ha : a.toNat < 2 ^ sz.bits) (hb : b.toNat < 2 ^ sz.bits) :
    (sz.sext b).toInt = (sz.sext a).toInt ↔ b = a := by
  refine ⟨fun heq => BitVec.eq_of_toNat_eq ?_, fun heq => heq ▸ rfl⟩
  rw [sz.toInt_sext hb, sz.toInt_sext ha] at heq
  zify at *
  split_ifs at heq <;> omega

end Sys2Proof

namespace Sys2Proof.Machine

/-! ## The conditions as expressions in the flags -/

theorem condHolds_ge (r : StatusReg) : condHolds .ge r = (r.n && r.v || !r.n && !r.v) := by
  rw [condHolds]
  cases r.n <;> simp

theorem condHolds_lt (r : StatusReg) : condHolds .lt r = (r.n && !r.v || !r.n && r.v) := by
  rw [condHolds]
  cases r.n <;> simp

theorem condHolds_gt (r : StatusReg) : condHolds .gt r = (r.n && r.v && !r.z || !r.n && !r.v && !r.z) := by
  have hge : condHolds .gt r = (!r.z && condHolds .ge r) := rfl
  rw [hge, condHolds_ge, Bool.and_comm, Bool.and_or_distrib_right]

theorem condHolds_le (r : StatusReg) : condHolds .le r = (r.z || r.n && !r.v || !r.n && r.v) := by
  have hlt : condHolds .le r = (r.z || condHolds .lt r) := rfl
  rw [hlt, condHolds_lt, Bool.or_assoc]

/-! ## The flags of a comparison -/

section
variable {sz : Size} {a b : Long} (r : StatusReg) (ha : a.toNat < 2 ^ sz.bits) (hb : b.toNat < 2 ^ sz.bits)

theorem compare_c_iff : (r.compare sz (subc sz a b false)).c = true ↔ b.toNat < a.toNat :=
  subc_c_iff (sz := sz)

include ha hb

theorem compare_z_iff : (r.compare sz (subc sz a b false)).z = true ↔ b = a := by
  have hlt : (subc sz a b false).r.toNat < 2 ^ sz.bits := subc_r_lt
  have hdiff := subc_r_add_subtrahend (k := false) ha hb
  have hzero : (subc sz a b false).r = 0 ↔ (subc sz a b false).r.toNat = 0 := BitVec.toNat_eq
  rw [StatusReg.compare_of_lt hlt, beq_iff_eq, hzero, BitVec.toNat_eq]
  simp only [bitNat, subc_c_iff, Bool.false_eq_true, if_false] at hdiff
  split_ifs at hdiff <;> omega

/-- The cases are the halves of the operands and of the result, and the borrow. -/
theorem compare_n_ne_v_iff : (r.compare sz (subc sz a b false)).n ≠ (r.compare sz (subc sz a b false)).v
    ↔ (sz.sext b).toInt < (sz.sext a).toInt := by
  have hlt : (subc sz a b false).r.toNat < 2 ^ sz.bits := subc_r_lt
  have hdiff := subc_r_add_subtrahend (k := false) ha hb
  have hhalf := sz.two_pow_bits
  rw [StatusReg.compare_of_lt hlt, ne_eq, Bool.eq_iff_iff, sz.msb_eq_decide_le hlt, decide_eq_true_iff,
    subc_v_iff_halves ha hb, sz.toInt_sext ha, sz.toInt_sext hb]
  simp only [bitNat, subc_c_iff, Bool.false_eq_true, if_false] at hdiff
  zify at *
  split_ifs at * <;> omega

end

/-- Settles O41: `hi` and `ls` join C with Z, `gt` and `le` join N and V with Z. -/
theorem conditionsOrder : Obligations.ConditionsOrder := by
  refine ⟨fun r => ⟨rfl, rfl, rfl, rfl, rfl, rfl, rfl, rfl, rfl, rfl, rfl, rfl, condHolds_ge r, condHolds_lt r,
    condHolds_gt r, condHolds_le r⟩, ?_⟩
  intro r sz a b ha hb f sa sb
  have hc : f.c = true ↔ b.toNat < a.toNat := compare_c_iff r
  have hz : f.z = true ↔ b = a := compare_z_iff r ha hb
  have hnv : f.n ≠ f.v ↔ sb < sa := compare_n_ne_v_iff r ha hb
  have hz_unsigned : f.z = true ↔ b.toNat = a.toNat := hz.trans BitVec.toNat_eq
  have hz_signed : f.z = true ↔ sb = sa := hz.trans (sz.toInt_sext_inj ha hb).symm
  have hge : f.n = f.v ↔ sa ≤ sb := by rw [← not_lt, ← hnv, not_not]
  simp only [condHolds, Bool.and_eq_true, Bool.or_eq_true, Bool.not_eq_true', ← Bool.not_eq_true, beq_iff_eq,
    bne_iff_ne]
  refine ⟨?hi, ?ls, ?cc, hc, hz, not_congr hz, ?gt, ?le, hge, hnv⟩
  case hi => rw [hc, hz_unsigned]; omega
  case ls => rw [hc, hz_unsigned]; omega
  case cc => rw [hc]; omega
  case gt => rw [hz_signed, hge]; omega
  case le => rw [hz_signed, hnv]; omega

end Sys2Proof.Machine
end

section
/-! LAWS AND CERTIFICATE. The rules that change the program counter (R336 to R345). What a displacement adds and how
many words it takes is said once for Bcc, BRA and BSR; pushing the return address and going to the target is one lemma
for BSR and JSR. -/

namespace Sys2Proof

/-- How many words a displacement takes after the operation word (R148). -/
def Disp.words : Disp → Nat
  | .short _ => 0
  | .word _ => 1

/-- What a displacement adds to the address after the operation word (R148). -/
def Disp.offset : Disp → Long
  | .short b => b.signExtend 32
  | .word w => w.signExtend 32

end Sys2Proof

namespace Sys2Proof.Machine

/-- The control modes have an address (R197). -/
theorem eaLoc_of_control {ea : EA} (hc : ea.mode.isControl = true) (sz : Size) (s : State) :
    ∃ addr fc, eaLoc ea sz s = .mem addr fc false := by
  cases ea with
  | ind | disp | index | absW | absL | pcDisp | pcIndex => exact ⟨_, _, rfl⟩
  | _ => cases hc

/-- A write of the condition codes leaves the S bit alone, and so the choice of the stack pointer (R24). -/
theorem State.setSp_with_setCcr (s : State) (w : Word) (v : Long) :
    ({ s with sr := s.sr.setCcr w }).setSp v = { s.setSp v with sr := s.sr.setCcr w } := by
  unfold State.setSp StatusReg.setCcr
  split <;> rfl

/-- A change of the state whose outcome is known whatever the list of cycles is. -/
theorem serves_modify_of_eq {f : State → State} {s t : State}
    (hf : ∀ l, f { s with bus := l } = { t with bus := l }) : Serves (modify f : M PUnit) s ⟨⟩ t :=
  fun l => ⟨l, by rw [modify_run, hf]⟩

/-! ## Branches and jumps -/

/-- `branchTarget` where the bus serves; the program counter of `s` has passed the operation word. -/
theorem branchTarget_serves {s : State} (h : s.Ready) (d : Disp) :
    Serves (branchTarget d) s (s.pc + d.offset) (s.after d.words) := by
  cases d with
  | short b => exact .get (.to (.pure _ _) s.after_zero.symm)
  | word w => exact .get ((fetchWords_serves h 1).bind (.pure _ _))

section
variable {s : State} (h : s.Ready)
include h

/-- The target of a branch instruction, its words fetched. -/
theorem branchTarget_after_one (d : Disp) :
    Serves (branchTarget d) (s.after 1) (s.pc + 2 + d.offset) (s.after (1 + d.words)) := by
  rw [← State.after_after]
  exact branchTarget_serves (h.after 1) d

theorem execBra_yields (d : Disp) : Yields (execBra d s) { s with pc := s.pc + 2 + d.offset } :=
  Serves.runPlain ((branchTarget_after_one h d).bind .modify)

theorem execBcc_yields (cond : Cond) (d : Disp) : Yields (execBcc cond d s)
    { s with pc := if condHolds cond s.sr then s.pc + 2 + d.offset else (s.after (1 + d.words)).pc } := by
  refine Serves.runPlain ((branchTarget_after_one h d).bind (serves_modify_of_eq fun l => ?_))
  rw [State.after_sr]
  split <;> rfl

/-- The address of a control mode, its extension words fetched. -/
theorem resolveControl_serves {ea : EA} (hc : ea.mode.isControl = true) :
    Serves (resolveEA ea .l) (s.after 1) (eaLoc ea .l (s.after 1)) (s.after (1 + eaWords ea)) := by
  have hresolve := resolveEA_serves (h.after 1) ea .l
  rwa [eaStep_of_control hc, State.after_after] at hresolve

theorem execJmp_yields {ea : EA} (hc : ea.mode.isControl = true) :
    Yields (execJmp ea s) { s with pc := (eaLoc ea .l (s.after 1)).address } :=
  Serves.runPlain ((resolveControl_serves h hc).bind .modify)

end

/-- Settles O40: the two forms of a displacement are the two cases of `Disp`. -/
theorem branches : Obligations.Branches := by
  intro s h
  refine ⟨fun d => ?branch, fun ea hea => ?jump, rfl⟩
  case branch =>
    have hbra := execBra_yields h d
    have hbcc := fun cond => execBcc_yields h cond d
    cases d with
    | short | word => exact ⟨hbra, hbcc⟩
  case jump =>
    have hc : ea.mode.isControl = true := mode_of_isIn hea
    obtain ⟨addr, fc, hloc⟩ := eaLoc_of_control hc .l (s.after 1)
    have hjmp := execJmp_yields h hc
    rw [hloc] at hjmp
    exact ⟨addr, fc, hloc, hjmp⟩

/-! ## Calls -/

/-- The program counter is pushed, then it is the target. -/
theorem pushPc_goTo_serves {s : State} (h : s.BusServes) (he : EvenAddr s.sp) (target : Long) :
    ServesStoring (do push32 (← get).pc; modify fun s => { s with pc := target }) s ()
      ({ s with pc := target }.setSp (s.sp - 4)) (.mem (s.sp - 4) s.fcData true) .l s.pc := by
  obtain ⟨m, hpush, hstored⟩ := push32_serves h he s.pc
  refine ServesStoring.to ⟨m, .get (hpush.bind .modify), ?_⟩ (State.setSp_with_pc ..).symm
  exact hstored.congr rfl rfl rfl rfl

section
variable {s : State} (h : s.Ready) (he : EvenAddr s.sp)
include h he

/-- A target found after `k` words of the instruction, called. -/
theorem call_yields {α : Type} {find : M α} {a : α} {k : Nat} (hfind : Serves find (s.after 1) a (s.after k))
    (target : α → Long) :
    YieldsStoring (runPlain (do
        let x ← find
        push32 (← get).pc
        modify fun s => { s with pc := target x }) s)
      ({ s with pc := target a }.setSp (s.sp - 4)) (.mem (s.sp - 4) s.fcData true) .l (s.after k).pc :=
  (ServesStoring.before hfind (pushPc_goTo_serves (h.after k).1 he (target a))).runPlain

theorem execBsr_yields (d : Disp) : YieldsStoring (execBsr d s)
    ({ s with pc := s.pc + 2 + d.offset }.setSp (s.sp - 4)) (.mem (s.sp - 4) s.fcData true) .l
    (s.after (1 + d.words)).pc :=
  call_yields h he (branchTarget_after_one h d) id

theorem execJsr_yields {ea : EA} (hc : ea.mode.isControl = true) : YieldsStoring (execJsr ea s)
    ({ s with pc := (eaLoc ea .l (s.after 1)).address }.setSp (s.sp - 4)) (.mem (s.sp - 4) s.fcData true) .l
    (s.after (1 + eaWords ea)).pc :=
  call_yields h he (resolveControl_serves h hc) Loc.address

end

/-- Settles O42: both are `call_yields`, with the target of a branch and with the address of a control mode. -/
theorem subroutineCalls : Obligations.SubroutineCalls := by
  intro s h he slot
  refine ⟨fun b => execBsr_yields h he (.short b), fun w => execBsr_yields h he (.word w), fun ea hea => ?_⟩
  have hc : ea.mode.isControl = true := mode_of_isIn hea
  obtain ⟨addr, fc, hloc⟩ := eaLoc_of_control hc .l (s.after 1)
  have hjsr := execJsr_yields h he hc
  rw [hloc] at hjsr
  exact ⟨addr, fc, hloc, hjsr⟩

/-! ## Returns -/

/-- A long word is popped, and the program counter is that long word. -/
theorem popPc_serves {s : State} (h : s.BusServes) (he : EvenAddr s.sp) :
    Serves (do let pc ← pop32; modify fun s => { s with pc := pc }) s ()
      ({ s with pc := s.peekLong s.fcData s.sp }.setSp (s.sp + 4)) :=
  ((pop32_serves h he).bind .modify).to (State.setSp_with_pc ..).symm

/-- A word is popped, and the condition codes are its low bits, before the rest of the rule. -/
theorem popCcr_serves {s u : State} (h : s.BusServes) (he : EvenAddr s.sp) {rest : M Unit}
    (hrest : Serves rest ({ s with sr := s.sr.setCcr (s.peekWord s.fcData s.sp) }.setSp (s.sp + 2)) () u) :
    Serves (do let w ← pop16; modify fun s => { s with sr := s.sr.setCcr w }; rest) s () u := by
  have hccr := Serves.modify (s := s.setSp (s.sp + 2))
    (f := fun s' => { s' with sr := s'.sr.setCcr (s.peekWord s.fcData s.sp) })
  rw [State.setSp_sr, ← State.setSp_with_setCcr] at hccr
  exact (pop16_serves h he).bind (hccr.bind hrest)

section
variable {s : State} (h : s.Ready) (he : EvenAddr s.sp)
include h he

theorem execRts_yields : Yields (execRts s) ({ s with pc := s.peekLong s.fcData s.sp }.setSp (s.sp + 4)) :=
  (popPc_serves (h.after 1).1 he).runPlain

theorem execRtr_yields : Yields (execRtr s)
    { ({ s with pc := s.peekLong s.fcData (s.sp + 2) }.setSp (s.sp + 6)) with
      sr := s.sr.setCcr (s.peekWord s.fcData s.sp) } := by
  let u : State := { s.after 1 with sr := s.sr.setCcr (s.peekWord s.fcData s.sp) }
  have hu : u.BusServes := h.1.congr rfl
  have hpop := popPc_serves (hu.setSp (s.sp + 2)) (by rw [State.sp_setSp]; exact he.add_two)
  have hpeek : (u.setSp (s.sp + 2)).peekLong u.fcData (s.sp + 2) = s.peekLong s.fcData (s.sp + 2) :=
    State.peekLong_congr (State.setSp_mem ..) (State.setSp_platform ..) ..
  have hsp : s.sp + 2 + 4 = s.sp + 6 := BitVec.add_assoc ..
  rw [State.sp_setSp, State.fcData_setSp, hpeek, hsp, State.setSp_with_pc, State.setSp_setSp,
    ← State.setSp_with_pc] at hpop
  rw [← State.setSp_with_setCcr]
  exact (popCcr_serves (h.after 1).1 he hpop).runPlain

end

/-- Settles O43: RTR's status register is `setCcr` of the word popped. -/
theorem subroutineReturns : Obligations.SubroutineReturns :=
  fun _ h he => ⟨execRts_yields h he, execRtr_yields h he⟩

/-! ## DBcc -/

section
variable {s : State} (h : s.Ready) {cond : Cond} (dn : RegNo) (d : Word)
include h

theorem execDbcc_of_holds (hc : condHolds cond s.sr = true) :
    Yields (execDbcc cond dn d s) { s with pc := s.pc + 4 } := by
  refine Serves.runPlain (.get ((fetchWords_serves (h.after 1) 1).bind (serves_modify_of_eq fun l => ?_)))
  rw [State.after_one_one, State.after_sr, if_pos hc]
  rfl

/-- The counter's low word becomes `c`, which decides whether the branch is taken. -/
theorem execDbcc_of_not_holds (hc : condHolds cond s.sr = false) {c : Word} (hcount : lowWord (s.readD dn) - 1 = c) :
    Yields (execDbcc cond dn d s) { s.writeD dn (highWord (s.readD dn) ++ c) with
      pc := if c = 0xFFFF#16 then s.pc + 4 else s.pc + 2 + d.signExtend 32 } := by
  have hmerge : Size.w.merge (s.readD dn) (ofWord c) = highWord (s.readD dn) ++ c := by
    rw [Size.merge, lowWord_ofWord]
  refine Serves.runPlain (.get ((fetchWords_serves (h.after 1) 1).bind (serves_modify_of_eq fun l => ?_)))
  rw [State.after_one_one]
  refine (if_neg (Bool.eq_false_iff.mp hc)).trans ?_
  simp only [State.readD_with_bus, State.readD_after, hcount, hmerge]
  split <;> rfl

end

/-- The predecessor of a word that is not 0 is its number less one, and is not `$FFFF`. -/
theorem word_sub_one {w : Word} (hw : 0 < w.toNat) : w - 1 = BitVec.ofNat 16 (w.toNat - 1) ∧ w - 1 ≠ 0xFFFF#16 := by
  constructor <;> bv_omega

/-- Settles O44: of the counters that DBcc counts down, 0 alone becomes `$FFFF`. -/
theorem decrementBranch : Obligations.DecrementBranch := by
  intro s cond dn d h n put
  refine ⟨execDbcc_of_holds h dn d, fun hc hzero => ?ended, fun hc hpos => ?counting⟩
  case ended =>
    have hcount : lowWord (s.readD dn) - 1 = 0xFFFF#16 := by
      rw [BitVec.eq_of_toNat_eq (y := 0#16) hzero]; rfl
    exact execDbcc_of_not_holds h dn d hc hcount
  case counting =>
    obtain ⟨hcount, hne⟩ := word_sub_one hpos
    have hbranch := execDbcc_of_not_holds h dn d hc hcount
    rwa [if_neg (hcount ▸ hne)] at hbranch

end Sys2Proof.Machine
end

section
/-! LAWS AND CERTIFICATE. System control (R355 to R375). A rule completes (`Yields`), or its instruction ends in an
exception of group 1 or 2 (`TookException`): `runInstr_traps` and `runInstr_notExecuted_took` say the latter once. -/

namespace Sys2Proof.Machine

/-! ## Branches of a rule -/

theorem Serves.ite_pos {α : Type} {c : Prop} [Decidable c] {x y : M α} {s t : State} {a : α} (hc : c)
    (h : Serves x s a t) : Serves (if c then x else y) s a t := by rwa [if_pos hc]

theorem Serves.ite_neg {α : Type} {c : Prop} [Decidable c] {x y : M α} {s t : State} {a : α} (hc : ¬c)
    (h : Serves y s a t) : Serves (if c then x else y) s a t := by rwa [if_neg hc]

theorem ite_neg_run {α : Type} {c : Prop} [Decidable c] {x y : M α} (hc : ¬c) (s : State) :
    (if c then x else y : M α) s = y s := by rw [if_neg hc]

/-! ## The instructions on CCR -/

/-- A write to CCR of a word made of the register's image bit by bit. -/
theorem StatusReg.setCcr_bitwise {op : Word → Word → Word} {f : Bool → Bool → Bool}
    (hop : ∀ a b k, (op a b).getLsbD k = f (a.getLsbD k) (b.getLsbD k)) (r : StatusReg) (v : Word) :
    r.setCcr (op r.toWord v) = { r with
      x := f r.x (v.getLsbD 4), n := f r.n (v.getLsbD 3), z := f r.z (v.getLsbD 2), v := f r.v (v.getLsbD 1)
      c := f r.c (v.getLsbD 0) } := by
  simp only [StatusReg.setCcr, hop, StatusReg.getLsbD_toWord, Nat.reduceLT]

theorem StatusReg.setCcr_lowWord (r : StatusReg) (v : Long) : r.setCcr (lowWord v) = { r with
    x := v.getLsbD 4, n := v.getLsbD 3, z := v.getLsbD 2, v := v.getLsbD 1, c := v.getLsbD 0 } := by
  simp only [StatusReg.setCcr, lowWord, BitVec.getLsbD_extractLsb', Nat.reduceLT, decide_true, Bool.true_and,
    Nat.reduceAdd]

theorem updateCcr_yields {s : State} (h : s.Ready) (v : Word) (op : Word → Word → Word) :
    Yields (runPlain (updateCcr v op) s) { s.after 2 with sr := s.sr.setCcr (op s.sr.toWord v) } := by
  refine Serves.runPlain ((fetchWords_serves (h.after 1) 1).bind ?_)
  rw [State.after_one_one]
  exact .modify

theorem execMoveToCcr_yields {s : State} (h : s.Ready) {ea : EA} (ha : (eaLoc ea .w (s.after 1)).Accessible .w) :
    let t := eaStep ea .w (s.after (1 + eaWords ea))
    Yields (execMoveToCcr ea s) { t with sr := s.sr.setCcr (lowWord (t.operand (eaLoc ea .w (s.after 1)) .w)) } := by
  intro t
  have hsr : t.sr = s.sr := eaStep_sr ..
  rw [← hsr]
  exact ((readSource_serves h ha).bind .modify).runPlain

/-- Settles O45: the three immediate instructions combine bit by bit, MOVE takes the bits of its source. -/
theorem conditionCodeWrites : Obligations.ConditionCodeWrites := by
  intro s v ea h put r
  have hand := updateCcr_yields h v (· &&& ·)
  have hor := updateCcr_yields h v (· ||| ·)
  have hxor := updateCcr_yields h v (· ^^^ ·)
  rw [StatusReg.setCcr_bitwise fun _ _ _ => BitVec.getLsbD_and] at hand
  rw [StatusReg.setCcr_bitwise fun _ _ _ => BitVec.getLsbD_or] at hor
  rw [StatusReg.setCcr_bitwise fun _ _ _ => BitVec.getLsbD_xor] at hxor
  refine ⟨hand, hor, hxor, fun ha => ?move⟩
  case move =>
    intro t w
    have hmove : Yields (execMoveToCcr ea s) { t with sr := s.sr.setCcr (lowWord w) } := execMoveToCcr_yields h ha
    rwa [StatusReg.setCcr_lowWord] at hmove

/-! ## The privileged instructions in supervisor state -/

section
variable {s : State} (h : s.Ready) (hs : s.sr.s = true)
include h hs

theorem updateSr_yields (v : Word) (op : Word → Word → Word) :
    Yields (runInstr (updateSr v op) s) { s.after 2 with sr := StatusReg.ofWord (op s.sr.toWord v) } := by
  refine Serves.runInstr (.privileged hs ((fetchWords_serves (h.after 1) 1).bind ?_))
  rw [State.after_one_one]
  exact .modify

theorem execMoveToSr_yields {ea : EA} (ha : (eaLoc ea .w (s.after 1)).Accessible .w) :
    let t := eaStep ea .w (s.after (1 + eaWords ea))
    Yields (execMoveToSr ea s)
      { t with sr := StatusReg.ofWord (lowWord (t.operand (eaLoc ea .w (s.after 1)) .w)) } :=
  Serves.runInstr (.privileged hs ((readSource_serves h ha).bind .modify))

theorem execStop_yields (v : Word) :
    Yields (execStop v s) { s.after 2 with sr := StatusReg.ofWord v, pstate := .stopped } := by
  refine Serves.runInstr (.privileged hs ((fetchWords_serves (h.after 1) 1).bind ?_))
  rw [State.after_one_one]
  exact .modify

theorem execRte_yields (he : EvenAddr s.ssp) : Yields (execRte s) { s with
    sr := StatusReg.ofWord (s.peekWord .superData s.ssp)
    ssp := s.ssp + 6
    pc := s.peekLong .superData (s.ssp + 2) } :=
  Serves.runInstr (.privileged hs (returnFromException_serves (h.after 1).1 he))

end

/-- A privileged rule that only changes the state. -/
theorem runInstr_privileged_modify {s : State} (hs : s.sr.s = true) (f : State → State) :
    runInstr (privileged (modify f)) s = .next (f (s.after 1)) :=
  runInstr_done (privileged_super (s := s.after 1) hs rfl)

/-- Settles O46: the image of what `ofWord` stores is the word masked. -/
theorem statusRegisterWrites : Obligations.StatusRegisterWrites := by
  intro s v ea h hs yields
  have stored {i : Instr} {t : State} {w : Word} (hi : Yields (exec i s) { t with sr := StatusReg.ofWord w }) :
      yields i t w := ⟨_, StatusReg.toWord_ofWord w, hi⟩
  exact ⟨stored (updateSr_yields h hs v (· &&& ·)), stored (updateSr_yields h hs v (· ||| ·)),
    stored (updateSr_yields h hs v (· ^^^ ·)), fun ha => stored (execMoveToSr_yields h hs ha)⟩

/-- Settles O47. -/
theorem supervisorResults : Obligations.SupervisorResults := fun _ _ _ h hs =>
  ⟨runInstr_privileged_modify hs _, runInstr_privileged_modify hs _, runInstr_privileged_modify hs _,
    ⟨_, StatusReg.toWord_ofWord _, execStop_yields h hs _⟩,
    fun he => ⟨_, StatusReg.toWord_ofWord _, execRte_yields h hs he⟩⟩

/-! ## Rules that end in an exception -/

/-- A word that is not executed stacks its own address and is not traced (R437). -/
theorem runInstr_notExecuted_took {s : State} (h : s.BusServes) (he : EvenAddr s.ssp) {body : M Ending} {v : Byte}
    (hbody : body (s.after 1) = .ok (.notExecuted v) (s.after 1)) :
    ∃ t, runInstr body s = .next t ∧ TookException s t v s.pc false := by
  have hbus : ({ s.after 1 with tracePending := false } : State).BusServes := h.congr rfl
  obtain ⟨t, htake, htook⟩ := takeException_internal hbus he .group1 v s.pc
  exact ⟨t, (runInstr_notExecuted hbody).trans (congrArg (finish s.pc true) htake), htook⟩

/-- An exception of group 2 stacks the address the rule has reached, and leaves a trace pending. -/
theorem runInstr_traps {s t : State} {body : M Ending} {v : Byte} (hbody : Serves body (s.after 1) (.trap v) t)
    (h : t.BusServes) (he : EvenAddr t.ssp) :
    ∃ u, runInstr body s = .next u ∧ TookException t u v t.pc t.tracePending := by
  obtain ⟨log, hrun⟩ := hbody.run
  obtain ⟨u, htake, htook⟩ := takeException_internal (s := { t with bus := log }) (h.congr rfl) he .group2 v t.pc
  exact ⟨u, (runInstr_trap hrun).trans (congrArg (finish s.pc true) htake), htook⟩

/-- Settles O48: in user state none of the nine rules begins. -/
theorem privilegeViolations : Obligations.PrivilegeViolations := by
  intro s an v ea h he hs
  have refused (body : M Unit) : ∃ t, runInstr (privileged body) s = .next t ∧ TookException s t 8 s.pc false :=
    runInstr_notExecuted_took h he (privileged_user (s := s.after 1) hs)
  simp only [List.forall_mem_cons, List.not_mem_nil, false_imp_iff, implies_true, and_true]
  exact ⟨refused _, refused _, refused _, refused _, refused _, refused _, refused _, refused _, refused _⟩

/-- A line word is its line and the twelve bits below it (R160, R165). -/
theorem opWord_line (line : BitVec 4) (w : BitVec 12) :
    opWord line (w.extractLsb' 9 3) (w.extractLsb' 6 3) (w.extractLsb' 3 3) (w.extractLsb' 0 3) = line ++ w := by
  ext k hk
  simp only [opWord]
  grind

/-- Settles O51: each rule is one ending, whose vector is the table's. -/
theorem trapsAndIllegalWords : Obligations.TrapsAndIllegalWords := by
  intro s n w h he takes
  have refused (v : Byte) : ∃ t, runInstr (pure (.notExecuted v)) s = .next t ∧ TookException s t v s.pc false :=
    runInstr_notExecuted_took h he rfl
  have forced {body : M Ending} {v : Byte} (hbody : Serves body (s.after 1) (.trap v) (s.after 1)) :
      ∃ t, runInstr body s = .next t ∧ TookException s t v (s.pc + 2) s.tracePending :=
    runInstr_traps hbody (h.congr rfl) he
  refine ⟨forced (.pure _ _), fun hv => forced (.get ?set), fun hv => runInstr_done ?clear, refused 4, refused 4,
    refused 4, refused 10, refused 11, ?trap, rfl,
    congrArg ([·]) (opWord_line 10 w), congrArg ([·]) (opWord_line 15 w)⟩
  case set =>
    exact .ite_pos hv (.pure _ _)
  case clear =>
    exact (get_bind_run _ _).trans (ite_neg_run (c := (s.after 1).sr.v = true) (Bool.eq_false_iff.mp hv) _)
  case trap =>
    revert n
    decide

/-! ## CHK -/

section
variable {s : State} (h : s.Ready) {ea : EA} (ha : (eaLoc ea .w (s.after 1)).Accessible .w) (dn : RegNo)
include h ha

/-- The free value of the flags is drawn once the source is read. -/
theorem readSource_draw_serves {β : Type} {f : Long → Long → M β} {b : β} {u : State} :
    let t := eaStep ea .w (s.after (1 + eaWords ea))
    Serves (f (t.operand (eaLoc ea .w (s.after 1)) .w) (Config.freeLong s.freeCount))
        { t with freeCount := s.freeCount + 1 } b u →
      Serves (readEA ea .w >>= fun src => drawFree >>= f src) (s.after 1) b u := by
  intro t hf
  have hdraw := Serves.draw t
  rw [show t.freeCount = s.freeCount from eaStep_freeCount ..] at hdraw
  exact (readSource_serves h ha).bind (hdraw.bind hf)

/-- CHK within its bounds. -/
theorem execChk_yields {d : Int} (hd : (lowWord (s.readD dn)).toInt = d) :
    let t := eaStep ea .w (s.after (1 + eaWords ea))
    0 ≤ d → d ≤ (lowWord (t.operand (eaLoc ea .w (s.after 1)) .w)).toInt → Yields (execChk dn ea s)
      { t with sr := s.sr.chk none (Config.freeLong s.freeCount), freeCount := s.freeCount + 1 } := by
  intro t hpos hle
  have hsr : t.sr = s.sr := eaStep_sr ..
  have hdt : (lowWord (t.readD dn)).toInt = d := by rw [State.readD_eaStep, State.readD_after, hd]
  rw [← hdt] at hpos hle
  rw [← hsr]
  exact Serves.runInstr (readSource_draw_serves h ha
    (.get (.ite_neg (not_lt.mpr hpos) (.ite_neg (not_lt.mpr hle) (Serves.bind .modify (.pure _ _))))))

/-- CHK outside its bounds: N says on which side. -/
theorem execChk_traps {d : Int} (hd : (lowWord (s.readD dn)).toInt = d) :
    let t := eaStep ea .w (s.after (1 + eaWords ea))
    EvenAddr t.ssp → d < 0 ∨ (lowWord (t.operand (eaLoc ea .w (s.after 1)) .w)).toInt < d →
      ∃ u, execChk dn ea s = .next u ∧ TookException { t with
        sr := s.sr.chk (some (decide (d < 0))) (Config.freeLong s.freeCount), freeCount := s.freeCount + 1 }
        u 6 t.pc s.tracePending := by
  intro t he hout
  have hsr : t.sr = s.sr := eaStep_sr ..
  have hdt : (lowWord (t.readD dn)).toInt = d := by rw [State.readD_eaStep, State.readD_after, hd]
  have htrace : t.tracePending = s.tracePending := eaStep_tracePending ..
  have hbus : t.BusServes := ((h.after _).eaStep ea .w).1
  rw [← hdt] at hout ⊢
  rw [← htrace, ← hsr]
  refine runInstr_traps (t := { t with sr := _, freeCount := _ }) (readSource_draw_serves h ha (.get ?_))
    (hbus.congr rfl) he
  by_cases hneg : (lowWord (t.readD dn)).toInt < 0
  · rw [decide_eq_true hneg]
    exact .ite_pos hneg (Serves.bind .modify (.pure _ _))
  · rw [decide_eq_false hneg]
    exact .ite_neg hneg (.ite_pos (hout.resolve_left hneg) (Serves.bind .modify (.pure _ _)))

end

/-- Settles O50: the free flags are bits of the one value drawn. -/
theorem checkBounds : Obligations.CheckBounds := by
  intro s dn ea h loc t bound d put ha
  refine ⟨fun hpos hle => ⟨_, _, _, _, execChk_yields h ha dn rfl hpos hle⟩, fun he hout => ?_⟩
  exact ⟨_, _, _, execChk_traps h ha dn rfl he hout⟩

end Sys2Proof.Machine
end

section
/-! LAWS AND CERTIFICATE. What a step does besides an instruction's own rule (R407): the instruction it decodes, the
trace exception after it (R437), and the states in which it only takes its input in (R369, R445, D15). -/

namespace Sys2Proof.Machine

/-- A pending trace is taken, with the address of the next instruction. -/
theorem traceAfter_traced {t : State} (hp : t.tracePending = true) (h : t.BusServes) (he : EvenAddr t.ssp) :
    ∃ u, traceAfter (.next t) = .next u ∧ TookException t u 9 t.pc false := by
  obtain ⟨u, htake, htook⟩ := takeException_internal (s := { t with tracePending := false }) (h.congr rfl) he .group1 9 t.pc
  refine ⟨u, ?_, htook⟩
  rw [traceAfter, if_pos hp, htake]
  rfl

/-- Settles O54: without a pending trace the outcome is handed on, with one vector 9 is taken. -/
theorem traceFollows : Obligations.TraceFollows :=
  fun _ => ⟨traceAfter_untraced, traceAfter_traced⟩

/-- Settles O52: the words the decoder is given are those at the program counter. -/
theorem stepRunsDecoded : Obligations.StepRunsDecoded := by
  intro s i rest u hreset hhalt hnormal hlevel hready hdec
  obtain ⟨log, hrun⟩ := runInstruction_serves hready
  refine ⟨log, ?_⟩
  rw [step_instruction hreset hhalt hnormal hlevel, hrun, executeDecoded, fetchedWords_afterFetch hready, hdec]
  rfl

/-! ## Waiting -/

section
variable {s : State} (hr : s.input.resetRequest = false)
include hr

theorem step_waits (hw : s.input.haltPin = true ∨ s.pstate = .halted) : step s = .next s.sample := by
  have hhalt : (s.input.haltPin || s.sample.pstate == .halted) = true := by
    obtain hpin | hstate := hw
    · rw [hpin, Bool.true_or]
    · rw [show s.sample.pstate = .halted from hstate, BEq.rfl, Bool.or_true]
  rw [step, runStep, runSampled, hr, if_neg Bool.false_ne_true, if_pos hhalt]

/-- An interrupt would end the stopped state (D21), so would nothing else here. -/
theorem step_stopped (hs : s.pstate = .stopped) (hi : s.sample.interruptLevel = none) : step s = .next s.sample := by
  cases hpin : s.input.haltPin with
  | true => exact step_waits hr (.inl hpin)
  | false =>
    have hstop : s.sample.pstate = .stopped := hs
    rw [step, runStep, runSampled, hr, hpin, hi, hstop]
    rfl

end

/-- Settles O56. -/
theorem waitingStates : Obligations.WaitingStates := fun _ hr =>
  ⟨fun hs => step_waits hr (.inr hs), fun hpin => step_waits hr (.inl hpin), step_stopped hr⟩

end Sys2Proof.Machine
end

section
/-! LAWS AND CERTIFICATE. Actions whose cycles the platform's rules end at their first run, completed or with a bus
error (`State.EndsAtOnce`): the action answers, or it stops at the first cycle that fails (`Tried`). From this the
double bus fault of the reset exception (R470, R473). -/

namespace Sys2Proof.Machine

/-- A later state of the same action: the bus answers as before, and no group 0 exception has come or gone. -/
structure State.SameBus (s t : State) : Prop where
  platform : t.platform = s.platform
  turns : t.turns = s.turns
  g0Active : t.g0Active = s.g0Active

/-- A cycle an action makes: its function code, direction and address. -/
abbrev Reference := FuncCode × Direction × Long

def State.answerTo (s : State) (c : Reference) : BusAnswer := s.answer c.1 c.2.1 c.2.2

/-- Where each of the cycles ends at once, the action makes them all and answers, or it stops at one that fails. -/
def Tried {α : Type} (x : M α) (s : State) (cs : List Reference) : Prop :=
  (∀ c ∈ cs, s.EndsAtOnce c.1 c.2.1 c.2.2) →
    (∃ a t, x s = .ok a t ∧ s.SameBus t ∧ ∀ c ∈ cs, s.answerTo c ≠ .busError)
    ∨ ∃ acc t, x s = .error (.busError acc) t ∧ t.g0Active = s.g0Active

section
variable {α β : Type} {x : M α} {s : State} {cs ds : List Reference}

theorem State.SameBus.refl (s : State) : s.SameBus s := ⟨rfl, rfl, rfl⟩

theorem State.SameBus.trans {s t u : State} (h : s.SameBus t) (h' : t.SameBus u) : s.SameBus u :=
  ⟨h'.platform.trans h.platform, h'.turns.trans h.turns, h'.g0Active.trans h.g0Active⟩

theorem State.SameBus.answerTo {s t : State} (h : s.SameBus t) (c : Reference) : t.answerTo c = s.answerTo c :=
  State.answer_congr h.platform ..

theorem State.SameBus.endsAtOnce {s t : State} (h : s.SameBus t) {c : Reference}
    (hc : s.EndsAtOnce c.1 c.2.1 c.2.2) : t.EndsAtOnce c.1 c.2.1 c.2.2 := by
  simp only [State.EndsAtOnce, State.Answers, State.answer_congr h.platform] at hc ⊢
  exact hc

theorem State.Answers.ne_busError {s : State} {fc : FuncCode} {dir : Direction} {a : Long} (h : s.Answers fc dir a) :
    s.answer fc dir a ≠ .busError := by
  rcases h with e | e <;> rw [e] <;> decide

theorem Tried.bind {f : α → M β} (hx : Tried x s cs) (hf : ∀ a t, s.SameBus t → Tried (f a) t ds) :
    Tried (x >>= f) s (cs ++ ds) := by
  intro hends
  obtain ⟨hcs, hds⟩ := List.forall_mem_append.mp hends
  obtain ⟨a, t, hok, hsame, hcs⟩ | ⟨acc, t, herr, hg⟩ := hx hcs
  · rw [bind_ok hok]
    obtain ⟨b, u, hok', hsame', hds⟩ | ⟨acc, u, herr', hg⟩ := hf a t hsame fun c hc => hsame.endsAtOnce (hds c hc)
    · exact .inl ⟨b, u, hok', hsame.trans hsame',
        List.forall_mem_append.mpr ⟨hcs, fun c hc => hsame.answerTo c ▸ hds c hc⟩⟩
    · exact .inr ⟨acc, u, herr', hg.trans hsame.g0Active⟩
  · exact .inr ⟨acc, t, bind_error herr, hg⟩

theorem Tried.modify {f : State → State} (hf : s.SameBus (f s) := by exact ⟨rfl, rfl, rfl⟩) :
    Tried (modify f : M PUnit) s [] :=
  fun _ => .inl ⟨⟨⟩, f s, rfl, hf, nofun⟩

theorem Tried.pure (a : α) : Tried (Pure.pure a : M α) s [] := fun _ => .inl ⟨a, s, rfl, .refl s, nofun⟩

/-- An action of which some cycle fails stops there. -/
theorem Tried.fails (hx : Tried x s cs) (hends : ∀ c ∈ cs, s.EndsAtOnce c.1 c.2.1 c.2.2)
    (hfail : ∃ c ∈ cs, s.answerTo c = .busError) :
    ∃ acc t, x s = .error (.busError acc) t ∧ t.g0Active = s.g0Active := by
  obtain ⟨c, hc, hbad⟩ := hfail
  exact (hx hends).resolve_left fun ⟨_, _, _, _, hgood⟩ => hgood c hc hbad

end

/-! ## The accesses -/

section
variable {s : State} (ht : s.turns = [])
include ht

theorem busRead_tried (fc : FuncCode) (a : Long) : Tried (busRead .read fc a true) s [(fc, .read, a)] := by
  intro hends
  obtain hok | hbad := hends _ List.mem_cons_self
  · obtain ⟨w, n, log, hx⟩ := busRead_answered ht .read true hok
    exact .inl ⟨w, _, hx, ⟨rfl, rfl, rfl⟩, List.forall_mem_singleton.mpr hok.ne_busError⟩
  · obtain ⟨log, hx⟩ := busRead_failed ht .read fc a true hbad
    exact .inr ⟨_, _, hx, rfl⟩

theorem busWrite_tried (fc : FuncCode) (a : Long) (v : Word) :
    Tried (busWrite .write fc a true v) s [(fc, .write, a)] := by
  intro hends
  obtain hok | hbad := hends _ List.mem_cons_self
  · obtain ⟨log, hx⟩ := busWrite_answered ht .write true v hok
    exact .inl ⟨(), _, hx, ⟨rfl, rfl, rfl⟩, List.forall_mem_singleton.mpr hok.ne_busError⟩
  · obtain ⟨log, hx⟩ := busWrite_failed ht .write fc a true v hbad
    obtain ⟨m, n, hm⟩ := s.pokeFailed_eq fc a true v
    exact .inr ⟨_, _, hx, by rw [hm]⟩

theorem memWriteWord_tried (fc : FuncCode) {a : Long} (he : EvenAddr a) (lowFirst : Bool) (v : Long) :
    Tried (memWrite fc a .w lowFirst v) s [(fc, .write, a)] := by
  rw [Tried, memWrite, bind_ok (checkAligned_ok (.inr he) s)]
  exact busWrite_tried ht fc a _

theorem memReadLong_tried (fc : FuncCode) {a : Long} (he : EvenAddr a) :
    Tried (memRead fc a .l) s [(fc, .read, a), (fc, .read, a + 2)] := by
  rw [Tried, memRead, bind_ok (checkAligned_ok (.inr he) s)]
  exact (busRead_tried ht fc a).bind fun _ t h =>
    (busRead_tried (h.turns.trans ht) fc (a + 2)).bind fun _ _ _ => .pure _

end

/-! ## The reset exception -/

/-- The reset exception before it reads its vectors. -/
def State.inReset (s : State) : State :=
  { s with
    pstate := .exception .group0
    g0Active := true
    tracePending := false
    sr := { s.sr with s := true, t := false, i := 7 }
    freeCount := s.freeCount + 1
    nmiPending := (Config.freeLong s.freeCount).getLsbD 0 }

/-- The cycles that read the two vectors. -/
def resetReads : List Reference := [0#32, 2#32, 4#32, 6#32].map fun a => (.superProgram, .read, a)

theorem resetException_fails {s : State} (ht : s.turns = [])
    (hends : ∀ c ∈ resetReads, s.inReset.EndsAtOnce c.1 c.2.1 c.2.2)
    (hfail : ∃ c ∈ resetReads, s.inReset.answerTo c = .busError) :
    ∃ acc t, resetException s = .error (.busError acc) t ∧ t.g0Active = true := by
  have hreads : Tried (memRead .superProgram 0 .l >>= fun ssp => modify (fun s => { s with ssp := ssp }) >>= fun _ =>
      memRead .superProgram 4 .l >>= fun pc => modify fun s => { s with pc := pc, pstate := .normal })
      s.inReset resetReads := by
    have hfirst := memReadLong_tried (s := s.inReset) ht .superProgram (a := 0) rfl
    refine hfirst.bind (ds := [(.superProgram, .read, 4), (.superProgram, .read, 6)]) fun _ t h => ?_
    refine .bind (cs := []) .modify fun _ u h' => ?_
    have hsecond := memReadLong_tried (s := u) ((h.trans h').turns.trans ht) .superProgram (a := 4) rfl
    exact hsecond.bind (ds := []) fun _ _ _ => .modify
  exact hreads.fails hends hfail

/-- A bus error while group 0 processing is going on halts the processor (R444). -/
theorem abandon_halts {s : State} (hg : s.g0Active = true) (pc0 : Long) (hasOpw : Bool) (acc : Access) :
    abandon pc0 hasOpw (.busError acc) s = .next s.halt := by
  rw [abandon, enterGroup0, if_pos hg]

theorem step_reset {s : State} (hr : s.input.resetRequest = true) :
    step s = finish s.sample.pc false (resetException s.sample) := by
  rw [step, runStep, runSampled, if_pos hr]

/-- Settles O57: where the bus serves, the vectors are read; where one of their cycles fails, it is a double bus fault. -/
theorem resetExceptionState : Obligations.ResetExceptionState := by
  intro s hr u
  rw [step_reset hr]
  refine ⟨fun h => ?loads, fun ht hends hfail => ?halts⟩
  case loads =>
    obtain ⟨log, hrun⟩ := (resetException_serves h).run
    exact ⟨_, log, by rw [hrun]; rfl⟩
  case halts =>
    obtain ⟨acc, t, hrun, hg⟩ := resetException_fails ht (List.forall_mem_map.mpr hends)
      (let ⟨a, ha, hbad⟩ := hfail; ⟨_, List.mem_map_of_mem ha, hbad⟩)
    exact ⟨t.halt, by rw [hrun]; exact abandon_halts hg _ _ _, rfl⟩

end Sys2Proof.Machine
end

section
/-! LAWS. Exception processing cut where its two procedures agree (R405, R443): a frame of words is written, then the
stack pointer passes it and the program counter is loaded from the vector (`enterHandler`). What neither part touches,
whatever the platform answers, is `State.Kept`. -/

namespace Sys2Proof.Machine

/-! ## What no bus cycle changes -/

/-- A property that survives everything a bus cycle can change; without turns of the environment none appear. -/
def Stable (P : State → Prop) : Prop := ∀ s m ts l n, P s → (s.turns = [] → ts = []) →
  P { s with mem := m, turns := ts, bus := l, freeCount := n }

theorem busRead_keeps_turns (kind : CycleKind) (fc : FuncCode) (a : Long) (isWord : Bool) :
    Keeps (fun s => s.turns = []) (busRead kind fc a isWord) := by
  intro s h
  have hstate : (runCycle kind fc a isWord none (s.answer fc .read a) s.turns s).state = s := by rw [h]; rfl
  unfold busRead
  generalize runCycle kind fc a isWord none (s.answer fc .read a) s.turns s = e at hstate
  obtain ⟨v, n, l, hdone⟩ := readDone_ok kind fc a isWord e
  cases he : e.answer <;> simp only [he]
  case ok | vpa => rw [hdone, hstate]; exact h
  case busError | rerun | never => rw [hstate]; exact h

theorem busWrite_keeps_turns (kind : CycleKind) (fc : FuncCode) (a : Long) (isWord : Bool) (v : Word) :
    Keeps (fun s => s.turns = []) (busWrite kind fc a isWord v) := by
  intro s h
  have hstate : (runCycle kind fc a isWord (some v) (s.answer fc .write a) s.turns s).state = s := by rw [h]; rfl
  unfold busWrite
  generalize runCycle kind fc a isWord (some v) (s.answer fc .write a) s.turns s = e at hstate
  obtain ⟨m, n, hfailed⟩ := e.state.pokeFailed_eq fc a isWord v
  have hpoked := e.state.pokeCycle_eq fc a isWord v
  cases he : e.answer <;> simp only [he]
  case ok | vpa => rw [hpoked, hstate]; exact h
  case busError | rerun => rw [hfailed, hstate]; exact h
  case never => rw [hstate]; exact h

section
variable {P : State → Prop} (hP : Stable P)
include hP

theorem Stable.busRead (kind : CycleKind) (fc : FuncCode) (a : Long) (isWord : Bool) :
    Keeps P (busRead kind fc a isWord) := by
  intro s h
  have ht := busRead_keeps_turns kind fc a isWord s
  obtain ⟨m, ts, l, n, -, ⟨v, hv⟩ | ⟨e, -, he⟩⟩ := busRead_changes kind fc a isWord s
  · rw [hv] at ht ⊢; exact hP s m ts l n h ht
  · rw [he] at ht ⊢; exact hP s m ts l n h ht

theorem Stable.busWrite (kind : CycleKind) (fc : FuncCode) (a : Long) (isWord : Bool) (v : Word) :
    Keeps P (busWrite kind fc a isWord v) := by
  intro s h
  have ht := busWrite_keeps_turns kind fc a isWord v s
  obtain ⟨m, ts, l, n, -, hv | ⟨e, -, he⟩⟩ := busWrite_changes kind fc a isWord v s
  · rw [hv] at ht ⊢; exact hP s m ts l n h ht
  · rw [he] at ht ⊢; exact hP s m ts l n h ht

theorem Stable.memRead (fc : FuncCode) (a : Long) (sz : Size) : Keeps P (memRead fc a sz) := by
  refine (checkAligned_keeps _ _ _ _).bind fun _ => ?_
  cases sz with
  | l => exact (hP.busRead _ _ _ _).bind fun _ => (hP.busRead _ _ _ _).bind fun _ => .pure _ _
  | _ => exact (hP.busRead _ _ _ _).bind fun _ => .pure _ _

theorem Stable.memWrite (fc : FuncCode) (a : Long) (sz : Size) (lowFirst : Bool) (v : Long) :
    Keeps P (memWrite fc a sz lowFirst v) := by
  refine (checkAligned_keeps _ _ _ _).bind fun _ => ?_
  cases sz with
  | l => cases lowFirst <;> exact (hP.busWrite _ _ _ _ _).bind fun _ => hP.busWrite _ _ _ _ _
  | _ => exact hP.busWrite _ _ _ _ _

end

/-! ## The frame and the vector -/

/-- Words written one after the other, from the lowest address up. -/
def storeWords : List Word → Long → M Unit
  | [], _ => pure ()
  | w :: ws, a => do
    memWrite .superData a .w false (ofWord w)
    storeWords ws (a + 2)

/-- The end of exception processing: the stack pointer passes the frame, the program counter comes from the vector. -/
def enterHandler (v : Byte) (ssp : Long) : M Unit := do
  modify fun s => { s with ssp := ssp }
  let pc ← vectorFetch v
  modify fun s => { s with pc := pc, pstate := .normal }

/-- The exception procedure of groups 1 and 2, from the state its first step leaves. -/
theorem takeException_eq (g : ExcGroup) (src : VectorSource) (pcs : Long) (s : State) :
    takeException g src pcs s = (do
      memWrite .superData (s.ssp - 2) .w false (ofWord (lowWord pcs))
      let v ← src.number
      memWrite .superData (s.ssp - 6) .w false (ofWord s.sr.toWord)
      memWrite .superData (s.ssp - 4) .w false (ofWord (highWord pcs))
      enterHandler v (s.ssp - 6) : M Unit) { s with pstate := .exception g, sr := src.enter s.sr } := rfl

/-- The state in which the group 0 procedure writes its frame: three free values have been drawn. -/
def State.inGroup0 (s : State) : State :=
  { s with
    g0Active := true
    tracePending := false
    pstate := .exception .group0
    sr := { s.sr with s := true, t := false }
    freeCount := s.freeCount + 3 }

/-- The program counter that a group 0 exception stacks. -/
def State.group0Pcs (s : State) (pc0 : Long) : Long :=
  group0Pc (Config.freeLong (s.freeCount + 1)) pc0 s.pstate.notInstruction

/-- The instruction register that a group 0 exception stacks. -/
def State.group0Ir (s : State) (hasOpw : Bool) : Word :=
  if s.pstate.notInstruction || !hasOpw then lowWord (Config.freeLong (s.freeCount + 2)) else s.ir

/-- The seven words of the group 0 frame, in the order of R443. -/
def State.group0Words (s : State) (acc : Access) (pc0 : Long) (hasOpw : Bool) : List Word :=
  [group0Word (Config.freeLong s.freeCount) acc s.pstate.notInstruction, highWord acc.addr, lowWord acc.addr,
    s.group0Ir hasOpw, s.sr.toWord, highWord (s.group0Pcs pc0), lowWord (s.group0Pcs pc0)]

/-- The group 0 procedure writes its seven words upwards from the new stack pointer. -/
theorem group0Frame_eq (v : Byte) (acc : Access) (pc0 : Long) (hasOpw : Bool) (s : State) :
    group0Frame v acc pc0 hasOpw s = (do
      storeWords (s.group0Words acc pc0 hasOpw) (s.ssp - 14)
      enterHandler v (s.ssp - 14) : M Unit) s.inGroup0 := by
  have next {j k : Long} (h : j = k + 2) : s.ssp - j + 2 = s.ssp - k := by rw [h]; ring
  simp only [State.group0Words, storeWords, bind_assoc, pure_bind, next (j := 14) (k := 12) rfl,
    next (j := 12) (k := 10) rfl, next (j := 10) (k := 8) rfl, next (j := 8) (k := 6) rfl,
    next (j := 6) (k := 4) rfl, next (j := 4) (k := 2) rfl]
  rfl

end Sys2Proof.Machine
end

section
/-! LAWS AND CERTIFICATE. Group 0 exception processing (R440 to R444): the seven-word frame where its cycles are
answered, and the double bus fault where one of them is not. -/

namespace Sys2Proof.Machine

/-! ## What the procedure keeps of a state -/

/-- What exception processing leaves alone once it has set it: of the registers the status register, the supervisor
stack pointer and the pending trace; the platform; and no turn of the environment comes from nowhere. -/
structure State.Kept (s t : State) : Prop where
  sr : t.sr = s.sr
  ssp : t.ssp = s.ssp
  tracePending : t.tracePending = s.tracePending
  platform : t.platform = s.platform
  turns : s.turns = [] → t.turns = []

theorem State.Kept.refl (s : State) : s.Kept s := ⟨rfl, rfl, rfl, rfl, id⟩

theorem State.Kept.with_ssp {s t u : State} (ht : s.Kept t) {ssp : Long} (hu : State.Kept { t with ssp := ssp } u) :
    State.Kept { s with ssp := ssp } u :=
  ⟨hu.sr.trans ht.sr, hu.ssp, hu.tracePending.trans ht.tracePending, hu.platform.trans ht.platform,
    fun h0 => hu.turns (ht.turns h0)⟩

theorem State.Kept.stable (s : State) : Stable s.Kept :=
  fun _ _ _ _ _ h ht => ⟨h.sr, h.ssp, h.tracePending, h.platform, fun h0 => ht (h.turns h0)⟩

theorem storeWords_keeps {P : State → Prop} (hP : Stable P) (ws : List Word) (a : Long) :
    Keeps P (storeWords ws a) := by
  induction ws generalizing a with
  | nil => exact .pure _ _
  | cons w ws ih => exact (hP.memWrite _ _ _ _ _).bind fun _ => ih _

/-- What holds where an action answers and where it stops, of an action and what follows it. -/
theorem Leaves.bind {α β : Type} {x : M α} {f : α → M β} {s : State} {P Q E : State → Prop}
    (hx : Leaves P E (x s)) (hf : ∀ a t, P t → Leaves Q E (f a t)) : Leaves Q E ((x >>= f) s) := by
  rw [bind_run]
  cases h : x s with
  | ok a t => rw [h] at hx; exact hf a t hx
  | error e t => rw [h] at hx; exact hx

/-! ## A long word read, and what it is worth -/

theorem busReadWord_value {s t : State} (ht : s.turns = []) (hm : s.platform.map = []) {fc : FuncCode} {a : Long}
    {w : Word} (h : busRead .read fc a true s = .ok w t) :
    w = s.peekWord fc a ∧ t.mem = s.mem ∧ t.platform = s.platform ∧ t.turns = [] := by
  have hend : runCycle .read fc a true none (s.answer fc .read a) s.turns s =
      ⟨if s.answer fc .read a = .rerun then .never else s.answer fc .read a, none, s⟩ := by
    rw [ht, runCycle]
    simp [CycleKind.isRmw]
  rw [busRead, hend] at h
  generalize (if s.answer fc .read a = .rerun then BusAnswer.never else s.answer fc .read a) = ans at h
  cases ans with
  | ok | vpa => rw [readDone_of_map hm] at h; cases h; exact ⟨rfl, rfl, rfl, ht⟩
  | busError | rerun | never => cases h

theorem memReadLong_value {s t : State} (ht : s.turns = []) (hm : s.platform.map = []) {fc : FuncCode} {a w : Long}
    (h : memRead fc a .l s = .ok w t) : w = s.peekLong fc a ∧ t.mem = s.mem ∧ t.platform = s.platform := by
  by_cases ha : Aligned .l a
  case neg => rw [memRead_odd ha] at h; cases h
  rw [memRead, bind_ok (checkAligned_ok ha s), bind_run] at h
  cases h1 : busRead .read fc a true s with
  | error e u => rw [h1] at h; cases h
  | ok hi u =>
    obtain ⟨hhi, hmem, hplat, hturns⟩ := busReadWord_value ht hm h1
    rw [h1] at h
    simp only [bind_run] at h
    cases h2 : busRead .read fc (a + 2) true u with
    | error e u' => rw [h2] at h; cases h
    | ok lo u' =>
      obtain ⟨hlo, hmem', hplat', -⟩ := busReadWord_value hturns (hplat ▸ hm) h2
      rw [h2] at h
      cases h
      refine ⟨?_, hmem'.trans hmem, hplat'.trans hplat⟩
      rw [hhi, hlo, State.peekWord_congr hmem hplat, State.peekLong]

/-! ## The handler entered -/

/-- The handler's address stands where a vector says, where no other master, mirror or device comes in between. -/
def State.AtVector (s t : State) (v : Byte) : Prop := s.turns = [] → s.platform.map = [] → t.pc = t.vector v

theorem enterHandler_leaves (v : Byte) (ssp : Long) (s : State) :
    Leaves (fun t => (State.Kept { s with ssp := ssp }) t ∧ t.pstate = .normal ∧ s.AtVector t v)
      (State.Kept { s with ssp := ssp }) (enterHandler v ssp s) := by
  have hkept := (State.Kept.stable { s with ssp := ssp }).memRead .superData (4#32 * v.setWidth 32) .l _ (.refl _)
  rw [enterHandler, modify_bind_run, vectorFetch, bind_run]
  cases h : memRead .superData (4#32 * v.setWidth 32) .l { s with ssp := ssp } with
  | error e t => rw [h] at hkept; exact hkept
  | ok w t =>
    rw [h] at hkept
    refine ⟨⟨hkept.sr, hkept.ssp, hkept.tracePending, hkept.platform, hkept.turns⟩, rfl, fun ht hm => ?_⟩
    obtain ⟨hw, hmem, hplat⟩ := memReadLong_value (s := { s with ssp := ssp }) ht hm h
    exact hw.trans (State.peekLong_congr hmem hplat _ _).symm

/-- A group 0 frame and its vector, however they end. -/
theorem group0Frame_leaves (v : Byte) (acc : Access) (pc0 : Long) (hasOpw : Bool) (s : State) :
    Leaves (fun t => State.Kept { s.inGroup0 with ssp := s.ssp - 14 } t ∧ t.pstate = .normal ∧ s.AtVector t v)
      (fun _ => True) (group0Frame v acc pc0 hasOpw s) := by
  rw [group0Frame_eq]
  have hframe := storeWords_keeps (State.Kept.stable s.inGroup0) (s.group0Words acc pc0 hasOpw) (s.ssp - 14) _ (.refl _)
  refine Leaves.bind (P := s.inGroup0.Kept) ?_ fun _ u hu => ?_
  · cases h : storeWords (s.group0Words acc pc0 hasOpw) (s.ssp - 14) s.inGroup0 with
    | ok _ t => rw [h] at hframe; exact hframe
    | error _ t => trivial
  · have henter := enterHandler_leaves v (s.ssp - 14) u
    cases h : enterHandler v (s.ssp - 14) u with
    | error _ t => trivial
    | ok _ t =>
      rw [h] at henter
      obtain ⟨hkept, hnormal, hvector⟩ := henter
      exact ⟨hu.with_ssp hkept, hnormal, fun ht hm => hvector (hu.turns ht) (hu.platform ▸ hm)⟩

/-! ## What an abandoned rule leads to -/

/-- A group 0 exception is entered, or the processor halts; no trace is pending either way. -/
theorem enterGroup0_next {v : Byte} {acc : Access} {pc0 : Long} {hasOpw : Bool} {s t : State}
    (h : enterGroup0 v acc pc0 hasOpw s = .next t) :
    t.pstate = .halted ∧ t.tracePending = false
      ∨ State.Kept { s.inGroup0 with ssp := s.ssp - 14 } t ∧ t.pstate = .normal ∧ s.AtVector t v := by
  unfold enterGroup0 at h
  split at h
  next => cases h; exact .inl ⟨rfl, rfl⟩
  next =>
    have hleaves := group0Frame_leaves v acc pc0 hasOpw s
    split at h
    next hx => cases h; rw [hx] at hleaves; exact .inr hleaves
    next => cases h
    next => cases h; exact .inl ⟨rfl, rfl⟩

theorem enterGroup0_not_traced (v : Byte) (acc : Access) (pc0 : Long) (hasOpw : Bool) (s : State) :
    traceAfter (enterGroup0 v acc pc0 hasOpw s) = enterGroup0 v acc pc0 hasOpw s := by
  cases h : enterGroup0 v acc pc0 hasOpw s with
  | next t =>
    obtain ⟨-, htrace⟩ | ⟨hkept, -⟩ := enterGroup0_next h
    · exact traceAfter_untraced htrace
    · exact traceAfter_untraced hkept.tracePending
  | _ => rfl

/-- A frame that a bus error or address error stops is a double bus fault (R444). -/
theorem enterGroup0_halts {v : Byte} {acc : Access} {pc0 : Long} {hasOpw : Bool} {s : State}
    (h : ∃ e u, group0Frame v acc pc0 hasOpw s = .error e u ∧ e ≠ .hang) :
    ∃ t, enterGroup0 v acc pc0 hasOpw s = .next t ∧ t.pstate = .halted ∧ t.tracePending = false := by
  obtain ⟨e, u, hx, he⟩ := h
  cases hg : s.g0Active with
  | true => exact ⟨s.halt, by rw [enterGroup0, if_pos hg], rfl, rfl⟩
  | false =>
    refine ⟨u.halt, ?_, rfl, rfl⟩
    rw [enterGroup0, hg, if_neg Bool.false_ne_true, hx]
    cases e with
    | hang => exact absurd rfl he
    | _ => rfl

/-! ## Frames that are stopped -/

/-- The addresses of words that stand one after the other. -/
def wordSlots (a : Long) (count : Nat) : List Long := (List.range count).map fun j => a + BitVec.ofNat 32 (2 * j)

theorem wordSlots_succ (a : Long) (count : Nat) : wordSlots a (count + 1) = a :: wordSlots (a + 2) count := by
  have hzero : a + BitVec.ofNat 32 (2 * 0) = a := by simp
  have hsucc (j : Nat) : a + BitVec.ofNat 32 (2 * (j + 1)) = a + 2 + BitVec.ofNat 32 (2 * j) := by
    rw [Nat.mul_succ, BitVec.ofNat_add, BitVec.add_comm (BitVec.ofNat 32 _), BitVec.add_assoc]
    rfl
  simp only [wordSlots, List.range_succ_eq_map, List.map_cons, List.map_map, hzero, Function.comp_def, hsucc,
    Nat.succ_eq_add_one]

/-- The cycles that read a vector. -/
def vectorSlots (v : Byte) : List Long := [4#32 * v.setWidth 32, 4#32 * v.setWidth 32 + 2]

/-- The cycles of a group 0 exception: its frame, then its vector. -/
def group0Cycles (ssp : Long) (v : Byte) : List Reference :=
  (wordSlots ssp 7).map (fun a => (.superData, .write, a)) ++ (vectorSlots v).map fun a => (.superData, .read, a)

theorem even_vector (v : Byte) : EvenAddr (4#32 * v.setWidth 32) := by
  unfold EvenAddr; rw [BitVec.getLsbD, Nat.testBit_zero, BitVec.toNat_mul]; simp; omega

theorem storeWords_tried {s : State} (ht : s.turns = []) (ws : List Word) {a : Long} (he : EvenAddr a) :
    Tried (storeWords ws a) s ((wordSlots a ws.length).map fun a => (.superData, .write, a)) := by
  induction ws generalizing s a with
  | nil => exact .pure _
  | cons w ws ih =>
    rw [List.length_cons, wordSlots_succ]
    exact (memWriteWord_tried ht .superData he false _).bind fun _ t h => ih (h.turns.trans ht) he.add_two

theorem enterHandler_tried {s : State} (ht : s.turns = []) (v : Byte) (ssp : Long) :
    Tried (enterHandler v ssp) s ((vectorSlots v).map fun a => (.superData, .read, a)) := by
  refine .bind (cs := []) .modify fun _ t h => ?_
  exact (memReadLong_tried (h.turns.trans ht) .superData (even_vector v)).bind (ds := []) fun _ _ _ => .modify

theorem group0Frame_fails {s : State} (ht : s.turns = []) (he : EvenAddr s.ssp) {v : Byte} (acc : Access) (pc0 : Long)
    (hasOpw : Bool) (hends : ∀ c ∈ group0Cycles (s.ssp - 14) v, s.EndsAtOnce c.1 c.2.1 c.2.2)
    (hfail : ∃ c ∈ group0Cycles (s.ssp - 14) v, s.answerTo c = .busError) :
    ∃ e u, group0Frame v acc pc0 hasOpw s = .error e u ∧ e ≠ .hang := by
  have htried := (storeWords_tried (s := s.inGroup0) ht (s.group0Words acc pc0 hasOpw) (he.sub (k := 14) rfl)).bind
    fun _ t h => enterHandler_tried (h.turns.trans ht) v (s.ssp - 14)
  obtain ⟨acc', u, hx, -⟩ := htried.fails hends hfail
  exact ⟨_, u, (group0Frame_eq ..).trans hx, nofun⟩

theorem group0Frame_odd {s : State} (he : ¬EvenAddr s.ssp) (v : Byte) (acc : Access) (pc0 : Long) (hasOpw : Bool) :
    ∃ e u, group0Frame v acc pc0 hasOpw s = .error e u ∧ e ≠ .hang := by
  have hodd : ¬Aligned .w (s.ssp - 14) := fun ha =>
    he (BitVec.sub_add_cancel s.ssp 14 ▸ (ha.even nofun).add (k := 14) rfl)
  exact ⟨_, _, (group0Frame_eq ..).trans (bind_error (bind_error (memWrite_odd hodd false _ s.inGroup0))), nofun⟩

/-! ## Frames that are written -/

section
variable {s : State} (ht : s.turns = [])
include ht

theorem memWriteWord_answered {fc : FuncCode} {a : Long} (he : EvenAddr a) (h : s.Answers fc .write a) (w : Word) :
    Serves (memWrite fc a .w false (ofWord w)) s () (s.pokeWord fc a w) := by
  intro l
  obtain ⟨log, hx⟩ := busWrite_answered (s := { s with bus := l }) ht .write true w h
  refine ⟨log, ?_⟩
  rw [memWrite, bind_ok (checkAligned_ok (.inr he) _)]
  simp only [lowWord_ofWord]
  exact hx

theorem busReadWord_log (hm : s.platform.map = []) {fc : FuncCode} {a : Long} (h : s.Answers fc .read a) :
    ∃ log, busRead .read fc a true s = .ok (s.peekWord fc a) { s with bus := log } := by
  unfold busRead
  rw [runCycle_nil _ _ _ _ _ h.ne_rerun ht]
  rcases h with ha | ha <;> (rw [ha]; exact ⟨_, readDone_of_map (e := ⟨_, none, s⟩) hm .read fc a true⟩)

theorem busReadWord_answered (hm : s.platform.map = []) {fc : FuncCode} {a : Long} (h : s.Answers fc .read a) :
    Serves (busRead .read fc a true) s (s.peekWord fc a) s :=
  fun l => busReadWord_log (s := { s with bus := l }) ht hm h

theorem memReadLong_answered (hm : s.platform.map = []) {fc : FuncCode} {a : Long} (he : EvenAddr a)
    (h1 : s.Answers fc .read a) (h2 : s.Answers fc .read (a + 2)) :
    Serves (memRead fc a .l) s (s.peekLong fc a) s :=
  (checkAligned_serves (.inr he) s).bind
    ((busReadWord_answered ht hm h1).bind ((busReadWord_answered ht hm h2).bind (.pure _ _)))

theorem enterHandler_answered (hm : s.platform.map = []) (v : Byte) (ssp : Long)
    (h : ∀ a ∈ vectorSlots v, s.Answers .superData .read a) :
    Serves (enterHandler v ssp) s () { s with ssp := ssp, pc := s.vector v, pstate := .normal } := by
  obtain ⟨h1, h2⟩ := List.forall_mem_cons.mp h
  replace h2 := List.forall_mem_singleton.mp h2
  refine Serves.bind (t := { s with ssp := ssp }) .modify ?_
  exact (memReadLong_answered (s := { s with ssp := ssp }) ht hm (even_vector v) h1 h2).bind .modify

end

/-- The words stored stand one after the other, and no other byte of memory changes. -/
theorem storeWords_answered {s : State} (ht : s.turns = []) (hm : s.platform.map = []) {ws : List Word}
    (hlen : ws.length ≤ 16) {a : Long} (he : EvenAddr a)
    (h : ∀ b ∈ wordSlots a ws.length, s.Answers .superData .write b) :
    ∃ m, Serves (storeWords ws a) s () { s with mem := m }
      ∧ StoredSlots s m .superData .w ws.length (slotUp a .w) fun j => ofWord (ws.getD j 0) := by
  induction ws generalizing s a with
  | nil => exact ⟨s.mem, .pure _ _, .zero ..⟩
  | cons w ws ih =>
    rw [List.length_cons, wordSlots_succ] at h
    obtain ⟨hfirst, hrest⟩ := List.forall_mem_cons.mp h
    have hzero : slotUp a .w 0 = a := by simp [slotUp]
    have hsucc : (fun j => slotUp a .w (j + 1)) = slotUp (a + 2) .w := funext fun j => (slot_up_succ a _ j).symm
    have hstored := StoredAt_word hm .superData a (ofWord w)
    rw [lowWord_ofWord] at hstored
    obtain ⟨m, hserves, hslots⟩ := ih (s := s.pokeWord .superData a w) ht hm (Nat.le_of_succ_le hlen) he.add_two hrest
    refine ⟨m, (memWriteWord_answered ht he hfirst w).bind hserves,
      .succ (m₁ := (s.pokeWord .superData a w).mem) (hzero.symm ▸ hstored) (hsucc ▸ hslots) fun j hj => ?_⟩
    rw [hzero]
    exact State.adjacent_disjoint hm _ a _ (by simp at hlen; omega)

theorem StoredSlots.congr {s s' : State} {m : Memory} {fc : FuncCode} {sz : Size} {count : Nat} {slot val : Nat → Long}
    (h : StoredSlots s m fc sz count slot val) (hm : s'.mem = s.mem) (hp : s'.platform = s.platform) :
    StoredSlots s' m fc sz count slot val := by
  obtain ⟨hvals, hframe⟩ := h
  refine ⟨fun j hj => (State.peek_congr (t := { s' with mem := m }) (s := { s with mem := m }) rfl hp ..).trans
    (hvals j hj), fun n hn => ?_⟩
  rw [hm]
  exact hframe n fun j hj => State.bytesAt_congr hp fc (slot j) sz ▸ hn j hj

/-- The state a group 0 exception leaves. -/
def State.afterGroup0 (s : State) (v : Byte) (m : Memory) (log : List BusCycle) : State :=
  { s.inGroup0 with
    ssp := s.ssp - 14
    pc := ({ s with mem := m } : State).vector v
    pstate := .normal
    mem := m
    bus := log }

/-- Group 0 exception processing where its cycles are answered. -/
theorem enterGroup0_answered {s : State} (hg : s.g0Active = false) (ht : s.turns = []) (hm : s.platform.map = [])
    (he : EvenAddr s.ssp) (v : Byte) (acc : Access) (pc0 : Long) (hasOpw : Bool)
    (hframe : ∀ a ∈ wordSlots (s.ssp - 14) 7, s.Answers .superData .write a)
    (hvector : ∀ a ∈ vectorSlots v, s.Answers .superData .read a) :
    ∃ m log, enterGroup0 v acc pc0 hasOpw s = .next (s.afterGroup0 v m log)
      ∧ StoredSlots s m .superData .w 7 (slotUp (s.ssp - 14) .w)
        fun j => ofWord ((s.group0Words acc pc0 hasOpw).getD j 0) := by
  generalize hws : s.group0Words acc pc0 hasOpw = ws
  have hlen : ws.length = 7 := by rw [← hws]; rfl
  have hsp : EvenAddr (s.ssp - 14) := he.sub (k := 14) rfl
  obtain ⟨m, hstore, hslots⟩ := storeWords_answered (s := s.inGroup0) (ws := ws) ht hm (by rw [hlen]; decide) hsp
    (by rw [hlen]; exact hframe)
  have henter := enterHandler_answered (s := { s.inGroup0 with mem := m }) ht hm v (s.ssp - 14) hvector
  obtain ⟨log, hrun⟩ := (hstore.bind (f := fun _ => enterHandler v (s.ssp - 14)) henter).run
  refine ⟨m, log, ?_, hlen ▸ hslots.congr rfl rfl⟩
  have hvec : ({ s.inGroup0 with mem := m } : State).vector v = ({ s with mem := m } : State).vector v :=
    State.peekLong_congr rfl rfl ..
  rw [hvec] at hrun
  rw [enterGroup0, hg, if_neg Bool.false_ne_true, group0Frame_eq, hws, hrun]
  rfl

/-! ## What the frame reads as -/

theorem slotUp_word (a : Long) (j : Nat) : slotUp a .w j = a + BitVec.ofNat 32 (2 * j) := by
  rw [slotUp, Size.bytes_mul]
  rfl

section
variable {s : State} {m : Memory} {fc : FuncCode} {a : Long} {ws : List Word}
  (h : StoredSlots s m fc .w ws.length (slotUp a .w) fun j => ofWord (ws.getD j 0))
include h

theorem StoredSlots.peekWord {j : Nat} (hj : j < ws.length) {t : State} (hm : t.mem = m) (hp : t.platform = s.platform) :
    t.peekWord fc (a + BitVec.ofNat 32 (2 * j)) = ws.getD j 0 := by
  have hword := h.1 j hj
  rw [slotUp_word, ← ofWord_eq, lowWord_ofWord] at hword
  calc t.peekWord fc (a + BitVec.ofNat 32 (2 * j))
    _ = ({ s with mem := m } : State).peekWord fc (a + BitVec.ofNat 32 (2 * j)) :=
      State.peekWord_congr (s := { s with mem := m }) hm hp ..
    _ = lowWord (ofWord (({ s with mem := m } : State).peekWord fc (a + BitVec.ofNat 32 (2 * j)))) :=
      (lowWord_ofWord _).symm
    _ = ws.getD j 0 := (congrArg lowWord hword).trans (lowWord_ofWord _)

/-- A byte that is none of the words' is unchanged. -/
theorem StoredSlots.read_other {n : Nat} (hn : ∀ j < 2 * ws.length, n ≠ s.location fc (a + BitVec.ofNat 32 j)) :
    Memory.read m n = Memory.read s.mem n := by
  refine h.2 n fun j hj hmem => ?_
  obtain ⟨i, hi, hloc⟩ := (s.mem_bytesAt_iff fc _ .w n).mp hmem
  rw [slotUp_word, BitVec.add_assoc, ← BitVec.ofNat_add] at hloc
  have hi' : i < 2 := hi
  exact hn _ (by omega) hloc

end

theorem group0Word_low (free : Long) (acc : Access) (notInstr : Bool) :
    (group0Word free acc notInstr).extractLsb' 0 5 =
      BitVec.ofBool (acc.dir == .read) ++ BitVec.ofBool notInstr ++ acc.fc.bits := by
  have hdir : acc.dir.isRead = (acc.dir == .read) := by cases acc.dir <;> rfl
  rw [group0Word, hdir]
  ext k hk
  simp only [BitVec.getElem_extractLsb']
  grind

/-- Within an instruction the stacked program counter is one to five words beyond it (U6). -/
theorem group0Pc_range (free pc0 : Long) :
    ∃ k, 1 ≤ k ∧ k ≤ 5 ∧ group0Pc free pc0 false = pc0 + BitVec.ofNat 32 (2 * k) := by
  refine ⟨1 + free.toNat % 5, by omega, by omega, ?_⟩
  rw [group0Pc, if_neg Bool.false_ne_true, BitVec.ofNat_mul, BitVec.ofNat_add]
  rfl

/-- Settles O58: the frame is `group0Words`, and the procedure stops only where a cycle of `group0Cycles` fails. -/
theorem groupZeroEntry : Obligations.GroupZeroEntry := by
  intro s acc pc0 hasOpw e v ht he frame vector halts
  have habandon : abandon pc0 hasOpw e s = enterGroup0 v acc pc0 hasOpw s := by
    obtain ⟨rfl, rfl⟩ | ⟨rfl, rfl⟩ := he <;> rfl
  simp only [halts, habandon]
  refine ⟨enterGroup0_not_traced .., fun hg => if_pos hg, fun hodd => enterGroup0_halts (group0Frame_odd hodd ..),
    fun hframe hvector hfail => ?fails, fun hg heven hm hframe hvector => ?written⟩
  case fails =>
    by_cases heven : EvenAddr s.ssp
    case neg => exact enterGroup0_halts (group0Frame_odd heven ..)
    refine enterGroup0_halts (group0Frame_fails ht heven acc pc0 hasOpw
      (List.forall_mem_append.mpr ⟨List.forall_mem_map.mpr hframe, List.forall_mem_map.mpr hvector⟩) ?_)
    obtain ⟨a, ha, hbad⟩ | ⟨a, ha, hbad⟩ := hfail
    · exact ⟨_, List.mem_append_left _ (List.mem_map_of_mem ha), hbad⟩
    · exact ⟨_, List.mem_append_right _ (List.mem_map_of_mem ha), hbad⟩
  case written =>
    obtain ⟨m, log, hrun, hslots⟩ := enterGroup0_answered hg ht hm heven v acc pc0 hasOpw hframe hvector
    let t := s.afterGroup0 v m log
    have word (j : Nat) (hj : j < 7) : t.peekWord .superData (t.ssp + BitVec.ofNat 32 (2 * j)) =
        (s.group0Words acc pc0 hasOpw).getD j 0 := StoredSlots.peekWord (s := s) hslots hj rfl rfl
    have long (j : Nat) (hj : j + 1 < 7) : t.peekLong .superData (t.ssp + BitVec.ofNat 32 (2 * j)) =
        (s.group0Words acc pc0 hasOpw).getD j 0 ++ (s.group0Words acc pc0 hasOpw).getD (j + 1) 0 := by
      have hnext : t.ssp + BitVec.ofNat 32 (2 * j) + 2 = t.ssp + BitVec.ofNat 32 (2 * (j + 1)) := by
        rw [BitVec.add_assoc, Nat.mul_succ, BitVec.ofNat_add]
        rfl
      rw [State.peekLong, hnext, word j (by omega), word (j + 1) hj]
    have hzero : t.ssp + BitVec.ofNat 32 (2 * 0) = t.ssp := BitVec.add_zero _
    refine ⟨t, hrun, ?state, ?ssw, ?addr, ?ir, ?sr, ?pcs, ?frame⟩
    case state =>
      have hpc : ({ s with mem := m } : State).vector v = t.vector v := State.peekLong_congr rfl rfl ..
      rw [← hpc]
      rfl
    case ssw =>
      rw [← hzero, word 0 (by decide)]
      exact group0Word_low ..
    case addr => exact (long 1 (by decide)).trans (highWord_append_lowWord _)
    case ir =>
      intro hinstr hopw
      refine (word 3 (by decide)).trans ?_
      show s.group0Ir hasOpw = s.ir
      rw [State.group0Ir, hinstr, hopw]
      rfl
    case sr => exact word 4 (by decide)
    case frame =>
      exact fun n hn => StoredSlots.read_other (ws := s.group0Words acc pc0 hasOpw) hslots hn
    case pcs =>
      intro hinstr
      obtain ⟨k, hlo, hhi, hk⟩ := group0Pc_range (Config.freeLong (s.freeCount + 1)) pc0
      refine ⟨k, hlo, hhi, ?_⟩
      rw [← hk, ← hinstr]
      exact (long 5 (by decide)).trans (highWord_append_lowWord _)

end Sys2Proof.Machine
end

section
/-! LAWS AND CERTIFICATE. Interrupts (R425 to R430): when one is recognised, its entry, and the one acknowledge cycle
that the entry makes. -/

namespace Sys2Proof.Machine

/-! ## The acknowledge cycles of a step -/

/-- The acknowledge cycles among the bus cycles of the step. -/
def State.acks (s : State) : List BusCycle := s.bus.filter (·.kind == .iack)

/-- No turn of the environment is announced, and these acknowledge cycles have been made. -/
def State.Acked (l : List BusCycle) (s : State) : Prop := s.turns = [] ∧ s.acks = l

theorem State.acks_logCycle_of_ne {kind : CycleKind} (hk : kind ≠ .iack) (s : State) (fc : FuncCode) (a : Long)
    (isWord : Bool) (data : Option Word) (ans : BusAnswer) : (s.logCycle kind fc a isWord data ans).acks = s.acks := by
  simp [State.acks, State.logCycle, hk]

theorem State.acks_logCycle_iack (s : State) (fc : FuncCode) (a : Long) (isWord : Bool) (data : Option Word)
    (ans : BusAnswer) : (s.logCycle .iack fc a isWord data ans).acks =
      s.acks ++ [⟨.iack, fc, busAddr a, isWord, dataLines .iack a isWord data, ans⟩] := by
  simp [State.acks, State.logCycle]

/-- Without turns of the environment a cycle ends at its first run. -/
theorem runCycle_state_nil (kind : CycleKind) (fc : FuncCode) (a : Long) (isWord : Bool) (data : Option Word)
    (ans : BusAnswer) {s : State} (ht : s.turns = []) : (runCycle kind fc a isWord data ans s.turns s).state = s := by
  rw [ht]; rfl

section
variable {kind : CycleKind} (hk : kind ≠ .iack) (l : List BusCycle) (fc : FuncCode) (a : Long) (isWord : Bool)
include hk

theorem readDone_acked {e : CycleEnd} (h : e.state.Acked l) :
    Leaves (State.Acked l) (State.Acked l) (readDone kind fc a isWord e) := by
  unfold readDone
  cases e.supplied with
  | some w => exact ⟨h.1, (State.acks_logCycle_of_ne hk ..).trans h.2⟩
  | none =>
    cases e.state.reachesDevice fc a isWord <;>
      exact ⟨h.1, (State.acks_logCycle_of_ne hk ..).trans h.2⟩

theorem busRead_acked : Keeps (State.Acked l) (busRead kind fc a isWord) := by
  intro s h
  have hstate := runCycle_state_nil kind fc a isWord none (s.answer fc .read a) h.1
  unfold busRead
  generalize runCycle kind fc a isWord none (s.answer fc .read a) s.turns s = e at hstate
  rw [← hstate] at h
  cases he : e.answer <;> simp only [he]
  case ok | vpa => exact readDone_acked hk l fc a isWord h
  case busError | rerun => exact ⟨h.1, (State.acks_logCycle_of_ne hk ..).trans h.2⟩
  case never => exact h

theorem busWrite_acked (v : Word) : Keeps (State.Acked l) (busWrite kind fc a isWord v) := by
  intro s h
  have hstate := runCycle_state_nil kind fc a isWord (some v) (s.answer fc .write a) h.1
  unfold busWrite
  generalize runCycle kind fc a isWord (some v) (s.answer fc .write a) s.turns s = e at hstate
  rw [← hstate] at h
  obtain ⟨m, n, hfailed⟩ := e.state.pokeFailed_eq fc a isWord v
  have hpoked := e.state.pokeCycle_eq fc a isWord v
  cases he : e.answer <;> simp only [he]
  case ok | vpa => rw [hpoked]; exact ⟨h.1, (State.acks_logCycle_of_ne hk ..).trans h.2⟩
  case busError | rerun => rw [hfailed]; exact ⟨h.1, (State.acks_logCycle_of_ne hk ..).trans h.2⟩
  case never => exact h

end

theorem memWriteWord_acked (l : List BusCycle) (fc : FuncCode) (a : Long) (lowFirst : Bool) (v : Long) :
    Keeps (State.Acked l) (memWrite fc a .w lowFirst v) :=
  (checkAligned_keeps _ _ _ _).bind fun _ => busWrite_acked (kind := .write) nofun l _ _ _ _

theorem memReadLong_acked (l : List BusCycle) (fc : FuncCode) (a : Long) :
    Keeps (State.Acked l) (memRead fc a .l) :=
  (checkAligned_keeps _ _ _ _).bind fun _ =>
    (busRead_acked (kind := .read) nofun l _ _ _).bind fun _ => (busRead_acked (kind := .read) nofun l _ _ _).bind fun _ => .pure _ _

theorem enterHandler_acked (l : List BusCycle) (v : Byte) (ssp : Long) :
    Keeps (State.Acked l) (enterHandler v ssp) := by
  unfold enterHandler
  refine .bind (.modify fun _ h => h) fun _ => ?_
  exact (memReadLong_acked l _ _).bind fun _ => .modify fun _ h => h

theorem Leaves.mono {α : Type} {P Q E F : State → Prop} {r : EStateM.Result BusStop State α} (hr : Leaves P E r)
    (hok : ∀ t, P t → Q t) (herror : ∀ t, E t → F t) : Leaves Q F r := by
  cases r with
  | ok a t => exact hok t hr
  | error e t => exact herror t hr

/-- A property that an action keeps holds where it answers. -/
theorem Keeps.leaves {α : Type} {P : State → Prop} {x : M α} (h : Keeps P x) {s : State} (hs : P s) :
    Leaves P (fun _ => True) (x s) :=
  Leaves.mono (h s hs) (fun _ => id) fun _ _ => trivial

/-- The cycle that acknowledges an interrupt of a level (R428). -/
def ackCycle (lvl : BitVec 3) (data : Option Word) (ans : BusAnswer) : BusCycle :=
  ⟨.iack, .intAck, busAddr (iackAddr lvl), true, dataLines .iack (iackAddr lvl) true data, ans⟩

theorem ackCycle_addr (lvl : BitVec 3) (data : Option Word) (ans : BusAnswer) :
    (ackCycle lvl data ans).addr = 0xFFFFF0#24 + 2#24 * lvl.setWidth 24 := by
  have haddr : ∀ lvl, busAddr (iackAddr lvl) = 0xFFFFF0#24 + 2#24 * lvl.setWidth 24 := by decide
  exact haddr lvl

/-- Exactly one acknowledge cycle has been made, of this level, after those of the list. -/
def State.AckedOnce (l : List BusCycle) (lvl : BitVec 3) (s : State) : Prop :=
  ∃ data ans, s.Acked (l ++ [ackCycle lvl data ans])

theorem interruptAcknowledge_acked {l : List BusCycle} (lvl : BitVec 3) (ans : IackAnswer) {s : State}
    (h : s.Acked l) : Leaves (State.AckedOnce l lvl) (fun _ => True) (interruptAcknowledge lvl ans s) := by
  have hstate := runCycle_state_nil .iack .intAck (iackAddr lvl) true none ans.onBus
    (s := { s with nmiPending := if lvl = 7 then false else s.nmiPending }) h.1
  unfold interruptAcknowledge
  simp only
  generalize runCycle .iack .intAck (iackAddr lvl) true none ans.onBus _ _ = e at hstate
  replace h : e.state.Acked l := by rw [hstate]; exact h
  have logged (u : State) (hu : u.Acked l) (data : Option Word) (now : BusAnswer) :
      State.AckedOnce l lvl (u.logCycle .iack .intAck (iackAddr lvl) true data now) :=
    ⟨data, now, hu.1, (State.acks_logCycle_iack ..).trans (congrArg (· ++ _) hu.2)⟩
  cases he : e.answer <;> simp only
  case ok => exact logged _ (by split <;> exact h) _ _
  case vpa | busError => exact logged _ h _ _
  case rerun | never => trivial

/-- The entry of an interrupt makes one acknowledge cycle. -/
theorem takeInterrupt_acked {l : List BusCycle} (g : ExcGroup) (lvl : BitVec 3) (ans : IackAnswer) (pcs : Long)
    {s : State} (h : s.Acked l) :
    Leaves (State.AckedOnce l lvl) (fun _ => True) (takeException g (.interrupt lvl ans) pcs s) := by
  rw [takeException_eq]
  refine Leaves.bind ((memWriteWord_acked l _ _ _ _).leaves h) fun _ t ht => ?_
  refine Leaves.bind (interruptAcknowledge_acked lvl ans ht) fun v u ⟨data, now, hu⟩ => ?_
  refine Leaves.mono (Keeps.leaves ?_ hu) (fun _ h => ⟨data, now, h⟩) fun _ => id
  exact (memWriteWord_acked _ _ _ _ _).bind fun _ =>
    (memWriteWord_acked _ _ _ _ _).bind fun _ => enterHandler_acked _ _ _

/-! ## Recognition -/

theorem interruptLevel_eq (s : State) (lvl : BitVec 3) (hl : s.ipl = lvl)
    (h : s.sr.i < lvl ∨ lvl = 7 ∧ s.nmiPending = true) : s.interruptLevel = some lvl := by
  subst hl
  unfold State.interruptLevel
  by_cases hedge : s.ipl = 7 ∧ s.nmiPending = true
  · simp [hedge]
  · have hmask := h.resolve_right hedge
    rw [if_neg (by simpa using hedge), if_pos hmask]

theorem interruptLevel_none {s : State} (h : ¬(s.sr.i < s.ipl ∨ s.ipl = 7 ∧ s.nmiPending = true)) :
    s.interruptLevel = none := by
  obtain ⟨hmask, hedge⟩ := not_or.mp h
  rw [State.interruptLevel, if_neg (by simpa using hedge), if_neg hmask]

/-- A step that takes an interrupt. -/
theorem step_interrupt {s : State} (hr : s.input.resetRequest = false) (hpin : s.input.haltPin = false)
    (hh : s.sample.pstate ≠ .halted) {lvl : BitVec 3} (hl : s.sample.interruptLevel = some lvl) :
    step s = finish s.sample.pc true
      (takeException .group1 (.interrupt lvl s.input.iack) s.sample.pc s.sample) := by
  have hrun : ¬((false || s.sample.pstate == .halted) = true) := by simpa using hh
  rw [step, runStep, runSampled, hr, hpin, if_neg Bool.false_ne_true, if_neg hrun, hl]

/-- The vector number an interrupt goes through (R428 to R430). -/
theorem number_answered (lvl : BitVec 3) {v : Byte} {ans : IackAnswer}
    (h : ans = .vector v ∨ ans = .autovector ∧ v = 24 + lvl.setWidth 8 ∨ ans = .busError ∧ v = 24) (u : State)
    (hu : u.turns = []) : Serves (VectorSource.interrupt lvl ans).number u v
      { u with nmiPending := if lvl = 7 then false else u.nmiPending } := by
  obtain rfl | ⟨rfl, rfl⟩ | ⟨rfl, rfl⟩ := h
  · exact number_vector lvl v hu
  · exact number_autovector lvl hu
  · exact number_spurious lvl hu

/-- Settles O55. -/
theorem interruptEntry : Obligations.InterruptEntry := by
  intro s lvl v u
  refine ⟨interruptLevel_none, ⟨rfl, ?latch⟩, fun hr hpin hh hserve heven hl hrec hans => ?entry⟩
  case latch =>
    show (s.nmiPending || (s.input.ipl == 7 && s.ipl != 7)) = true ↔ _
    simp
  case entry =>
    obtain ⟨t, hserves, hframed, ht⟩ := takeException_serves hserve heven .group1 (.interrupt lvl s.input.iack) u.pc
      (nmi := fun b => if lvl = 7 then false else b) (number_answered lvl hans)
    obtain ⟨log, hrun⟩ := hserves.run
    have hack := takeInterrupt_acked .group1 lvl s.input.iack u.pc (s := u) (l := []) ⟨hserve.turns, rfl⟩
    rw [hrun] at hack
    obtain ⟨data, now, -, hacks⟩ := hack
    refine ⟨{ t with bus := log }, ?_, hframed, congrArg (fun w : State => { w with bus := log }) ht,
      ackCycle lvl data now, hacks, rfl, rfl, ackCycle_addr ..⟩
    rw [step_interrupt hr hpin hh (interruptLevel_eq u lvl hl hrec), hrun]
    rfl

end Sys2Proof.Machine
end

section
/-! LAWS AND CERTIFICATE. The privilege rules (R461, R462): no instruction leaves user state but by exception processing.
What a rule does in user state is built from the shared operations, none of which touches the system byte or the
supervisor stack pointer; the exceptions that can follow are those of Machine/Exceptions.lean. -/

namespace Sys2Proof.Machine

/-! ## Exceptions entered -/

/-- `t` has the interrupt mask and the environment of `s`, and its supervisor stack pointer is `k` bytes lower. -/
structure State.Below (s : State) (k : Nat) (t : State) : Prop where
  mask : t.sr.i = s.sr.i
  ssp : t.ssp = s.ssp - BitVec.ofNat 32 k
  platform : t.platform = s.platform
  turns : s.turns = [] → t.turns = []

/-- What R405 and R443 leave alike: trace off, the mask as before, frames stacked, a handler entered. -/
structure State.Entered (s t : State) : Prop where
  traceOff : t.sr.t = false
  mask : t.sr.i = s.sr.i
  frames : ∃ k ∈ [6, 14, 20], t.ssp = s.ssp - BitVec.ofNat 32 k
  vector : s.turns = [] → s.platform.map = [] → ∃ v : Byte, t.pc = t.vector v

theorem State.Below.congr {s t u : State} {k : Nat} (h : s.Below k t) (hi : u.sr.i = t.sr.i) (hssp : u.ssp = t.ssp)
    (hp : u.platform = t.platform) (hts : t.turns = [] → u.turns = []) : s.Below k u :=
  ⟨hi.trans h.mask, hssp.trans h.ssp, hp.trans h.platform, fun h0 => hts (h.turns h0)⟩

theorem State.Below.kept {s t u : State} {k : Nat} (h : s.Below k t) (hk : t.Kept u) : s.Below k u :=
  h.congr (congrArg StatusReg.i hk.sr) hk.ssp hk.platform hk.turns

/-- A frame moves the stack pointer further down. -/
theorem State.Below.stack {s t : State} {k : Nat} (h : s.Below k t) (j : Nat) :
    s.Below (k + j) { t with ssp := t.ssp - BitVec.ofNat 32 j } := by
  refine ⟨h.mask, ?_, h.platform, h.turns⟩
  rw [BitVec.ofNat_add, sub_add_eq_sub_sub, ← h.ssp]

theorem State.Below.entered {s t : State} {k : Nat} (h : s.Below k t) (hk : k ∈ [6, 14, 20]) (ht : t.sr.t = false)
    (hv : s.turns = [] → s.platform.map = [] → ∃ v : Byte, t.pc = t.vector v) : s.Entered t :=
  ⟨ht, h.mask, ⟨k, hk, h.ssp⟩, hv⟩

/-- A bus error or address error, unless it halts the processor, enters its handler with fourteen bytes more stacked. -/
theorem abandon_entered {s u t : State} {k : Nat} (h : s.Below k u) (hk : k + 14 ∈ [6, 14, 20]) {pc0 : Long}
    {hasOpw : Bool} {e : BusStop} (ht : abandon pc0 hasOpw e u = .next t) (hn : t.pstate = .normal) : s.Entered t := by
  have entered {v : Byte} {acc : Access} (ht : enterGroup0 v acc pc0 hasOpw u = .next t) : s.Entered t := by
    obtain ⟨hhalt, -⟩ | ⟨hkept, -, hvector⟩ := enterGroup0_next ht
    · exact nomatch hn.symm.trans hhalt
    · have hbelow : s.Below k u.inGroup0 := h.congr rfl rfl rfl id
      exact ((hbelow.stack 14).kept hkept).entered hk (congrArg StatusReg.t hkept.sr) fun h0 hm =>
        ⟨v, hvector (h.turns h0) (h.platform ▸ hm)⟩
  cases e with
  | hang => cases ht
  | busError acc | addressError acc => exact entered ht

/-- The state in which an exception of group 1 or 2 writes its frame. -/
def State.inGroup (s : State) (g : ExcGroup) : State :=
  { s with pstate := .exception g, sr := { s.sr with s := true, t := false } }

/-- A frame of group 1 or 2 and its vector, however they end. -/
theorem takeException_leaves (g : ExcGroup) (v : Byte) (pcs : Long) (s : State) :
    Leaves (fun t => State.Kept { s.inGroup g with ssp := s.ssp - 6 } t ∧ s.AtVector t v)
      (fun t => (s.inGroup g).Kept t ∨ State.Kept { s.inGroup g with ssp := s.ssp - 6 } t)
      (takeException g (.internal v) pcs s) := by
  have write (a w : Long) (t : State) (ht : (s.inGroup g).Kept t) :
      Leaves (s.inGroup g).Kept (fun t => (s.inGroup g).Kept t ∨ State.Kept { s.inGroup g with ssp := s.ssp - 6 } t)
        (memWrite .superData a .w false w t) :=
    ((State.Kept.stable _).memWrite _ _ _ _ _ t ht).mono (fun _ h => h) fun _ => .inl
  rw [takeException_eq]
  refine (write _ _ _ (.refl _)).bind fun _ t ht => (write _ _ t ht).bind fun _ t ht =>
    (write _ _ t ht).bind fun _ t ht => (enterHandler_leaves v (s.ssp - 6) t).mono ?_ fun _ h => .inr (ht.with_ssp h)
  exact fun _ ⟨hkept, _, hvector⟩ => ⟨ht.with_ssp hkept, fun h0 hm => hvector (ht.turns h0) (ht.platform ▸ hm)⟩

/-- An exception of group 1 or 2, or the bus error or address error that stops it. -/
theorem takeException_entered {s u t : State} (h : s.Below 0 u) {g : ExcGroup} {v : Byte} {pcs pc0 : Long}
    (ht : finish pc0 true (takeException g (.internal v) pcs u) = .next t) (hn : t.pstate = .normal) : s.Entered t := by
  have hbelow : s.Below 0 (u.inGroup g) := h.congr rfl rfl rfl id
  have hleaves := takeException_leaves g v pcs u
  cases hx : takeException g (.internal v) pcs u with
  | ok _ w =>
    rw [hx] at ht hleaves
    cases ht
    obtain ⟨hkept, hvector⟩ := hleaves
    exact ((hbelow.stack 6).kept hkept).entered (by decide) (congrArg StatusReg.t hkept.sr) fun h0 hm =>
      ⟨v, hvector (h.turns h0) (h.platform ▸ hm)⟩
  | error e w =>
    rw [hx] at ht hleaves
    obtain hkept | hkept := hleaves
    · exact abandon_entered (hbelow.kept hkept) (by decide) ht hn
    · exact abandon_entered ((hbelow.stack 6).kept hkept) (by decide) ht hn

/-! ## User state kept by the shared operations -/

/-- User state still, and nothing the rules R461 and R462 protect has changed since `s`. -/
def State.StaysUser (s t : State) : Prop := t.sr.s = false ∧ s.Below 0 t

theorem State.StaysUser.refl {s : State} (h : s.sr.s = false) : s.StaysUser s :=
  ⟨h, rfl, (BitVec.sub_zero _).symm, rfl, id⟩

theorem State.StaysUser.of {s t u : State} (h : s.StaysUser t) (hs : u.sr.s = t.sr.s := by rfl)
    (hi : u.sr.i = t.sr.i := by rfl) (hssp : u.ssp = t.ssp := by rfl) (hp : u.platform = t.platform := by rfl)
    (ht : u.turns = t.turns := by rfl) : s.StaysUser u :=
  ⟨hs.trans h.1, h.2.congr hi hssp hp ht.trans⟩

theorem State.StaysUser.stable (s : State) : Stable s.StaysUser :=
  fun _ _ _ _ _ h ht => ⟨h.1, h.2.congr rfl rfl rfl ht⟩

/-- In user state the stack pointer is another register than the supervisor's (R24). -/
theorem State.setSp_ssp_user {s : State} (h : s.sr.s = false) (v : Long) : (s.setSp v).ssp = s.ssp := by
  rw [State.setSp, h, if_neg Bool.false_ne_true]

theorem State.writeA_ssp_user {s : State} (h : s.sr.s = false) (n : RegNo) (v : Long) :
    (s.writeA n v).ssp = s.ssp := by
  unfold State.writeA
  split
  · rfl
  · exact State.setSp_ssp_user h v

theorem eaStep_ssp_user {s : State} (h : s.sr.s = false) (ea : EA) (sz : Size) : (eaStep ea sz s).ssp = s.ssp := by
  cases ea with
  | postInc n | preDec n => exact State.writeA_ssp_user h n _
  | _ => rfl

/-- An operation on an operand and the flags leaves the system byte alone. -/
def Update.KeepsSystem (f : Update) : Prop := ∀ d sr, (f d sr).2.s = sr.s ∧ (f d sr).2.i = sr.i

section
variable {s₀ : State}

theorem State.StaysUser.setSp {s : State} (h : s₀.StaysUser s) (v : Long) : s₀.StaysUser (s.setSp v) :=
  h.of (by simp) (by simp) (State.setSp_ssp_user h.1 v) (by simp) (by simp)

theorem State.StaysUser.writeA {s : State} (h : s₀.StaysUser s) (n : RegNo) (v : Long) : s₀.StaysUser (s.writeA n v) :=
  h.of (by simp) (by simp) (State.writeA_ssp_user h.1 n v) (by simp) (by simp)

theorem State.StaysUser.writeR {s : State} (h : s₀.StaysUser s) (k : Fin 16) (v : Long) :
    s₀.StaysUser (s.writeR k v) := by
  unfold State.writeR
  split
  · exact h.of
  · exact h.writeA _ _

theorem State.StaysUser.eaStep {s : State} (h : s₀.StaysUser s) (ea : EA) (sz : Size) : s₀.StaysUser (eaStep ea sz s) :=
  h.of (by simp) (by simp) (eaStep_ssp_user h.1 ea sz) (by simp) (by simp)

theorem memRead_user (fc : FuncCode) (a : Long) (sz : Size) : Keeps s₀.StaysUser (memRead fc a sz) :=
  (State.StaysUser.stable s₀).memRead _ _ _

theorem memWrite_user (fc : FuncCode) (a : Long) (sz : Size) (lowFirst : Bool) (v : Long) :
    Keeps s₀.StaysUser (memWrite fc a sz lowFirst v) := (State.StaysUser.stable s₀).memWrite _ _ _ _ _

theorem drawFree_user : Keeps s₀.StaysUser drawFree := fun _ h => h.of

theorem fetchWords_user (k : Nat) : Keeps s₀.StaysUser (fetchWords k) := by
  induction k with
  | zero => exact .pure _ _
  | succ k ih =>
    refine .bind (.get_bind fun _ => (memRead_user _ _ _).bind fun _ => ?_) fun _ => ih
    exact (Keeps.modify fun _ h => h.of).bind fun _ => .pure _ _

theorem resolveEA_user (ea : EA) (sz : Size) : Keeps s₀.StaysUser (resolveEA ea sz) :=
  .get_bind fun _ => (fetchWords_user _).bind fun _ => (Keeps.modify fun _ h => h.eaStep _ _).bind fun _ => .pure _ _

theorem readLoc_user (loc : Loc) (sz : Size) : Keeps s₀.StaysUser (readLoc loc sz) := by
  cases loc with
  | mem a fc lowFirst => exact memRead_user _ _ _
  | dreg n | areg n => exact .get_bind fun _ => .pure _ _
  | imm v => exact .pure _ _

theorem writeLoc_user (loc : Loc) (sz : Size) (v : Long) : Keeps s₀.StaysUser (writeLoc loc sz v) := by
  cases loc with
  | mem a fc lowFirst => exact memWrite_user _ _ _ _ _
  | dreg n => exact .modify fun _ h => h.of
  | areg n => exact .modify fun _ h => h.writeA _ _
  | imm v => exact .pure _ _

theorem readEA_user (ea : EA) (sz : Size) : Keeps s₀.StaysUser (readEA ea sz) :=
  (resolveEA_user _ _).bind fun _ => readLoc_user _ _

theorem discardRead_user (loc : Loc) (sz : Size) : Keeps s₀.StaysUser (discardRead loc sz) := by
  cases loc with
  | mem a fc lowFirst => exact (memRead_user _ _ _).bind fun _ => .pure _ _
  | _ => exact .pure _ _

theorem readImm_user (v : Imm) (sz : Size) : Keeps s₀.StaysUser (readImm v sz) :=
  (fetchWords_user _).bind fun _ => .pure _ _

theorem push32_user (v : Long) : Keeps s₀.StaysUser (push32 v) :=
  (Keeps.modify fun _ h => h.setSp _).bind fun _ => .get_bind fun _ => memWrite_user _ _ _ _ _

theorem pop16_user : Keeps s₀.StaysUser pop16 :=
  .get_bind fun _ => (memRead_user _ _ _).bind fun _ => (Keeps.modify fun _ h => h.setSp _).bind fun _ => .pure _ _

theorem pop32_user : Keeps s₀.StaysUser pop32 :=
  .get_bind fun _ => (memRead_user _ _ _).bind fun _ => (Keeps.modify fun _ h => h.setSp _).bind fun _ => .pure _ _

/-- A privileged rule does not begin (R355). -/
theorem privileged_stays_user (body : M Unit) : Keeps s₀.StaysUser (privileged body) := by
  intro s h
  rw [privileged_user h.1]
  exact h

/-! ## The shared shapes -/

theorem updateD_user {f : Long → Update} (hf : ∀ src, (f src).KeepsSystem) (sz : Size) (dn : RegNo) (ea : EA) :
    Keeps s₀.StaysUser (updateD sz dn ea f) :=
  (readEA_user _ _).bind fun _ => .modify fun _ h => h.of (hf _ _ _).1 (hf _ _ _).2

section
variable {f : Update} (hf : f.KeepsSystem)
include hf

/-- The flags are those of an earlier state, whose system byte is the same. -/
theorem updateLoc_user (loc : Loc) (sz : Size) : Keeps s₀.StaysUser (updateLoc loc sz f) := by
  refine (readLoc_user _ _).bind fun d s h => ?_
  refine (writeLoc_user _ _ _ s h).bind fun _ t ht => ⟨?_, ?_, ht.2.ssp, ht.2.platform, ht.2.turns⟩
  · exact (hf d s.sr).1.trans h.1
  · exact (hf d s.sr).2.trans h.2.mask

theorem updateLocFlagsFirst_user (loc : Loc) (sz : Size) : Keeps s₀.StaysUser (updateLocFlagsFirst loc sz f) := by
  refine (readLoc_user _ _).bind fun d s h => ?_
  exact writeLoc_user _ _ _ _ (h.of (hf d s.sr).1 (hf d s.sr).2)

theorem updateEA_user (ea : EA) (sz : Size) : Keeps s₀.StaysUser (updateEA ea sz f) :=
  (resolveEA_user _ _).bind fun _ => updateLoc_user hf _ _

end

section
variable {f : Long → Update} (hf : ∀ src, (f src).KeepsSystem)
include hf

theorem updateImm_user (sz : Size) (v : Imm) (ea : EA) : Keeps s₀.StaysUser (updateImm sz v ea f) :=
  (readImm_user _ _).bind fun _ => updateEA_user (hf _) _ _

/-- As `updateLoc_user`. -/
theorem updateByD_user (sz : Size) (dn : RegNo) (ea : EA) : Keeps s₀.StaysUser (updateByD sz dn ea f) := by
  refine (resolveEA_user _ _).bind fun _ => (readLoc_user _ _).bind fun d s h => ?_
  refine (writeLoc_user _ _ _ s h).bind fun _ t ht => ⟨?_, ?_, ht.2.ssp, ht.2.platform, ht.2.turns⟩
  · exact (hf _ d s.sr).1.trans h.1
  · exact (hf _ d s.sr).2.trans h.2.mask

theorem updatePair_user (sz : Size) (dx dy : RegNo) : Keeps s₀.StaysUser (updatePair sz dx dy f) :=
  .modify fun _ h => h.of (hf _ _ _).1 (hf _ _ _).2

theorem updatePairMem_user (sz : Size) (ax ay : RegNo) : Keeps s₀.StaysUser (updatePairMem sz ax ay f) :=
  (readEA_user _ _).bind fun _ => updateEA_user (hf _) _ _

theorem updateQuick_user (q : BitVec 3) (sz : Size) (ea : EA) (op : Long → Long → Long) :
    Keeps s₀.StaysUser (updateQuick q sz ea op f) := by
  cases ea with
  | areg n => exact .modify fun _ h => h.writeA _ _
  | _ => exact updateEA_user (hf _) _ _

end

theorem compareWith_user (sz : Size) (src d : Long) : Keeps s₀.StaysUser (compareWith sz src d) :=
  .modify fun _ h => h.of

/-! ## Rules run as instructions -/

/-- From user state supervisor state is reached by exception processing alone. -/
def Guarded (f : State → Out) : Prop :=
  ∀ s t, s.sr.s = false → f s = .next t → t.sr.s = true → t.pstate = .normal → s.Entered t

/-- The cases are the endings of a rule: completed, a trap, not executed, abandoned. -/
theorem Guarded.runInstr {body : M Ending} (hb : ∀ s : State, Keeps s.StaysUser body) : Guarded (runInstr body) := by
  intro s t hs ht hsuper hn
  have hbody := hb s { s with pc := s.pc + 2 } (State.StaysUser.refl hs).of
  rw [Machine.runInstr] at ht
  cases hx : body { s with pc := s.pc + 2 } with
  | error e u =>
    rw [hx] at ht hbody
    exact abandon_entered (k := 0) hbody.2 (by decide) ht hn
  | ok ending u =>
    rw [hx] at ht hbody
    cases ending with
    | done => cases ht; exact absurd hsuper (hbody.1 ▸ Bool.false_ne_true)
    | trap v => exact takeException_entered hbody.2 ht hn
    | notExecuted v =>
      exact takeException_entered (u := { u with tracePending := false }) (hbody.2.congr rfl rfl rfl id) ht hn

theorem Guarded.runPlain {body : M Unit} (hb : ∀ s : State, Keeps s.StaysUser body) : Guarded (runPlain body) :=
  .runInstr fun s => (hb s).bind fun _ => .pure _ _

theorem Guarded.privileged (body : M Unit) : Guarded (Machine.runInstr (privileged body)) :=
  .runInstr fun _ => privileged_stays_user body

/-- A rule that only names its ending. -/
theorem Guarded.ending (e : Ending) : Guarded (Machine.runInstr (pure e)) := .runInstr fun _ => .pure _ e

/-! ## Integer arithmetic -/

theorem updateA_user (sz : Size) (an : RegNo) (ea : EA) (op : Long → Long → Long) :
    Keeps s₀.StaysUser (updateA sz an ea op) :=
  (readEA_user _ _).bind fun _ => .modify fun _ h => h.writeA _ _

theorem compareAddress_user (sz : Size) (an : RegNo) (ea : EA) : Keeps s₀.StaysUser (compareAddress sz an ea) :=
  (readEA_user _ _).bind fun _ => .get_bind fun _ => compareWith_user _ _ _

theorem multiply_user (dn : RegNo) (ea : EA) (op : Word → Word → Long) : Keeps s₀.StaysUser (multiply dn ea op) :=
  (readEA_user _ _).bind fun _ => .modify fun _ h => h.of

/-- The cases are those of R252: no divisor, a quotient that fits, overflow. -/
theorem divide_user (dn : RegNo) (ea : EA) (op : Long → Word → Option Quotient) :
    Keeps s₀.StaysUser (divide dn ea op) := by
  refine (readEA_user _ _).bind fun src => .ite ?_ (.get_bind fun s => ?_)
  · exact drawFree_user.bind fun _ => .bind (.modify fun _ h => h.of) fun _ => .pure _ _
  · cases op (s.readD dn) (lowWord src) with
    | some u => exact .bind (.modify fun _ h => h.of) fun _ => .pure _ _
    | none => exact drawFree_user.bind fun _ => .bind (.modify fun _ h => h.of) fun _ => .pure _ _

theorem execExtW_guarded (dn : RegNo) : Guarded (execExtW dn) := .runPlain fun _ => .modify fun _ h => h.of

theorem execExtL_guarded (dn : RegNo) : Guarded (execExtL dn) := .runPlain fun _ => .modify fun _ h => h.of

theorem execClr_guarded (sz : Size) (ea : EA) : Guarded (execClr sz ea) :=
  .runPlain fun _ => (resolveEA_user _ _).bind fun _ => (discardRead_user _ _).bind fun _ =>
    (writeLoc_user _ _ _).bind fun _ => .modify fun _ h => h.of

theorem execCmp_guarded (sz : Size) (dn : RegNo) (ea : EA) : Guarded (execCmp sz dn ea) :=
  .runPlain fun _ => (readEA_user _ _).bind fun _ => .get_bind fun _ => compareWith_user _ _ _

theorem execCmpi_guarded (sz : Size) (v : Imm) (ea : EA) : Guarded (execCmpi sz v ea) :=
  .runPlain fun _ => (readImm_user _ _).bind fun _ => (readEA_user _ _).bind fun _ => compareWith_user _ _ _

theorem execCmpm_guarded (sz : Size) (ax ay : RegNo) : Guarded (execCmpm sz ax ay) :=
  .runPlain fun _ => (readEA_user _ _).bind fun _ => (readEA_user _ _).bind fun _ => compareWith_user _ _ _

theorem execTst_guarded (sz : Size) (ea : EA) : Guarded (execTst sz ea) :=
  .runPlain fun _ => (readEA_user _ _).bind fun _ => .modify fun _ h => h.of

/-- In memory TAS makes its own two cycles (R79); elsewhere it is an ordinary update. -/
theorem execTas_guarded (ea : EA) : Guarded (execTas ea) :=
  .runPlain fun s => (resolveEA_user _ _).bind fun loc => by
    cases loc with
    | mem a fc lowFirst =>
      exact ((State.StaysUser.stable s).busRead _ _ _ _).bind fun _ => .bind (.modify fun _ h => h.of) fun _ =>
        (State.StaysUser.stable s).busWrite _ _ _ _ _
    | _ => exact updateLocFlagsFirst_user (fun _ _ => ⟨rfl, rfl⟩) _ _

/-! ## Decimal and bit manipulation -/

/-- The flags are those of an earlier state, whose system byte is the same. -/
theorem decimalWrite_user (loc : Loc) (op : Long → Long → Bool → DecimalSum) (src d : Long) :
    Keeps s₀.StaysUser (decimalWrite loc op src d) :=
  drawFree_user.bind fun _ => .get_bind fun _ => (writeLoc_user _ _ _).bind fun _ => .modify fun _ h => h.of

theorem decimalReg_user (dx dy : RegNo) (op : Long → Long → Bool → DecimalSum) :
    Keeps s₀.StaysUser (decimalReg dx dy op) :=
  (readLoc_user _ _).bind fun _ => (readLoc_user _ _).bind fun _ => decimalWrite_user _ _ _ _

theorem decimalMem_user (ax ay : RegNo) (op : Long → Long → Bool → DecimalSum) :
    Keeps s₀.StaysUser (decimalMem ax ay op) :=
  (readEA_user _ _).bind fun _ => (resolveEA_user _ _).bind fun _ => (readLoc_user _ _).bind fun _ =>
    decimalWrite_user _ _ _ _

theorem execNbcd_guarded (ea : EA) : Guarded (execNbcd ea) :=
  .runPlain fun _ => (resolveEA_user _ _).bind fun _ => (readLoc_user _ _).bind fun _ => decimalWrite_user _ _ _ _

theorem dynamicBit_user (dn : RegNo) : Keeps s₀.StaysUser (dynamicBit dn) := .get_bind fun _ => .pure _ _

theorem staticBit_user (b : Word) : Keeps s₀.StaysUser (staticBit b) :=
  (fetchWords_user _).bind fun _ => .pure _ _

theorem bitTest_user {number : M Long} (hn : Keeps s₀.StaysUser number) (ea : EA) :
    Keeps s₀.StaysUser (bitTest number ea) :=
  hn.bind fun _ => (readEA_user _ _).bind fun _ => .modify fun _ h => h.of

theorem bitChange_user {number : M Long} (hn : Keeps s₀.StaysUser number) (ea : EA) (op : Long → Long → Long) :
    Keeps s₀.StaysUser (bitChange number ea op) :=
  hn.bind fun _ => (resolveEA_user _ _).bind fun _ => updateLocFlagsFirst_user (fun _ _ => ⟨rfl, rfl⟩) _ _

/-! ## Data movement -/

theorem moveData_user (sz : Size) (src dst : EA) : Keeps s₀.StaysUser (moveData sz src dst) :=
  (readEA_user _ _).bind fun _ => (resolveEA_user _ _).bind fun _ => .bind (.modify fun _ h => h.of) fun _ =>
    writeLoc_user _ _ _

theorem moveAddress_user (sz : Size) (an : RegNo) (src : EA) : Keeps s₀.StaysUser (moveAddress sz an src) :=
  (readEA_user _ _).bind fun _ => .modify fun _ h => h.writeA _ _

theorem execMoveq_guarded (dn : RegNo) (v : Byte) : Guarded (execMoveq dn v) :=
  .runPlain fun _ => .modify fun _ h => h.of

theorem execSwap_guarded (dn : RegNo) : Guarded (execSwap dn) := .runPlain fun _ => .modify fun _ h => h.of

theorem execExgDD_guarded (dx dy : RegNo) : Guarded (execExgDD dx dy) := .runPlain fun _ => .modify fun _ h => h.of

theorem execExgAA_guarded (ax ay : RegNo) : Guarded (execExgAA ax ay) :=
  .runPlain fun _ => .modify fun _ h => (h.writeA _ _).writeA _ _

theorem execExgDA_guarded (dx ay : RegNo) : Guarded (execExgDA dx ay) :=
  .runPlain fun _ => .modify fun _ h => State.StaysUser.writeA h.of _ _

theorem execLea_guarded (an : RegNo) (ea : EA) : Guarded (execLea an ea) :=
  .runPlain fun _ => (resolveEA_user _ _).bind fun _ => .modify fun _ h => h.writeA _ _

theorem execPea_guarded (ea : EA) : Guarded (execPea ea) :=
  .runPlain fun _ => (resolveEA_user _ _).bind fun _ => push32_user _

theorem execLink_guarded (an : RegNo) (d : Word) : Guarded (execLink an d) :=
  .runPlain fun _ => (fetchWords_user _).bind fun _ => .bind (.modify fun _ h => h.setSp _) fun _ =>
    .get_bind fun _ => (memWrite_user _ _ _ _ _).bind fun _ => .bind (.modify fun _ h => h.writeA _ _) fun _ =>
    .modify fun _ h => h.setSp _

theorem execUnlk_guarded (an : RegNo) : Guarded (execUnlk an) :=
  .runPlain fun _ => .bind (.modify fun _ h => h.setSp _) fun _ => pop32_user.bind fun _ =>
    .modify fun _ h => h.writeA _ _

theorem storeDown_user (sz : Size) (ks : List (Fin 16)) (a : Long) : Keeps s₀.StaysUser (storeDown sz ks a) := by
  induction ks generalizing a with
  | nil => exact .pure _ _
  | cons k ks ih => exact .get_bind fun _ => (memWrite_user _ _ _ _ _).bind fun _ => ih _

theorem storeUp_user (sz : Size) (ks : List (Fin 16)) (a : Long) : Keeps s₀.StaysUser (storeUp sz ks a) := by
  induction ks generalizing a with
  | nil => exact .pure _ _
  | cons k ks ih => exact .get_bind fun _ => (memWrite_user _ _ _ _ _).bind fun _ => ih _

theorem loadUp_user (fc : FuncCode) (sz : Size) (ks : List (Fin 16)) (a : Long) :
    Keeps s₀.StaysUser (loadUp fc sz ks a) := by
  induction ks generalizing a with
  | nil => exact .pure _ _
  | cons k ks ih =>
    exact (memRead_user _ _ _).bind fun _ => (Keeps.modify fun _ h => h.writeR _ _).bind fun _ => ih _

theorem execMovemToMem_guarded (sz : SizeWL) (list : Word) (ea : EA) : Guarded (execMovemToMem sz list ea) :=
  .runPlain fun _ => (fetchWords_user _).bind fun _ => by
    cases ea with
    | preDec n => exact .get_bind fun _ => (storeDown_user _ _ _).bind fun _ => .modify fun _ h => h.writeA _ _
    | _ => exact (resolveEA_user _ _).bind fun _ => storeUp_user _ _ _

/-- The base register is stepped in `(An)+` alone (R218). -/
theorem execMovemToRegs_guarded (sz : SizeWL) (list : Word) (ea : EA) : Guarded (execMovemToRegs sz list ea) :=
  .runPlain fun _ => (fetchWords_user _).bind fun _ => .get_bind fun s => (fetchWords_user _).bind fun _ => by
    cases eaLoc ea sz.size s with
    | mem a fc lowFirst =>
      refine (loadUp_user _ _ _ _).bind fun _ => (memRead_user _ _ _).bind fun _ => ?_
      cases ea with
      | postInc n => exact .modify fun _ h => h.writeA _ _
      | _ => exact .pure _ _
    | _ => exact .pure _ _

theorem peripheralLoad_user (k : Nat) (a acc : Long) : Keeps s₀.StaysUser (peripheralLoad k a acc) := by
  induction k generalizing a acc with
  | zero => exact .pure _ _
  | succ k ih => exact .get_bind fun _ => (memRead_user _ _ _).bind fun _ => ih _ _

theorem peripheralStore_user (v : Long) (k : Nat) (a : Long) : Keeps s₀.StaysUser (peripheralStore v k a) := by
  induction k generalizing a with
  | zero => exact .pure _ _
  | succ k ih => exact .get_bind fun _ => (memWrite_user _ _ _ _ _).bind fun _ => ih _

theorem peripheralAddress_user (ay : RegNo) (d : Word) : Keeps s₀.StaysUser (peripheralAddress ay d) :=
  (fetchWords_user _).bind fun _ => .get_bind fun _ => .pure _ _

theorem execMovepWToReg_guarded (dx ay : RegNo) (d : Word) : Guarded (execMovepWToReg dx ay d) :=
  .runPlain fun _ => (peripheralAddress_user _ _).bind fun _ => (peripheralLoad_user _ _ _).bind fun _ =>
    .modify fun _ h => h.of

theorem execMovepLToReg_guarded (dx ay : RegNo) (d : Word) : Guarded (execMovepLToReg dx ay d) :=
  .runPlain fun _ => (peripheralAddress_user _ _).bind fun _ => (peripheralLoad_user _ _ _).bind fun _ =>
    .modify fun _ h => h.of

theorem execMovepWToMem_guarded (dx ay : RegNo) (d : Word) : Guarded (execMovepWToMem dx ay d) :=
  .runPlain fun _ => (peripheralAddress_user _ _).bind fun _ => .get_bind fun _ => peripheralStore_user _ _ _

theorem execMovepLToMem_guarded (dx ay : RegNo) (d : Word) : Guarded (execMovepLToMem dx ay d) :=
  .runPlain fun _ => (peripheralAddress_user _ _).bind fun _ => .get_bind fun _ => peripheralStore_user _ _ _

/-! ## Program control -/

theorem branchTarget_user (d : Disp) : Keeps s₀.StaysUser (branchTarget d) :=
  .get_bind fun _ => by
    cases d with
    | short b => exact .pure _ _
    | word w => exact (fetchWords_user _).bind fun _ => .pure _ _

theorem execBcc_guarded (cond : Cond) (d : Disp) : Guarded (execBcc cond d) :=
  .runPlain fun _ => (branchTarget_user _).bind fun _ => .modify fun _ h => by
    split
    · exact h.of
    · exact h

theorem execBra_guarded (d : Disp) : Guarded (execBra d) :=
  .runPlain fun _ => (branchTarget_user _).bind fun _ => .modify fun _ h => h.of

theorem execBsr_guarded (d : Disp) : Guarded (execBsr d) :=
  .runPlain fun _ => (branchTarget_user _).bind fun _ => .get_bind fun _ => (push32_user _).bind fun _ =>
    .modify fun _ h => h.of

/-- The cases are those of R339: the condition holds, the counter has run out, or the branch is taken. -/
theorem execDbcc_guarded (cond : Cond) (dn : RegNo) (d : Word) : Guarded (execDbcc cond dn d) :=
  .runPlain fun _ => .get_bind fun _ => (fetchWords_user _).bind fun _ => .modify fun _ h => by
    split
    · exact h
    · dsimp only
      split <;> exact h.of

theorem execScc_guarded (cond : Cond) (ea : EA) : Guarded (execScc cond ea) :=
  .runPlain fun _ => (resolveEA_user _ _).bind fun _ => (discardRead_user _ _).bind fun _ => .get_bind fun _ =>
    writeLoc_user _ _ _

theorem execJmp_guarded (ea : EA) : Guarded (execJmp ea) :=
  .runPlain fun _ => (resolveEA_user _ _).bind fun _ => .modify fun _ h => h.of

theorem execJsr_guarded (ea : EA) : Guarded (execJsr ea) :=
  .runPlain fun _ => (resolveEA_user _ _).bind fun _ => .get_bind fun _ => (push32_user _).bind fun _ =>
    .modify fun _ h => h.of

theorem execRts_guarded : Guarded execRts :=
  .runPlain fun _ => pop32_user.bind fun _ => .modify fun _ h => h.of

/-- The system byte is not taken from the stack (R344). -/
theorem execRtr_guarded : Guarded execRtr :=
  .runPlain fun _ => pop16_user.bind fun _ => .bind (.modify fun _ h => h.of) fun _ => pop32_user.bind fun _ =>
    .modify fun _ h => h.of

/-! ## Shifts and system control -/

theorem shiftReg_user (op : ShiftOp) (c : ShiftCount) (sz : Size) (dy : RegNo) :
    Keeps s₀.StaysUser (shiftReg op c sz dy) := .modify fun _ h => h.of

theorem shiftMem_user (op : ShiftOp) (ea : EA) : Keeps s₀.StaysUser (shiftMem op ea) :=
  (resolveEA_user _ _).bind fun _ => updateLocFlagsFirst_user (fun _ _ => ⟨rfl, rfl⟩) _ _

theorem updateCcr_user (v : Word) (op : Word → Word → Word) : Keeps s₀.StaysUser (updateCcr v op) :=
  (fetchWords_user _).bind fun _ => .modify fun _ h => h.of

theorem execMoveToCcr_guarded (ea : EA) : Guarded (execMoveToCcr ea) :=
  .runPlain fun _ => (readEA_user _ _).bind fun _ => .modify fun _ h => h.of

theorem execMoveFromSr_guarded (ea : EA) : Guarded (execMoveFromSr ea) :=
  .runPlain fun _ => (resolveEA_user _ _).bind fun _ => (discardRead_user _ _).bind fun _ => .get_bind fun _ =>
    writeLoc_user _ _ _

theorem execChk_guarded (dn : RegNo) (ea : EA) : Guarded (execChk dn ea) :=
  .runInstr fun _ => (readEA_user _ _).bind fun _ => drawFree_user.bind fun _ => .get_bind fun _ =>
    .ite (.bind (.modify fun _ h => h.of) fun _ => .pure _ _) <|
    .ite (.bind (.modify fun _ h => h.of) fun _ => .pure _ _) (.bind (.modify fun _ h => h.of) fun _ => .pure _ _)

theorem execTrapv_guarded : Guarded execTrapv :=
  .runInstr fun _ => .get_bind fun _ => .ite (.pure _ _) (.pure _ _)

end

/-! ## Every instruction -/

theorem Update.keepsSystem_add (sz : Size) (src : Long) : (addUpdate sz src).KeepsSystem := fun _ _ => ⟨rfl, rfl⟩

theorem Update.keepsSystem_sub (sz : Size) (src : Long) : (subUpdate sz src).KeepsSystem := fun _ _ => ⟨rfl, rfl⟩

theorem Update.keepsSystem_addx (sz : Size) (src : Long) : (addxUpdate sz src).KeepsSystem := fun _ _ => ⟨rfl, rfl⟩

theorem Update.keepsSystem_subx (sz : Size) (src : Long) : (subxUpdate sz src).KeepsSystem := fun _ _ => ⟨rfl, rfl⟩

theorem Update.keepsSystem_logic (sz : Size) (op : Long → Long → Long) (src : Long) :
    (logicUpdate sz op src).KeepsSystem := fun _ _ => ⟨rfl, rfl⟩

/-- The instructions stand by the shape of their rule, in the order of the layers above. -/
theorem exec_guarded (i : Instr) : Guarded (exec i) := by
  cases i with
  | addToReg => exact .runPlain fun _ => updateD_user (Update.keepsSystem_add _) _ _ _
  | subToReg => exact .runPlain fun _ => updateD_user (Update.keepsSystem_sub _) _ _ _
  | andToReg | orToReg => exact .runPlain fun _ => updateD_user (Update.keepsSystem_logic _ _) _ _ _
  | addToMem => exact .runPlain fun _ => updateByD_user (Update.keepsSystem_add _) _ _ _
  | subToMem => exact .runPlain fun _ => updateByD_user (Update.keepsSystem_sub _) _ _ _
  | andToMem | orToMem | eor => exact .runPlain fun _ => updateByD_user (Update.keepsSystem_logic _ _) _ _ _
  | addi => exact .runPlain fun _ => updateImm_user (Update.keepsSystem_add _) _ _ _
  | subi => exact .runPlain fun _ => updateImm_user (Update.keepsSystem_sub _) _ _ _
  | andi | ori | eori => exact .runPlain fun _ => updateImm_user (Update.keepsSystem_logic _ _) _ _ _
  | neg | negx | notOp => exact .runPlain fun _ => updateEA_user (fun _ _ => ⟨rfl, rfl⟩) _ _
  | addxReg => exact .runPlain fun _ => updatePair_user (Update.keepsSystem_addx _) _ _ _
  | subxReg => exact .runPlain fun _ => updatePair_user (Update.keepsSystem_subx _) _ _ _
  | addxMem => exact .runPlain fun _ => updatePairMem_user (Update.keepsSystem_addx _) _ _ _
  | subxMem => exact .runPlain fun _ => updatePairMem_user (Update.keepsSystem_subx _) _ _ _
  | addq => exact .runPlain fun _ => updateQuick_user (Update.keepsSystem_add _) _ _ _ _
  | subq => exact .runPlain fun _ => updateQuick_user (Update.keepsSystem_sub _) _ _ _ _
  | addaW | addaL | subaW | subaL => exact .runPlain fun _ => updateA_user _ _ _ _
  | cmpaW | cmpaL => exact .runPlain fun _ => compareAddress_user _ _ _
  | mulu | muls => exact .runPlain fun _ => multiply_user _ _ _
  | divu | divs => exact .runInstr fun _ => divide_user _ _ _
  | clr => exact execClr_guarded _ _
  | cmp => exact execCmp_guarded _ _ _
  | cmpi => exact execCmpi_guarded _ _ _
  | cmpm => exact execCmpm_guarded _ _ _
  | tst => exact execTst_guarded _ _
  | tas => exact execTas_guarded _
  | abcdReg | sbcdReg => exact .runPlain fun _ => decimalReg_user _ _ _
  | abcdMem | sbcdMem => exact .runPlain fun _ => decimalMem_user _ _ _
  | nbcd => exact execNbcd_guarded _
  | btstImm => exact .runPlain fun _ => bitTest_user (staticBit_user _) _
  | btstReg => exact .runPlain fun _ => bitTest_user (dynamicBit_user _) _
  | bchgImm | bclrImm | bsetImm => exact .runPlain fun _ => bitChange_user (staticBit_user _) _ _
  | bchgReg | bclrReg | bsetReg => exact .runPlain fun _ => bitChange_user (dynamicBit_user _) _ _
  | moveB | moveW | moveL => exact .runPlain fun _ => moveData_user _ _ _
  | moveaW | moveaL => exact .runPlain fun _ => moveAddress_user _ _ _
  | moveq => exact execMoveq_guarded _ _
  | swap => exact execSwap_guarded _
  | extW => exact execExtW_guarded _
  | extL => exact execExtL_guarded _
  | exgDD => exact execExgDD_guarded _ _
  | exgAA => exact execExgAA_guarded _ _
  | exgDA => exact execExgDA_guarded _ _
  | lea => exact execLea_guarded _ _
  | pea => exact execPea_guarded _
  | link => exact execLink_guarded _ _
  | unlk => exact execUnlk_guarded _
  | movemToMem => exact execMovemToMem_guarded _ _ _
  | movemToRegs => exact execMovemToRegs_guarded _ _ _
  | movepWToReg => exact execMovepWToReg_guarded _ _ _
  | movepLToReg => exact execMovepLToReg_guarded _ _ _
  | movepWToMem => exact execMovepWToMem_guarded _ _ _
  | movepLToMem => exact execMovepLToMem_guarded _ _ _
  | bcc => exact execBcc_guarded _ _
  | bra => exact execBra_guarded _
  | bsr => exact execBsr_guarded _
  | dbcc => exact execDbcc_guarded _ _ _
  | scc => exact execScc_guarded _ _
  | jmp => exact execJmp_guarded _
  | jsr => exact execJsr_guarded _
  | rts => exact execRts_guarded
  | rtr => exact execRtr_guarded
  | nop => exact .runPlain fun _ => .pure _ ()
  | aslReg | asrReg | lslReg | lsrReg | roxlReg | roxrReg | rolReg | rorReg =>
    exact .runPlain fun _ => shiftReg_user _ _ _ _
  | aslMem | asrMem | lslMem | lsrMem | roxlMem | roxrMem | rolMem | rorMem =>
    exact .runPlain fun _ => shiftMem_user _ _
  | andiToCcr | eoriToCcr | oriToCcr => exact .runPlain fun _ => updateCcr_user _ _
  | moveToCcr => exact execMoveToCcr_guarded _
  | moveFromSr => exact execMoveFromSr_guarded _
  | andiToSr | eoriToSr | oriToSr | moveToSr | moveToUsp | moveFromUsp | reset | rte | stop => exact .privileged _
  | chk => exact execChk_guarded _ _
  | trapv => exact execTrapv_guarded
  | trap => exact .ending (.trap _)
  | illegal4AFC | illegal4AFA | illegal4AFB => exact .ending (.notExecuted 4)
  | lineA => exact .ending (.notExecuted 10)
  | lineF => exact .ending (.notExecuted 11)

/-- Settles O49. -/
theorem userStateKept : Obligations.UserStateKept := by
  intro i s t hs ht hsuper hn
  obtain ⟨htrace, hmask, hframes, hvector⟩ := exec_guarded i s t hs ht hsuper hn
  exact ⟨htrace, hmask, hframes, hvector⟩

end Sys2Proof.Machine
end
